-- ==== Sys2Proof/Word.lean ====
section
/-! DEFINITION. The word types of HTB and their plainest arithmetic (00_scope.md R7, R9). -/

namespace Sys2Proof

/-- A command word of the command port, 64 bits (30_encoding.md R90). -/
abbrev CmdWord := BitVec 64

/-- A symbol operand, SIN item or leaf value, `W + 1 = 9` bits (00_scope.md R7, 20_memory.md R60). -/
abbrev SymVal := BitVec 9

/-- A node index, `IDX_W = 10` bits (00_scope.md R7). -/
abbrev Idx := BitVec 10

/-- A frequency count, `COUNT_W = 32` bits, unsigned (00_scope.md R7). -/
abbrev Count := BitVec 32

/-- A node weight, `WEIGHT_W = 41` bits, unsigned (00_scope.md R7). -/
abbrev Weight := BitVec 41

/-- A field of `BITS_PER_INT = 32` bits of the wire format (00_scope.md R7). -/
abbrev Word32 := BitVec 32

/-- A 64-bit register or result (00_scope.md R7). -/
abbrev Word64 := BitVec 64

/-- A bit string: the first element is the first bit in stream order (00_scope.md R9, 20_memory.md R67). -/
abbrev Bits := List Bool

end Sys2Proof
end

