-- ==== Sys2Proof/Syntax.lean ====
section
/-! DEFINITION. The instructions of HTB: the 18 commands of 30_encoding.md R92 and the 6 wire-format rows of
spec/opcode_table.json (R98, R103), with their mnemonics, their assembler text (R106) and the pseudo-commands (R107). -/

namespace Sys2Proof

/-- One constructor per row of spec/opcode_table.json. Operands are the fields of 30_encoding.md R91 as they stand. -/
inductive Instr where
  /-- CLR (R122). -/
  | clr
  /-- RDREG num (R123). -/
  | rdreg (num : BitVec 10)
  /-- QINS v, sym, weight (R132): `v` false is the empty node. -/
  | qins (v : Bool) (sym : SymVal) (weight : Weight)
  /-- QREM (R134). -/
  | qrem
  /-- QPEEK (R135). -/
  | qpeek
  /-- QSIZE (R136). -/
  | qsize
  /-- FACC (R151). -/
  | facc
  /-- QLOAD (R153). -/
  | qload
  /-- FSET sym, count (R154). -/
  | fset (sym : SymVal) (count : Count)
  /-- FGET sym (R155). -/
  | fget (sym : SymVal)
  /-- BUILD (R172). -/
  | build
  /-- NGET num (R176). -/
  | nget (num : Idx)
  /-- PGET sym (R177). -/
  | pget (sym : SymVal)
  /-- WTREE (R192). -/
  | wtree
  /-- RTREE (R194). -/
  | rtree
  /-- PREP hdr (R211): false is the frequency table, true the serialized tree. -/
  | prep (hdr : Bool)
  /-- EMIT force (R215): true overrides the decline rule. -/
  | emit (force : Bool)
  /-- DECODE (R230). -/
  | decode
  /-- WIRE.MAGIC, the first field of a compressed stream (R98 row 1). -/
  | wireMagic (m : Word32)
  /-- WIRE.SELECTOR, the second field (R98 row 2). -/
  | wireSelector (h : Word32)
  /-- WIRE.COUNT, one count of the frequency table (R98 row 3a). The symbol is not in the field's bits: it is the
  field's place in the table, "One count per symbol, in symbol order". -/
  | wireCount (sym : BitVec 8) (c : Count)
  /-- WIRE.TREESIZE (R98 row 3b). -/
  | wireTreeSize (t : Word32)
  /-- WIRE.TREE.LEAF, a leaf of the tree payload (R103). -/
  | wireTreeLeaf (s : SymVal)
  /-- WIRE.TREE.INTERNAL, an internal node of the tree payload (R103). -/
  | wireTreeInternal
  deriving DecidableEq, Repr

/-- The mnemonic of an instruction's row in spec/opcode_table.json (30_encoding.md R92, R98, R103). -/
def Instr.mnemonic : Instr → String
  | .clr => "CLR"
  | .rdreg _ => "RDREG"
  | .qins _ _ _ => "QINS"
  | .qrem => "QREM"
  | .qpeek => "QPEEK"
  | .qsize => "QSIZE"
  | .facc => "FACC"
  | .qload => "QLOAD"
  | .fset _ _ => "FSET"
  | .fget _ => "FGET"
  | .build => "BUILD"
  | .nget _ => "NGET"
  | .pget _ => "PGET"
  | .wtree => "WTREE"
  | .rtree => "RTREE"
  | .prep _ => "PREP"
  | .emit _ => "EMIT"
  | .decode => "DECODE"
  | .wireMagic _ => "WIRE.MAGIC"
  | .wireSelector _ => "WIRE.SELECTOR"
  | .wireCount _ _ => "WIRE.COUNT"
  | .wireTreeSize _ => "WIRE.TREESIZE"
  | .wireTreeLeaf _ => "WIRE.TREE.LEAF"
  | .wireTreeInternal => "WIRE.TREE.INTERNAL"

/-- Is the instruction one of the 18 commands of the command port (R92)? The other six are fields of the compressed
stream (R98, R103). -/
def Instr.isCommand : Instr → Bool
  | .wireMagic _ | .wireSelector _ | .wireCount _ _ | .wireTreeSize _ | .wireTreeLeaf _ | .wireTreeInternal => false
  | .clr | .rdreg _ | .qins _ _ _ | .qrem | .qpeek | .qsize | .facc | .qload | .fset _ _ | .fget _ | .build
  | .nget _ | .pget _ | .wtree | .rtree | .prep _ | .emit _ | .decode => true

/-- The symbol PSEUDO_EOF, written `PEOF` in assembler text (30_encoding.md R106, 00_scope.md R7). -/
def PEOF : SymVal := 256#9

/-- The assembler text of a symbol operand: `PEOF`, or its number in decimal (R106). -/
def symText (s : SymVal) : String :=
  if s = PEOF then "PEOF" else toString s.toNat

/-- The assembler text of a command (R106). `QINS.NULL` is the pseudo-command for the null insert (R107) and stands
for every `QINS` with `v` false, whose other fields are ignored (R132). A wire-format field has no assembler text. -/
def Instr.asm : Instr → Option String
  | .rdreg num => some ("RDREG " ++ toString num.toNat)
  | .qins true sym weight => some ("QINS " ++ symText sym ++ ", " ++ toString weight.toNat)
  | .qins false _ _ => some "QINS.NULL"
  | .fset sym count => some ("FSET " ++ symText sym ++ ", " ++ toString count.toNat)
  | .fget sym => some ("FGET " ++ symText sym)
  | .nget num => some ("NGET " ++ toString num.toNat)
  | .pget sym => some ("PGET " ++ symText sym)
  | .prep false => some "PREP COUNTS"
  | .prep true => some "PREP TREE"
  | .emit false => some "EMIT"
  | .emit true => some "EMIT FORCE"
  | .clr => some "CLR"
  | .qrem => some "QREM"
  | .qpeek => some "QPEEK"
  | .qsize => some "QSIZE"
  | .facc => some "FACC"
  | .qload => some "QLOAD"
  | .build => some "BUILD"
  | .wtree => some "WTREE"
  | .rtree => some "RTREE"
  | .decode => some "DECODE"
  | .wireMagic _ | .wireSelector _ | .wireCount _ _ | .wireTreeSize _ | .wireTreeLeaf _ | .wireTreeInternal => none

/-- The pseudo-command `QINS.NULL`: `v = 0` and all other fields 0 (R107). -/
def Instr.qinsNull : Instr := .qins false 0#9 0#41

/-- The pseudo-command `RDSTATUS` (R107). -/
def Instr.rdstatus : Instr := .rdreg 0#10

/-- The pseudo-command `COMPRESS hdr` or `COMPRESS hdr, FORCE`: PREP, then EMIT (R107). -/
def Instr.compress (hdr force : Bool) : List Instr := [.prep hdr, .emit force]

end Sys2Proof
end

