-- ==== Sys2Proof/WellFormed.lean ====
section
/-! DEFINITION. Which instructions are legal as the spec writes them: the operand ranges of 30_encoding.md R93 and
the values of the wire format that R108 does not call illegal whatever the build constants are. -/

namespace Sys2Proof

/-- R93: the register numbers of RDREG are 0 to 12; the others are reserved. -/
def legalReg (num : BitVec 10) : Bool := decide (num.toNat ≤ 12)

/-- R93: a symbol is 0 to 256. -/
def legalSym (s : SymVal) : Bool := decide (s.toNat ≤ 256)

/-- R93: FREQ has an entry for 0 to 255 only. -/
def legalWord (s : SymVal) : Bool := decide (s.toNat ≤ 255)

/-- The operands have a legal value (R93; for a leaf of the tree payload, R108). An instruction that is not well
formed still decodes and runs: it raises the fault R93 or R108 names. -/
def Instr.WellFormed : Instr → Bool
  | .rdreg num => legalReg num
  | .qins v sym _ => v && legalSym sym
  | .fset sym _ => legalWord sym
  | .fget sym => legalWord sym
  | .pget sym => legalSym sym
  | .wireTreeLeaf s => legalSym s
  | .nget _ | .prep _ | .emit _ | .clr | .qrem | .qpeek | .qsize | .facc | .qload | .build | .wtree | .rtree
  | .decode | .wireMagic _ | .wireSelector _ | .wireCount _ _ | .wireTreeSize _ | .wireTreeInternal => true

end Sys2Proof
end

