-- ==== Sys2Proof/Decode.lean ====
section
/-! DEFINITION. The decoder of command words (30_encoding.md R90 to R94) and of wire-format fields (R98, R103), total
on any bits, rejecting by name; and, after them, the encoders. -/

namespace Sys2Proof

/-- Why a command word is illegal (R94). Both raise IllegalCommand. -/
inductive Reject where
  /-- The opcode is in no row of R92. -/
  | reservedOpcode
  /-- A reserved bit of the opcode's format is 1 (R90). -/
  | reservedBit
  deriving DecidableEq, Repr

/-- The six formats of R91. -/
inductive Format where
  | n | r | s | c | q | f
  deriving DecidableEq, Repr

/-- The 18 opcodes of R92, without operands. -/
inductive Opcode where
  | clr | rdreg | qins | qrem | qpeek | qsize | facc | qload | fset | fget | build | nget | pget | wtree | rtree
  | prep | emit | decode
  deriving DecidableEq, Repr

/-- The opcode map, R92: bits 63:56. Every other value is reserved. -/
def opcodeOf (b : BitVec 8) : Option Opcode :=
  match b.toNat with
  | 0x01 => some .clr
  | 0x02 => some .rdreg
  | 0x10 => some .qins
  | 0x11 => some .qrem
  | 0x12 => some .qpeek
  | 0x13 => some .qsize
  | 0x20 => some .facc
  | 0x21 => some .qload
  | 0x22 => some .fset
  | 0x23 => some .fget
  | 0x30 => some .build
  | 0x31 => some .nget
  | 0x32 => some .pget
  | 0x40 => some .wtree
  | 0x41 => some .rtree
  | 0x50 => some .prep
  | 0x51 => some .emit
  | 0x60 => some .decode
  | _ => none

/-- The format column of R92. -/
def Opcode.format : Opcode → Format
  | .rdreg | .nget => .r
  | .qins => .q
  | .fset => .c
  | .fget | .pget => .s
  | .prep | .emit => .f
  | .clr | .qrem | .qpeek | .qsize | .facc | .qload | .build | .wtree | .rtree | .decode => .n

/-- The reserved bits of a format, R91: the lowest one and how many there are (each format has one run of them). -/
def Format.reserved : Format → Nat × Nat
  | .n => (0, 56)
  | .r => (10, 46)
  | .s => (9, 47)
  | .c => (41, 15)
  | .q => (50, 5)
  | .f => (1, 55)

/-- Bits `lo + len - 1` down to `lo` of a command word (00_scope.md R9). -/
def field (w : CmdWord) (lo len : Nat) : BitVec len := w.extractLsb' lo len

/-- A one-bit field as a truth value. -/
def flagField (w : CmdWord) (bit : Nat) : Bool := w.getLsbD bit

/-- The operand fields of R91. "Every field is an unsigned number taken as it stands". -/
def operands (op : Opcode) (w : CmdWord) : Instr :=
  match op with
  | .clr => .clr
  | .rdreg => .rdreg (field w 0 10)
  | .qins => .qins (flagField w 55) (field w 41 9) (field w 0 41)
  | .qrem => .qrem
  | .qpeek => .qpeek
  | .qsize => .qsize
  | .facc => .facc
  | .qload => .qload
  | .fset => .fset (field w 32 9) (field w 0 32)
  | .fget => .fget (field w 0 9)
  | .build => .build
  | .nget => .nget (field w 0 10)
  | .pget => .pget (field w 0 9)
  | .wtree => .wtree
  | .rtree => .rtree
  | .prep => .prep (flagField w 0)
  | .emit => .emit (flagField w 0)
  | .decode => .decode

/-- The decoder of the command port (R90, R94), total on every 64-bit word. -/
def decode (w : CmdWord) : Except Reject Instr :=
  match opcodeOf (field w 56 8) with
  | none => .error .reservedOpcode
  | some op =>
    if field w op.format.reserved.1 op.format.reserved.2 = 0 then .ok (operands op w) else .error .reservedBit

/-- The value of a bit string, most significant bit first (20_memory.md R67). -/
def bitsToNat (bs : Bits) : Nat := bs.foldl (fun v b => 2 * v + b.toNat) 0

/-- The `n` low bits of `v`, most significant first (20_memory.md R63, R67). -/
def natToBits : Nat → Nat → Bits
  | 0, _ => []
  | n + 1, v => v.testBit n :: natToBits n v

/-- The bits of an `n`-bit value, most significant first. -/
def bitsOf {n : Nat} (v : BitVec n) : Bits := natToBits n v.toNat

/-- Which field of the compressed stream stands at the head of it: R98 gives the order, R103 the tree payload. -/
inductive WireSlot where
  | magic
  | selector
  | count (sym : BitVec 8)
  | treeSize
  | treeNode
  deriving DecidableEq, Repr

/-- Take one field of `n` bits, most significant bit first; none when fewer bits are left. -/
def takeField (n : Nat) (bs : Bits) : Option (BitVec n × Bits) :=
  if n ≤ bs.length then some (BitVec.ofNat n (bitsToNat (bs.take n)), bs.drop n) else none

/-- The field of a compressed stream at the head of `bs`, with the bits after it; none when the stream ends inside
the field. Which field it is follows from its place in the stream (R98); a node of the tree payload shows by its
tag bit whether it is a leaf (R103). -/
def decodeField (slot : WireSlot) (bs : Bits) : Option (Instr × Bits) :=
  match slot with
  | .magic => (takeField 32 bs).map fun (m, rest) => (.wireMagic m, rest)
  | .selector => (takeField 32 bs).map fun (h, rest) => (.wireSelector h, rest)
  | .count sym => (takeField 32 bs).map fun (c, rest) => (.wireCount sym c, rest)
  | .treeSize => (takeField 32 bs).map fun (t, rest) => (.wireTreeSize t, rest)
  | .treeNode =>
    match bs with
    | [] => none
    | false :: rest => some (.wireTreeInternal, rest)
    | true :: rest => (takeField 9 rest).map fun (s, rest') => (.wireTreeLeaf s, rest')

/-- The place in the stream at which a wire-format row is read; none for a command. -/
def Instr.slot : Instr → Option WireSlot
  | .wireMagic _ => some .magic
  | .wireSelector _ => some .selector
  | .wireCount sym _ => some (.count sym)
  | .wireTreeSize _ => some .treeSize
  | .wireTreeLeaf _ => some .treeNode
  | .wireTreeInternal => some .treeNode
  | .clr | .rdreg _ | .qins _ _ _ | .qrem | .qpeek | .qsize | .facc | .qload | .fset _ _ | .fget _ | .build
  | .nget _ | .pget _ | .wtree | .rtree | .prep _ | .emit _ | .decode => none

/-- The numbers spec/opcode_table.json gives its rows' bits: a command row has 64; the wire-format rows are read by
what their bits allow (log 8). A row of 32 bits whose value is the default MAGIC, or a default selector, is that
field; any other 32 bits are read as the first count of a frequency table. A leaf has 10 bits (16 in whole bytes), an
internal node 1 (8 in whole bytes). -/
def decodeTableWord (nbits w : Nat) : Option Instr :=
  if nbits = 64 then
    match decode (BitVec.ofNat 64 w) with
    | .ok i => some i
    | .error _ => none
  else if nbits = 32 then
    if w = 0xFACE8200 then some (.wireMagic (BitVec.ofNat 32 w))
    else if w = 0xFACE8201 ∨ w = 0xFACE8202 then some (.wireSelector (BitVec.ofNat 32 w))
    else (decodeField (.count 0) (natToBits 32 w)).map Prod.fst
  else if nbits = 16 ∨ nbits = 10 then
    match decodeField .treeNode (natToBits 10 w) with
    | some (.wireTreeLeaf s, _) => some (.wireTreeLeaf s)
    | _ => none
  else if nbits = 8 ∨ nbits = 1 then
    match decodeField .treeNode (natToBits 1 w) with
    | some (.wireTreeInternal, _) => some .wireTreeInternal
    | _ => none
  else none

/-- The opcode of a command (R92). -/
def Opcode.code : Opcode → Nat
  | .clr => 0x01
  | .rdreg => 0x02
  | .qins => 0x10
  | .qrem => 0x11
  | .qpeek => 0x12
  | .qsize => 0x13
  | .facc => 0x20
  | .qload => 0x21
  | .fset => 0x22
  | .fget => 0x23
  | .build => 0x30
  | .nget => 0x31
  | .pget => 0x32
  | .wtree => 0x40
  | .rtree => 0x41
  | .prep => 0x50
  | .emit => 0x51
  | .decode => 0x60

/-- A command word from its opcode and the number its operand fields make (R91). -/
def commandWord (op : Opcode) (low : Nat) : CmdWord := BitVec.ofNat 64 (op.code * 2 ^ 56 + low)

/-- The command word of a command (R91, R92); none for a field of the compressed stream. -/
def encodeWord : Instr → Option CmdWord
  | .clr => some (commandWord .clr 0)
  | .rdreg num => some (commandWord .rdreg num.toNat)
  | .qins v sym weight => some (commandWord .qins (v.toNat * 2 ^ 55 + sym.toNat * 2 ^ 41 + weight.toNat))
  | .qrem => some (commandWord .qrem 0)
  | .qpeek => some (commandWord .qpeek 0)
  | .qsize => some (commandWord .qsize 0)
  | .facc => some (commandWord .facc 0)
  | .qload => some (commandWord .qload 0)
  | .fset sym count => some (commandWord .fset (sym.toNat * 2 ^ 32 + count.toNat))
  | .fget sym => some (commandWord .fget sym.toNat)
  | .build => some (commandWord .build 0)
  | .nget num => some (commandWord .nget num.toNat)
  | .pget sym => some (commandWord .pget sym.toNat)
  | .wtree => some (commandWord .wtree 0)
  | .rtree => some (commandWord .rtree 0)
  | .prep hdr => some (commandWord .prep hdr.toNat)
  | .emit force => some (commandWord .emit force.toNat)
  | .decode => some (commandWord .decode 0)
  | .wireMagic _ | .wireSelector _ | .wireCount _ _ | .wireTreeSize _ | .wireTreeLeaf _ | .wireTreeInternal => none

/-- The bits of a field of the compressed stream in stream order (R98, R103); none for a command. -/
def encodeField : Instr → Option Bits
  | .wireMagic m => some (bitsOf m)
  | .wireSelector h => some (bitsOf h)
  | .wireCount _ c => some (bitsOf c)
  | .wireTreeSize t => some (bitsOf t)
  | .wireTreeLeaf s => some (true :: bitsOf s)
  | .wireTreeInternal => some [false]
  | .clr | .rdreg _ | .qins _ _ _ | .qrem | .qpeek | .qsize | .facc | .qload | .fset _ _ | .fget _ | .build
  | .nget _ | .pget _ | .wtree | .rtree | .prep _ | .emit _ | .decode => none

/-- The encoder: the words of an instruction, a command's one word (R90) or the bits of a field of the compressed
stream (R98, R103), most significant bit first. -/
def encode (i : Instr) : Bits :=
  match encodeWord i with
  | some w => bitsOf w
  | none => (encodeField i).getD []

end Sys2Proof
end

