-- ==== Sys2Proof/Machine/Session.lean ====
section
/-! DEFINITION. The data types of HTB's state: nodes, the session registers and arrays, STATUS, the response
registers, the ports, the build constants and what the host does (10_state.md, 20_memory.md, 00_scope.md R7). -/

namespace Sys2Proof.Machine

/-- The node index that means "no node", `0x3FF` (00_scope.md R7). -/
def NIL : Idx := 0x3FF#10

/-- One entry of the arena NODE, as the sum type R41 asks for: a leaf has no children, an internal node no symbol. -/
inductive Node where
  | leaf (sym : SymVal) (weight : Weight)
  | internal (weight : Weight) (left right : Idx)
  deriving DecidableEq, Repr, Inhabited

/-- One entry of PATH (R45): none is `valid = 0`; a path is its bit string, first choice from the root first, so
`len` is its length and the bits past `len` do not exist. -/
abbrev PathEntry := Option Bits

/-- The registers and arrays of R20 that a fault leaves undefined (60_exceptions.md R255 (6)). NALLOC is the length of
`node` and QLEN the length of `q` (R49 allows it; log 2). -/
structure Session where
  /-- CUR, R25. -/
  cur : Idx
  /-- ROOT, R34. -/
  root : Idx
  /-- SIZE, R35. -/
  size : BitVec 10
  /-- NUMLEAF, R35. -/
  numleaf : BitVec 9
  /-- TREE_BITS, R36. -/
  treeBits : Word32
  /-- HDR_TREE_BITS, R36. -/
  hdrTreeBits : Word32
  /-- ORIG_BITS, R37. -/
  origBits : Word64
  /-- PROJ_BITS, R37. -/
  projBits : Word64
  /-- OUT_BITS, R37. -/
  outBits : Word64
  /-- SAVINGS, R38, two's complement. -/
  savings : Word64
  /-- FREQ, R40. -/
  freq : Vector Count 256
  /-- NODE below NALLOC, R41. -/
  node : List Node
  /-- Q below QLEN, front first, R44. -/
  q : List Idx
  /-- PATH, R45. -/
  path : Vector PathEntry 257
  deriving DecidableEq, Repr, Inhabited

/-- The registers and arrays of a fresh session (40_system_commands.md R120). -/
def Session.fresh : Session where
  cur := NIL
  root := NIL
  size := 0
  numleaf := 0
  treeBits := 0
  hdrTreeBits := 0
  origBits := 0
  projBits := 0
  outBits := 0
  savings := 0
  freq := Vector.replicate 256 0
  node := []
  q := []
  path := Vector.replicate 257 none

/-- NALLOC, 10 bits (R32). -/
def Session.nalloc (c : Session) : BitVec 10 := BitVec.ofNat 10 c.node.length

/-- QLEN, 9 bits (R33). -/
def Session.qlen (c : Session) : BitVec 9 := BitVec.ofNat 9 c.q.length

/-- The seven faults of 60_exceptions.md R250. -/
inductive FaultKind where
  | invalidArgument
  | preconditionViolation
  | notAHuffmanFile
  | corruptFormat
  | truncatedStream
  | capacityFault
  | illegalCommand
  deriving DecidableEq, Repr

/-- The decoder states of R24. The values 6 and 7 of the field do not exist here ("never taken"). -/
inductive DState where
  | idle
  | expectMagic
  | expectHeaderSelector
  | expectHeaderPayload
  | walking
  | done
  deriving DecidableEq, Repr

/-- STATUS, R23, field by field. The word software reads is `Status.word` (Machine/Flags.lean). -/
structure Status where
  /-- FAULT, bits 3:0, R26; none is 0. -/
  fault : Option FaultKind
  /-- PREPPED, bit 4, R27. -/
  prepped : Bool
  /-- DECLINED, bit 5, R28. -/
  declined : Bool
  /-- EMPTY, bit 6, R29. -/
  empty : Bool
  /-- TREE_VALID, bit 7, R30. -/
  treeValid : Bool
  /-- HDRSEL, bit 8, R31: false is the frequency table, true the serialized tree. -/
  hdrsel : Bool
  /-- DSTATE, bits 11:9, R24. -/
  dstate : DState
  deriving DecidableEq, Repr

/-- STATUS `0x0000` (R49). -/
def Status.fresh : Status where
  fault := none
  prepped := false
  declined := false
  empty := false
  treeValid := false
  hdrsel := false
  dstate := .idle

/-- The response registers, R21. -/
structure Response where
  rc : BitVec 4
  res0 : Word64
  res1 : Word64
  resPath : BitVec 256
  deriving DecidableEq, Repr

/-- The response registers at reset (R49). -/
def Response.zero : Response := ⟨0, 0, 0, 0⟩

/-- An input stream port (20_memory.md R60, R62): what the host still has to offer, whether it signals the end after
it (`sin_end`, `bin_end`), and whether HTB holds the port (R64). -/
structure InPort (α : Type) where
  items : List α
  ends : Bool
  held : Bool
  deriving DecidableEq, Repr

/-- An output stream port (R61, R63): what HTB has written so far, how many more items the host will take (none is no
limit, R286), and whether HTB holds the port (R64). -/
structure OutPort (α : Type) where
  sent : List α
  room : Option Nat
  held : Bool
  deriving DecidableEq, Repr

/-- The ports of R66 that hold something: the four streams, `busy` and `rsp_valid`. -/
structure Ports where
  sin : InPort SymVal
  sout : OutPort (BitVec 8)
  bin : InPort Bool
  bout : OutPort Bool
  busy : Bool
  rspValid : Bool
  deriving DecidableEq, Repr

/-- The ports after reset: nothing offered, all closed, not busy (R280, R281; log 4). -/
def Ports.quiet : Ports where
  sin := ⟨[], true, false⟩
  sout := ⟨[], none, false⟩
  bin := ⟨[], true, false⟩
  bout := ⟨[], none, false⟩
  busy := false
  rspValid := false

/-- The three OPEN parameters of 00_scope.md R7, fixed when the hardware is built. -/
structure BuildConsts where
  magic : Word32
  selCounts : Word32
  selTree : Word32
  deriving DecidableEq, Repr

/-- What the host presents with one command word: the streams it serves while the command runs (00_scope.md R16). -/
structure Offer where
  /-- The command word. -/
  word : CmdWord
  /-- The SIN items of the pass. -/
  sin : List SymVal
  /-- Does the host signal END after them (70_reset_and_hazards.md R286)? -/
  sinEnds : Bool
  /-- The bits on BIN. -/
  bin : Bits
  /-- Does the host signal the end after them? -/
  binEnds : Bool
  /-- How many words the host takes from SOUT; none is all of them. -/
  soutRoom : Option Nat
  /-- How many bits the host takes from BOUT; none is all of them. -/
  boutRoom : Option Nat
  deriving DecidableEq, Repr

/-- What the host does (R288): it gives a command, or asserts `rst` (R280). -/
inductive HostAct where
  | command (o : Offer)
  | reset
  deriving DecidableEq, Repr

end Sys2Proof.Machine
end

