-- ==== Sys2Proof/Config.lean ====
section
/-! DEFINITION. What the build of the hardware fixes (00_scope.md R6, R7) and the free values: what the spec leaves
undefined and the model therefore never chooses. -/

namespace Sys2Proof.Config

open Sys2Proof.Machine

/-- `W`, the bits of one word (R7). -/
def W : Nat := 8

/-- `ALPH_SIZE` (R7). -/
def ALPH_SIZE : Nat := 256

/-- `BITS_PER_INT` (R7). -/
def BITS_PER_INT : Nat := 32

/-- `QCAP`, the capacity of the ranked queue (R7). -/
def QCAP : Nat := 257

/-- `NODE_CAP`, the capacity of the arena (R7). -/
def NODE_CAP : Nat := 513

/-- PRESUMED (by the spec itself, 92_eei_decisions.md D4; log 1): the default values of the OPEN parameters. -/
def defaults : BuildConsts where
  magic := 0xFACE8200#32
  selCounts := 0xFACE8201#32
  selTree := 0xFACE8202#32

/-- The only constraint the rules place on the OPEN parameters (R7). -/
def legalBuild (b : BuildConsts) : Bool := b.selCounts != b.selTree

/-- Free value (log 3): "Every other register and every array holds an undefined value from now until the next CLR or
reset" (60_exceptions.md R255 (6)). The argument is `State.freeCtr`, so each fault leaves contents of its own. -/
opaque undefinedSession : Nat → Session

/-- Free value (log 12): OUT_BITS when its exact value no longer fits 64 bits, for which there is "no rule for wrap"
(10_state.md R48). The arguments are OUT_BITS before and the number of bits added. -/
opaque outBitsPastEnd : Word64 → Nat → Word64

end Sys2Proof.Config
end

