-- ==== Sys2Proof/Machine/State.lean ====
section
/-! DEFINITION. The state of HTB (10_state.md R20, 20_memory.md R66), what may stop the model, and the state after
reset (R49, 70_reset_and_hazards.md R280). -/

namespace Sys2Proof.Machine

/-- The whole state. `build` never changes; `host` is what the host will do next, oldest first; `freeCtr` counts the
undefined contents taken so far (the model's own field, log 3). -/
structure State where
  build : BuildConsts
  status : Status
  rsp : Response
  ses : Session
  io : Ports
  host : List HostAct
  freeCtr : Nat
  deriving DecidableEq, Repr

/-- What stops the machine. No rule of the spec does: its faults are recorded in STATUS and the machine goes on. Both
of these are the model's own, and no state reached from reset raises them (log 9, log 10). -/
inductive Fault where
  /-- Raised by a procedure that would read NODE at or above NALLOC or follow more than `NODE_CAP` edges, or PATH[256]
  with `valid = 0`: contents 10_state.md R49 leaves unspecified. Safe. -/
  | unreadableEntry
  /-- Raised by the walk of DECODE on a root that is a leaf other than PSEUDO_EOF, where the loop of
  46_stream_decoder.md R235 would emit one word for ever; R237 rejects such a root before the walk. Safe. -/
  | endlessWalk
  deriving DecidableEq, Repr

/-- Why an instruction has no meaning. -/
inductive Refusal where
  /-- Raised by an arm of `exec` whose instruction is not modelled yet; no arm does. Safe. -/
  | notModelled (mnemonic : String)
  deriving DecidableEq, Repr

/-- The state after reset: R49, R280, R281. The build constants are the spec's defaults (log 1), the host has given
nothing yet (log 4), and no undefined contents have been taken (log 3). -/
def State.reset : State where
  build := Config.defaults
  status := Status.fresh
  rsp := Response.zero
  ses := Session.fresh
  io := Ports.quiet
  host := []
  freeCtr := 0

end Sys2Proof.Machine
end

