-- ==== Sys2Proof/Machine/Flags.lean ====
section
/-! DEFINITION. STATUS: the codes of its fields, the word it reads as, and the one way each flag is written
(10_state.md R23 to R31, 60_exceptions.md R250). -/

namespace Sys2Proof.Machine

/-- The code of a fault, R250. -/
def FaultKind.code : FaultKind → BitVec 4
  | .invalidArgument => 1
  | .preconditionViolation => 2
  | .notAHuffmanFile => 3
  | .corruptFormat => 4
  | .truncatedStream => 5
  | .capacityFault => 6
  | .illegalCommand => 7

/-- STATUS.FAULT, R26: 0 is no fault. -/
def faultField : Option FaultKind → BitVec 4
  | none => 0
  | some f => f.code

/-- STATUS.DSTATE, R24. -/
def DState.code : DState → BitVec 3
  | .idle => 0
  | .expectMagic => 1
  | .expectHeaderSelector => 2
  | .expectHeaderPayload => 3
  | .walking => 4
  | .done => 5

/-- STATUS as one 16-bit word, R23. Bits 15:12 read as 0. -/
def Status.word (st : Status) : BitVec 16 :=
  BitVec.ofNat 16 ((faultField st.fault).toNat + st.prepped.toNat * 2 ^ 4 + st.declined.toNat * 2 ^ 5
    + st.empty.toNat * 2 ^ 6 + st.treeValid.toNat * 2 ^ 7 + st.hdrsel.toNat * 2 ^ 8 + st.dstate.code.toNat * 2 ^ 9)

/-- The output port `fault`: 1 while FAULT is not 0 (20_memory.md R66). -/
def State.faultPort (s : State) : Bool := s.status.fault.isSome

/-- The output port `cmd_ready` (R65, R66). -/
def State.cmdReady (s : State) : Bool := !s.io.busy

/-- Write PREPPED (R27). -/
def State.setPrepped (b : Bool) (s : State) : State := { s with status := { s.status with prepped := b } }

/-- Write DECLINED (R28). -/
def State.setDeclined (b : Bool) (s : State) : State := { s with status := { s.status with declined := b } }

/-- Write EMPTY (R29). -/
def State.setEmpty (b : Bool) (s : State) : State := { s with status := { s.status with empty := b } }

/-- Write TREE_VALID (R30). -/
def State.setTreeValid (b : Bool) (s : State) : State := { s with status := { s.status with treeValid := b } }

/-- Write HDRSEL (R31). -/
def State.setHdrsel (b : Bool) (s : State) : State := { s with status := { s.status with hdrsel := b } }

/-- Write DSTATE (R24). -/
def State.setDstate (d : DState) (s : State) : State := { s with status := { s.status with dstate := d } }

end Sys2Proof.Machine
end

