-- ==== Sys2Proof/Machine/Ops.lean ====
section
/-! DEFINITION. The shared operations: how a procedure of the rules ends, taking a fault (60_exceptions.md R255) and
leaving the faulted condition (R258), the front end of every command (40_system_commands.md R121), session
initialisation (R120), and the accessors of the session's registers and arrays. -/

namespace Sys2Proof.Machine

/-- What a command or a step ends in. -/
abbrev Result := Host.Outcome State Fault Refusal

/-- How a procedure of the rules ends (00_scope.md R12): it goes on with a value; it raises a fault; it waits for a
stream the host does not serve (70_reset_and_hazards.md R286); or it meets contents the spec leaves unspecified. -/
inductive Res (α : Type) where
  | ok (a : α) (s : State)
  | raise (f : FaultKind) (s : State)
  | hang (s : State)
  | stuck (r : Fault)
  deriving DecidableEq, Repr

/-- Sequencing (00_scope.md R13): what follows runs only when the procedure goes on. -/
def Res.andThen {α β : Type} (r : Res α) (k : α → State → Res β) : Res β :=
  match r with
  | .ok a s => k a s
  | .raise f s => .raise f s
  | .hang s => .hang s
  | .stuck r => .stuck r

/-- Give the response (10_state.md R21, 20_memory.md R66): the response registers are written and the command is
over. -/
def respond (r : Response) (s : State) : State :=
  { s with rsp := r, io := { s.io with busy := false, rspValid := true } }

/-- Release every stream port (20_memory.md R64). -/
def releaseAll (s : State) : State :=
  { s with io := { s.io with
      sin := { s.io.sin with held := false }, sout := { s.io.sout with held := false },
      bin := { s.io.bin with held := false }, bout := { s.io.bout with held := false } } }

/-- TAKING A FAULT, R255: every port is released; FAULT holds the code; RC is 8 + code and the other response registers
0; PREPPED and TREE_VALID are 0; DSTATE, HDRSEL, EMPTY and DECLINED keep their values; every other register and array
is undefined, a free value (log 3). Control goes nowhere: the machine is ready for the next command. -/
def takeFault (f : FaultKind) (s : State) : State :=
  respond ⟨8 + f.code, 0, 0, 0⟩
    { releaseAll s with
      status := { s.status with fault := some f, prepped := false, treeValid := false }
      ses := Config.undefinedSession s.freeCtr
      freeCtr := s.freeCtr + 1 }

/-- A command that waits for ever: `busy` stays 1 and no response is given; only `rst` ends it (R280, R286; log 6). -/
def waitForEver (s : State) : State :=
  { s with io := { s.io with busy := true, rspValid := false } }

/-- The end of a command (R12). -/
def finish (r : Res Response) : Result :=
  match r with
  | .ok a s => .next (respond a s)
  | .raise f s => .next (takeFault f s)
  | .hang s => .next (waitForEver s)
  | .stuck f => .fault f

/-- The refusal of a faulted session (R256, R121): RC 3, the other response registers 0, nothing else changes. -/
def refuse (s : State) : State := respond ⟨3, 0, 0, 0⟩ s

/-- RES0, RES1 and RES_PATH are 0 when a command's rule starts (R121). -/
def clearResults (s : State) : State := { s with rsp := ⟨s.rsp.rc, 0, 0, 0⟩ }

/-- The front end of every command but CLR (R121): a faulted session refuses; otherwise the command's rule runs. -/
def frontEnd (run : State → Res Response) (s : State) : Result :=
  match s.status.fault with
  | some _ => .next (refuse s)
  | none => finish (run (clearResults s))

/-- The completion codes that are not faults (30_encoding.md R96). -/
def RC_OK : BitVec 4 := 0
/-- RC EMPTY (R96). -/
def RC_EMPTY : BitVec 4 := 1
/-- RC DECLINED (R96). -/
def RC_DECLINED : BitVec 4 := 2

/-- A normal end: RC 0 with two results (R96, R21). -/
def okReply (res0 res1 : Word64) : Response := ⟨RC_OK, res0, res1, 0⟩

/-- SessionInit (R120): every session register and array, and every STATUS field but FAULT. -/
def sessionInit (s : State) : State :=
  { s with ses := Session.fresh, status := { Status.fresh with fault := s.status.fault } }

/-- LEAVING THE FAULTED CONDITION (R258), what CLR does (R122): a fresh session, FAULT 0. Nothing is restored. -/
def clearFault (s : State) : State :=
  let s := sessionInit s
  { s with status := { s.status with fault := none } }

/-- Write CUR. -/
def State.setCur (i : Idx) (s : State) : State := { s with ses := { s.ses with cur := i } }

/-- CUR when the arena has been loaded anew with `nalloc` entries. DEDUCED (log 15) from 10_state.md R22 and R25: CUR
"only holds NIL or an index below NALLOC", so it keeps its value where it still is such an index and is NIL otherwise. -/
def keptCur (cur : Idx) (nalloc : Nat) : Idx := if cur.toNat < nalloc then cur else NIL

/-- The end of a command that has loaded the arena anew: QLOAD, RTREE (R22; log 15). -/
def settleCur (s : State) : State := s.setCur (keptCur s.ses.cur s.ses.node.length)

/-- Write ROOT. -/
def State.setRoot (i : Idx) (s : State) : State := { s with ses := { s.ses with root := i } }

/-- Write NODE below NALLOC, and with it NALLOC. -/
def State.setNode (n : List Node) (s : State) : State := { s with ses := { s.ses with node := n } }

/-- Write Q below QLEN, and with it QLEN. -/
def State.setQ (q : List Idx) (s : State) : State := { s with ses := { s.ses with q := q } }

/-- Write the metrics of the tree: SIZE, NUMLEAF, TREE_BITS (R35, R36). -/
def State.setMetrics (size : BitVec 10) (numleaf : BitVec 9) (treeBits : Word32) (s : State) : State :=
  { s with ses := { s.ses with size := size, numleaf := numleaf, treeBits := treeBits } }

/-- Write PATH. -/
def State.setPath (p : Vector PathEntry 257) (s : State) : State := { s with ses := { s.ses with path := p } }

/-- Write HDR_TREE_BITS. -/
def State.setHdrTreeBits (t : Word32) (s : State) : State := { s with ses := { s.ses with hdrTreeBits := t } }

/-- Write OUT_BITS. -/
def State.setOutBits (n : Word64) (s : State) : State := { s with ses := { s.ses with outBits := n } }

/-- Write the results of a pre-pass: ORIG_BITS, PROJ_BITS, SAVINGS (R37, R38). -/
def State.setPrepass (orig proj savings : Word64) (s : State) : State :=
  { s with ses := { s.ses with origBits := orig, projBits := proj, savings := savings } }

/-- FREQ[k] (R40). -/
def State.freqAt (s : State) (k : Nat) : Count := (s.ses.freq[k]?).getD 0

/-- FREQ[k] <- c (R40). -/
def State.setFreq (k : Nat) (c : Count) (s : State) : State :=
  { s with ses := { s.ses with freq := s.ses.freq.setIfInBounds k c } }

/-- NODE[i], none at and above NALLOC (R32). -/
def State.nodeAt (s : State) (i : Idx) : Option Node := s.ses.node[i.toNat]?

/-- PATH[k] (R45). -/
def State.pathAt (s : State) (k : Nat) : PathEntry := (s.ses.path[k]?).getD none

/-- All `valid` bits of PATH are 0 (R45). -/
def noPaths : Vector PathEntry 257 := Vector.replicate 257 none

/-- NODE[i].weight (R41). -/
def Node.weight : Node → Weight
  | .leaf _ w => w
  | .internal w _ _ => w

/-- The index the next allocated entry of NODE gets (R42). -/
def State.nextIdx (s : State) : Idx := BitVec.ofNat 10 s.ses.node.length

/-- AllocLeaf and AllocInternal (R42): a full arena raises CapacityFault; the entry is written at NALLOC. -/
def alloc (n : Node) (s : State) : Res Idx :=
  if Config.NODE_CAP ≤ s.ses.node.length then .raise .capacityFault s
  else .ok s.nextIdx (s.setNode (s.ses.node ++ [n]))

end Sys2Proof.Machine
end

