-- ==== Sys2Proof/Machine/Operands.lean ====
section
/-! DEFINITION. The operand checks of 30_encoding.md R93 and the forms in which results are returned: the register a
number names (10_state.md R39), the node image (30_encoding.md R97), the image of a path (10_state.md R45,
43_tree_builder.md R177). -/

namespace Sys2Proof.Machine

/-- PSEUDO_EOF (00_scope.md R7). -/
def pseudoEof : SymVal := 256#9

/-- R93: 257..511 is no symbol. -/
def isSymbol (s : SymVal) : Bool := decide (s.toNat ≤ 256)

/-- R93: FREQ has entries 0..255. -/
def isDataSymbol (s : SymVal) : Bool := decide (s.toNat ≤ 255)

/-- The control registers by number, zero-extended to 64 bits (R39); none for the reserved numbers. -/
def readReg (s : State) (num : BitVec 10) : Option Word64 :=
  match num.toNat with
  | 0 => some (s.status.word.setWidth 64)
  | 1 => some (s.ses.nalloc.setWidth 64)
  | 2 => some (s.ses.qlen.setWidth 64)
  | 3 => some (s.ses.root.setWidth 64)
  | 4 => some (s.ses.cur.setWidth 64)
  | 5 => some (s.ses.size.setWidth 64)
  | 6 => some (s.ses.numleaf.setWidth 64)
  | 7 => some (s.ses.treeBits.setWidth 64)
  | 8 => some (s.ses.hdrTreeBits.setWidth 64)
  | 9 => some s.ses.origBits
  | 10 => some s.ses.projBits
  | 11 => some s.ses.savings
  | 12 => some s.ses.outBits
  | _ => none

/-- RES0 of NodeImage(i), R97: weight 40:0, sym 49:41, leaf 50, present 51. The sym of an internal node is 0 (R41). -/
def nodeRes0 : Node → Word64
  | .leaf sym w => BitVec.ofNat 64 (w.toNat + sym.toNat * 2 ^ 41 + 2 ^ 50 + 2 ^ 51)
  | .internal w _ _ => BitVec.ofNat 64 (w.toNat + 2 ^ 51)

/-- RES1 of NodeImage(i), R97: left 9:0, right 19:10, i 29:20. The children of a leaf are NIL (R41). -/
def nodeRes1 (i : Idx) : Node → Word64
  | .leaf _ _ => BitVec.ofNat 64 (NIL.toNat + NIL.toNat * 2 ^ 10 + i.toNat * 2 ^ 20)
  | .internal _ l r => BitVec.ofNat 64 (l.toNat + r.toNat * 2 ^ 10 + i.toNat * 2 ^ 20)

/-- The response that holds NodeImage(i), or NodeImage(NIL) when no node is given (R97). -/
def nodeReply (rc : BitVec 4) (i : Idx) : Option Node → Response
  | some n => ⟨rc, nodeRes0 n, nodeRes1 i n, 0⟩
  | none => ⟨rc, 0, 0x3FFFFFFF, 0⟩

/-- The 256 `bits` of a PATH entry, R45: bit `255 - k` is the k-th choice from the root, the bits past `len` are 0. -/
def pathImage (p : Bits) : BitVec 256 := BitVec.ofNat 256 (bitsToNat p * 2 ^ (256 - p.length))

/-- What PGET returns for an entry (R177): bit 9 of RES0 is `valid`, bits 8:0 `len`. -/
def pathReply : PathEntry → Response
  | some p => ⟨RC_OK, BitVec.ofNat 64 (2 ^ 9 + p.length), 0, pathImage p⟩
  | none => ⟨RC_OK, 0, 0, 0⟩

end Sys2Proof.Machine
end

