-- ==== Sys2Proof/Machine/Streams.lean ====
section
/-! DEFINITION. The stream primitives (20_memory.md R60 to R64, R67). -/

namespace Sys2Proof.Machine

/-- Acquire(SIN), R64. -/
def acquireSin (s : State) : State := { s with io := { s.io with sin := { s.io.sin with held := true } } }
/-- Release(SIN), R64. -/
def releaseSin (s : State) : State := { s with io := { s.io with sin := { s.io.sin with held := false } } }
/-- Acquire(SOUT), R64. -/
def acquireSout (s : State) : State := { s with io := { s.io with sout := { s.io.sout with held := true } } }
/-- Release(SOUT), R64. -/
def releaseSout (s : State) : State := { s with io := { s.io with sout := { s.io.sout with held := false } } }
/-- Acquire(BIN), R64. -/
def acquireBin (s : State) : State := { s with io := { s.io with bin := { s.io.bin with held := true } } }
/-- Release(BIN), R64. -/
def releaseBin (s : State) : State := { s with io := { s.io with bin := { s.io.bin with held := false } } }
/-- Acquire(BOUT), R64. -/
def acquireBout (s : State) : State := { s with io := { s.io with bout := { s.io.bout with held := true } } }
/-- Release(BOUT), R64. -/
def releaseBout (s : State) : State := { s with io := { s.io with bout := { s.io.bout with held := false } } }

/-- What is left of SIN after items have been taken (R60). -/
def State.setSin (items : List SymVal) (s : State) : State :=
  { s with io := { s.io with sin := { s.io.sin with items := items } } }

/-- What is left of BIN after bits have been taken (R62). -/
def State.setBin (items : Bits) (s : State) : State :=
  { s with io := { s.io with bin := { s.io.bin with items := items } } }

/-- What ReadBits finds on BIN (R62): a value; `SHORT`, the end; or nothing, ever (70_reset_and_hazards.md R286). -/
inductive Got (α : Type) where
  | got (a : α) (rest : Bits)
  | short
  | starved
  deriving DecidableEq, Repr

/-- ReadBits(n) on the bits the host still offers (R62): the first bit read is the most significant. When fewer are
left all of them are taken, and it is `SHORT` if the host signals the end. -/
def takeBits (n : Nat) (ends : Bool) (bs : Bits) : Got (BitVec n) :=
  match takeField n bs with
  | some (v, rest) => .got v rest
  | none => if ends then .short else .starved

/-- ReadBits(n) from BIN, raising `onShort` on a short read (60_exceptions.md R261). -/
def readBits (n : Nat) (onShort : FaultKind) (s : State) : Res (BitVec n) :=
  match takeBits n s.io.bin.ends s.io.bin.items with
  | .got v rest => .ok v (s.setBin rest)
  | .short => .raise onShort (s.setBin [])
  | .starved => .hang (s.setBin [])

/-- OUT_BITS after `n` more bits (R61, R63). No rule says what a sum of `2^64` or more leaves (10_state.md R48): a free
value (log 12). -/
def outBitsPlus (b : Word64) (n : Nat) : Word64 :=
  if b.toNat + n < 2 ^ 64 then b + BitVec.ofNat 64 n else Config.outBitsPastEnd b n

/-- `OUT_BITS <- OUT_BITS + n` (R61, R63). -/
def addOutBits (n : Nat) (s : State) : State := s.setOutBits (outBitsPlus s.ses.outBits n)

/-- The BOUT port after `bs` has been appended. -/
def State.sendBout (bs : Bits) (room : Option Nat) (s : State) : State :=
  { s with io := { s.io with bout := { s.io.bout with sent := s.io.bout.sent ++ bs, room := room } } }

/-- Append a bit string to BOUT, first element first, and count its bits (R63). When the host stops taking bits the
command waits for ever (70_reset_and_hazards.md R286). -/
def putBits (bs : Bits) (s : State) : Res Unit :=
  match s.io.bout.room with
  | none => .ok () (addOutBits bs.length (s.sendBout bs none))
  | some r =>
    if bs.length ≤ r then .ok () (addOutBits bs.length (s.sendBout bs (some (r - bs.length))))
    else .hang (addOutBits r (s.sendBout (bs.take r) (some 0)))

/-- WriteBits(n, v), R63: the n low bits of v, most significant first. -/
def writeBits {n : Nat} (v : BitVec n) (s : State) : Res Unit := putBits (bitsOf v) s

/-- WritePath(p), R63. -/
def writePath (p : Bits) (s : State) : Res Unit := putBits p s

/-- The SOUT port after `ws` has been appended. -/
def State.sendSout (ws : List (BitVec 8)) (room : Option Nat) (s : State) : State :=
  { s with io := { s.io with sout := { s.io.sout with sent := s.io.sout.sent ++ ws, room := room } } }

/-- WriteWord(w), R61: the word is appended and OUT_BITS grows by W. -/
def writeWord (w : BitVec 8) (s : State) : Res Unit :=
  match s.io.sout.room with
  | none => .ok () (addOutBits Config.W (s.sendSout [w] none))
  | some 0 => .hang s
  | some (r + 1) => .ok () (addOutBits Config.W (s.sendSout [w] (some r)))

end Sys2Proof.Machine
end

