-- ==== Sys2Proof/Machine/Queue.lean ====
section
/-! DEFINITION. The ranked queue (41_ranked_queue.md): QINS, QREM, QPEEK, QSIZE. -/

namespace Sys2Proof.Machine

/-- The position of QueueInsert (R130): the number of leading entries whose weight is at most `w`. None when an entry
names no allocated node (log 9). -/
def queuePos (node : List Node) (w : Weight) : List Idx → Option Nat
  | [] => some 0
  | i :: rest =>
    match node[i.toNat]? with
    | none => none
    | some n => if n.weight ≤ w then (queuePos node w rest).map (· + 1) else some 0

/-- QueueInsert(i) (R130): a full queue raises CapacityFault; the entries at and behind the position move up by one;
the answer is the position. -/
def queueInsert (i : Idx) (s : State) : Res Nat :=
  if Config.QCAP ≤ s.ses.q.length then .raise .capacityFault s
  else
    match s.nodeAt i with
    | none => .stuck .unreadableEntry
    | some n =>
      match queuePos s.ses.node n.weight s.ses.q with
      | none => .stuck .unreadableEntry
      | some pos => .ok pos (s.setQ (s.ses.q.take pos ++ i :: s.ses.q.drop pos))

/-- QueueRemove() (R131): the front entry, or none on an empty queue; the other entries move down by one. -/
def queueRemove (s : State) : Option Idx × State :=
  match s.ses.q with
  | [] => (none, s)
  | i :: rest => (some i, s.setQ rest)

/-- The rule of QINS (R132). The checks stand in the order of R257. -/
def runQins (v : Bool) (sym : SymVal) (weight : Weight) (s : State) : Res Response :=
  let s := s.setPrepped false
  if v = false then .raise .invalidArgument s
  else if isSymbol sym = false then .raise .invalidArgument s
  else if Config.QCAP ≤ s.ses.q.length then .raise .capacityFault s
  else
    (alloc (.leaf sym weight) s).andThen fun i s =>
    (queueInsert i s).andThen fun pos s =>
    .ok (okReply (i.setWidth 64) (BitVec.ofNat 64 pos)) s

/-- QINS v, sym, weight (R132). -/
def execQins (v : Bool) (sym : SymVal) (weight : Weight) (s : State) : Result := frontEnd (runQins v sym weight) s

/-- The image of an allocated node that a queue entry names (30_encoding.md R97). -/
def imageReply (i : Idx) (s : State) : Res Response :=
  match s.nodeAt i with
  | none => .stuck .unreadableEntry
  | some n => .ok (nodeReply RC_OK i (some n)) s

/-- The rule of QREM (R134). -/
def runQrem (s : State) : Res Response :=
  match queueRemove (s.setPrepped false) with
  | (none, s) => .ok (nodeReply RC_EMPTY NIL none) (s.setEmpty true)
  | (some i, s) => imageReply i (s.setEmpty false)

/-- QREM (R134). -/
def execQrem (s : State) : Result := frontEnd runQrem s

/-- The rule of QPEEK (R135). -/
def runQpeek (s : State) : Res Response :=
  match s.ses.q with
  | [] => .ok (nodeReply RC_EMPTY NIL none) (s.setEmpty true)
  | i :: _ => imageReply i (s.setEmpty false)

/-- QPEEK (R135). -/
def execQpeek (s : State) : Result := frontEnd runQpeek s

/-- The rule of QSIZE (R136). -/
def runQsize (s : State) : Res Response := .ok (okReply (s.ses.qlen.setWidth 64) 0) s

/-- QSIZE (R136). -/
def execQsize (s : State) : Result := frontEnd runQsize s

end Sys2Proof.Machine
end

