-- ==== Sys2Proof/Machine/Frequency.lean ====
section
/-! DEFINITION. The frequency accumulator and the queue load (42_frequency_accumulator.md): FACC, QLOAD, FSET, FGET. -/

namespace Sys2Proof.Machine

/-- Accumulate() (R150) on the SIN items still offered: `n` words have been counted so far. The answer is the number of
words counted and whether the pass ended at the embedded marker. The checks stand in the order of R257. -/
def accumulate : List SymVal → Word64 → State → Res (Word64 × Bool)
  | [], n, s => if s.io.sin.ends then .ok (n, false) s else .hang s
  | x :: rest, n, s =>
    let s := s.setSin rest
    if x = pseudoEof then .ok (n, true) s
    else if isDataSymbol x = false then .raise .invalidArgument s
    else if s.freqAt x.toNat = BitVec.allOnes 32 then .raise .capacityFault s
    else accumulate rest (n + 1) (s.setFreq x.toNat (s.freqAt x.toNat + 1))

/-- Acquire(SIN), Accumulate(), Release(SIN) (R151, 45_stream_compress.md R211). -/
def countPass (s : State) : Res (Word64 × Bool) :=
  (accumulate s.io.sin.items 0 (acquireSin s)).andThen fun r s => .ok r (releaseSin s)

/-- The first lines of LoadQueue() (R152), and of RTREE (44_tree_codec.md R194): the arena, the queue and everything
derived from an earlier tree are reset. -/
def resetTree (s : State) : State :=
  (((((s.setNode []).setQ []).setRoot NIL).setTreeValid false).setMetrics 0 0 0).setPath noPaths

/-- One leaf into the queue: AllocLeaf, then QueueInsert (R152). -/
def loadLeaf (sym : SymVal) (w : Weight) (s : State) : Res Unit :=
  (alloc (.leaf sym w) s).andThen fun i s => (queueInsert i s).andThen fun _ s => .ok () s

/-- The leaves of the symbols in `ks` that occur, in that order (R152). -/
def loadLeaves : List Nat → State → Res Unit
  | [], s => .ok () s
  | k :: rest, s =>
    if s.freqAt k = 0 then loadLeaves rest s
    else (loadLeaf (BitVec.ofNat 9 k) ((s.freqAt k).setWidth 41) s).andThen fun _ s => loadLeaves rest s

/-- LoadQueue() (R152): the leaves in ascending symbol order, PSEUDO_EOF with weight 1 last. -/
def loadQueue (s : State) : Res Unit :=
  (loadLeaves (List.range 256) (resetTree s)).andThen fun _ s => loadLeaf pseudoEof 1 s

/-- The rule of FACC (R151). -/
def runFacc (s : State) : Res Response :=
  (countPass (s.setPrepped false)).andThen fun r s =>
  .ok (okReply r.1 (BitVec.ofNat 64 r.2.toNat)) s

/-- FACC (R151). -/
def execFacc (s : State) : Result := frontEnd runFacc s

/-- The rule of QLOAD (R153), with CUR settled (10_state.md R22; log 15). -/
def runQload (s : State) : Res Response :=
  (loadQueue (s.setPrepped false)).andThen fun _ s => .ok (okReply (s.ses.qlen.setWidth 64) 0) (settleCur s)

/-- QLOAD (R153). -/
def execQload (s : State) : Result := frontEnd runQload s

/-- The rule of FSET (R154). -/
def runFset (sym : SymVal) (count : Count) (s : State) : Res Response :=
  let s := s.setPrepped false
  if isDataSymbol sym = false then .raise .invalidArgument s
  else .ok (okReply 0 0) (s.setFreq sym.toNat count)

/-- FSET sym, count (R154). -/
def execFset (sym : SymVal) (count : Count) (s : State) : Result := frontEnd (runFset sym count) s

/-- The rule of FGET (R155). -/
def runFget (sym : SymVal) (s : State) : Res Response :=
  if isDataSymbol sym = false then .raise .invalidArgument s
  else .ok (okReply ((s.freqAt sym.toNat).setWidth 64) 0) s

/-- FGET sym (R155). -/
def execFget (sym : SymVal) (s : State) : Result := frontEnd (runFget sym) s

end Sys2Proof.Machine
end

