-- ==== Sys2Proof/Machine/Tree.lean ====
section
/-! DEFINITION. Tree construction and the path table (43_tree_builder.md): BUILD, NGET, PGET. -/

namespace Sys2Proof.Machine

/-- One pass of the merge loop (R170): the first removed is the left child, the second the right; a weight sum of
`2^41` or more raises CapacityFault; the new node goes behind every entry of at most its weight. -/
def mergeTwo (a b : Idx) (s : State) : Res Unit :=
  match s.nodeAt a, s.nodeAt b with
  | some na, some nb =>
    if 2 ^ 41 ≤ na.weight.toNat + nb.weight.toNat then .raise .capacityFault s
    else
      (alloc (.internal (na.weight + nb.weight) a b) s).andThen fun n s =>
      (queueInsert n s).andThen fun _ s => .ok () s
  | _, _ => .stuck .unreadableEntry

/-- The merge loop (R170): it runs while more than one entry is queued. Each pass lowers QLEN by one (R171 (a)), so
`QLEN` passes are always enough. -/
def mergeLoop : Nat → State → Res Unit
  | 0, s => .ok () s
  | fuel + 1, s =>
    match s.ses.q with
    | a :: b :: rest => (mergeTwo a b (s.setQ rest)).andThen fun _ s => mergeLoop fuel s
    | _ => .ok () s

/-- What DeriveTree() works out (R173): SIZE, NUMLEAF and PATH. -/
structure Derived where
  size : Nat
  numleaf : Nat
  path : Vector PathEntry 257
  deriving DecidableEq, Repr

/-- Visit(i, p) (R173): left first. A tree HTB holds is at most 256 edges deep (00_scope.md R8); `fuel` bounds the
edges followed, so that the walk ends on any arena (log 10). None when an index names no allocated node. -/
def visit (node : List Node) : Nat → Idx → Bits → Derived → Option Derived
  | 0, _, _, _ => none
  | fuel + 1, i, p, d =>
    match node[i.toNat]? with
    | none => none
    | some (.leaf sym _) =>
      some { size := d.size + 1, numleaf := d.numleaf + 1, path := d.path.setIfInBounds sym.toNat (some p) }
    | some (.internal _ l r) =>
      match visit node fuel l (p ++ [false]) { d with size := d.size + 1 } with
      | none => none
      | some d => visit node fuel r (p ++ [true]) d

/-- More edges than a tree in an arena of `NODE_CAP` entries can have on one path. -/
def walkFuel : Nat := Config.NODE_CAP + 1

/-- DeriveTree() (R173): the path table, SIZE, NUMLEAF and TREE_BITS of the tree at ROOT; TREE_VALID is 1. -/
def deriveTree (s : State) : Res Unit :=
  match visit s.ses.node walkFuel s.ses.root [] ⟨0, 0, noPaths⟩ with
  | none => .stuck .unreadableEntry
  | some d =>
    .ok () (((s.setPath d.path).setMetrics (BitVec.ofNat 10 d.size) (BitVec.ofNat 9 d.numleaf)
      (BitVec.ofNat 32 (d.size + d.numleaf * (Config.W + 1)))).setTreeValid true)

/-- BuildTree() (R170): an empty queue raises PreconditionViolation; the one entry left becomes ROOT. -/
def buildTree (s : State) : Res Unit :=
  let s := (s.setRoot NIL).setTreeValid false
  if s.ses.q = [] then .raise .preconditionViolation s
  else
    (mergeLoop s.ses.q.length s).andThen fun _ s =>
    match queueRemove s with
    | (none, _) => .stuck .unreadableEntry
    | (some i, s) => deriveTree (s.setRoot i)

/-- The rule of BUILD (R172). -/
def runBuild (s : State) : Res Response :=
  (buildTree (s.setPrepped false)).andThen fun _ s =>
  .ok (okReply (s.ses.size.setWidth 64) (s.ses.numleaf.setWidth 64)) s

/-- BUILD (R172). -/
def execBuild (s : State) : Result := frontEnd runBuild s

/-- The rule of NGET (R176): an index at or above NALLOC returns the no-node image. -/
def runNget (num : Idx) (s : State) : Res Response := .ok (nodeReply RC_OK num (s.nodeAt num)) s

/-- NGET num (R176). -/
def execNget (num : Idx) (s : State) : Result := frontEnd (runNget num) s

/-- The rule of PGET (R177). -/
def runPget (sym : SymVal) (s : State) : Res Response :=
  if isSymbol sym = false then .raise .invalidArgument s
  else if s.status.treeValid then .ok (pathReply (s.pathAt sym.toNat)) s
  else .ok (pathReply none) s

/-- PGET sym (R177). -/
def execPget (sym : SymVal) (s : State) : Result := frontEnd (runPget sym) s

end Sys2Proof.Machine
end

