-- ==== Sys2Proof/Machine/Codec.lean ====
section
/-! DEFINITION. The tree serializer and deserializer (44_tree_codec.md): WTREE, RTREE, and the two node fields of the
tree payload, WIRE.TREE.LEAF and WIRE.TREE.INTERNAL (30_encoding.md R103). -/

namespace Sys2Proof.Machine

/-- The bits SerializeTree(i) writes (R191, R103): each node's field, the left subtree before the right. `fuel` as in
`visit`. -/
def serialize (node : List Node) : Nat → Idx → Option Bits
  | 0, _ => none
  | fuel + 1, i =>
    match node[i.toNat]? with
    | none => none
    | some (.leaf sym _) => some (encode (.wireTreeLeaf sym))
    | some (.internal _ l r) =>
      match serialize node fuel l, serialize node fuel r with
      | some bl, some br => some (encode .wireTreeInternal ++ bl ++ br)
      | _, _ => none

/-- SerializeTree(ROOT) on BOUT (R191). -/
def writeTree (s : State) : Res Unit :=
  match serialize s.ses.node walkFuel s.ses.root with
  | none => .stuck .unreadableEntry
  | some bs => putBits bs s

/-- How ReadTree() ends (R193): the nodes of the subtree in pre-order and the bits behind it; CorruptFormat with the
bits left; or it waits for a bit the host never gives. -/
inductive Parse where
  | ok (nodes : List Node) (rest : Bits)
  | corrupt (rest : Bits)
  | starved
  deriving DecidableEq, Repr

/-- A complete leaf value (R193): 257..511 is CorruptFormat; the weight of a deserialized leaf is 1 (R196). -/
def leafValue (v : SymVal) (rest : Bits) : Parse :=
  if isSymbol v then .ok [.leaf v 1] rest else .corrupt rest

/-- The children of the internal node whose index is `base` (R193): its index is reserved first, so the left subtree
starts at `base + 1` and the right subtree behind the left one; the placeholder weight is 1 (R196). `sub` reads a
subtree. -/
def parseKids (sub : Nat → Bits → Parse) (base : Nat) (bs : Bits) : Parse :=
  match sub (base + 1) bs with
  | .ok ln rest =>
    match sub (base + 1 + ln.length) rest with
    | .ok rn rest =>
      .ok (.internal 1 (BitVec.ofNat 10 (base + 1)) (BitVec.ofNat 10 (base + 1 + ln.length)) :: (ln ++ rn)) rest
    | other => other
  | other => other

/-- ReadTree() with `base` entries of NODE allocated (R193). The checks stand in the order of R257: tag short, arena
full, value short, value range. Every call reserves an index before it reads children, so `NODE_CAP + 1` nested calls
are never passed (70_reset_and_hazards.md R290; log 10). -/
def parseTree (ends : Bool) : Nat → Nat → Bits → Parse
  | 0, _, bs => .corrupt bs
  | _ + 1, _, [] => if ends then .corrupt [] else .starved
  | fuel + 1, base, tag :: bs =>
    if Config.NODE_CAP ≤ base then .corrupt bs
    else if tag then
      match takeBits 9 ends bs with
      | .got v rest => leafValue v rest
      | .short => .corrupt []
      | .starved => .starved
    else parseKids (parseTree ends fuel) base bs

/-- The effect of reading a subtree from BIN: its nodes are appended to NODE and the answer is the index of its
root. -/
def applyParse (s : State) : Parse → Res Idx
  | .ok nodes rest => .ok s.nextIdx ((s.setBin rest).setNode (s.ses.node ++ nodes))
  | .corrupt rest => .raise .corruptFormat (s.setBin rest)
  | .starved => .hang (s.setBin [])

/-- ReadTree() from BIN (R193). -/
def readTree (s : State) : Res Idx :=
  applyParse s (parseTree s.io.bin.ends walkFuel s.ses.node.length s.io.bin.items)

/-- The rule of WTREE (R192). -/
def runWtree (s : State) : Res Response :=
  if s.status.treeValid = false then .raise .preconditionViolation s
  else
    (writeTree ((acquireBout s).setOutBits 0)).andThen fun _ s =>
    .ok (okReply s.ses.outBits 0) (releaseBout s)

/-- WTREE (R192). -/
def execWtree (s : State) : Result := frontEnd runWtree s

/-- The rule of RTREE (R194), with CUR settled (10_state.md R22; log 15). -/
def runRtree (s : State) : Res Response :=
  (readTree (acquireBin (resetTree (s.setPrepped false)))).andThen fun r s =>
  (deriveTree ((releaseBin s).setRoot r)).andThen fun _ s =>
  .ok (okReply (s.ses.size.setWidth 64) (s.ses.numleaf.setWidth 64)) (settleCur s)

/-- RTREE (R194). -/
def execRtree (s : State) : Result := frontEnd runRtree s

/-- The end of one field of the compressed stream that is not the end of the command (R12). -/
def fieldDone (r : Res Unit) : Result :=
  match r with
  | .ok _ s => .next s
  | .raise f s => .next (takeFault f s)
  | .hang s => .next (waitForEver s)
  | .stuck f => .fault f

/-- A field of the compressed stream offered on BIN: HTB takes it when it holds BIN and expects it; otherwise it stays
with the host, unconsumed, and nothing happens (20_memory.md R62, R64; log 8). -/
def offeredField (expected : Bool) (run : State → Res Unit) (s : State) : Result :=
  if s.status.fault = none ∧ s.io.bin.held = true ∧ expected = true then fieldDone (run s) else .next s

/-- Is a tree payload being read? By DECODE in EXPECT_HEADER_PAYLOAD with HDRSEL 1 (46_stream_decoder.md R234), or by
RTREE, which keeps DSTATE at IDLE or DONE (R194). -/
def expectsNode (s : State) : Bool :=
  match s.status.dstate with
  | .expectHeaderPayload => s.status.hdrsel
  | .idle | .done => true
  | .expectMagic | .expectHeaderSelector | .walking => false

/-- ReadTree() on a leaf field (R193): a 514th node or a value above 256 is CorruptFormat. -/
def leafField (v : SymVal) (s : State) : Res Unit :=
  if Config.NODE_CAP ≤ s.ses.node.length then .raise .corruptFormat s
  else (applyParse s (leafValue v s.io.bin.items)).andThen fun _ s => .ok () s

/-- ReadTree() on an internal node's field (R193): a 514th node is CorruptFormat; then its two subtrees are read from
BIN. -/
def internalField (s : State) : Res Unit :=
  if Config.NODE_CAP ≤ s.ses.node.length then .raise .corruptFormat s
  else
    (applyParse s (parseKids (parseTree s.io.bin.ends walkFuel) s.ses.node.length s.io.bin.items)).andThen
      fun _ s => .ok () s

/-- WIRE.TREE.LEAF (R103, R193). -/
def execWireTreeLeaf (v : SymVal) (s : State) : Result := offeredField (expectsNode s) (leafField v) s

/-- WIRE.TREE.INTERNAL (R103, R193). -/
def execWireTreeInternal (s : State) : Result := offeredField (expectsNode s) internalField s

end Sys2Proof.Machine
end

