-- ==== Sys2Proof/Machine/Compress.lean ====
section
/-! DEFINITION. The compression pass (45_stream_compress.md): PREP, EMIT. -/

namespace Sys2Proof.Machine

/-- The length of PATH[k] (R213); only valid entries are read. -/
def State.pathLen (s : State) (k : Nat) : Nat := ((s.pathAt k).getD []).length

/-- The bits of the header behind the selector (R213): the frequency table, or the tree-size field and the tree
payload. -/
def headerBits (s : State) : Nat :=
  if s.status.hdrsel = false then Config.ALPH_SIZE * Config.BITS_PER_INT
  else Config.BITS_PER_INT + s.ses.treeBits.toNat

/-- The bits of the Data field (R213): `sum FREQ[s] * PATH[s].len`, then the PSEUDO_EOF path. -/
def dataBits (s : State) : Nat :=
  ((List.range 256).map fun k => (s.freqAt k).toNat * s.pathLen k).sum + s.pathLen 256

/-- Projected() (R213). -/
def projected (s : State) : Word64 :=
  BitVec.ofNat 64 (Config.BITS_PER_INT + Config.BITS_PER_INT + headerBits s + dataBits s)

/-- The last lines of PREP before its answer (R211): ORIG_BITS, PROJ_BITS, SAVINGS. -/
def recordSizes (n : Word64) (s : State) : State :=
  let orig := BitVec.ofNat 64 Config.W * n
  s.setPrepass orig (projected s) (orig - projected s)

/-- The rule of PREP (R211). -/
def runPrep (hdr : Bool) (s : State) : Res Response :=
  (countPass ((sessionInit s).setHdrsel hdr)).andThen fun r s =>
  (loadQueue s).andThen fun _ s =>
  (buildTree s).andThen fun _ s =>
  let s := (recordSizes r.1 s).setPrepped true
  .ok (okReply s.ses.savings s.ses.projBits) s

/-- PREP hdr (R211). -/
def execPrep (hdr : Bool) (s : State) : Result := frontEnd (runPrep hdr) s

/-- The counts of the frequency table in symbol order (R217, 30_encoding.md R98 row 3a). -/
def countFields (s : State) : Bits := s.ses.freq.toList.flatMap fun c => encode (.wireCount 0 c)

/-- The header EmitStream() writes (R217, 30_encoding.md R98): magic, selector, and the frequency table or the tree
size and the tree payload. None when the tree cannot be read (log 9). -/
def headerStream (s : State) : Option Bits :=
  if s.status.hdrsel = false then
    some (encode (.wireMagic s.build.magic) ++ encode (.wireSelector s.build.selCounts) ++ countFields s)
  else
    (serialize s.ses.node walkFuel s.ses.root).map fun tree =>
      encode (.wireMagic s.build.magic) ++ encode (.wireSelector s.build.selTree)
        ++ encode (.wireTreeSize s.ses.treeBits) ++ tree

/-- The loop of EmitStream() over the SIN items still offered (R217). The checks stand in the order of R257. -/
def emitWords : List SymVal → State → Res Unit
  | [], s => if s.io.sin.ends then .ok () s else .hang s
  | x :: rest, s =>
    let s := s.setSin rest
    if x = pseudoEof then .ok () s
    else if isDataSymbol x = false then .raise .invalidArgument s
    else
      match s.pathAt x.toNat with
      | none => .raise .preconditionViolation s
      | some p => (writePath p s).andThen fun _ s => emitWords rest s

/-- EmitStream() (R217): the header, the words' paths, the PSEUDO_EOF path. -/
def emitStream (s : State) : Res Unit :=
  match headerStream s with
  | none => .stuck .unreadableEntry
  | some h =>
    (putBits h s).andThen fun _ s =>
    (emitWords s.io.sin.items s).andThen fun _ s =>
    match s.pathAt 256 with
    | none => .stuck .unreadableEntry
    | some p => writePath p s

/-- The decline rule (R216): without the override, when the projected size is not smaller than the original. -/
def declines (force : Bool) (s : State) : Bool :=
  !force && decide (s.ses.origBits.toNat ≤ s.ses.projBits.toNat)

/-- The rule of EMIT (R215). -/
def runEmit (force : Bool) (s : State) : Res Response :=
  if s.status.prepped = false then .raise .preconditionViolation s
  else if declines force s then .ok ⟨RC_DECLINED, 0, s.ses.projBits, 0⟩ (s.setDeclined true)
  else
    (emitStream ((acquireBout (acquireSin (s.setDeclined false))).setOutBits 0)).andThen fun _ s =>
    .ok (okReply s.ses.outBits s.ses.projBits) (releaseBout (releaseSin s))

/-- EMIT force (R215). -/
def execEmit (force : Bool) (s : State) : Result := frontEnd (runEmit force) s

end Sys2Proof.Machine
end

