-- ==== Sys2Proof/Machine/Decoder.lean ====
section
/-! DEFINITION. The streaming decoder (46_stream_decoder.md): DECODE, and the header fields it reads, WIRE.MAGIC,
WIRE.SELECTOR, WIRE.COUNT and WIRE.TREESIZE (30_encoding.md R98). -/

namespace Sys2Proof.Machine

/-- EXPECT_MAGIC with the field read (R231); the next state is EXPECT_HEADER_SELECTOR (R230). -/
def fieldMagic (m : Word32) (s : State) : Res Unit :=
  if m = s.build.magic then .ok () (s.setDstate .expectHeaderSelector) else .raise .notAHuffmanFile s

/-- StepMagic() (R231): a short read is NotAHuffmanFile too. -/
def stepMagic (s : State) : Res Unit := (readBits 32 .notAHuffmanFile s).andThen fieldMagic

/-- EXPECT_HEADER_SELECTOR with the field read (R232); the next state is EXPECT_HEADER_PAYLOAD (R230). -/
def fieldSelector (h : Word32) (s : State) : Res Unit :=
  if h = s.build.selCounts then .ok () ((s.setHdrsel false).setDstate .expectHeaderPayload)
  else if h = s.build.selTree then .ok () ((s.setHdrsel true).setDstate .expectHeaderPayload)
  else .raise .corruptFormat s

/-- StepSelector() (R232). -/
def stepSelector (s : State) : Res Unit := (readBits 32 .truncatedStream s).andThen fieldSelector

/-- One count of the frequency table (R233): any value is accepted. -/
def fieldCount (k : Nat) (c : Word32) (s : State) : Res Unit := .ok () (s.setFreq k c)

/-- The counts of the symbols in `ks`, in that order (R233). -/
def readCounts : List Nat → State → Res Unit
  | [], s => .ok () s
  | k :: rest, s =>
    ((readBits 32 .truncatedStream s).andThen (fieldCount k)).andThen fun _ s => readCounts rest s

/-- CheckRoot() (R237): a root that is a leaf is PSEUDO_EOF, or the format is corrupt. -/
def checkRoot (s : State) : Res Unit :=
  match s.nodeAt s.ses.root with
  | none => .stuck .unreadableEntry
  | some (.leaf sym _) => if sym = pseudoEof then .ok () s else .raise .corruptFormat s
  | some (.internal _ _ _) => .ok () s

/-- StepPayload() with HDRSEL 0 (R233). -/
def payloadCounts (s : State) : Res Unit :=
  (readCounts (List.range 256) s).andThen fun _ s =>
  (loadQueue s).andThen fun _ s =>
  (buildTree s).andThen fun _ s => checkRoot s

/-- The tree-size field (R234): stored, never compared with anything. -/
def fieldTreeSize (t : Word32) (s : State) : Res Unit := .ok () (s.setHdrTreeBits t)

/-- StepPayload() with HDRSEL 1 (R234). -/
def payloadTree (s : State) : Res Unit :=
  ((readBits 32 .truncatedStream s).andThen fieldTreeSize).andThen fun _ s =>
  (readTree s).andThen fun r s =>
  (deriveTree (s.setRoot r)).andThen fun _ s => checkRoot s

/-- StepPayload() (R233, R234). -/
def stepPayload (s : State) : Res Unit := if s.status.hdrsel then payloadTree s else payloadCounts s

/-- After a word has been written the cursor is back at the root (R235): the root is an internal node, or the loop of
R235 would write that word for ever (R237 excludes it). -/
def backToRoot (s : State) : Res Unit :=
  let s := s.setCur s.ses.root
  match s.nodeAt s.ses.root with
  | none => .stuck .unreadableEntry
  | some (.leaf _ _) => .stuck .endlessWalk
  | some (.internal _ _ _) => .ok () s

/-- The loop of Walk() with CUR on an internal node, on the bits BIN still offers (R235): one bit moves CUR to a child;
a leaf ends the walk if it is PSEUDO_EOF, otherwise its word is written and CUR goes back to the root. -/
def walkBits : Bits → State → Res Unit
  | [], s => if s.io.bin.ends then .raise .truncatedStream s else .hang s
  | b :: rest, s =>
    match s.nodeAt s.ses.cur with
    | some (.internal _ l r) =>
      let s := (s.setBin rest).setCur (if b then r else l)
      match s.nodeAt s.ses.cur with
      | none => .stuck .unreadableEntry
      | some (.internal _ _ _) => walkBits rest s
      | some (.leaf sym _) =>
        if sym = pseudoEof then .ok () s
        else ((writeWord (sym.setWidth 8) s).andThen fun _ s => backToRoot s).andThen fun _ s => walkBits rest s
    | _ => .stuck .unreadableEntry

/-- Walk() (R235): CUR starts at ROOT and the leaf test comes before the first bit. -/
def walk (s : State) : Res Unit :=
  let s := s.setCur s.ses.root
  match s.nodeAt s.ses.root with
  | none => .stuck .unreadableEntry
  | some (.leaf sym _) => if sym = pseudoEof then .ok () s else .stuck .endlessWalk
  | some (.internal _ _ _) => walkBits s.io.bin.items s

/-- The first lines of DECODE (R230): a fresh session, BIN and SOUT held, OUT_BITS 0, the decoder at EXPECT_MAGIC. -/
def openDecoder (s : State) : State :=
  ((acquireSout (acquireBin (sessionInit s))).setOutBits 0).setDstate .expectMagic

/-- The last lines of DECODE (R230, R236): the decoder is DONE, both ports are released. -/
def closeDecoder (s : State) : State := releaseSout (releaseBin (s.setDstate .done))

/-- The rule of DECODE (R230). -/
def runDecode (s : State) : Res Response :=
  (stepMagic (openDecoder s)).andThen fun _ s =>
  (stepSelector s).andThen fun _ s =>
  (stepPayload s).andThen fun _ s =>
  (walk (s.setDstate .walking)).andThen fun _ s =>
  .ok (okReply s.ses.outBits 0) (closeDecoder s)

/-- DECODE (R230). -/
def execDecode (s : State) : Result := frontEnd runDecode s

/-- WIRE.MAGIC (30_encoding.md R98 row 1, R231). -/
def execWireMagic (m : Word32) (s : State) : Result :=
  offeredField (s.status.dstate == .expectMagic) (fieldMagic m) s

/-- WIRE.SELECTOR (30_encoding.md R98 row 2, R232). -/
def execWireSelector (h : Word32) (s : State) : Result :=
  offeredField (s.status.dstate == .expectHeaderSelector) (fieldSelector h) s

/-- WIRE.COUNT (30_encoding.md R98 row 3a, R233): the count of symbol `sym`, its place in the table. -/
def execWireCount (sym : BitVec 8) (c : Word32) (s : State) : Result :=
  offeredField (s.status.dstate == .expectHeaderPayload && !s.status.hdrsel) (fieldCount sym.toNat c) s

/-- WIRE.TREESIZE (30_encoding.md R98 row 3b, R234). -/
def execWireTreeSize (t : Word32) (s : State) : Result :=
  offeredField (s.status.dstate == .expectHeaderPayload && s.status.hdrsel) (fieldTreeSize t) s

end Sys2Proof.Machine
end

