-- ==== Sys2Proof/Machine/Fetch.lean ====
section
/-! DEFINITION. The command port (20_memory.md R65, R66): how the next command word and its streams reach HTB, what
happens when there is none, and reset (70_reset_and_hazards.md R280). -/

namespace Sys2Proof.Machine

/-- HTB accepts the command of an offer (R65): the host's list moves on, and the streams are those of the offer, each
input from its first item (R60). -/
def acceptOffer (o : Offer) (rest : List HostAct) (s : State) : State :=
  { s with
    host := rest
    io := { s.io with
      sin := { s.io.sin with items := o.sin, ends := o.sinEnds }
      bin := { s.io.bin with items := o.bin, ends := o.binEnds }
      sout := { s.io.sout with room := o.soutRoom }
      bout := { s.io.bout with room := o.boutRoom } } }

/-- Nothing happens: the host gives nothing, or a running command waits and the word is not sampled (R65, R286). DESIGN
CHOICE (log 14): the host goes on presenting a word that is not sampled, so it stays at the head of `host` and no act
behind it is taken. A response is present for one cycle only (R66; log 13). -/
def idle (s : State) : State := { s with io := { s.io with rspValid := false } }

/-- `rst` (R280): any running command is abandoned without a response, the ports are released and every register and
array takes its reset value; what had been written stays written, and the build constants stay. -/
def resetNow (rest : List HostAct) (s : State) : State :=
  { State.reset with
    build := s.build
    host := rest
    freeCtr := s.freeCtr
    io := { Ports.quiet with
      sout := { Ports.quiet.sout with sent := s.io.sout.sent }
      bout := { Ports.quiet.bout with sent := s.io.bout.sent } } }

/-- An offer with nothing on SIN (END at once), the given bits on BIN, and both outputs taken without limit. -/
def plainOffer (w : CmdWord) (bin : Bits) : Offer where
  word := w
  sin := []
  sinEnds := true
  bin := bin
  binEnds := true
  soutRoom := none
  boutRoom := none

/-- The offer whose command runs a row of spec/opcode_table.json (log 8): a command word is itself; a field of the
compressed stream is put where DECODE or RTREE reads it first, behind the fields that must precede it (30_encoding.md
R98). -/
def offerFor (b : BuildConsts) (nbits w : Nat) : Offer :=
  let decodeWord := commandWord .decode 0
  match decodeTableWord nbits w with
  | some (.wireMagic m) => plainOffer decodeWord (bitsOf m)
  | some (.wireSelector h) => plainOffer decodeWord (bitsOf b.magic ++ bitsOf h)
  | some (.wireCount _ c) => plainOffer decodeWord (bitsOf b.magic ++ bitsOf b.selCounts ++ bitsOf c)
  | some (.wireTreeLeaf v) => plainOffer (commandWord .rtree 0) (encode (.wireTreeLeaf v))
  | some .wireTreeInternal => plainOffer (commandWord .rtree 0) (encode .wireTreeInternal)
  | _ => plainOffer (BitVec.ofNat 64 w) []

end Sys2Proof.Machine
end

