-- ==== Sys2Proof/Machine/System.lean ====
section
/-! DEFINITION. The system commands CLR and RDREG (40_system_commands.md). -/

namespace Sys2Proof.Machine

/-- CLR (R122): it runs in a faulted session too (R121), so it does not go through `frontEnd`. -/
def execClr (s : State) : Result := finish (.ok (okReply 0 0) (clearFault s))

/-- The rule of RDREG (R123). -/
def runRdreg (num : BitVec 10) (s : State) : Res Response :=
  match readReg s num with
  | none => .raise .illegalCommand s
  | some v => .ok (okReply v 0) s

/-- RDREG num (R123). -/
def execRdreg (num : BitVec 10) (s : State) : Result := frontEnd (runRdreg num) s

/-- A command word that matches no row of R92 (30_encoding.md R94), behind the refusal of a faulted session (R121). -/
def illegalWord (s : State) : Result := frontEnd (fun s => .raise .illegalCommand s) s

end Sys2Proof.Machine
end

