-- ==== Sys2Proof/Machine/Dispatch.lean ====
section
/-! DEFINITION. One arm per instruction: its meaning. -/

namespace Sys2Proof.Machine

def exec (i : Instr) (s : State) : Host.Outcome State Fault Refusal :=
  match i with
  | .clr => Sys2Proof.Machine.execClr s
  | .rdreg num => Sys2Proof.Machine.execRdreg num s
  | .qins v sym weight => Sys2Proof.Machine.execQins v sym weight s
  | .qrem => Sys2Proof.Machine.execQrem s
  | .qpeek => Sys2Proof.Machine.execQpeek s
  | .qsize => Sys2Proof.Machine.execQsize s
  | .facc => Sys2Proof.Machine.execFacc s
  | .qload => Sys2Proof.Machine.execQload s
  | .fset sym count => Sys2Proof.Machine.execFset sym count s
  | .fget sym => Sys2Proof.Machine.execFget sym s
  | .build => Sys2Proof.Machine.execBuild s
  | .nget num => Sys2Proof.Machine.execNget num s
  | .pget sym => Sys2Proof.Machine.execPget sym s
  | .wtree => Sys2Proof.Machine.execWtree s
  | .rtree => Sys2Proof.Machine.execRtree s
  | .prep hdr => Sys2Proof.Machine.execPrep hdr s
  | .emit force => Sys2Proof.Machine.execEmit force s
  | .decode => Sys2Proof.Machine.execDecode s
  | .wireMagic m => Sys2Proof.Machine.execWireMagic m s
  | .wireSelector h => Sys2Proof.Machine.execWireSelector h s
  | .wireCount sym c => Sys2Proof.Machine.execWireCount sym c s
  | .wireTreeSize t => Sys2Proof.Machine.execWireTreeSize t s
  | .wireTreeLeaf v => Sys2Proof.Machine.execWireTreeLeaf v s
  | .wireTreeInternal => Sys2Proof.Machine.execWireTreeInternal s

end Sys2Proof.Machine
end

