-- ==== Sys2Proof/Machine/Step.lean ====
section
/-! DEFINITION. One step: the host's next act (00_scope.md R15). -/

namespace Sys2Proof.Machine

/-- The command word of an accepted command (40_system_commands.md R121): it decodes and runs, or it is illegal. -/
def runWord (w : CmdWord) (s : State) : Host.Outcome State Fault Refusal :=
  match decode w with
  | .ok i => exec i s
  | .error _ => illegalWord s

/-- One step (00_scope.md R15): one whole command, or a reset, or nothing. A command given while `busy` is not sampled
(20_memory.md R65, 70_reset_and_hazards.md R286, R288). DESIGN CHOICE (log 14): the host goes on presenting it, so it
stays at the head of `host`, and a reset listed behind it is not reached; a host that withdraws the word and asserts
`rst` is the list without the word. -/
def step (s : State) : Host.Outcome State Fault Refusal :=
  match s.host with
  | [] => .next (idle s)
  | .reset :: rest => .next (resetNow rest s)
  | .command o :: rest => if s.io.busy then .next (idle s) else runWord o.word (acceptOffer o rest s)

/-- `s` with a row of spec/opcode_table.json as the host's next command, with what its run needs (log 5, log 8). -/
def State.withFetchWord (s : State) (nbits w : Nat) : State :=
  { s with host := .command (offerFor s.build nbits w) :: s.host, io := { s.io with busy := false } }

end Sys2Proof.Machine
end

