-- ==== Sys2Proof/Safety.lean ====
section
/-! DEFINITION. The terms in which claims are stated: the tree as a value (10_state.md R43), the Huffman merge on such
values (43_tree_builder.md R170), and what holds of the machine between two steps. -/

namespace Sys2Proof.Machine

/-- The tree as a value, R43. -/
inductive CodeTree where
  | leaf (sym : SymVal) (weight : Weight)
  | internal (weight : Weight) (left right : CodeTree)
  deriving DecidableEq, Repr

/-- The weight of the root of a tree (R41). -/
def CodeTree.weight : CodeTree → Weight
  | .leaf _ w => w
  | .internal w _ _ => w

/-- The number of nodes, leaves and internal nodes together (R35). -/
def CodeTree.size : CodeTree → Nat
  | .leaf _ _ => 1
  | .internal _ l r => 1 + l.size + r.size

/-- The number of leaves (R35). -/
def CodeTree.leaves : CodeTree → Nat
  | .leaf _ _ => 1
  | .internal _ l r => l.leaves + r.leaves

/-- The number of edges to the deepest leaf (00_scope.md R8). -/
def CodeTree.depth : CodeTree → Nat
  | .leaf _ _ => 0
  | .internal _ l r => 1 + max l.depth r.depth

/-- The symbols of the leaves in the left-first depth-first order. -/
def CodeTree.syms : CodeTree → List SymVal
  | .leaf s _ => [s]
  | .internal _ l r => l.syms ++ r.syms

/-- `T(n)`, the serialized form (30_encoding.md R103, 44_tree_codec.md R190). -/
def CodeTree.bits : CodeTree → Bits
  | .leaf s _ => true :: bitsOf s
  | .internal _ l r => false :: (l.bits ++ r.bits)

/-- The leaves with their paths in the order in which Visit meets them; `p` is the path to the root of the tree
(43_tree_builder.md R173). -/
def CodeTree.paths : CodeTree → Bits → List (SymVal × Bits)
  | .leaf s _, p => [(s, p)]
  | .internal _ l r, p => l.paths (p ++ [false]) ++ r.paths (p ++ [true])

/-- Write one path into a path table (R173): a later leaf with the same symbol wins (R174). -/
def enterPath (v : Vector PathEntry 257) (e : SymVal × Bits) : Vector PathEntry 257 :=
  v.setIfInBounds e.1.toNat (some e.2)

/-- The path table of a tree (R173). -/
def CodeTree.pathTable (t : CodeTree) : Vector PathEntry 257 := (t.paths []).foldl enterPath noPaths

/-- `Tree(i) = t`: the arena holds the tree `t` at index `i` (R43). -/
def IsTree (node : List Node) : Idx → CodeTree → Prop
  | i, .leaf s w => node[i.toNat]? = some (.leaf s w)
  | i, .internal w tl tr =>
    ∃ l r, node[i.toNat]? = some (.internal w l r) ∧ IsTree node l tl ∧ IsTree node r tr

/-- A tree HTB can hold: at most `NLEAF_MAX` leaves (00_scope.md R7, R8), each with a symbol 0..256 (R41). -/
def CodeTree.Legal (t : CodeTree) : Prop := t.leaves ≤ 257 ∧ ∀ s ∈ t.syms, s.toNat ≤ 256

/-- The shape and the leaf symbols of a tree with every weight 1, as a deserialized tree has it (44_tree_codec.md
R196). -/
def CodeTree.unweighted : CodeTree → CodeTree
  | .leaf s _ => .leaf s 1
  | .internal _ l r => .internal 1 l.unweighted r.unweighted

/-- The nodes of a tree in the order in which ReadTree() numbers them (44_tree_codec.md R193): the root has index
`base`, the left subtree starts at the next index and the right subtree behind the left one. -/
def CodeTree.preOrder : CodeTree → Nat → List Node
  | .leaf s w, _ => [.leaf s w]
  | .internal w l r, base =>
    .internal w (BitVec.ofNat 10 (base + 1)) (BitVec.ofNat 10 (base + 1 + l.size)) ::
      (l.preOrder (base + 1) ++ r.preOrder (base + 1 + l.size))

/-- The fields of a tree payload, one per node: the node itself, then its left subtree, then its right subtree
(30_encoding.md R103). -/
def CodeTree.fields : CodeTree → List Instr
  | .leaf s _ => [.wireTreeLeaf s]
  | .internal _ l r => .wireTreeInternal :: (l.fields ++ r.fields)

/-- The place of a tree in a ranked queue of trees (41_ranked_queue.md R130): behind every entry of at most its
weight that precedes the first heavier one. -/
def rankTree (t : CodeTree) : List CodeTree → List CodeTree
  | [] => [t]
  | u :: us => if u.weight ≤ t.weight then u :: rankTree t us else t :: u :: us

/-- The merge of 43_tree_builder.md R170 on tree values: the two first trees become the children of a new node, which
goes back to its rank; `fuel` passes. -/
def mergeTrees : Nat → List CodeTree → List CodeTree
  | fuel + 1, a :: b :: rest => mergeTrees fuel (rankTree (.internal (a.weight + b.weight) a b) rest)
  | _, ts => ts

/-- The leaf of a tree that a queue entry names (R44): the queue holds leaves between commands, because BUILD empties
it and only BUILD queues internal nodes (R132). -/
def leafAt (node : List Node) (i : Idx) : Option CodeTree :=
  match node[i.toNat]? with
  | some (.leaf s w) => some (.leaf s w)
  | _ => none

/-- How often symbol `k` occurs among SIN items (42_frequency_accumulator.md R156 (a)). -/
def occurrences (k : Nat) (xs : List SymVal) : Nat := (xs.map BitVec.toNat).count k

/-- The words of a pass: SIN items 0..255 (20_memory.md R60). -/
def AllWords (xs : List SymVal) : Prop := ∀ x ∈ xs, x.toNat ≤ 255

/-- What may stand behind the words of a pass (R60): nothing, with `END` signalled; or the embedded marker. -/
def PassEnds (ends : Bool) (tail : List SymVal) : Prop :=
  (tail = [] ∧ ends = true) ∨ tail.head? = some pseudoEof

/-- The weights of a list of trees, added up in the integers (43_tree_builder.md R171 (e)). -/
def totalWeight (ts : List CodeTree) : Nat := (ts.map fun t => t.weight.toNat).sum

/-- The leaves the queue names, front first (10_state.md R44). -/
def queueLeaves (c : Session) : List CodeTree := c.q.filterMap (leafAt c.node)

/-- The weight of the node an index names (R41); 0 where there is none. -/
def entryWeight (node : List Node) (i : Idx) : Weight := ((node[i.toNat]?).map Node.weight).getD 0

/-- The ranked queue front first, each entry with the weight of its node (10_state.md R44). -/
def queueEntries (node : List Node) (q : List Idx) : List (Idx × Weight) := q.map fun i => (i, entryWeight node i)

/-- The place of an entry in a ranked queue (41_ranked_queue.md R130): behind every entry of at most its weight that
precedes the first heavier one. -/
def rankEntry (e : Idx × Weight) : List (Idx × Weight) → List (Idx × Weight)
  | [] => [e]
  | x :: xs => if x.2 ≤ e.2 then x :: rankEntry e xs else e :: x :: xs

/-- The nodes that BuildTree() allocates, in allocation order, the first at index `next` (43_tree_builder.md R170,
10_state.md R42): the two first entries of the queue become the left and the right child of a node that weighs as much
as both, and that node goes back to its rank; `fuel` passes. -/
def mergeNodes : Nat → Nat → List (Idx × Weight) → List Node
  | fuel + 1, next, a :: b :: rest =>
    .internal (a.2 + b.2) a.1 b.1 :: mergeNodes fuel (next + 1) (rankEntry (BitVec.ofNat 10 next, a.2 + b.2) rest)
  | _, _, _ => []

/-- Every child has a smaller index than its parent (10_state.md R43), for nodes that stand from index `base` on. -/
def ChildrenFirst (base : Nat) (nodes : List Node) : Prop :=
  ∀ k w l r, nodes[k]? = some (.internal w l r) → l.toNat < base + k ∧ r.toNat < base + k

/-- The host takes `n` more items of an output stream (70_reset_and_hazards.md R286). -/
def Takes (room : Option Nat) (n : Nat) : Prop := ∀ r, room = some r → n ≤ r

/-- How many more items the host takes after `n` of them. -/
def roomLeft (room : Option Nat) (n : Nat) : Option Nat := room.map (· - n)

/-- The path of a symbol in a path table, empty where there is none (R45). -/
def pathBits (v : Vector PathEntry 257) (k : Nat) : Bits := ((v[k]?).getD none).getD []

/-- The symbol has a path (R45). -/
def HasPath (v : Vector PathEntry 257) (k : Nat) : Prop := ((v[k]?).getD none).isSome = true

/-- The codewords of a list of words (30_encoding.md R104). -/
def wordBits (v : Vector PathEntry 257) (xs : List SymVal) : Bits := xs.flatMap fun x => pathBits v x.toNat

/-- The Data field of a compressed stream (R104). -/
def dataField (v : Vector PathEntry 257) (xs : List SymVal) : Bits := wordBits v xs ++ pathBits v 256

/-- The header of a compressed stream (R98): magic, selector, and the counts in symbol order, or the tree size and the
tree payload. -/
def headerField (b : BuildConsts) (hdr : Bool) (freq : Vector Count 256) (t : CodeTree) : Bits :=
  if hdr = true then
    bitsOf b.magic ++ bitsOf b.selTree ++ bitsOf (BitVec.ofNat 32 t.bits.length) ++ t.bits
  else bitsOf b.magic ++ bitsOf b.selCounts ++ freq.toList.flatMap bitsOf

/-- The subtree a path leads to: 0 to the left child, 1 to the right (43_tree_builder.md R175 (d)). -/
def CodeTree.follow : CodeTree → Bits → Option CodeTree
  | t, [] => some t
  | .leaf _ _, _ :: _ => none
  | .internal _ l r, b :: p => if b then r.follow p else l.follow p

/-- The faults an instruction may raise (60_exceptions.md R250); for a field of the compressed stream, those of the
step of DECODE or RTREE that takes it. -/
def mayRaise : Instr → List FaultKind
  | .rdreg _ => [.illegalCommand]
  | .qins _ _ _ => [.invalidArgument, .capacityFault]
  | .facc | .prep _ => [.invalidArgument, .capacityFault]
  | .fset _ _ | .fget _ | .pget _ => [.invalidArgument]
  | .build => [.preconditionViolation, .capacityFault]
  | .wtree => [.preconditionViolation]
  | .emit _ => [.preconditionViolation, .invalidArgument]
  | .rtree | .wireSelector _ | .wireTreeLeaf _ | .wireTreeInternal => [.corruptFormat]
  | .decode => [.notAHuffmanFile, .corruptFormat, .truncatedStream]
  | .wireMagic _ => [.notAHuffmanFile]
  | .clr | .qrem | .qpeek | .qsize | .qload | .nget _ | .wireCount _ _ | .wireTreeSize _ => []

/-- The streams are as before: what is left of the inputs and what has been written (20_memory.md R60 to R63). -/
def SameStreams (s t : State) : Prop :=
  t.io.sin.items = s.io.sin.items ∧ t.io.bin.items = s.io.bin.items ∧
  t.io.sout.sent = s.io.sout.sent ∧ t.io.bout.sent = s.io.bout.sent

/-- What no command touches: the build constants, what the host does next, and the count of undefined contents. -/
def SameRest (s t : State) : Prop := t.build = s.build ∧ t.host = s.host ∧ t.freeCtr = s.freeCtr

/-- Every entry of the arena is legal (R41): a leaf has a symbol 0..256, an internal node two allocated children. -/
def ArenaOk (node : List Node) : Prop :=
  node.length ≤ Config.NODE_CAP ∧
  ∀ n ∈ node, match n with
    | .leaf s _ => s.toNat ≤ 256
    | .internal _ l r => l.toNat < node.length ∧ r.toNat < node.length

/-- The order of the ranked queue (R44): entry `i` stands before entry `j` when its weight is less, or equal and it was
inserted earlier. Entries are inserted in the order in which their nodes are allocated, so the earlier one has the
smaller index (R42). -/
def Before (node : List Node) (i j : Idx) : Prop :=
  ∃ a b, node[i.toNat]? = some a ∧ node[j.toNat]? = some b ∧
    (a.weight < b.weight ∨ (a.weight = b.weight ∧ i.toNat < j.toNat))

/-- The invariant of R44: at most QCAP entries, none twice, each an allocated leaf, ordered by weight and, among equal
weights, by insertion. -/
def QueueOk (c : Session) : Prop :=
  c.q.length ≤ Config.QCAP ∧ c.q.Nodup ∧ (∀ i ∈ c.q, (leafAt c.node i).isSome = true) ∧ c.q.Pairwise (Before c.node)

/-- The leaves LoadQueue() makes of a frequency table (42_frequency_accumulator.md R152): one per symbol that occurs, in
ascending order, and the PSEUDO_EOF leaf with weight 1 last. -/
def tableLeaves (freq : Vector Count 256) : List CodeTree :=
  ((List.range 256).filter fun k => decide ((freq[k]?).getD 0 ≠ 0)).map
    (fun k => CodeTree.leaf (BitVec.ofNat 9 k) (((freq[k]?).getD 0).setWidth 41)) ++ [.leaf pseudoEof 1]

/-- The leaves of a frequency table in the order of the queue after LoadQueue() (R152). -/
def rankedLeaves (freq : Vector Count 256) : List CodeTree := (tableLeaves freq).foldl (fun q t => rankTree t q) []

/-- A tree's root as an entry of the arena, when it is a leaf (R41). -/
def leafNode : CodeTree → Node
  | .leaf s w => .leaf s w
  | .internal w _ _ => .internal w NIL NIL

/-- The queue after LoadQueue(): each leaf's index is its place among the leaves, which are allocated in their order
from 0 on (R152, 10_state.md R42). -/
def rankedEntries (freq : Vector Count 256) : List (Idx × Weight) :=
  (rankedLeaves freq).map fun t => (BitVec.ofNat 10 ((tableLeaves freq).idxOf t), t.weight)

/-- The arena after LoadQueue() and BuildTree(): the leaves of the table, then the nodes of the merge (R152,
43_tree_builder.md R170). -/
def tableNodes (freq : Vector Count 256) : List Node :=
  (tableLeaves freq).map leafNode ++
    mergeNodes (tableLeaves freq).length (tableLeaves freq).length (rankedEntries freq)

/-- The bits of a list of fields (R103). -/
def fieldBits (fs : List Instr) : Bits := fs.flatMap encode

/-- `good` is a proper beginning of the fields of a tree, each with a legal leaf value (30_encoding.md R108), and `next`
a field that may stand behind it: behind `good` ReadTree() expects one more node. -/
def BeginsTree (good : List Instr) (next : Instr) : Prop :=
  (∃ (u : CodeTree) (more : List Instr), u.fields = good ++ next :: more) ∧ ∀ g ∈ good, g.WellFormed = true

/-- A tree payload read from index `base` on that stops inside the tree, between two fields or inside one
(44_tree_codec.md R193, 60_exceptions.md R261). Once the arena is full only a whole missing field is a cut: the capacity
is checked before the leaf value is read (R257). -/
def CutPayload (base : Nat) (items : Bits) : Prop :=
  ∃ (good : List Instr) (next : Instr) (cut : Bits), BeginsTree good next ∧ items = fieldBits good ++ cut ∧
    cut <+: encode next ∧ cut ≠ encode next ∧ base + good.length ≤ Config.NODE_CAP ∧
    (cut = [] ∨ base + good.length < Config.NODE_CAP)

/-- A tree payload read from index `base` on that ReadTree() rejects, and the bits it leaves on BIN: the payload is cut
and the host signals the end; or anywhere in the tree a leaf has a value 257..511, or a node has no index left
(44_tree_codec.md R193, 30_encoding.md R108). -/
inductive BrokenPayload (ends : Bool) (base : Nat) : Bits → Bits → Prop where
  | cut (items : Bits) (he : ends = true) (hc : CutPayload base items) : BrokenPayload ends base items []
  | value (good : List Instr) (next : Instr) (v : SymVal) (left : Bits) (hg : BeginsTree good next)
      (hb : base + good.length < Config.NODE_CAP) (hv : 256 < v.toNat) :
      BrokenPayload ends base (fieldBits good ++ (true :: bitsOf v) ++ left) left
  | full (good : List Instr) (next : Instr) (tag : Bool) (left : Bits) (hg : BeginsTree good next)
      (hb : base + good.length = Config.NODE_CAP) : BrokenPayload ends base (fieldBits good ++ tag :: left) left

/-- The header of a compressed stream, with either selector, that DECODE accepts, and the tree it gives: any legal tree
behind any tree size; or any counts and the tree that the merge makes of them (30_encoding.md R98,
46_stream_decoder.md R233, R234). -/
inductive StreamHeader (b : BuildConsts) : Bool → Bits → CodeTree → Prop where
  | tree (z : Word32) (t : CodeTree) (hl : t.Legal) :
      StreamHeader b true (bitsOf b.magic ++ bitsOf b.selTree ++ bitsOf z ++ t.bits) t
  | counts (f : Vector Count 256) (t : CodeTree) (hm : mergeTrees (tableLeaves f).length (rankedLeaves f) = [t]) :
      StreamHeader b false (bitsOf b.magic ++ bitsOf b.selCounts ++ f.toList.flatMap bitsOf) t

/-- A header of a compressed stream that stops inside one of its fields (30_encoding.md R98). -/
inductive CutHeader (b : BuildConsts) : Bits → Prop where
  | magic (p : Bits) (h : p.length < 32) : CutHeader b p
  | selector (p : Bits) (h : p.length < 32) : CutHeader b (bitsOf b.magic ++ p)
  | counts (p : Bits) (h : p.length < 8192) : CutHeader b (bitsOf b.magic ++ bitsOf b.selCounts ++ p)
  | treeSize (p : Bits) (h : p.length < 32) : CutHeader b (bitsOf b.magic ++ bitsOf b.selTree ++ p)
  | payload (z : Word32) (p : Bits) (h : CutPayload 0 p) :
      CutHeader b (bitsOf b.magic ++ bitsOf b.selTree ++ bitsOf z ++ p)

/-- A command waits for ever: `busy`, no response, no fault (70_reset_and_hazards.md R286; log 6). -/
def Waits (t : State) : Prop := t.io.busy = true ∧ t.io.rspValid = false ∧ t.status.fault = none

/-- A field of the compressed stream that DECODE or RTREE does not expect where it is, told by DSTATE and HDRSEL
(46_stream_decoder.md R230 to R234; log 8). -/
def wrongPlace : Instr → Status → Prop
  | .wireMagic _, st => st.dstate ≠ .expectMagic
  | .wireSelector _, st => st.dstate ≠ .expectHeaderSelector
  | .wireCount _ _, st => st.dstate ≠ .expectHeaderPayload ∨ st.hdrsel = true
  | .wireTreeSize _, st => st.dstate ≠ .expectHeaderPayload ∨ st.hdrsel = false
  | .wireTreeLeaf _, st | .wireTreeInternal, st =>
    st.dstate = .expectMagic ∨ st.dstate = .expectHeaderSelector ∨ st.dstate = .walking ∨
      st.dstate = .expectHeaderPayload ∧ st.hdrsel = false
  | .clr, _ | .rdreg _, _ | .qins _ _ _, _ | .qrem, _ | .qpeek, _ | .qsize, _ | .facc, _ | .qload, _ | .fset _ _, _
  | .fget _, _ | .build, _ | .nget _, _ | .pget _, _ | .wtree, _ | .rtree, _ | .prep _, _ | .emit _, _
  | .decode, _ => False

/-- TREE_VALID is 1 (R30): ROOT names a complete tree and PATH, SIZE, NUMLEAF and TREE_BITS describe it. -/
def TreeOk (c : Session) : Prop :=
  ∃ t : CodeTree, IsTree c.node c.root t ∧ t.Legal ∧ c.size = BitVec.ofNat 10 t.size ∧
    c.numleaf = BitVec.ofNat 9 t.leaves ∧ c.treeBits = BitVec.ofNat 32 (t.size + 9 * t.leaves) ∧
    c.path = t.pathTable

/-- TREE_VALID is 0: ROOT is NIL and the metrics are 0 (R34, R35), and no path is valid. -/
def NoTree (c : Session) : Prop :=
  c.root = NIL ∧ c.size = 0 ∧ c.numleaf = 0 ∧ c.treeBits = 0 ∧ c.path = noPaths

/-- What holds of a session with no fault between two commands. -/
def SessionOk (st : Status) (c : Session) : Prop :=
  ArenaOk c.node ∧ QueueOk c ∧ (if st.treeValid = true then TreeOk c else NoTree c) ∧
  (st.prepped = true → st.treeValid = true ∧ (c.path[256]?).getD none ≠ none) ∧
  (st.dstate = .idle ∨ st.dstate = .done)

/-- CUR holds NIL or the index of an allocated entry (10_state.md R22, R25; log 15). -/
def CurOk (c : Session) : Prop := c.cur = NIL ∨ c.cur.toNat < c.node.length

/-- No stream port is held (20_memory.md R64). -/
def PortsClosed (io : Ports) : Prop :=
  io.sin.held = false ∧ io.sout.held = false ∧ io.bin.held = false ∧ io.bout.held = false

/-- The values RC takes (30_encoding.md R96): 4 to 8 are never given, 8 + code exactly while that fault is recorded
and was raised by the last command, 3 only in a faulted session. -/
def RcOk (s : State) : Prop :=
  match s.status.fault with
  | none => s.rsp.rc = 0 ∨ s.rsp.rc = 1 ∨ s.rsp.rc = 2
  | some f => s.rsp.rc = 8 + f.code ∨ s.rsp.rc = 3

/-- The invariant of the machine between two steps. While a command waits for ever (`busy`, R286) its ports stay held
and its half-made state is not constrained; a faulted session has no valid tree and no pre-pass (60_exceptions.md
R255), and its contents are undefined. -/
def Inv (s : State) : Prop :=
  RcOk s ∧
  (s.io.busy = false → PortsClosed s.io) ∧
  (s.status.fault ≠ none → s.status.prepped = false ∧ s.status.treeValid = false) ∧
  (s.status.fault = none → s.io.busy = false → SessionOk s.status s.ses ∧ CurOk s.ses)

end Sys2Proof.Machine
end

