-- ==== Sys2Proof/Certificates/Slice0/Obligations.lean ====
section
/-! DEFINITION. The statements about the machine, from the numbered rules of spec/. A result is written as the next
state itself: what its right side does not name is unchanged. -/

section

open Sys2Proof Sys2Proof.Machine

/-! ### Reset, the command port, STATUS -/

/-- 10_state.md R49: the value of every piece of state after reset. -/
def Obligations.ResetState : Prop :=
  State.reset.rsp = ⟨0, 0, 0, 0⟩ ∧ State.reset.status.word = 0x0000#16 ∧ State.reset.ses.cur = 0x3FF#10 ∧
  State.reset.ses.nalloc = 0 ∧ State.reset.ses.qlen = 0 ∧ State.reset.ses.root = 0x3FF#10 ∧
  State.reset.ses.size = 0 ∧ State.reset.ses.numleaf = 0 ∧ State.reset.ses.treeBits = 0 ∧
  State.reset.ses.hdrTreeBits = 0 ∧ State.reset.ses.origBits = 0 ∧ State.reset.ses.projBits = 0 ∧
  State.reset.ses.outBits = 0 ∧ State.reset.ses.savings = 0 ∧
  (∀ k < 256, State.reset.freqAt k = 0) ∧ (∀ k < 257, State.reset.pathAt k = none)

/-- The state after reset meets the invariant (20_memory.md R64, 10_state.md R41, R44). -/
def Obligations.ResetMeetsInvariant : Prop := Inv State.reset

/-- 70_reset_and_hazards.md R280: reset in any state, also while a command runs. Every register and array has its reset
value, the four ports are released, no response is given, and what had been written stays written. -/
def Obligations.ResetAbandonsCommand : Prop :=
  ∀ (s : State) (rest : List HostAct), s.host = .reset :: rest →
    ∃ t, step s = .next t ∧ t.rsp = ⟨0, 0, 0, 0⟩ ∧ t.status = State.reset.status ∧ t.ses = State.reset.ses ∧
      PortsClosed t.io ∧ t.io.busy = false ∧ t.io.rspValid = false ∧ t.io.sout.sent = s.io.sout.sent ∧
      t.io.bout.sent = s.io.bout.sent ∧ t.build = s.build ∧ t.host = rest

/-- 40_system_commands.md R122: CLR in any state, faulted or not, makes the session and the STATUS of reset and answers
0; its word is the only one that does. -/
def Obligations.ClrMakesFreshSession : Prop :=
  (∀ s : State, exec .clr s =
    .next (respond ⟨0, 0, 0, 0⟩ { s with ses := State.reset.ses, status := State.reset.status })) ∧
  (∀ w : CmdWord, decode w = .ok .clr ↔ w = 0x0100000000000000#64)

/-- 10_state.md R23, R24, R26, 60_exceptions.md R250: STATUS, field by field, with the numbers of the seven faults and
of the six decoder states. -/
def Obligations.StatusWordLayout : Prop :=
  ∀ st : Status,
    st.word.extractLsb' 0 4 = (match st.fault with
      | none => 0#4
      | some .invalidArgument => 1#4
      | some .preconditionViolation => 2#4
      | some .notAHuffmanFile => 3#4
      | some .corruptFormat => 4#4
      | some .truncatedStream => 5#4
      | some .capacityFault => 6#4
      | some .illegalCommand => 7#4) ∧
    st.word.getLsbD 4 = st.prepped ∧ st.word.getLsbD 5 = st.declined ∧ st.word.getLsbD 6 = st.empty ∧
    st.word.getLsbD 7 = st.treeValid ∧ st.word.getLsbD 8 = st.hdrsel ∧
    st.word.extractLsb' 9 3 = (match st.dstate with
      | .idle => 0#3
      | .expectMagic => 1#3
      | .expectHeaderSelector => 2#3
      | .expectHeaderPayload => 3#3
      | .walking => 4#3
      | .done => 5#3) ∧
    st.word.extractLsb' 12 4 = 0

/-- A command given while HTB is not busy, whose word decodes to `i`: the step is `exec` of `i` on the streams of the
offer (20_memory.md R65, 40_system_commands.md R121). -/
def Obligations.StepRunsDecoded : Prop :=
  ∀ (s : State) (o : Offer) (rest : List HostAct) (i : Instr),
    s.host = .command o :: rest → s.io.busy = false → decode o.word = .ok i →
      step s = exec i (acceptOffer o rest s)

/-- 20_memory.md R65, 70_reset_and_hazards.md R286: while a command waits for ever a new command word is not sampled and
nothing changes; the same when the host gives nothing. That the word then stays with the host is the model's choice
(log entry 14). -/
def Obligations.BusySamplesNothing : Prop :=
  (∀ (s : State) (o : Offer) (rest : List HostAct), s.host = .command o :: rest → s.io.busy = true →
    step s = .next { s with io := { s.io with rspValid := false } }) ∧
  (∀ s : State, s.host = [] → step s = .next { s with io := { s.io with rspValid := false } })

/-- 30_encoding.md R94, 60_exceptions.md R250: a command word that matches no row takes IllegalCommand. -/
def Obligations.IllegalWordTraps : Prop :=
  ∀ (s : State) (o : Offer) (rest : List HostAct) (r : Reject),
    s.host = .command o :: rest → s.io.busy = false → s.status.fault = none → decode o.word = .error r →
      step s = .next (takeFault .illegalCommand (acceptOffer o rest s))

/-- 60_exceptions.md R256: while FAULT is not 0 every command word except the exact CLR word, legal or not, is
refused: RC 3, the other response registers 0, nothing else changes. -/
def Obligations.FaultedSessionRefuses : Prop :=
  ∀ (s : State) (o : Offer) (rest : List HostAct) (f : FaultKind),
    s.host = .command o :: rest → s.io.busy = false → s.status.fault = some f →
    o.word ≠ 0x0100000000000000#64 →
      step s = .next (respond ⟨3, 0, 0, 0⟩ (acceptOffer o rest s))

/-- 60_exceptions.md R255, 30_encoding.md R96: what taking a fault does, with the completion code of each fault as a
number. The session's registers and arrays are undefined: the free value of log entry 3. -/
def Obligations.FaultEntry : Prop :=
  ∀ (f : FaultKind) (s : State),
    PortsClosed (takeFault f s).io ∧ SameStreams s (takeFault f s) ∧
    (takeFault f s).rsp = ⟨match f with
      | .invalidArgument => 9#4
      | .preconditionViolation => 10#4
      | .notAHuffmanFile => 11#4
      | .corruptFormat => 12#4
      | .truncatedStream => 13#4
      | .capacityFault => 14#4
      | .illegalCommand => 15#4, 0, 0, 0⟩ ∧
    (takeFault f s).rsp.rc = 8 + f.code ∧
    (takeFault f s).status = { s.status with fault := some f, prepped := false, treeValid := false } ∧
    (takeFault f s).ses = Config.undefinedSession s.freeCtr ∧ (takeFault f s).io.busy = false

/-- 60_exceptions.md R250: which instruction raises which fault, and how a raised fault is answered (`FaultEntry` has
the codes as numbers); and no instruction raises any other. -/
def Obligations.FaultsPerCommand : Prop :=
  ∀ (i : Instr) (s t : State) (f : FaultKind),
    s.status.fault = none → exec i s = .next t → t.status.fault = some f →
      f ∈ mayRaise i ∧ t.rsp = ⟨8 + f.code, 0, 0, 0⟩ ∧ t.status.prepped = false ∧ t.status.treeValid = false ∧
      t.io.busy = false ∧ t.io.sin.held = false ∧ t.io.sout.held = false ∧ t.io.bin.held = false ∧
      t.io.bout.held = false

/-! ### Encodings -/

/-- 30_encoding.md R90, R91, R92: the decoder accepts a word exactly when it matches a row of the opcode table, written
out here as mask and value. -/
def Obligations.DecoderMatchesTable : Prop :=
  ∀ w : CmdWord, (∃ i, decode w = .ok i) ↔
    ∃ row ∈ ([(0xFFFFFFFFFFFFFFFF, 0x0100000000000000), (0xFFFFFFFFFFFFFC00, 0x0200000000000000),
        (0xFF7C000000000000, 0x1000000000000000), (0xFFFFFFFFFFFFFFFF, 0x1100000000000000),
        (0xFFFFFFFFFFFFFFFF, 0x1200000000000000), (0xFFFFFFFFFFFFFFFF, 0x1300000000000000),
        (0xFFFFFFFFFFFFFFFF, 0x2000000000000000), (0xFFFFFFFFFFFFFFFF, 0x2100000000000000),
        (0xFFFFFE0000000000, 0x2200000000000000), (0xFFFFFFFFFFFFFE00, 0x2300000000000000),
        (0xFFFFFFFFFFFFFFFF, 0x3000000000000000), (0xFFFFFFFFFFFFFC00, 0x3100000000000000),
        (0xFFFFFFFFFFFFFE00, 0x3200000000000000), (0xFFFFFFFFFFFFFFFF, 0x4000000000000000),
        (0xFFFFFFFFFFFFFFFF, 0x4100000000000000), (0xFFFFFFFFFFFFFFFE, 0x5000000000000000),
        (0xFFFFFFFFFFFFFFFE, 0x5100000000000000), (0xFFFFFFFFFFFFFFFF, 0x6000000000000000)] :
        List (CmdWord × CmdWord)), w &&& row.1 = row.2

/-- 30_encoding.md R90 to R92: every command, at every value of its operand fields, is encoded in one word that decodes
to it. -/
def Obligations.CommandRoundTrip : Prop :=
  ∀ i : Instr, i.isCommand = true → ∃ w, encodeWord i = some w ∧ encode i = bitsOf w ∧ decode w = .ok i

/-- 30_encoding.md R90 to R92: a word that decodes is the word of the command it decodes to: the decoder drops no bit. -/
def Obligations.DecodedWordIsEncoded : Prop :=
  ∀ (w : CmdWord) (i : Instr), decode w = .ok i → encodeWord i = some w

/-- 30_encoding.md R98, R103: every field of the compressed stream, at every value, is read back from its place in the
stream, and the bits behind it are left. -/
def Obligations.FieldRoundTrip : Prop :=
  ∀ (i : Instr) (slot : WireSlot) (rest : Bits), i.slot = some slot →
    decodeField slot (encode i ++ rest) = some (i, rest)

/-- 30_encoding.md R106, R107 and the first word of R98: words written out by the spec decode to what they stand for. -/
def Obligations.WrittenWordsDecode : Prop :=
  decode 0x1100000000000000#64 = .ok .qrem ∧ decode 0x3100000000000006#64 = .ok (.nget 6) ∧
  decode 0x3200000000000041#64 = .ok (.pget 65) ∧ decode 0x2200004100000003#64 = .ok (.fset 65 3) ∧
  decode 0x1080860000000001#64 = .ok (.qins true 67 1) ∧ decode 0x5000000000000001#64 = .ok (.prep true) ∧
  decode 0x1000000000000000#64 = .ok (.qins false 0 0) ∧ decode 0#64 = .error .reservedOpcode

/-! ### CLR and RDREG, NGET, PGET, FGET: reading -/

/-- 40_system_commands.md R123, 10_state.md R39: RDREG returns the register its number names and changes nothing else;
a reserved number is IllegalCommand. -/
def Obligations.RdregReads : Prop :=
  ∀ s : State, s.status.fault = none →
    exec (.rdreg 0) s = .next (respond ⟨0, s.status.word.setWidth 64, 0, 0⟩ s) ∧
    exec (.rdreg 1) s = .next (respond ⟨0, s.ses.nalloc.setWidth 64, 0, 0⟩ s) ∧
    exec (.rdreg 2) s = .next (respond ⟨0, s.ses.qlen.setWidth 64, 0, 0⟩ s) ∧
    exec (.rdreg 3) s = .next (respond ⟨0, s.ses.root.setWidth 64, 0, 0⟩ s) ∧
    exec (.rdreg 4) s = .next (respond ⟨0, s.ses.cur.setWidth 64, 0, 0⟩ s) ∧
    exec (.rdreg 5) s = .next (respond ⟨0, s.ses.size.setWidth 64, 0, 0⟩ s) ∧
    exec (.rdreg 6) s = .next (respond ⟨0, s.ses.numleaf.setWidth 64, 0, 0⟩ s) ∧
    exec (.rdreg 7) s = .next (respond ⟨0, s.ses.treeBits.setWidth 64, 0, 0⟩ s) ∧
    exec (.rdreg 8) s = .next (respond ⟨0, s.ses.hdrTreeBits.setWidth 64, 0, 0⟩ s) ∧
    exec (.rdreg 9) s = .next (respond ⟨0, s.ses.origBits, 0, 0⟩ s) ∧
    exec (.rdreg 10) s = .next (respond ⟨0, s.ses.projBits, 0, 0⟩ s) ∧
    exec (.rdreg 11) s = .next (respond ⟨0, s.ses.savings, 0, 0⟩ s) ∧
    exec (.rdreg 12) s = .next (respond ⟨0, s.ses.outBits, 0, 0⟩ s) ∧
    ∀ num : BitVec 10, 12 < num.toNat → exec (.rdreg num) s = .next (takeFault .illegalCommand s)

/-- 30_encoding.md R97: the node image, bit field by bit field, and the image of no node. -/
def Obligations.NodeImageLayout : Prop :=
  (∀ (rc : BitVec 4) (i : Idx) (n : Node), ∃ r0 r1 : Word64, nodeReply rc i (some n) = ⟨rc, r0, r1, 0⟩ ∧
    r0.extractLsb' 52 12 = 0 ∧ r0.getLsbD 51 = true ∧ r1.extractLsb' 20 10 = i ∧ r1.extractLsb' 30 34 = 0 ∧
    match n with
    | .leaf sym w => r0.extractLsb' 0 41 = w ∧ r0.extractLsb' 41 9 = sym ∧ r0.getLsbD 50 = true ∧
        r1.extractLsb' 0 10 = NIL ∧ r1.extractLsb' 10 10 = NIL
    | .internal w l r => r0.extractLsb' 0 41 = w ∧ r0.extractLsb' 41 9 = 0 ∧ r0.getLsbD 50 = false ∧
        r1.extractLsb' 0 10 = l ∧ r1.extractLsb' 10 10 = r) ∧
  ∀ (rc : BitVec 4) (i : Idx), nodeReply rc i none = ⟨rc, 0, 0x3FFFFFFF, 0⟩

/-- 43_tree_builder.md R176: NGET returns the image of an allocated node, and no node at and above NALLOC. -/
def Obligations.NgetReads : Prop :=
  ∀ (s : State) (num : Idx), s.status.fault = none →
    (∀ n, s.ses.node[num.toNat]? = some n → exec (.nget num) s = .next (respond (nodeReply 0 num (some n)) s)) ∧
    (s.ses.node.length ≤ num.toNat → exec (.nget num) s = .next (respond (nodeReply 0 num none) s))

/-- 43_tree_builder.md R177, 10_state.md R45: PGET returns a path's length and its bits, the first choice in bit 255;
no path is 0; a symbol 257..511 is InvalidArgument. -/
def Obligations.PgetReads : Prop :=
  ∀ (s : State) (sym : SymVal), s.status.fault = none →
    (∀ p : Bits, sym.toNat ≤ 256 → s.status.treeValid = true → s.pathAt sym.toNat = some p → p.length ≤ 256 →
      ∃ image : BitVec 256,
        exec (.pget sym) s = .next (respond ⟨0, BitVec.ofNat 64 (0x200 + p.length), 0, image⟩ s) ∧
        (∀ k, k < p.length → p[k]? = some (image.getLsbD (255 - k))) ∧
        ∀ j, j < 256 - p.length → image.getLsbD j = false) ∧
    (sym.toNat ≤ 256 → (s.status.treeValid = false ∨ s.pathAt sym.toNat = none) →
      exec (.pget sym) s = .next (respond ⟨0, 0, 0, 0⟩ s)) ∧
    (256 < sym.toNat → exec (.pget sym) s = .next (takeFault .invalidArgument s))

/-- 42_frequency_accumulator.md R154: FSET writes one count and clears PREPPED; symbols 256..511 are
InvalidArgument. -/
def Obligations.FsetWrites : Prop :=
  ∀ (s : State) (sym : SymVal) (count : Count), s.status.fault = none →
    (sym.toNat ≤ 255 → ∃ t, exec (.fset sym count) s = .next (respond ⟨0, 0, 0, 0⟩ t) ∧
      t = { s with status := { s.status with prepped := false }, ses := { s.ses with freq := t.ses.freq } } ∧
      t.freqAt sym.toNat = count ∧ ∀ k, k ≠ sym.toNat → t.freqAt k = s.freqAt k) ∧
    (255 < sym.toNat → exec (.fset sym count) s = .next (takeFault .invalidArgument s))

/-- 42_frequency_accumulator.md R155: FGET returns one count; symbols 256..511 are InvalidArgument. -/
def Obligations.FgetReads : Prop :=
  ∀ (s : State) (sym : SymVal), s.status.fault = none →
    (sym.toNat ≤ 255 →
      exec (.fget sym) s = .next (respond ⟨0, (s.freqAt sym.toNat).setWidth 64, 0, 0⟩ s)) ∧
    (255 < sym.toNat → exec (.fget sym) s = .next (takeFault .invalidArgument s))

/-! ### The ranked queue -/

/-- 41_ranked_queue.md R132, R130, R137 (e): QINS puts its leaf at the end of NODE and into the queue behind exactly
the entries of at most its weight, and answers both places. -/
def Obligations.QinsInserts : Prop :=
  ∀ (s : State) (sym : SymVal) (w : Weight), s.status.fault = none → QueueOk s.ses → s.ses.q.length < 257 →
    s.ses.node.length < 513 → sym.toNat ≤ 256 →
    ∃ pos, pos = (s.ses.q.filter fun j => decide (entryWeight s.ses.node j ≤ w)).length ∧
      exec (.qins true sym w) s = .next
        (respond ⟨0, BitVec.ofNat 64 s.ses.node.length, BitVec.ofNat 64 pos, 0⟩
          { s with
            status := { s.status with prepped := false }
            ses := { s.ses with
              node := s.ses.node ++ [.leaf sym w]
              q := s.ses.q.take pos ++ BitVec.ofNat 10 s.ses.node.length :: s.ses.q.drop pos } })

/-- 41_ranked_queue.md R132, 30_encoding.md R93: what QINS rejects, in the order of 60_exceptions.md R257: the null
node, a symbol 257..511, a full queue or arena. -/
def Obligations.QinsRejects : Prop :=
  ∀ (s : State) (sym : SymVal) (w : Weight), s.status.fault = none →
    exec (.qins false sym w) s = .next (takeFault .invalidArgument s) ∧
    (256 < sym.toNat → exec (.qins true sym w) s = .next (takeFault .invalidArgument s)) ∧
    (sym.toNat ≤ 256 → (257 ≤ s.ses.q.length ∨ 513 ≤ s.ses.node.length) →
      exec (.qins true sym w) s = .next (takeFault .capacityFault s))

/-- 41_ranked_queue.md R134, R131: QREM takes the front entry and returns its node; on an empty queue RC EMPTY. -/
def Obligations.QremRemoves : Prop :=
  ∀ s : State, s.status.fault = none →
    (∀ i rest n, s.ses.q = i :: rest → s.ses.node[i.toNat]? = some n →
      exec .qrem s = .next (respond (nodeReply 0 i (some n))
        { s with status := { s.status with prepped := false, empty := false }, ses := { s.ses with q := rest } })) ∧
    (s.ses.q = [] → exec .qrem s = .next (respond ⟨1, 0, 0x3FFFFFFF, 0⟩
        { s with status := { s.status with prepped := false, empty := true } }))

/-- 41_ranked_queue.md R135: QPEEK returns the front node and keeps the queue; on an empty queue RC EMPTY. -/
def Obligations.QpeekLooks : Prop :=
  ∀ s : State, s.status.fault = none →
    (∀ i rest n, s.ses.q = i :: rest → s.ses.node[i.toNat]? = some n →
      exec .qpeek s = .next (respond (nodeReply 0 i (some n))
        { s with status := { s.status with empty := false } })) ∧
    (s.ses.q = [] → exec .qpeek s = .next (respond ⟨1, 0, 0x3FFFFFFF, 0⟩
        { s with status := { s.status with empty := true } }))

/-- 41_ranked_queue.md R136: QSIZE returns QLEN and changes nothing. -/
def Obligations.QsizeCounts : Prop :=
  ∀ s : State, s.status.fault = none →
    exec .qsize s = .next (respond ⟨0, s.ses.qlen.setWidth 64, 0, 0⟩ s)

/-- 41_ranked_queue.md R137 (b), (c): the node QREM returns has the least weight of the queue, and among the entries of
that weight it was inserted first. -/
def Obligations.QremReturnsLightest : Prop :=
  ∀ s : State, s.status.fault = none → QueueOk s.ses → s.ses.q ≠ [] →
    ∃ i n t, exec .qrem s = .next t ∧ t.rsp = nodeReply 0 i (some n) ∧ s.ses.q = i :: t.ses.q ∧
      s.ses.node[i.toNat]? = some n ∧
      ∀ j ∈ t.ses.q, n.weight < entryWeight s.ses.node j ∨
        (n.weight = entryWeight s.ses.node j ∧ i.toNat < j.toNat)

/-! ### The frequency accumulator and the queue load -/

/-- 42_frequency_accumulator.md R151, R150: FACC counts the words up to END or the marker on top of the counts present,
and answers their number and whether the marker ended the pass. -/
def Obligations.FaccCounts : Prop :=
  ∀ (s : State) (xs tail : List SymVal), s.status.fault = none → s.io.sin.items = xs ++ tail → AllWords xs →
    PassEnds s.io.sin.ends tail → (∀ k < 256, (s.freqAt k).toNat + occurrences k xs < 2 ^ 32) →
    ∃ f, exec .facc s = .next
        (respond ⟨0, BitVec.ofNat 64 xs.length, if tail = [] then 0 else 1, 0⟩
          { s with
            status := { s.status with prepped := false }
            ses := { s.ses with freq := f }
            io := { s.io with sin := { s.io.sin with items := tail.tail, held := false } } }) ∧
      ∀ k < 256, ((f[k]?).getD 0).toNat = (s.freqAt k).toNat + occurrences k xs

/-- 42_frequency_accumulator.md R150, R151, 45_stream_compress.md R211: an item 257..511 is InvalidArgument and a full
count CapacityFault, behind any words that count normally; the items behind it stay with the host. -/
def Obligations.CountingRejects : Prop :=
  ∀ (s : State) (xs more : List SymVal) (y : SymVal) (f : Vector Count 256) (i : Instr), s.status.fault = none →
    s.io.sin.items = xs ++ y :: more → AllWords xs →
    (i = .facc ∧ f = s.ses.freq) ∨ (∃ hdr, i = .prep hdr) ∧ f = Vector.replicate 256 0 →
    (∀ k < 256, ((f[k]?).getD 0).toNat + occurrences k xs < 2 ^ 32) →
    (256 < y.toNat → ∃ t, exec i s = .next (takeFault .invalidArgument t) ∧ t.io.sin.items = more ∧
      t.io.sout = s.io.sout ∧ t.io.bin = s.io.bin ∧ t.io.bout = s.io.bout) ∧
    (y.toNat ≤ 255 → ((f[y.toNat]?).getD 0).toNat + occurrences y.toNat xs = 2 ^ 32 - 1 →
      ∃ t, exec i s = .next (takeFault .capacityFault t) ∧ t.io.sin.items = more ∧
        t.io.sout = s.io.sout ∧ t.io.bin = s.io.bin ∧ t.io.bout = s.io.bout)

/-- 42_frequency_accumulator.md R153, R152, R156 (c): QLOAD resets the arena and everything of an earlier tree, makes
the leaves of the symbols that occur in ascending order with PSEUDO_EOF last, and queues exactly them in their order. That
CUR becomes NIL where it is no index of the new arena is read from 10_state.md R22 and R25 (log entry 15). -/
def Obligations.QloadLoads : Prop :=
  ∀ s : State, s.status.fault = none →
    ∃ q', exec .qload s = .next
        (respond ⟨0, BitVec.ofNat 64 (tableLeaves s.ses.freq).length, 0, 0⟩
          { s with
            status := { s.status with prepped := false, treeValid := false }
            ses := { s.ses with
              cur := if s.ses.cur.toNat < (tableLeaves s.ses.freq).length then s.ses.cur else 0x3FF#10
              node := (tableLeaves s.ses.freq).map leafNode, q := q', root := NIL, size := 0, numleaf := 0,
              treeBits := 0, path := Vector.replicate 257 none } }) ∧
      q'.Pairwise (Before ((tableLeaves s.ses.freq).map leafNode)) ∧
      (q'.map (leafAt ((tableLeaves s.ses.freq).map leafNode))).Perm ((tableLeaves s.ses.freq).map some)

/-! ### The tree -/

/-- 43_tree_builder.md R172, R170, R171, R173, 10_state.md R42, R43: BUILD of `n` queued leaves ends in the one tree that
the merge of R170 makes of them, adds the `n - 1` nodes of the merge in the order in which it allocates them, each behind
its children, empties the queue, and derives the path table and the metrics of that tree. ROOT is the last node added,
or the one entry of a queue of one. -/
def Obligations.BuildMerges : Prop :=
  ∀ (s : State) (n : Nat), s.status.fault = none → QueueOk s.ses → s.ses.q.length = n → 0 < n →
    totalWeight (queueLeaves s.ses) < 2 ^ 41 → s.ses.node.length + n ≤ 514 →
    ∃ (t : CodeTree) (r : Idx) (more : List Node),
      mergeTrees n (queueLeaves s.ses) = [t] ∧ t.leaves = n ∧ t.weight.toNat = totalWeight (queueLeaves s.ses) ∧
      IsTree (s.ses.node ++ more) r t ∧ more.length = n - 1 ∧
      more = mergeNodes n s.ses.node.length (queueEntries s.ses.node s.ses.q) ∧
      ChildrenFirst s.ses.node.length more ∧
      (n = 1 → s.ses.q = [r]) ∧ (1 < n → r = BitVec.ofNat 10 (s.ses.node.length + n - 2)) ∧
      exec .build s = .next
        (respond ⟨0, BitVec.ofNat 64 (2 * n - 1), BitVec.ofNat 64 n, 0⟩
          { s with
            status := { s.status with prepped := false, treeValid := true }
            ses := { s.ses with
              node := s.ses.node ++ more, q := [], root := r, size := BitVec.ofNat 10 (2 * n - 1),
              numleaf := BitVec.ofNat 9 n, treeBits := BitVec.ofNat 32 (2 * n - 1 + 9 * n), path := t.pathTable } })

/-- 43_tree_builder.md R170, R172: BUILD of an empty queue is PreconditionViolation; a weight sum of `2^41` or an arena
without room for the internal nodes is CapacityFault. -/
def Obligations.BuildRejects : Prop :=
  ∀ s : State, s.status.fault = none →
    (s.ses.q = [] → exec .build s = .next (takeFault .preconditionViolation s)) ∧
    (QueueOk s.ses → s.ses.node.length ≤ 513 → s.ses.q ≠ [] →
      (2 ^ 41 ≤ totalWeight (queueLeaves s.ses) ∨ 514 < s.ses.node.length + s.ses.q.length) →
      exec .build s = .next (takeFault .capacityFault s))

/-- 43_tree_builder.md R178: QLOAD then BUILD with no count, and with one symbol's count. -/
def Obligations.DegenerateTrees : Prop :=
  ∀ s : State, s.status.fault = none →
    (s.ses.freq = Vector.replicate 256 0 → ∃ t u, exec .qload s = .next t ∧ exec .build t = .next u ∧
      t.ses.q = [0] ∧ t.ses.node = [.leaf 256 1] ∧ u.ses.root = 0 ∧ u.ses.size = 1 ∧ u.ses.numleaf = 1 ∧
      u.ses.treeBits = 10 ∧ u.pathAt 256 = some []) ∧
    (∀ (k : Nat) (c : Count), k < 256 → c ≠ 0 →
      s.ses.freq = (Vector.replicate 256 0).setIfInBounds k c →
      ∃ t u, exec .qload s = .next t ∧ exec .build t = .next u ∧
        t.ses.node = [.leaf (BitVec.ofNat 9 k) (c.setWidth 41), .leaf 256 1] ∧
        u.ses.size = 3 ∧ u.ses.numleaf = 2 ∧ u.ses.treeBits = 21 ∧
        (c = 1 → t.ses.q = [0, 1] ∧ u.pathAt k = some [false] ∧ u.pathAt 256 = some [true]) ∧
        (c ≠ 1 → t.ses.q = [1, 0] ∧ u.pathAt k = some [true] ∧ u.pathAt 256 = some [false]))

/-- 43_tree_builder.md R175 (a), (c), (d): in a session with a valid tree the path table has an entry exactly for the
symbols of the leaves, following a path from the root ends at a leaf of its symbol, and no symbol's path begins with
another symbol's path. -/
def Obligations.PathTableIsPrefixFree : Prop :=
  ∀ s : State, SessionOk s.status s.ses → s.status.treeValid = true →
    ∃ t : CodeTree, IsTree s.ses.node s.ses.root t ∧
      (∀ k < 257, HasPath s.ses.path k ↔ ∃ sym ∈ t.syms, sym.toNat = k) ∧
      (∀ k p, s.pathAt k = some p → ∃ sym w, t.follow p = some (.leaf sym w) ∧ sym.toNat = k) ∧
      ∀ k l p q r, k ≠ l → s.pathAt k = some p → s.pathAt l = some q → q ≠ p ++ r

/-! ### The tree codec -/

/-- 44_tree_codec.md R192, R190, R191: WTREE appends the serialized form of the tree to BOUT, and answers TREE_BITS,
its length; without a valid tree it is PreconditionViolation. -/
def Obligations.WtreeWrites : Prop :=
  ∀ s : State, s.status.fault = none →
    (∀ t : CodeTree, s.status.treeValid = true → TreeOk s.ses → IsTree s.ses.node s.ses.root t →
      Takes s.io.bout.room t.bits.length →
      s.ses.treeBits.toNat = t.bits.length ∧
      exec .wtree s = .next (respond ⟨0, BitVec.ofNat 64 t.bits.length, 0, 0⟩
        { s with
          ses := { s.ses with outBits := BitVec.ofNat 64 t.bits.length }
          io := { s.io with bout := ⟨s.io.bout.sent ++ t.bits, roomLeft s.io.bout.room t.bits.length, false⟩ } })) ∧
    (s.status.treeValid = false → exec .wtree s = .next (takeFault .preconditionViolation s))

/-- 44_tree_codec.md R194, R193, R196: RTREE reads a tree payload, numbers its nodes in pre-order from 0 with weight 1,
makes it the current tree and leaves the bits behind it. That CUR becomes NIL where it is no index of the new arena is
read from 10_state.md R22 and R25 (log entry 15). -/
def Obligations.RtreeReads : Prop :=
  ∀ (s : State) (t : CodeTree) (rest : Bits), s.status.fault = none → t.Legal → s.io.bin.items = t.bits ++ rest →
    IsTree (t.unweighted.preOrder 0) 0 t.unweighted ∧ (t.unweighted.preOrder 0).length = t.size ∧
      exec .rtree s = .next (respond ⟨0, BitVec.ofNat 64 t.size, BitVec.ofNat 64 t.leaves, 0⟩
        { s with
          status := { s.status with prepped := false, treeValid := true }
          ses := { s.ses with
            cur := if s.ses.cur.toNat < t.size then s.ses.cur else 0x3FF#10
            node := t.unweighted.preOrder 0, q := [], root := 0, size := BitVec.ofNat 10 t.size,
            numleaf := BitVec.ofNat 9 t.leaves, treeBits := BitVec.ofNat 32 t.bits.length, path := t.pathTable }
          io := { s.io with bin := { s.io.bin with items := rest, held := false } } })

/-- 44_tree_codec.md R193, R194, 60_exceptions.md R261: RTREE raises CorruptFormat on a payload that ends inside the
tree, and on a leaf value 257..511 or a 514th node anywhere in it; the bits behind the offending one stay with the
host. -/
def Obligations.RtreeRejects : Prop :=
  ∀ (s : State) (left : Bits), s.status.fault = none → BrokenPayload s.io.bin.ends 0 s.io.bin.items left →
    exec .rtree s = .next (takeFault .corruptFormat (s.setBin left))

/-- 44_tree_codec.md R195: what WTREE writes, RTREE reads back, consuming exactly it, with the same metrics and paths,
and WTREE then writes it again. -/
def Obligations.SerializedTreeRoundTrip : Prop :=
  ∀ (s : State) (rest : Bits), s.status.fault = none → SessionOk s.status s.ses → s.status.treeValid = true →
    Takes s.io.bout.room (2 * s.ses.treeBits.toNat) →
    ∃ B t u v, exec .wtree s = .next t ∧ t.io.bout.sent = s.io.bout.sent ++ B ∧
      exec .rtree (t.setBin (B ++ rest)) = .next u ∧ u.io.bin.items = rest ∧ u.rsp.rc = 0 ∧
      exec .wtree u = .next v ∧ v.io.bout.sent = t.io.bout.sent ++ B ∧ v.rsp.rc = 0 ∧
      u.ses.size = s.ses.size ∧ u.ses.numleaf = s.ses.numleaf ∧ u.ses.treeBits = s.ses.treeBits ∧
      u.ses.path = s.ses.path ∧ B.length = s.ses.treeBits.toNat

/-! ### The compressor -/

/-- 45_stream_compress.md R211, R213, 10_state.md R42, R43: PREP starts a fresh session, counts its input, builds the
tree of the counts (NODE is the leaves, then the nodes of the merge in allocation order, ROOT the last), and records the
original size, the projected size and the savings. -/
def Obligations.PrepPrepares : Prop :=
  ∀ (s : State) (hdr : Bool) (xs tail : List SymVal), s.status.fault = none → s.io.sin.items = xs ++ tail →
    AllWords xs → PassEnds s.io.sin.ends tail → (∀ k < 256, occurrences k xs < 2 ^ 32) →
    ∃ c : Session,
      exec (.prep hdr) s = .next (respond ⟨0, c.savings, c.projBits, 0⟩
        { s with
          status := { State.reset.status with prepped := true, treeValid := true, hdrsel := hdr }
          ses := c
          io := { s.io with sin := { s.io.sin with items := tail.tail, held := false } } }) ∧
      (∀ k < 256, ((c.freq[k]?).getD 0).toNat = occurrences k xs) ∧
      c.node = tableNodes c.freq ∧ ChildrenFirst 0 c.node ∧ c.root = BitVec.ofNat 10 (c.node.length - 1) ∧
      (∃ t : CodeTree, mergeTrees (tableLeaves c.freq).length (rankedLeaves c.freq) = [t] ∧ IsTree c.node c.root t ∧
        t.leaves = (tableLeaves c.freq).length ∧ c.size = BitVec.ofNat 10 t.size ∧
        c.numleaf = BitVec.ofNat 9 t.leaves ∧ c.treeBits = BitVec.ofNat 32 t.bits.length ∧ c.path = t.pathTable) ∧
      c.origBits = BitVec.ofNat 64 (8 * xs.length) ∧
      c.projBits = BitVec.ofNat 64 (64 + (if hdr then 32 + c.treeBits.toNat else 8192) +
        ((List.range 256).map fun k => occurrences k xs * (pathBits c.path k).length).sum +
        (pathBits c.path 256).length) ∧
      c.savings = c.origBits - c.projBits ∧ c.outBits = 0 ∧ c.hdrTreeBits = 0 ∧ c.cur = NIL ∧ c.q = []

/-- 45_stream_compress.md R215, R216: EMIT without a successful pre-pass is PreconditionViolation; without the override
it declines when the projected size is not smaller than the original, writing nothing. -/
def Obligations.EmitDeclines : Prop :=
  ∀ s : State, s.status.fault = none →
    (∀ force, s.status.prepped = false → exec (.emit force) s = .next (takeFault .preconditionViolation s)) ∧
    (s.status.prepped = true → s.ses.origBits.toNat ≤ s.ses.projBits.toNat →
      exec (.emit false) s = .next (respond ⟨2, 0, s.ses.projBits, 0⟩
        { s with status := { s.status with declined := true } }))

/-- 45_stream_compress.md R215, R217, 30_encoding.md R98, R104: EMIT writes the magic, the selector, the header, each
word's path and the PSEUDO_EOF path, and answers the number of bits written. -/
def Obligations.EmitWrites : Prop :=
  ∀ (s : State) (force : Bool) (t : CodeTree) (xs tail : List SymVal) (B : Bits), s.status.fault = none →
    SessionOk s.status s.ses → s.status.prepped = true →
    (force = true ∨ s.ses.projBits.toNat < s.ses.origBits.toNat) → IsTree s.ses.node s.ses.root t →
    s.io.sin.items = xs ++ tail → AllWords xs → (∀ x ∈ xs, HasPath s.ses.path x.toNat) →
    PassEnds s.io.sin.ends tail →
    B = headerField s.build s.status.hdrsel s.ses.freq t ++ dataField s.ses.path xs →
    Takes s.io.bout.room B.length → B.length < 2 ^ 64 →
    exec (.emit force) s = .next (respond ⟨0, BitVec.ofNat 64 B.length, s.ses.projBits, 0⟩
      { s with
        status := { s.status with declined := false }
        ses := { s.ses with outBits := BitVec.ofNat 64 B.length }
        io := { s.io with
          sin := { s.io.sin with items := tail.tail, held := false }
          bout := ⟨s.io.bout.sent ++ B, roomLeft s.io.bout.room B.length, false⟩ } })

/-- 45_stream_compress.md R215, R217: inside the stream an item 257..511 is InvalidArgument and a word without a path
PreconditionViolation; what was written before it stays written. -/
def Obligations.EmitRejects : Prop :=
  ∀ (s : State) (force : Bool) (t : CodeTree) (xs more : List SymVal) (y : SymVal) (B : Bits), s.status.fault = none →
    SessionOk s.status s.ses → s.status.prepped = true →
    (force = true ∨ s.ses.projBits.toNat < s.ses.origBits.toNat) → IsTree s.ses.node s.ses.root t →
    s.io.sin.items = xs ++ y :: more → AllWords xs → (∀ x ∈ xs, HasPath s.ses.path x.toNat) →
    B = headerField s.build s.status.hdrsel s.ses.freq t ++ wordBits s.ses.path xs →
    Takes s.io.bout.room B.length →
    (256 < y.toNat → ∃ u, exec (.emit force) s = .next (takeFault .invalidArgument u) ∧
      u.io.sin.items = more ∧ u.io.bout.sent = s.io.bout.sent ++ B) ∧
    (y.toNat ≤ 255 → ¬ HasPath s.ses.path y.toNat →
      ∃ u, exec (.emit force) s = .next (takeFault .preconditionViolation u) ∧
        u.io.sin.items = more ∧ u.io.bout.sent = s.io.bout.sent ++ B)

/-- 45_stream_compress.md R218 (a): when EMIT is given the input that PREP was given, the number of bits it writes and
answers is the projected size. -/
def Obligations.SizeAccounting : Prop :=
  ∀ (s : State) (hdr : Bool) (xs tail : List SymVal), s.status.fault = none → s.io.sin.items = xs ++ tail →
    AllWords xs → PassEnds s.io.sin.ends tail → (∀ k < 256, occurrences k xs < 2 ^ 32) →
    ∃ t, exec (.prep hdr) s = .next t ∧
      (Takes t.io.bout.room t.ses.projBits.toNat →
        ∃ u B, exec (.emit true) (t.setSin (xs ++ tail)) = .next u ∧ u.rsp.rc = 0 ∧
          u.io.bout.sent = t.io.bout.sent ++ B ∧ B.length = t.ses.projBits.toNat ∧
          u.rsp.res0 = t.ses.projBits ∧ u.rsp.res1 = t.ses.projBits ∧ u.ses.outBits = t.ses.projBits)

/-! ### The decoder -/

/-- 46_stream_decoder.md R230, R233, R234, R235: DECODE of a stream writes the words of its codewords up to the
PSEUDO_EOF codeword and reads no bit behind it. With a tree header the tree is that of the payload, whatever the
tree-size field says; with a counts header FREQ is the table read, and the tree is the merge of its leaves, in an arena
that holds the leaves, then the nodes of the merge in allocation order (10_state.md R42, R43). -/
def Obligations.DecodeReadsTreeStream : Prop :=
  (∀ (s : State) (z : Word32) (t : CodeTree) (xs : List SymVal) (rest : Bits), s.status.fault = none →
    Config.legalBuild s.build = true → t.Legal → AllWords xs → (∀ x ∈ xs, HasPath t.pathTable x.toNat) →
    HasPath t.pathTable 256 → 8 * xs.length < 2 ^ 64 → Takes s.io.sout.room xs.length →
    s.io.bin.items = bitsOf s.build.magic ++ bitsOf s.build.selTree ++ bitsOf z ++ t.bits ++
      dataField t.pathTable xs ++ rest →
    ∃ c : Session,
      exec .decode s = .next (respond ⟨0, BitVec.ofNat 64 (8 * xs.length), 0, 0⟩
        { s with
          status := { State.reset.status with treeValid := true, hdrsel := true, dstate := .done }
          ses := c
          io := { s.io with
            bin := { s.io.bin with items := rest, held := false }
            sout := ⟨s.io.sout.sent ++ xs.map (fun x => x.setWidth 8), roomLeft s.io.sout.room xs.length, false⟩ } }) ∧
      c.node = t.unweighted.preOrder 0 ∧ IsTree c.node 0 t.unweighted ∧ c.root = 0 ∧
      c.size = BitVec.ofNat 10 t.size ∧ c.numleaf = BitVec.ofNat 9 t.leaves ∧
      c.treeBits = BitVec.ofNat 32 t.bits.length ∧ c.path = t.pathTable ∧ c.hdrTreeBits = z ∧
      c.outBits = BitVec.ofNat 64 (8 * xs.length) ∧ c.freq = Vector.replicate 256 0 ∧
      (∃ w, c.node[c.cur.toNat]? = some (.leaf 256 w)) ∧ c.q = []) ∧
  (∀ (s : State) (f : Vector Count 256) (t : CodeTree) (xs : List SymVal) (rest : Bits), s.status.fault = none →
    mergeTrees (tableLeaves f).length (rankedLeaves f) = [t] → AllWords xs →
    (∀ x ∈ xs, HasPath t.pathTable x.toNat) → 8 * xs.length < 2 ^ 64 → Takes s.io.sout.room xs.length →
    s.io.bin.items = bitsOf s.build.magic ++ bitsOf s.build.selCounts ++ f.toList.flatMap bitsOf ++
      dataField t.pathTable xs ++ rest →
    ∃ c : Session,
      exec .decode s = .next (respond ⟨0, BitVec.ofNat 64 (8 * xs.length), 0, 0⟩
        { s with
          status := { State.reset.status with treeValid := true, hdrsel := false, dstate := .done }
          ses := c
          io := { s.io with
            bin := { s.io.bin with items := rest, held := false }
            sout := ⟨s.io.sout.sent ++ xs.map (fun x => x.setWidth 8), roomLeft s.io.sout.room xs.length, false⟩ } }) ∧
      IsTree c.node c.root t ∧ c.node.length = t.size ∧ c.node = tableNodes f ∧ ChildrenFirst 0 c.node ∧
      c.root = BitVec.ofNat 10 (c.node.length - 1) ∧ c.size = BitVec.ofNat 10 t.size ∧
      c.numleaf = BitVec.ofNat 9 t.leaves ∧ c.treeBits = BitVec.ofNat 32 t.bits.length ∧ c.path = t.pathTable ∧
      c.hdrTreeBits = 0 ∧ c.outBits = BitVec.ofNat 64 (8 * xs.length) ∧ c.freq = f ∧
      (∃ w, c.node[c.cur.toNat]? = some (.leaf 256 w)) ∧ c.q = [])

/-- 46_stream_decoder.md R238 (a), (b), (c): what PREP and EMIT FORCE make of a sequence of words, with either header,
DECODE turns back into it, consuming exactly the bits EMIT wrote. -/
def Obligations.CompressedStreamRoundTrip : Prop :=
  ∀ (s : State) (hdr : Bool) (xs : List SymVal) (rest : Bits), s.status.fault = none → Config.legalBuild s.build = true →
    s.io.sin.items = xs → s.io.sin.ends = true → AllWords xs → (∀ k < 256, occurrences k xs < 2 ^ 32) →
    ∃ t, exec (.prep hdr) s = .next t ∧ t.rsp.rc = 0 ∧
      (Takes t.io.bout.room t.ses.projBits.toNat → Takes t.io.sout.room xs.length →
        ∃ B u v, exec (.emit true) (t.setSin xs) = .next u ∧ u.rsp.rc = 0 ∧
          u.io.bout.sent = t.io.bout.sent ++ B ∧
          exec .decode (u.setBin (B ++ rest)) = .next v ∧ v.rsp = ⟨0, BitVec.ofNat 64 (8 * xs.length), 0, 0⟩ ∧
          v.io.sout.sent = u.io.sout.sent ++ xs.map (fun x => x.setWidth 8) ∧ v.io.bin.items = rest ∧
          v.status.dstate = .done)

/-- 46_stream_decoder.md R231, R232, 60_exceptions.md R261: DECODE on a short or wrong magic field, and on a short or
unknown selector; DSTATE keeps the failing state and nothing is written. -/
def Obligations.DecodeRejectsHeader : Prop :=
  ∀ s : State, s.status.fault = none →
    (s.io.bin.items.length < 32 → s.io.bin.ends = true →
      ∃ t, exec .decode s = .next (takeFault .notAHuffmanFile t) ∧ t.io.bin.items = [] ∧
        t.status = { State.reset.status with dstate := .expectMagic } ∧ t.io.sout.sent = s.io.sout.sent) ∧
    (∀ (m : Word32) (rest : Bits), m ≠ s.build.magic → s.io.bin.items = bitsOf m ++ rest →
      ∃ t, exec .decode s = .next (takeFault .notAHuffmanFile t) ∧ t.io.bin.items = rest ∧
        t.status = { State.reset.status with dstate := .expectMagic } ∧ t.io.sout.sent = s.io.sout.sent) ∧
    (∀ short : Bits, short.length < 32 → s.io.bin.items = bitsOf s.build.magic ++ short → s.io.bin.ends = true →
      ∃ t, exec .decode s = .next (takeFault .truncatedStream t) ∧ t.io.bin.items = [] ∧
        t.status = { State.reset.status with dstate := .expectHeaderSelector } ∧
        t.io.sout.sent = s.io.sout.sent) ∧
    (∀ (h : Word32) (rest : Bits), h ≠ s.build.selCounts → h ≠ s.build.selTree →
      s.io.bin.items = bitsOf s.build.magic ++ bitsOf h ++ rest →
      ∃ t, exec .decode s = .next (takeFault .corruptFormat t) ∧ t.io.bin.items = rest ∧
        t.status = { State.reset.status with dstate := .expectHeaderSelector } ∧
        t.io.sout.sent = s.io.sout.sent)

/-- 46_stream_decoder.md R233, R234, R237, 44_tree_codec.md R193, 60_exceptions.md R261: DECODE on a frequency table or
a tree-size field that is cut short (TruncatedStream), on a tree payload that is cut short or has a leaf value 257..511
or a 514th node anywhere in it, and on a lone leaf other than PSEUDO_EOF (CorruptFormat), all in
EXPECT_HEADER_PAYLOAD. -/
def Obligations.DecodeRejectsPayload : Prop :=
  ∀ s : State, s.status.fault = none → Config.legalBuild s.build = true →
    (∀ p : Bits, p.length < 8192 → s.io.bin.items = bitsOf s.build.magic ++ bitsOf s.build.selCounts ++ p →
      s.io.bin.ends = true →
      ∃ t, exec .decode s = .next (takeFault .truncatedStream t) ∧ t.io.bin.items = [] ∧
        t.status = { State.reset.status with dstate := .expectHeaderPayload }) ∧
    (∀ p : Bits, p.length < 32 → s.io.bin.items = bitsOf s.build.magic ++ bitsOf s.build.selTree ++ p →
      s.io.bin.ends = true →
      ∃ t, exec .decode s = .next (takeFault .truncatedStream t) ∧ t.io.bin.items = [] ∧
        t.status = { State.reset.status with dstate := .expectHeaderPayload, hdrsel := true }) ∧
    (∀ (z : Word32) (p left : Bits), BrokenPayload s.io.bin.ends 0 p left →
      s.io.bin.items = bitsOf s.build.magic ++ bitsOf s.build.selTree ++ bitsOf z ++ p →
      ∃ u, exec .decode s = .next (takeFault .corruptFormat u) ∧ u.io.bin.items = left ∧
        u.status = { State.reset.status with dstate := .expectHeaderPayload, hdrsel := true }) ∧
    (∀ (z : Word32) (v : SymVal) (rest : Bits), v.toNat ≤ 255 →
      s.io.bin.items = bitsOf s.build.magic ++ bitsOf s.build.selTree ++ bitsOf z ++ (true :: bitsOf v) ++ rest →
      ∃ u, exec .decode s = .next (takeFault .corruptFormat u) ∧ u.io.bin.items = rest ∧
        u.status = { State.reset.status with dstate := .expectHeaderPayload, hdrsel := true, treeValid := true })

/-- 46_stream_decoder.md R235: a stream, with either header, whose data ends before the PSEUDO_EOF codeword, inside a
codeword or between two, is TruncatedStream in WALKING; the words decoded before stay written. -/
def Obligations.DecodeTruncatedData : Prop :=
  ∀ (s : State) (hdr : Bool) (H : Bits) (t sub : CodeTree) (xs : List SymVal) (p : Bits), s.status.fault = none →
    Config.legalBuild s.build = true → StreamHeader s.build hdr H t → AllWords xs →
    (∀ x ∈ xs, HasPath t.pathTable x.toNat) → t.follow p = some sub → 1 < sub.leaves →
    Takes s.io.sout.room xs.length → s.io.bin.items = H ++ wordBits t.pathTable xs ++ p → s.io.bin.ends = true →
    ∃ u, exec .decode s = .next (takeFault .truncatedStream u) ∧ u.io.bin.items = [] ∧
      u.io.sout.sent = s.io.sout.sent ++ xs.map (fun x => x.setWidth 8) ∧
      u.status = { State.reset.status with dstate := .walking, hdrsel := hdr, treeValid := true }

/-! ### The fields of the compressed stream as instructions (log 8) -/

/-- 46_stream_decoder.md R231 to R234, 30_encoding.md R98, R108: the header fields, taken by a DECODE that holds BIN
and expects them. -/
def Obligations.HeaderFieldsTaken : Prop :=
  ∀ s : State, s.status.fault = none → s.io.bin.held = true →
    (s.status.dstate = .expectMagic →
      exec (.wireMagic s.build.magic) s =
        .next { s with status := { s.status with dstate := .expectHeaderSelector } } ∧
      ∀ m, m ≠ s.build.magic → exec (.wireMagic m) s = .next (takeFault .notAHuffmanFile s)) ∧
    (s.status.dstate = .expectHeaderSelector →
      exec (.wireSelector s.build.selCounts) s =
        .next { s with status := { s.status with hdrsel := false, dstate := .expectHeaderPayload } } ∧
      (Config.legalBuild s.build = true → exec (.wireSelector s.build.selTree) s =
        .next { s with status := { s.status with hdrsel := true, dstate := .expectHeaderPayload } }) ∧
      ∀ h, h ≠ s.build.selCounts → h ≠ s.build.selTree →
        exec (.wireSelector h) s = .next (takeFault .corruptFormat s)) ∧
    (s.status.dstate = .expectHeaderPayload → s.status.hdrsel = false → ∀ (sym : BitVec 8) (c : Count),
      ∃ t, exec (.wireCount sym c) s = .next t ∧ t = { s with ses := { s.ses with freq := t.ses.freq } } ∧
        t.freqAt sym.toNat = c ∧ ∀ k, k ≠ sym.toNat → t.freqAt k = s.freqAt k) ∧
    (s.status.dstate = .expectHeaderPayload → s.status.hdrsel = true → ∀ z : Word32,
      exec (.wireTreeSize z) s = .next { s with ses := { s.ses with hdrTreeBits := z } })

/-- 44_tree_codec.md R193, R196, 30_encoding.md R103, R108: the node fields, taken while a tree payload is read: a leaf
becomes the next node; an internal node reads its two subtrees and numbers all of them in pre-order; a value 257..511, a
node without an index left, or a subtree that is cut or broken is CorruptFormat. A subtree that just stops is waited for
(70_reset_and_hazards.md R286); that this is a next state, and that its session is the one before the field although
R193 reserves an index per tag, is the model's choice (log entry 6). That a field is an instruction of its own is the
model's form (log entry 8). -/
def Obligations.TreeFieldsTaken : Prop :=
  ∀ s : State, s.status.fault = none → s.io.bin.held = true →
    (s.status.dstate = .idle ∨ s.status.dstate = .done ∨
      s.status.dstate = .expectHeaderPayload ∧ s.status.hdrsel = true) →
    (∀ v : SymVal, v.toNat ≤ 256 → s.ses.node.length < 513 → exec (.wireTreeLeaf v) s =
      .next { s with ses := { s.ses with node := s.ses.node ++ [.leaf v 1] } }) ∧
    (∀ v : SymVal, 256 < v.toNat ∨ 513 ≤ s.ses.node.length →
      exec (.wireTreeLeaf v) s = .next (takeFault .corruptFormat s)) ∧
    (∀ (l r : CodeTree) (rest : Bits), (∀ sym ∈ l.syms ++ r.syms, sym.toNat ≤ 256) →
      s.ses.node.length + 1 + l.size + r.size ≤ 513 → s.io.bin.items = l.bits ++ r.bits ++ rest →
      ∃ more, more = (CodeTree.internal 1 l.unweighted r.unweighted).preOrder s.ses.node.length ∧
        IsTree (s.ses.node ++ more) (BitVec.ofNat 10 s.ses.node.length) (.internal 1 l.unweighted r.unweighted) ∧
        exec .wireTreeInternal s = .next
          { s with
            ses := { s.ses with node := s.ses.node ++ more }
            io := { s.io with bin := { s.io.bin with items := rest } } }) ∧
    (513 ≤ s.ses.node.length → exec .wireTreeInternal s = .next (takeFault .corruptFormat s)) ∧
    (∀ left : Bits, BrokenPayload s.io.bin.ends s.ses.node.length (false :: s.io.bin.items) left →
      exec .wireTreeInternal s = .next (takeFault .corruptFormat (s.setBin left))) ∧
    (CutPayload s.ses.node.length (false :: s.io.bin.items) → s.io.bin.ends = false →
      ∃ t, exec .wireTreeInternal s = .next t ∧ Waits t ∧ t.io.bin.held = true ∧ t.io.bin.items = [] ∧ t.ses = s.ses)

/-- 20_memory.md R64, R62: a field offered when HTB does not hold BIN, in a faulted session, or at another place than the
one where DECODE or RTREE expects it (log 8), is not taken and nothing happens. -/
def Obligations.FieldsNotTaken : Prop :=
  ∀ (i : Instr) (s : State), i.isCommand = false →
    (s.io.bin.held = false ∨ s.status.fault ≠ none ∨ wrongPlace i s.status) → exec i s = .next s

/-! ### What instructions leave unchanged -/

/-- What RDREG, QPEEK, QSIZE, FGET, NGET and PGET leave unchanged: every register and array of the session, every
STATUS field (but EMPTY, which QPEEK writes), every stream and port (41_ranked_queue.md R135, R136, 43_tree_builder.md
R176, R177). -/
def Obligations.ReadingFrame : Prop :=
  ∀ (i : Instr) (s t : State),
    (∃ num, i = .rdreg num) ∨ i = .qpeek ∨ i = .qsize ∨ (∃ sym, i = .fget sym) ∨ (∃ num, i = .nget num) ∨
      (∃ sym, i = .pget sym) →
    s.status.fault = none → exec i s = .next t → t.status.fault = none →
      t.ses = s.ses ∧ t.status = { s.status with empty := t.status.empty } ∧
      (i ≠ .qpeek → t.status.empty = s.status.empty) ∧ t.io.sin = s.io.sin ∧ t.io.sout = s.io.sout ∧
      t.io.bin = s.io.bin ∧ t.io.bout = s.io.bout ∧ SameRest s t

/-- What QINS, QREM, FSET, QLOAD and BUILD leave unchanged: every stream and port, and of the session's registers and
arrays and the STATUS fields all but those named here for each (41_ranked_queue.md R132, R134,
42_frequency_accumulator.md R153, R154, 43_tree_builder.md R172). CUR after QLOAD is log entry 15. -/
def Obligations.TreeBuildingFrame : Prop :=
  ∀ (i : Instr) (s t : State), s.status.fault = none → exec i s = .next t → t.status.fault = none →
    ((∃ v sym w, i = .qins v sym w) →
      t.ses = { s.ses with node := t.ses.node, q := t.ses.q } ∧
      t.status = { s.status with prepped := false }) ∧
    (i = .qrem → t.ses = { s.ses with q := t.ses.q } ∧
      t.status = { s.status with prepped := false, empty := t.status.empty }) ∧
    ((∃ sym c, i = .fset sym c) → t.ses = { s.ses with freq := t.ses.freq } ∧
      t.status = { s.status with prepped := false }) ∧
    (i = .qload ∨ i = .build →
      t.ses = { s.ses with
        cur := t.ses.cur, node := t.ses.node, q := t.ses.q, root := t.ses.root, size := t.ses.size, numleaf := t.ses.numleaf,
        treeBits := t.ses.treeBits, path := t.ses.path } ∧
      t.status = { s.status with prepped := false, treeValid := t.status.treeValid }) ∧
    (i = .build → t.ses.cur = s.ses.cur) ∧ (i = .qload → t.ses.cur = s.ses.cur ∨ t.ses.cur = 0x3FF#10) ∧
    ((∃ v sym w, i = .qins v sym w) ∨ i = .qrem ∨ (∃ sym c, i = .fset sym c) ∨ i = .qload ∨ i = .build →
      t.io.sin = s.io.sin ∧ t.io.sout = s.io.sout ∧ t.io.bin = s.io.bin ∧ t.io.bout = s.io.bout ∧ SameRest s t)

/-- What FACC, WTREE, RTREE, EMIT, PREP and DECODE leave unchanged, also while they wait: of the streams all but those
they hold, and of the session and STATUS all but what is named here for each (42_frequency_accumulator.md R151,
44_tree_codec.md R192, R194, 45_stream_compress.md R211, R215, 46_stream_decoder.md R230). CUR after RTREE is log entry
15. -/
def Obligations.StreamingFrame : Prop :=
  ∀ (i : Instr) (s t : State), s.status.fault = none → exec i s = .next t → t.status.fault = none →
    (i = .facc → t.ses = { s.ses with freq := t.ses.freq } ∧ t.status = { s.status with prepped := false } ∧
      t.io.sout = s.io.sout ∧ t.io.bin = s.io.bin ∧ t.io.bout = s.io.bout) ∧
    (i = .wtree → t.ses = { s.ses with outBits := t.ses.outBits } ∧ t.status = s.status ∧ t.io.sin = s.io.sin ∧
      t.io.sout = s.io.sout ∧ t.io.bin = s.io.bin) ∧
    (i = .rtree → (t.ses.cur = s.ses.cur ∨ t.ses.cur = 0x3FF#10) ∧
      t.ses = { s.ses with
        cur := t.ses.cur, node := t.ses.node, q := [], root := t.ses.root, size := t.ses.size, numleaf := t.ses.numleaf,
        treeBits := t.ses.treeBits, path := t.ses.path } ∧
      t.status = { s.status with prepped := false, treeValid := t.status.treeValid } ∧
      t.io.sin = s.io.sin ∧ t.io.sout = s.io.sout ∧ t.io.bout = s.io.bout) ∧
    ((∃ force, i = .emit force) → t.ses = { s.ses with outBits := t.ses.outBits } ∧
      t.status = { s.status with declined := t.status.declined } ∧ t.io.sout = s.io.sout ∧
      t.io.bin = s.io.bin) ∧
    ((∃ hdr, i = .prep hdr) → t.ses.cur = NIL ∧ t.ses.hdrTreeBits = 0 ∧ t.ses.outBits = 0 ∧
      t.status.declined = false ∧ t.status.empty = false ∧ t.status.dstate = .idle ∧
      t.io.sout = s.io.sout ∧ t.io.bin = s.io.bin ∧ t.io.bout = s.io.bout) ∧
    (i = .decode → t.ses.origBits = 0 ∧ t.ses.projBits = 0 ∧ t.ses.savings = 0 ∧ t.status.prepped = false ∧
      t.status.declined = false ∧ t.status.empty = false ∧ t.io.sin = s.io.sin ∧ t.io.bout = s.io.bout) ∧
    (i = .facc ∨ i = .wtree ∨ i = .rtree ∨ (∃ force, i = .emit force) ∨ (∃ hdr, i = .prep hdr) ∨ i = .decode →
      SameRest s t)

/-- 20_memory.md R60 to R64: whatever an instruction does, also when it takes a fault or waits, inputs are only
consumed from the front and outputs only grow, and only the instructions that hold a stream touch it. -/
def Obligations.StreamsPerCommand : Prop :=
  ∀ (i : Instr) (s t : State), exec i s = .next t →
    (∃ n, t.io.sin.items = s.io.sin.items.drop n) ∧ (∃ n, t.io.bin.items = s.io.bin.items.drop n) ∧
    (∃ ws, t.io.sout.sent = s.io.sout.sent ++ ws) ∧ (∃ bs, t.io.bout.sent = s.io.bout.sent ++ bs) ∧
    (i ≠ .facc → (∀ hdr, i ≠ .prep hdr) → (∀ force, i ≠ .emit force) → t.io.sin.items = s.io.sin.items) ∧
    (i ≠ .rtree → i ≠ .decode → i ≠ .wireTreeInternal → t.io.bin.items = s.io.bin.items) ∧
    (i ≠ .decode → t.io.sout.sent = s.io.sout.sent) ∧
    (i ≠ .wtree → (∀ force, i ≠ .emit force) → t.io.bout.sent = s.io.bout.sent) ∧
    t.build = s.build ∧ t.host = s.host

/-- 10_state.md R27: which commands clear PREPPED, which keep it, and that a PREP that ends without a fault sets it. -/
def Obligations.PreppedRule : Prop :=
  ∀ (i : Instr) (s t : State), s.status.fault = none → exec i s = .next t →
    (i = .clr ∨ (∃ v sym w, i = .qins v sym w) ∨ i = .qrem ∨ i = .facc ∨ i = .qload ∨
      (∃ sym c, i = .fset sym c) ∨ i = .build ∨ i = .rtree ∨ i = .decode → t.status.prepped = false) ∧
    ((∃ num, i = .rdreg num) ∨ i = .qpeek ∨ i = .qsize ∨ (∃ sym, i = .fget sym) ∨ (∃ num, i = .nget num) ∨
      (∃ sym, i = .pget sym) ∨ i = .wtree ∨ (∃ force, i = .emit force) → t.status.fault = none →
      t.status.prepped = s.status.prepped) ∧
    ((∃ hdr, i = .prep hdr) → t.status.fault = none → t.io.busy = false → t.status.prepped = true)

/-- 70_reset_and_hazards.md R286, and log entry 6, whose choice it is that such a command is a next state with `busy`, no
response and no fault: a stream that just stops makes the command that holds it wait for ever. FACC, PREP and EMIT when
SIN stops; RTREE and DECODE when BIN stops, in the tree, in the header and in the data; WTREE and EMIT when BOUT takes no
more, and DECODE when SOUT takes no more. What had been written stays written. -/
def Obligations.StoppedInputHangs : Prop :=
  ∀ s : State, s.status.fault = none →
    (∀ (i : Instr) (xs : List SymVal) (f : Vector Count 256),
      (i = .facc ∧ f = s.ses.freq) ∨ (∃ hdr, i = .prep hdr) ∧ f = Vector.replicate 256 0 →
      s.io.sin.items = xs → s.io.sin.ends = false → AllWords xs →
      (∀ k < 256, ((f[k]?).getD 0).toNat + occurrences k xs < 2 ^ 32) →
      ∃ t, exec i s = .next t ∧ Waits t ∧ t.io.sin.held = true ∧ t.io.sin.items = []) ∧
    (∀ (force : Bool) (t : CodeTree) (xs tail : List SymVal) (B : Bits), SessionOk s.status s.ses →
      s.status.prepped = true → (force = true ∨ s.ses.projBits.toNat < s.ses.origBits.toNat) →
      IsTree s.ses.node s.ses.root t → s.io.sin.items = xs ++ tail → AllWords xs →
      (∀ x ∈ xs, HasPath s.ses.path x.toNat) →
      B = headerField s.build s.status.hdrsel s.ses.freq t ++ wordBits s.ses.path xs →
      (tail = [] → s.io.sin.ends = false → Takes s.io.bout.room B.length →
        ∃ u, exec (.emit force) s = .next u ∧ Waits u ∧ u.io.sin.held = true ∧ u.io.sin.items = [] ∧
          u.io.bout.sent = s.io.bout.sent ++ B) ∧
      ∀ (r : Nat) (W : Bits), W = B ∨ PassEnds s.io.sin.ends tail ∧ W = B ++ pathBits s.ses.path 256 →
        s.io.bout.room = some r → r < W.length →
        ∃ u, exec (.emit force) s = .next u ∧ Waits u ∧ u.io.bout.held = true ∧
          u.io.bout.sent = s.io.bout.sent ++ W.take r) ∧
    (∀ (t : CodeTree) (r : Nat), s.status.treeValid = true → TreeOk s.ses → IsTree s.ses.node s.ses.root t →
      s.io.bout.room = some r → r < t.bits.length →
      ∃ u, exec .wtree s = .next u ∧ Waits u ∧ u.io.bout.held = true ∧
        u.io.bout.sent = s.io.bout.sent ++ t.bits.take r) ∧
    (CutPayload 0 s.io.bin.items → s.io.bin.ends = false →
      ∃ t, exec .rtree s = .next t ∧ Waits t ∧ t.io.bin.held = true ∧ t.io.bin.items = []) ∧
    (Config.legalBuild s.build = true → CutHeader s.build s.io.bin.items → s.io.bin.ends = false →
      ∃ t, exec .decode s = .next t ∧ Waits t ∧ t.io.bin.held = true ∧ t.io.bin.items = [] ∧
        t.io.sout.sent = s.io.sout.sent) ∧
    ∀ (hdr : Bool) (H : Bits) (t : CodeTree) (xs : List SymVal), Config.legalBuild s.build = true →
      StreamHeader s.build hdr H t → AllWords xs → (∀ x ∈ xs, HasPath t.pathTable x.toNat) →
      (∀ (sub : CodeTree) (p : Bits), t.follow p = some sub → 1 < sub.leaves → Takes s.io.sout.room xs.length →
        s.io.bin.items = H ++ wordBits t.pathTable xs ++ p → s.io.bin.ends = false →
        ∃ u, exec .decode s = .next u ∧ Waits u ∧ u.io.bin.held = true ∧ u.io.bin.items = [] ∧
          u.io.sout.sent = s.io.sout.sent ++ xs.map (fun x => x.setWidth 8)) ∧
      ∀ (r : Nat) (rest : Bits), 1 < t.leaves → s.io.sout.room = some r → r < xs.length →
        s.io.bin.items = H ++ wordBits t.pathTable xs ++ rest →
        ∃ u, exec .decode s = .next u ∧ Waits u ∧ u.io.sout.held = true ∧
          u.io.sout.sent = s.io.sout.sent ++ (xs.take r).map (fun x => x.setWidth 8)

/-! ### The invariant -/

/-- Every step from a state that meets the invariant ends in a state that meets it: RC has one of its values, between
commands no port is held, a faulted session has no valid tree, and a session without a fault has a legal arena, a
queue in its order, a tree, metrics and path table that agree, and in CUR NIL or an index below NALLOC (10_state.md R22,
R30, R34, R35, R41, R44, 20_memory.md R64, 30_encoding.md R96, 60_exceptions.md R255; log entry 15). -/
def Obligations.StepKeepsInvariant : Prop :=
  ∀ s t : State, Inv s → step s = .next t → Inv t

/-- No step from a state that meets the invariant stops the machine: the two faults of the model, its own and no
rule's, are never raised (log 9, log 10). -/
def Obligations.StepNeverStops : Prop := ∀ s : State, Inv s → ∃ t, step s = .next t

end
end

