-- ==== Sys2Proof/Laws/Bits.lean ====
section
/-! SUPPORT. Bit strings: a value written most significant bit first reads back as itself (20_memory.md R62, R63,
R67). -/

namespace Sys2Proof

@[simp] theorem natToBits_length (n v : Nat) : (natToBits n v).length = n := by
  induction n with
  | zero => rfl
  | succ n ih => simp [natToBits, ih]

@[simp] theorem bitsOf_length {n : Nat} (v : BitVec n) : (bitsOf v).length = n := natToBits_length n v.toNat

theorem mod_two_pow_succ (v n : Nat) : v % 2 ^ (n + 1) = v % 2 ^ n + (v.testBit n).toNat * 2 ^ n := by
  rw [Nat.mod_pow_succ, Nat.toNat_testBit, Nat.mul_comm]

theorem foldl_natToBits (n v a : Nat) :
    (natToBits n v).foldl (fun v b => 2 * v + b.toNat) a = a * 2 ^ n + v % 2 ^ n := by
  induction n generalizing a with
  | zero => simp [natToBits, Nat.mod_one]
  | succ n ih =>
    simp only [natToBits, List.foldl_cons, ih, mod_two_pow_succ]
    rw [Nat.add_mul, Nat.pow_succ]
    have h2 : 2 * a * 2 ^ n = a * (2 ^ n * 2) := by rw [Nat.mul_comm 2 a, Nat.mul_assoc, Nat.mul_comm 2]
    omega

/-- The value of the `n` low bits of `v` is `v` modulo `2^n`. -/
theorem bitsToNat_natToBits (n v : Nat) : bitsToNat (natToBits n v) = v % 2 ^ n := by
  simp [bitsToNat, foldl_natToBits]

@[simp] theorem bitsToNat_bitsOf {n : Nat} (v : BitVec n) : bitsToNat (bitsOf v) = v.toNat := by
  simp [bitsOf, bitsToNat_natToBits, Nat.mod_eq_of_lt v.isLt]

theorem foldl_bits_add (bs : Bits) (a : Nat) :
    bs.foldl (fun v b => 2 * v + b.toNat) a = a * 2 ^ bs.length + bitsToNat bs := by
  induction bs generalizing a with
  | nil => simp [bitsToNat]
  | cons b bs ih =>
    have h := ih (2 * 0 + b.toNat)
    simp only [bitsToNat, List.foldl_cons, List.length_cons, Nat.pow_succ] at h ⊢
    rw [ih, h]
    simp only [bitsToNat, Nat.mul_zero, Nat.zero_add]
    have h2 : (2 * a + b.toNat) * 2 ^ bs.length = a * (2 ^ bs.length * 2) + b.toNat * 2 ^ bs.length := by
      rw [Nat.add_mul, Nat.mul_comm 2 a, Nat.mul_assoc, Nat.mul_comm 2]
    omega

theorem bitsToNat_cons (b : Bool) (bs : Bits) :
    bitsToNat (b :: bs) = b.toNat * 2 ^ bs.length + bitsToNat bs := by
  have := foldl_bits_add bs (2 * 0 + b.toNat)
  simpa [bitsToNat] using this

/-- A bit string of `n` bits has a value below `2^n`. -/
theorem bitsToNat_lt (bs : Bits) : bitsToNat bs < 2 ^ bs.length := by
  induction bs with
  | nil => simp [bitsToNat]
  | cons b bs ih =>
    rw [bitsToNat_cons, List.length_cons, Nat.pow_succ]
    cases b <;> simp <;> omega

/-- A bit string is the bits of its value. -/
theorem natToBits_bitsToNat (bs : Bits) (v : Nat) (h : v % 2 ^ bs.length = bitsToNat bs) :
    natToBits bs.length v = bs := by
  induction bs generalizing v with
  | nil => rfl
  | cons b bs ih =>
    have hlt := bitsToNat_lt bs
    rw [bitsToNat_cons, List.length_cons, mod_two_pow_succ] at h
    have hm : v % 2 ^ bs.length < 2 ^ bs.length := Nat.mod_lt _ (Nat.two_pow_pos _)
    have hb : v.testBit bs.length = b := by
      cases hv : v.testBit bs.length <;> cases b <;> simp [hv] at h ⊢ <;> omega
    have hr : v % 2 ^ bs.length = bitsToNat bs := by
      rw [hb] at h; omega
    simp [natToBits, hb, ih v hr]

/-- Reading a field that was written gives the value and the bits behind it (R62, R63). -/
@[simp] theorem takeField_bitsOf {n : Nat} (v : BitVec n) (rest : Bits) :
    takeField n (bitsOf v ++ rest) = some (v, rest) := by
  simp [takeField]

/-- A field is read exactly when enough bits are left, and the bits taken are those of its value. -/
theorem takeField_eq_some {n : Nat} {bs rest : Bits} {v : BitVec n} :
    takeField n bs = some (v, rest) ↔ bs = bitsOf v ++ rest := by
  constructor
  · intro h
    unfold takeField at h
    split at h
    · rename_i hn
      have hl : (bs.take n).length = n := by simp [hn]
      simp only [Option.some.injEq, Prod.mk.injEq] at h
      obtain ⟨rfl, rfl⟩ := h
      have hlt : bitsToNat (bs.take n) < 2 ^ n := by simpa [hl] using bitsToNat_lt (bs.take n)
      have h3 := natToBits_bitsToNat (bs.take n) (bitsToNat (bs.take n)) (Nat.mod_eq_of_lt (by rw [hl]; exact hlt))
      rw [hl] at h3
      simp [bitsOf, Nat.mod_eq_of_lt hlt, h3]
    · simp at h
  · rintro rfl; simp

theorem takeField_eq_none {n : Nat} {bs : Bits} : takeField n bs = none ↔ bs.length < n := by
  unfold takeField; split <;> simp_all

end Sys2Proof
end

