-- ==== Sys2Proof/Laws/State.lean ====
section
/-! SUPPORT. What each update of the state changes and what it leaves: one lemma per component of State per update, so
that no proof unfolds an update. -/

namespace Sys2Proof.Machine

@[simp] theorem State.setPrepped_build (b : Bool) (s : State) : (s.setPrepped b).build = s.build := rfl
@[simp] theorem State.setPrepped_status (b : Bool) (s : State) : (s.setPrepped b).status = { s.status with prepped := b } := rfl
@[simp] theorem State.setPrepped_rsp (b : Bool) (s : State) : (s.setPrepped b).rsp = s.rsp := rfl
@[simp] theorem State.setPrepped_ses (b : Bool) (s : State) : (s.setPrepped b).ses = s.ses := rfl
@[simp] theorem State.setPrepped_io (b : Bool) (s : State) : (s.setPrepped b).io = s.io := rfl
@[simp] theorem State.setPrepped_host (b : Bool) (s : State) : (s.setPrepped b).host = s.host := rfl
@[simp] theorem State.setPrepped_freeCtr (b : Bool) (s : State) : (s.setPrepped b).freeCtr = s.freeCtr := rfl

@[simp] theorem State.setDeclined_build (b : Bool) (s : State) : (s.setDeclined b).build = s.build := rfl
@[simp] theorem State.setDeclined_status (b : Bool) (s : State) : (s.setDeclined b).status = { s.status with declined := b } := rfl
@[simp] theorem State.setDeclined_rsp (b : Bool) (s : State) : (s.setDeclined b).rsp = s.rsp := rfl
@[simp] theorem State.setDeclined_ses (b : Bool) (s : State) : (s.setDeclined b).ses = s.ses := rfl
@[simp] theorem State.setDeclined_io (b : Bool) (s : State) : (s.setDeclined b).io = s.io := rfl
@[simp] theorem State.setDeclined_host (b : Bool) (s : State) : (s.setDeclined b).host = s.host := rfl
@[simp] theorem State.setDeclined_freeCtr (b : Bool) (s : State) : (s.setDeclined b).freeCtr = s.freeCtr := rfl

@[simp] theorem State.setEmpty_build (b : Bool) (s : State) : (s.setEmpty b).build = s.build := rfl
@[simp] theorem State.setEmpty_status (b : Bool) (s : State) : (s.setEmpty b).status = { s.status with empty := b } := rfl
@[simp] theorem State.setEmpty_rsp (b : Bool) (s : State) : (s.setEmpty b).rsp = s.rsp := rfl
@[simp] theorem State.setEmpty_ses (b : Bool) (s : State) : (s.setEmpty b).ses = s.ses := rfl
@[simp] theorem State.setEmpty_io (b : Bool) (s : State) : (s.setEmpty b).io = s.io := rfl
@[simp] theorem State.setEmpty_host (b : Bool) (s : State) : (s.setEmpty b).host = s.host := rfl
@[simp] theorem State.setEmpty_freeCtr (b : Bool) (s : State) : (s.setEmpty b).freeCtr = s.freeCtr := rfl

@[simp] theorem State.setTreeValid_build (b : Bool) (s : State) : (s.setTreeValid b).build = s.build := rfl
@[simp] theorem State.setTreeValid_status (b : Bool) (s : State) : (s.setTreeValid b).status = { s.status with treeValid := b } := rfl
@[simp] theorem State.setTreeValid_rsp (b : Bool) (s : State) : (s.setTreeValid b).rsp = s.rsp := rfl
@[simp] theorem State.setTreeValid_ses (b : Bool) (s : State) : (s.setTreeValid b).ses = s.ses := rfl
@[simp] theorem State.setTreeValid_io (b : Bool) (s : State) : (s.setTreeValid b).io = s.io := rfl
@[simp] theorem State.setTreeValid_host (b : Bool) (s : State) : (s.setTreeValid b).host = s.host := rfl
@[simp] theorem State.setTreeValid_freeCtr (b : Bool) (s : State) : (s.setTreeValid b).freeCtr = s.freeCtr := rfl

@[simp] theorem State.setHdrsel_build (b : Bool) (s : State) : (s.setHdrsel b).build = s.build := rfl
@[simp] theorem State.setHdrsel_status (b : Bool) (s : State) : (s.setHdrsel b).status = { s.status with hdrsel := b } := rfl
@[simp] theorem State.setHdrsel_rsp (b : Bool) (s : State) : (s.setHdrsel b).rsp = s.rsp := rfl
@[simp] theorem State.setHdrsel_ses (b : Bool) (s : State) : (s.setHdrsel b).ses = s.ses := rfl
@[simp] theorem State.setHdrsel_io (b : Bool) (s : State) : (s.setHdrsel b).io = s.io := rfl
@[simp] theorem State.setHdrsel_host (b : Bool) (s : State) : (s.setHdrsel b).host = s.host := rfl
@[simp] theorem State.setHdrsel_freeCtr (b : Bool) (s : State) : (s.setHdrsel b).freeCtr = s.freeCtr := rfl

@[simp] theorem State.setDstate_build (d : DState) (s : State) : (s.setDstate d).build = s.build := rfl
@[simp] theorem State.setDstate_status (d : DState) (s : State) : (s.setDstate d).status = { s.status with dstate := d } := rfl
@[simp] theorem State.setDstate_rsp (d : DState) (s : State) : (s.setDstate d).rsp = s.rsp := rfl
@[simp] theorem State.setDstate_ses (d : DState) (s : State) : (s.setDstate d).ses = s.ses := rfl
@[simp] theorem State.setDstate_io (d : DState) (s : State) : (s.setDstate d).io = s.io := rfl
@[simp] theorem State.setDstate_host (d : DState) (s : State) : (s.setDstate d).host = s.host := rfl
@[simp] theorem State.setDstate_freeCtr (d : DState) (s : State) : (s.setDstate d).freeCtr = s.freeCtr := rfl

@[simp] theorem State.setCur_build (x : Idx) (s : State) : (s.setCur x).build = s.build := rfl
@[simp] theorem State.setCur_status (x : Idx) (s : State) : (s.setCur x).status = s.status := rfl
@[simp] theorem State.setCur_rsp (x : Idx) (s : State) : (s.setCur x).rsp = s.rsp := rfl
@[simp] theorem State.setCur_ses (x : Idx) (s : State) : (s.setCur x).ses = { s.ses with cur := x } := rfl
@[simp] theorem State.setCur_io (x : Idx) (s : State) : (s.setCur x).io = s.io := rfl
@[simp] theorem State.setCur_host (x : Idx) (s : State) : (s.setCur x).host = s.host := rfl
@[simp] theorem State.setCur_freeCtr (x : Idx) (s : State) : (s.setCur x).freeCtr = s.freeCtr := rfl

@[simp] theorem State.setRoot_build (x : Idx) (s : State) : (s.setRoot x).build = s.build := rfl
@[simp] theorem State.setRoot_status (x : Idx) (s : State) : (s.setRoot x).status = s.status := rfl
@[simp] theorem State.setRoot_rsp (x : Idx) (s : State) : (s.setRoot x).rsp = s.rsp := rfl
@[simp] theorem State.setRoot_ses (x : Idx) (s : State) : (s.setRoot x).ses = { s.ses with root := x } := rfl
@[simp] theorem State.setRoot_io (x : Idx) (s : State) : (s.setRoot x).io = s.io := rfl
@[simp] theorem State.setRoot_host (x : Idx) (s : State) : (s.setRoot x).host = s.host := rfl
@[simp] theorem State.setRoot_freeCtr (x : Idx) (s : State) : (s.setRoot x).freeCtr = s.freeCtr := rfl

@[simp] theorem State.setNode_build (x : List Node) (s : State) : (s.setNode x).build = s.build := rfl
@[simp] theorem State.setNode_status (x : List Node) (s : State) : (s.setNode x).status = s.status := rfl
@[simp] theorem State.setNode_rsp (x : List Node) (s : State) : (s.setNode x).rsp = s.rsp := rfl
@[simp] theorem State.setNode_ses (x : List Node) (s : State) : (s.setNode x).ses = { s.ses with node := x } := rfl
@[simp] theorem State.setNode_io (x : List Node) (s : State) : (s.setNode x).io = s.io := rfl
@[simp] theorem State.setNode_host (x : List Node) (s : State) : (s.setNode x).host = s.host := rfl
@[simp] theorem State.setNode_freeCtr (x : List Node) (s : State) : (s.setNode x).freeCtr = s.freeCtr := rfl

@[simp] theorem State.setQ_build (x : List Idx) (s : State) : (s.setQ x).build = s.build := rfl
@[simp] theorem State.setQ_status (x : List Idx) (s : State) : (s.setQ x).status = s.status := rfl
@[simp] theorem State.setQ_rsp (x : List Idx) (s : State) : (s.setQ x).rsp = s.rsp := rfl
@[simp] theorem State.setQ_ses (x : List Idx) (s : State) : (s.setQ x).ses = { s.ses with q := x } := rfl
@[simp] theorem State.setQ_io (x : List Idx) (s : State) : (s.setQ x).io = s.io := rfl
@[simp] theorem State.setQ_host (x : List Idx) (s : State) : (s.setQ x).host = s.host := rfl
@[simp] theorem State.setQ_freeCtr (x : List Idx) (s : State) : (s.setQ x).freeCtr = s.freeCtr := rfl

@[simp] theorem State.setPath_build (x : Vector PathEntry 257) (s : State) : (s.setPath x).build = s.build := rfl
@[simp] theorem State.setPath_status (x : Vector PathEntry 257) (s : State) : (s.setPath x).status = s.status := rfl
@[simp] theorem State.setPath_rsp (x : Vector PathEntry 257) (s : State) : (s.setPath x).rsp = s.rsp := rfl
@[simp] theorem State.setPath_ses (x : Vector PathEntry 257) (s : State) : (s.setPath x).ses = { s.ses with path := x } := rfl
@[simp] theorem State.setPath_io (x : Vector PathEntry 257) (s : State) : (s.setPath x).io = s.io := rfl
@[simp] theorem State.setPath_host (x : Vector PathEntry 257) (s : State) : (s.setPath x).host = s.host := rfl
@[simp] theorem State.setPath_freeCtr (x : Vector PathEntry 257) (s : State) : (s.setPath x).freeCtr = s.freeCtr := rfl

@[simp] theorem State.setHdrTreeBits_build (x : Word32) (s : State) : (s.setHdrTreeBits x).build = s.build := rfl
@[simp] theorem State.setHdrTreeBits_status (x : Word32) (s : State) : (s.setHdrTreeBits x).status = s.status := rfl
@[simp] theorem State.setHdrTreeBits_rsp (x : Word32) (s : State) : (s.setHdrTreeBits x).rsp = s.rsp := rfl
@[simp] theorem State.setHdrTreeBits_ses (x : Word32) (s : State) : (s.setHdrTreeBits x).ses = { s.ses with hdrTreeBits := x } := rfl
@[simp] theorem State.setHdrTreeBits_io (x : Word32) (s : State) : (s.setHdrTreeBits x).io = s.io := rfl
@[simp] theorem State.setHdrTreeBits_host (x : Word32) (s : State) : (s.setHdrTreeBits x).host = s.host := rfl
@[simp] theorem State.setHdrTreeBits_freeCtr (x : Word32) (s : State) : (s.setHdrTreeBits x).freeCtr = s.freeCtr := rfl

@[simp] theorem State.setOutBits_build (x : Word64) (s : State) : (s.setOutBits x).build = s.build := rfl
@[simp] theorem State.setOutBits_status (x : Word64) (s : State) : (s.setOutBits x).status = s.status := rfl
@[simp] theorem State.setOutBits_rsp (x : Word64) (s : State) : (s.setOutBits x).rsp = s.rsp := rfl
@[simp] theorem State.setOutBits_ses (x : Word64) (s : State) : (s.setOutBits x).ses = { s.ses with outBits := x } := rfl
@[simp] theorem State.setOutBits_io (x : Word64) (s : State) : (s.setOutBits x).io = s.io := rfl
@[simp] theorem State.setOutBits_host (x : Word64) (s : State) : (s.setOutBits x).host = s.host := rfl
@[simp] theorem State.setOutBits_freeCtr (x : Word64) (s : State) : (s.setOutBits x).freeCtr = s.freeCtr := rfl

@[simp] theorem State.setMetrics_build (a : BitVec 10) (b : BitVec 9) (c : Word32) (s : State) : (s.setMetrics a b c).build = s.build := rfl
@[simp] theorem State.setMetrics_status (a : BitVec 10) (b : BitVec 9) (c : Word32) (s : State) : (s.setMetrics a b c).status = s.status := rfl
@[simp] theorem State.setMetrics_rsp (a : BitVec 10) (b : BitVec 9) (c : Word32) (s : State) : (s.setMetrics a b c).rsp = s.rsp := rfl
@[simp] theorem State.setMetrics_ses (a : BitVec 10) (b : BitVec 9) (c : Word32) (s : State) : (s.setMetrics a b c).ses = { s.ses with size := a, numleaf := b, treeBits := c } := rfl
@[simp] theorem State.setMetrics_io (a : BitVec 10) (b : BitVec 9) (c : Word32) (s : State) : (s.setMetrics a b c).io = s.io := rfl
@[simp] theorem State.setMetrics_host (a : BitVec 10) (b : BitVec 9) (c : Word32) (s : State) : (s.setMetrics a b c).host = s.host := rfl
@[simp] theorem State.setMetrics_freeCtr (a : BitVec 10) (b : BitVec 9) (c : Word32) (s : State) : (s.setMetrics a b c).freeCtr = s.freeCtr := rfl

@[simp] theorem State.setPrepass_build (a b c : Word64) (s : State) : (s.setPrepass a b c).build = s.build := rfl
@[simp] theorem State.setPrepass_status (a b c : Word64) (s : State) : (s.setPrepass a b c).status = s.status := rfl
@[simp] theorem State.setPrepass_rsp (a b c : Word64) (s : State) : (s.setPrepass a b c).rsp = s.rsp := rfl
@[simp] theorem State.setPrepass_ses (a b c : Word64) (s : State) : (s.setPrepass a b c).ses = { s.ses with origBits := a, projBits := b, savings := c } := rfl
@[simp] theorem State.setPrepass_io (a b c : Word64) (s : State) : (s.setPrepass a b c).io = s.io := rfl
@[simp] theorem State.setPrepass_host (a b c : Word64) (s : State) : (s.setPrepass a b c).host = s.host := rfl
@[simp] theorem State.setPrepass_freeCtr (a b c : Word64) (s : State) : (s.setPrepass a b c).freeCtr = s.freeCtr := rfl

@[simp] theorem State.setFreq_build (k : Nat) (c : Count) (s : State) : (s.setFreq k c).build = s.build := rfl
@[simp] theorem State.setFreq_status (k : Nat) (c : Count) (s : State) : (s.setFreq k c).status = s.status := rfl
@[simp] theorem State.setFreq_rsp (k : Nat) (c : Count) (s : State) : (s.setFreq k c).rsp = s.rsp := rfl
@[simp] theorem State.setFreq_ses (k : Nat) (c : Count) (s : State) : (s.setFreq k c).ses = { s.ses with freq := s.ses.freq.setIfInBounds k c } := rfl
@[simp] theorem State.setFreq_io (k : Nat) (c : Count) (s : State) : (s.setFreq k c).io = s.io := rfl
@[simp] theorem State.setFreq_host (k : Nat) (c : Count) (s : State) : (s.setFreq k c).host = s.host := rfl
@[simp] theorem State.setFreq_freeCtr (k : Nat) (c : Count) (s : State) : (s.setFreq k c).freeCtr = s.freeCtr := rfl

@[simp] theorem acquireSin_build (s : State) : (acquireSin s).build = s.build := rfl
@[simp] theorem acquireSin_status (s : State) : (acquireSin s).status = s.status := rfl
@[simp] theorem acquireSin_rsp (s : State) : (acquireSin s).rsp = s.rsp := rfl
@[simp] theorem acquireSin_ses (s : State) : (acquireSin s).ses = s.ses := rfl
@[simp] theorem acquireSin_io (s : State) : (acquireSin s).io = { s.io with sin := { s.io.sin with held := true } } := rfl
@[simp] theorem acquireSin_host (s : State) : (acquireSin s).host = s.host := rfl
@[simp] theorem acquireSin_freeCtr (s : State) : (acquireSin s).freeCtr = s.freeCtr := rfl

@[simp] theorem releaseSin_build (s : State) : (releaseSin s).build = s.build := rfl
@[simp] theorem releaseSin_status (s : State) : (releaseSin s).status = s.status := rfl
@[simp] theorem releaseSin_rsp (s : State) : (releaseSin s).rsp = s.rsp := rfl
@[simp] theorem releaseSin_ses (s : State) : (releaseSin s).ses = s.ses := rfl
@[simp] theorem releaseSin_io (s : State) : (releaseSin s).io = { s.io with sin := { s.io.sin with held := false } } := rfl
@[simp] theorem releaseSin_host (s : State) : (releaseSin s).host = s.host := rfl
@[simp] theorem releaseSin_freeCtr (s : State) : (releaseSin s).freeCtr = s.freeCtr := rfl

@[simp] theorem acquireSout_build (s : State) : (acquireSout s).build = s.build := rfl
@[simp] theorem acquireSout_status (s : State) : (acquireSout s).status = s.status := rfl
@[simp] theorem acquireSout_rsp (s : State) : (acquireSout s).rsp = s.rsp := rfl
@[simp] theorem acquireSout_ses (s : State) : (acquireSout s).ses = s.ses := rfl
@[simp] theorem acquireSout_io (s : State) : (acquireSout s).io = { s.io with sout := { s.io.sout with held := true } } := rfl
@[simp] theorem acquireSout_host (s : State) : (acquireSout s).host = s.host := rfl
@[simp] theorem acquireSout_freeCtr (s : State) : (acquireSout s).freeCtr = s.freeCtr := rfl

@[simp] theorem releaseSout_build (s : State) : (releaseSout s).build = s.build := rfl
@[simp] theorem releaseSout_status (s : State) : (releaseSout s).status = s.status := rfl
@[simp] theorem releaseSout_rsp (s : State) : (releaseSout s).rsp = s.rsp := rfl
@[simp] theorem releaseSout_ses (s : State) : (releaseSout s).ses = s.ses := rfl
@[simp] theorem releaseSout_io (s : State) : (releaseSout s).io = { s.io with sout := { s.io.sout with held := false } } := rfl
@[simp] theorem releaseSout_host (s : State) : (releaseSout s).host = s.host := rfl
@[simp] theorem releaseSout_freeCtr (s : State) : (releaseSout s).freeCtr = s.freeCtr := rfl

@[simp] theorem acquireBin_build (s : State) : (acquireBin s).build = s.build := rfl
@[simp] theorem acquireBin_status (s : State) : (acquireBin s).status = s.status := rfl
@[simp] theorem acquireBin_rsp (s : State) : (acquireBin s).rsp = s.rsp := rfl
@[simp] theorem acquireBin_ses (s : State) : (acquireBin s).ses = s.ses := rfl
@[simp] theorem acquireBin_io (s : State) : (acquireBin s).io = { s.io with bin := { s.io.bin with held := true } } := rfl
@[simp] theorem acquireBin_host (s : State) : (acquireBin s).host = s.host := rfl
@[simp] theorem acquireBin_freeCtr (s : State) : (acquireBin s).freeCtr = s.freeCtr := rfl

@[simp] theorem releaseBin_build (s : State) : (releaseBin s).build = s.build := rfl
@[simp] theorem releaseBin_status (s : State) : (releaseBin s).status = s.status := rfl
@[simp] theorem releaseBin_rsp (s : State) : (releaseBin s).rsp = s.rsp := rfl
@[simp] theorem releaseBin_ses (s : State) : (releaseBin s).ses = s.ses := rfl
@[simp] theorem releaseBin_io (s : State) : (releaseBin s).io = { s.io with bin := { s.io.bin with held := false } } := rfl
@[simp] theorem releaseBin_host (s : State) : (releaseBin s).host = s.host := rfl
@[simp] theorem releaseBin_freeCtr (s : State) : (releaseBin s).freeCtr = s.freeCtr := rfl

@[simp] theorem acquireBout_build (s : State) : (acquireBout s).build = s.build := rfl
@[simp] theorem acquireBout_status (s : State) : (acquireBout s).status = s.status := rfl
@[simp] theorem acquireBout_rsp (s : State) : (acquireBout s).rsp = s.rsp := rfl
@[simp] theorem acquireBout_ses (s : State) : (acquireBout s).ses = s.ses := rfl
@[simp] theorem acquireBout_io (s : State) : (acquireBout s).io = { s.io with bout := { s.io.bout with held := true } } := rfl
@[simp] theorem acquireBout_host (s : State) : (acquireBout s).host = s.host := rfl
@[simp] theorem acquireBout_freeCtr (s : State) : (acquireBout s).freeCtr = s.freeCtr := rfl

@[simp] theorem releaseBout_build (s : State) : (releaseBout s).build = s.build := rfl
@[simp] theorem releaseBout_status (s : State) : (releaseBout s).status = s.status := rfl
@[simp] theorem releaseBout_rsp (s : State) : (releaseBout s).rsp = s.rsp := rfl
@[simp] theorem releaseBout_ses (s : State) : (releaseBout s).ses = s.ses := rfl
@[simp] theorem releaseBout_io (s : State) : (releaseBout s).io = { s.io with bout := { s.io.bout with held := false } } := rfl
@[simp] theorem releaseBout_host (s : State) : (releaseBout s).host = s.host := rfl
@[simp] theorem releaseBout_freeCtr (s : State) : (releaseBout s).freeCtr = s.freeCtr := rfl

@[simp] theorem State.setSin_build (x : List SymVal) (s : State) : (s.setSin x).build = s.build := rfl
@[simp] theorem State.setSin_status (x : List SymVal) (s : State) : (s.setSin x).status = s.status := rfl
@[simp] theorem State.setSin_rsp (x : List SymVal) (s : State) : (s.setSin x).rsp = s.rsp := rfl
@[simp] theorem State.setSin_ses (x : List SymVal) (s : State) : (s.setSin x).ses = s.ses := rfl
@[simp] theorem State.setSin_io (x : List SymVal) (s : State) : (s.setSin x).io = { s.io with sin := { s.io.sin with items := x } } := rfl
@[simp] theorem State.setSin_host (x : List SymVal) (s : State) : (s.setSin x).host = s.host := rfl
@[simp] theorem State.setSin_freeCtr (x : List SymVal) (s : State) : (s.setSin x).freeCtr = s.freeCtr := rfl

@[simp] theorem State.setBin_build (x : Bits) (s : State) : (s.setBin x).build = s.build := rfl
@[simp] theorem State.setBin_status (x : Bits) (s : State) : (s.setBin x).status = s.status := rfl
@[simp] theorem State.setBin_rsp (x : Bits) (s : State) : (s.setBin x).rsp = s.rsp := rfl
@[simp] theorem State.setBin_ses (x : Bits) (s : State) : (s.setBin x).ses = s.ses := rfl
@[simp] theorem State.setBin_io (x : Bits) (s : State) : (s.setBin x).io = { s.io with bin := { s.io.bin with items := x } } := rfl
@[simp] theorem State.setBin_host (x : Bits) (s : State) : (s.setBin x).host = s.host := rfl
@[simp] theorem State.setBin_freeCtr (x : Bits) (s : State) : (s.setBin x).freeCtr = s.freeCtr := rfl

@[simp] theorem State.sendBout_build (x : Bits) (r : Option Nat) (s : State) : (s.sendBout x r).build = s.build := rfl
@[simp] theorem State.sendBout_status (x : Bits) (r : Option Nat) (s : State) : (s.sendBout x r).status = s.status := rfl
@[simp] theorem State.sendBout_rsp (x : Bits) (r : Option Nat) (s : State) : (s.sendBout x r).rsp = s.rsp := rfl
@[simp] theorem State.sendBout_ses (x : Bits) (r : Option Nat) (s : State) : (s.sendBout x r).ses = s.ses := rfl
@[simp] theorem State.sendBout_io (x : Bits) (r : Option Nat) (s : State) : (s.sendBout x r).io = { s.io with bout := { s.io.bout with sent := s.io.bout.sent ++ x, room := r } } := rfl
@[simp] theorem State.sendBout_host (x : Bits) (r : Option Nat) (s : State) : (s.sendBout x r).host = s.host := rfl
@[simp] theorem State.sendBout_freeCtr (x : Bits) (r : Option Nat) (s : State) : (s.sendBout x r).freeCtr = s.freeCtr := rfl

@[simp] theorem State.sendSout_build (x : List (BitVec 8)) (r : Option Nat) (s : State) : (s.sendSout x r).build = s.build := rfl
@[simp] theorem State.sendSout_status (x : List (BitVec 8)) (r : Option Nat) (s : State) : (s.sendSout x r).status = s.status := rfl
@[simp] theorem State.sendSout_rsp (x : List (BitVec 8)) (r : Option Nat) (s : State) : (s.sendSout x r).rsp = s.rsp := rfl
@[simp] theorem State.sendSout_ses (x : List (BitVec 8)) (r : Option Nat) (s : State) : (s.sendSout x r).ses = s.ses := rfl
@[simp] theorem State.sendSout_io (x : List (BitVec 8)) (r : Option Nat) (s : State) : (s.sendSout x r).io = { s.io with sout := { s.io.sout with sent := s.io.sout.sent ++ x, room := r } } := rfl
@[simp] theorem State.sendSout_host (x : List (BitVec 8)) (r : Option Nat) (s : State) : (s.sendSout x r).host = s.host := rfl
@[simp] theorem State.sendSout_freeCtr (x : List (BitVec 8)) (r : Option Nat) (s : State) : (s.sendSout x r).freeCtr = s.freeCtr := rfl

@[simp] theorem addOutBits_build (n : Nat) (s : State) : (addOutBits n s).build = s.build := rfl
@[simp] theorem addOutBits_status (n : Nat) (s : State) : (addOutBits n s).status = s.status := rfl
@[simp] theorem addOutBits_rsp (n : Nat) (s : State) : (addOutBits n s).rsp = s.rsp := rfl
@[simp] theorem addOutBits_ses (n : Nat) (s : State) : (addOutBits n s).ses = { s.ses with outBits := outBitsPlus s.ses.outBits n } := rfl
@[simp] theorem addOutBits_io (n : Nat) (s : State) : (addOutBits n s).io = s.io := rfl
@[simp] theorem addOutBits_host (n : Nat) (s : State) : (addOutBits n s).host = s.host := rfl
@[simp] theorem addOutBits_freeCtr (n : Nat) (s : State) : (addOutBits n s).freeCtr = s.freeCtr := rfl

@[simp] theorem releaseAll_build (s : State) : (releaseAll s).build = s.build := rfl
@[simp] theorem releaseAll_status (s : State) : (releaseAll s).status = s.status := rfl
@[simp] theorem releaseAll_rsp (s : State) : (releaseAll s).rsp = s.rsp := rfl
@[simp] theorem releaseAll_ses (s : State) : (releaseAll s).ses = s.ses := rfl
@[simp] theorem releaseAll_io (s : State) : (releaseAll s).io = { s.io with
      sin := { s.io.sin with held := false }, sout := { s.io.sout with held := false },
      bin := { s.io.bin with held := false }, bout := { s.io.bout with held := false } } := rfl
@[simp] theorem releaseAll_host (s : State) : (releaseAll s).host = s.host := rfl
@[simp] theorem releaseAll_freeCtr (s : State) : (releaseAll s).freeCtr = s.freeCtr := rfl

@[simp] theorem respond_build (r : Response) (s : State) : (respond r s).build = s.build := rfl
@[simp] theorem respond_status (r : Response) (s : State) : (respond r s).status = s.status := rfl
@[simp] theorem respond_rsp (r : Response) (s : State) : (respond r s).rsp = r := rfl
@[simp] theorem respond_ses (r : Response) (s : State) : (respond r s).ses = s.ses := rfl
@[simp] theorem respond_io (r : Response) (s : State) : (respond r s).io = { s.io with busy := false, rspValid := true } := rfl
@[simp] theorem respond_host (r : Response) (s : State) : (respond r s).host = s.host := rfl
@[simp] theorem respond_freeCtr (r : Response) (s : State) : (respond r s).freeCtr = s.freeCtr := rfl

@[simp] theorem waitForEver_build (s : State) : (waitForEver s).build = s.build := rfl
@[simp] theorem waitForEver_status (s : State) : (waitForEver s).status = s.status := rfl
@[simp] theorem waitForEver_rsp (s : State) : (waitForEver s).rsp = s.rsp := rfl
@[simp] theorem waitForEver_ses (s : State) : (waitForEver s).ses = s.ses := rfl
@[simp] theorem waitForEver_io (s : State) : (waitForEver s).io = { s.io with busy := true, rspValid := false } := rfl
@[simp] theorem waitForEver_host (s : State) : (waitForEver s).host = s.host := rfl
@[simp] theorem waitForEver_freeCtr (s : State) : (waitForEver s).freeCtr = s.freeCtr := rfl

@[simp] theorem idle_build (s : State) : (idle s).build = s.build := rfl
@[simp] theorem idle_status (s : State) : (idle s).status = s.status := rfl
@[simp] theorem idle_rsp (s : State) : (idle s).rsp = s.rsp := rfl
@[simp] theorem idle_ses (s : State) : (idle s).ses = s.ses := rfl
@[simp] theorem idle_io (s : State) : (idle s).io = { s.io with rspValid := false } := rfl
@[simp] theorem idle_host (s : State) : (idle s).host = s.host := rfl
@[simp] theorem idle_freeCtr (s : State) : (idle s).freeCtr = s.freeCtr := rfl

@[simp] theorem clearResults_build (s : State) : (clearResults s).build = s.build := rfl
@[simp] theorem clearResults_status (s : State) : (clearResults s).status = s.status := rfl
@[simp] theorem clearResults_rsp (s : State) : (clearResults s).rsp = ⟨s.rsp.rc, 0, 0, 0⟩ := rfl
@[simp] theorem clearResults_ses (s : State) : (clearResults s).ses = s.ses := rfl
@[simp] theorem clearResults_io (s : State) : (clearResults s).io = s.io := rfl
@[simp] theorem clearResults_host (s : State) : (clearResults s).host = s.host := rfl
@[simp] theorem clearResults_freeCtr (s : State) : (clearResults s).freeCtr = s.freeCtr := rfl

@[simp] theorem refuse_build (s : State) : (refuse s).build = s.build := rfl
@[simp] theorem refuse_status (s : State) : (refuse s).status = s.status := rfl
@[simp] theorem refuse_rsp (s : State) : (refuse s).rsp = ⟨3, 0, 0, 0⟩ := rfl
@[simp] theorem refuse_ses (s : State) : (refuse s).ses = s.ses := rfl
@[simp] theorem refuse_io (s : State) : (refuse s).io = { s.io with busy := false, rspValid := true } := rfl
@[simp] theorem refuse_host (s : State) : (refuse s).host = s.host := rfl
@[simp] theorem refuse_freeCtr (s : State) : (refuse s).freeCtr = s.freeCtr := rfl

@[simp] theorem sessionInit_build (s : State) : (sessionInit s).build = s.build := rfl
@[simp] theorem sessionInit_status (s : State) : (sessionInit s).status = { Status.fresh with fault := s.status.fault } := rfl
@[simp] theorem sessionInit_rsp (s : State) : (sessionInit s).rsp = s.rsp := rfl
@[simp] theorem sessionInit_ses (s : State) : (sessionInit s).ses = Session.fresh := rfl
@[simp] theorem sessionInit_io (s : State) : (sessionInit s).io = s.io := rfl
@[simp] theorem sessionInit_host (s : State) : (sessionInit s).host = s.host := rfl
@[simp] theorem sessionInit_freeCtr (s : State) : (sessionInit s).freeCtr = s.freeCtr := rfl

@[simp] theorem clearFault_build (s : State) : (clearFault s).build = s.build := rfl
@[simp] theorem clearFault_status (s : State) : (clearFault s).status = Status.fresh := rfl
@[simp] theorem clearFault_rsp (s : State) : (clearFault s).rsp = s.rsp := rfl
@[simp] theorem clearFault_ses (s : State) : (clearFault s).ses = Session.fresh := rfl
@[simp] theorem clearFault_io (s : State) : (clearFault s).io = s.io := rfl
@[simp] theorem clearFault_host (s : State) : (clearFault s).host = s.host := rfl
@[simp] theorem clearFault_freeCtr (s : State) : (clearFault s).freeCtr = s.freeCtr := rfl

@[simp] theorem takeFault_build (f : FaultKind) (s : State) : (takeFault f s).build = s.build := rfl
@[simp] theorem takeFault_status (f : FaultKind) (s : State) : (takeFault f s).status = { s.status with fault := some f, prepped := false, treeValid := false } := rfl
@[simp] theorem takeFault_rsp (f : FaultKind) (s : State) : (takeFault f s).rsp = ⟨8 + f.code, 0, 0, 0⟩ := rfl
@[simp] theorem takeFault_ses (f : FaultKind) (s : State) : (takeFault f s).ses = Config.undefinedSession s.freeCtr := rfl
@[simp] theorem takeFault_io (f : FaultKind) (s : State) : (takeFault f s).io = { s.io with
      sin := { s.io.sin with held := false }, sout := { s.io.sout with held := false },
      bin := { s.io.bin with held := false }, bout := { s.io.bout with held := false },
      busy := false, rspValid := true } := rfl
@[simp] theorem takeFault_host (f : FaultKind) (s : State) : (takeFault f s).host = s.host := rfl
@[simp] theorem takeFault_freeCtr (f : FaultKind) (s : State) : (takeFault f s).freeCtr = s.freeCtr + 1 := rfl

@[simp] theorem resetTree_build (s : State) : (resetTree s).build = s.build := rfl
@[simp] theorem resetTree_status (s : State) : (resetTree s).status = { s.status with treeValid := false } := rfl
@[simp] theorem resetTree_rsp (s : State) : (resetTree s).rsp = s.rsp := rfl
@[simp] theorem resetTree_ses (s : State) : (resetTree s).ses = { s.ses with node := [], q := [], root := NIL, size := 0, numleaf := 0, treeBits := 0, path := noPaths } := rfl
@[simp] theorem resetTree_io (s : State) : (resetTree s).io = s.io := rfl
@[simp] theorem resetTree_host (s : State) : (resetTree s).host = s.host := rfl
@[simp] theorem resetTree_freeCtr (s : State) : (resetTree s).freeCtr = s.freeCtr := rfl

@[simp] theorem settleCur_build (s : State) : (settleCur s).build = s.build := rfl
@[simp] theorem settleCur_status (s : State) : (settleCur s).status = s.status := rfl
@[simp] theorem settleCur_rsp (s : State) : (settleCur s).rsp = s.rsp := rfl
@[simp] theorem settleCur_ses (s : State) : (settleCur s).ses = { s.ses with cur := keptCur s.ses.cur s.ses.node.length } := rfl
@[simp] theorem settleCur_io (s : State) : (settleCur s).io = s.io := rfl
@[simp] theorem settleCur_host (s : State) : (settleCur s).host = s.host := rfl
@[simp] theorem settleCur_freeCtr (s : State) : (settleCur s).freeCtr = s.freeCtr := rfl

/-- A settled CUR is the old one or NIL, and it is NIL or an allocated index (10_state.md R22). -/
theorem keptCur_cases (cur : Idx) (n : Nat) : keptCur cur n = cur ∧ cur.toNat < n ∨ keptCur cur n = NIL := by
  unfold keptCur; split <;> simp [*]

/-- A command that settles CUR leaves NIL or an allocated index in it (10_state.md R22). -/
theorem settleCur_curOk (s : State) : CurOk (settleCur s).ses := by
  rcases keptCur_cases s.ses.cur s.ses.node.length with ⟨h, hlt⟩ | h
  · exact Or.inr (by simp only [settleCur_ses, h]; exact hlt)
  · exact Or.inl h

@[simp] theorem finish_ok (r : Response) (s : State) : finish (.ok r s) = .next (respond r s) := rfl
@[simp] theorem finish_raise (f : FaultKind) (s : State) : finish (.raise f s) = .next (takeFault f s) := rfl
@[simp] theorem finish_hang (s : State) : finish (.hang s) = .next (waitForEver s) := rfl
@[simp] theorem finish_stuck (f : Fault) : finish (.stuck f) = .fault f := rfl

/-- The front end without a fault runs the command's rule (40_system_commands.md R121). -/
theorem frontEnd_ok {s : State} (run : State → Res Response) (h : s.status.fault = none) :
    frontEnd run s = finish (run (clearResults s)) := by
  rw [frontEnd, h]

/-- The front end of a faulted session refuses (60_exceptions.md R256). -/
theorem frontEnd_refuse {s : State} {f : FaultKind} (run : State → Res Response) (h : s.status.fault = some f) :
    frontEnd run s = .next (refuse s) := by
  rw [frontEnd, h]

/-- Write the whole frequency table (R40); a name for the lemmas only. -/
def State.setFreqs (f : Vector Count 256) (s : State) : State := { s with ses := { s.ses with freq := f } }

/-- Leaving on SIN what is there changes nothing (20_memory.md R60). -/
theorem State.setSin_self {s : State} {xs : List SymVal} (h : s.io.sin.items = xs) : s.setSin xs = s := by
  subst h; rfl

/-- Leaving on BIN what is there changes nothing (20_memory.md R62). -/
theorem State.setBin_self {s : State} {bs : Bits} (h : s.io.bin.items = bs) : s.setBin bs = s := by
  subst h; rfl

/-- Writing a count and reading it back (10_state.md R40). -/
theorem State.freqAt_setFreq_same (s : State) (k : Nat) (c : Count) (h : k < 256) :
    (s.setFreq k c).freqAt k = c := by
  simp [State.freqAt, h]

/-- Writing a count leaves the others (10_state.md R40). -/
theorem State.freqAt_setFreq_other (s : State) (k j : Nat) (c : Count) (h : k ≠ j) :
    (s.setFreq k c).freqAt j = s.freqAt j := by
  simp [State.freqAt, h]

end Sys2Proof.Machine
end

