-- ==== Sys2Proof/Laws/Tree.lean ====
section
/-! SUPPORT. Trees as values and the walks over the arena: Visit and SerializeTree follow the tree the arena holds
(10_state.md R43, 43_tree_builder.md R173, 44_tree_codec.md R191). -/

namespace Sys2Proof.Machine

theorem CodeTree.leaves_pos (t : CodeTree) : 0 < t.leaves := by
  cases t with
  | leaf => simp [CodeTree.leaves]
  | internal w l r => have := l.leaves_pos; simp [CodeTree.leaves]; omega

/-- A tree with `n` leaves has `2n - 1` nodes (43_tree_builder.md R171 (c)). -/
theorem CodeTree.size_eq (t : CodeTree) : t.size + 1 = 2 * t.leaves := by
  induction t with
  | leaf => rfl
  | internal w l r hl hr => simp only [CodeTree.size, CodeTree.leaves]; omega

/-- No leaf is deeper than the number of leaves less one (R171 (d)). -/
theorem CodeTree.depth_lt (t : CodeTree) : t.depth < t.leaves := by
  induction t with
  | leaf => simp [CodeTree.depth, CodeTree.leaves]
  | internal w l r hl hr =>
    have := l.leaves_pos; have := r.leaves_pos
    simp only [CodeTree.depth, CodeTree.leaves]; omega

/-- The length of the serialized form (44_tree_codec.md R190). -/
theorem CodeTree.bits_length (t : CodeTree) : t.bits.length = t.size + 9 * t.leaves := by
  induction t with
  | leaf => simp [CodeTree.bits, CodeTree.size, CodeTree.leaves]
  | internal w l r hl hr => simp [CodeTree.bits, CodeTree.size, CodeTree.leaves, hl, hr]; omega

theorem CodeTree.syms_length (t : CodeTree) : t.syms.length = t.leaves := by
  induction t with
  | leaf => rfl
  | internal w l r hl hr => simp [CodeTree.syms, CodeTree.leaves, hl, hr]

theorem CodeTree.Legal.depth_le {t : CodeTree} (h : t.Legal) : t.depth ≤ 256 := by
  have := t.depth_lt; have := h.1; omega

theorem CodeTree.Legal.depth_lt_fuel {t : CodeTree} (h : t.Legal) : t.depth < walkFuel := by
  have := h.depth_le; simp [walkFuel, Config.NODE_CAP]; omega

theorem CodeTree.Legal.size_le {t : CodeTree} (h : t.Legal) : t.size ≤ 513 := by
  have := t.size_eq; have := h.1; omega

@[simp] theorem CodeTree.unweighted_bits (t : CodeTree) : t.unweighted.bits = t.bits := by
  induction t with
  | leaf => rfl
  | internal w l r hl hr => simp [CodeTree.unweighted, CodeTree.bits, hl, hr]

@[simp] theorem CodeTree.unweighted_size (t : CodeTree) : t.unweighted.size = t.size := by
  induction t with
  | leaf => rfl
  | internal w l r hl hr => simp [CodeTree.unweighted, CodeTree.size, hl, hr]

@[simp] theorem CodeTree.unweighted_leaves (t : CodeTree) : t.unweighted.leaves = t.leaves := by
  induction t with
  | leaf => rfl
  | internal w l r hl hr => simp [CodeTree.unweighted, CodeTree.leaves, hl, hr]

@[simp] theorem CodeTree.unweighted_syms (t : CodeTree) : t.unweighted.syms = t.syms := by
  induction t with
  | leaf => rfl
  | internal w l r hl hr => simp [CodeTree.unweighted, CodeTree.syms, hl, hr]

@[simp] theorem CodeTree.unweighted_paths (t : CodeTree) (p : Bits) : t.unweighted.paths p = t.paths p := by
  induction t generalizing p with
  | leaf => rfl
  | internal w l r hl hr => simp [CodeTree.unweighted, CodeTree.paths, hl, hr]

@[simp] theorem CodeTree.unweighted_pathTable (t : CodeTree) : t.unweighted.pathTable = t.pathTable := by
  simp [CodeTree.pathTable]

theorem CodeTree.unweighted_legal {t : CodeTree} : t.unweighted.Legal ↔ t.Legal := by simp [CodeTree.Legal]

theorem getElem?_append_of_eq_some {α : Type} {l : List α} {i : Nat} {a : α} (more : List α) (h : l[i]? = some a) :
    (l ++ more)[i]? = some a := by
  obtain ⟨hi, rfl⟩ := List.getElem?_eq_some_iff.1 h
  simp [List.getElem?_append_left hi]

/-- A tree stays where it is when entries are appended to the arena (10_state.md R41: an entry is written once). -/
theorem IsTree.append {node : List Node} {i : Idx} {t : CodeTree} (more : List Node) (h : IsTree node i t) :
    IsTree (node ++ more) i t := by
  induction t generalizing i with
  | leaf s w => exact getElem?_append_of_eq_some more h
  | internal w l r hl hr =>
    obtain ⟨a, b, hn, ha, hb⟩ := h
    exact ⟨a, b, getElem?_append_of_eq_some more hn, hl ha, hr hb⟩

/-- The entry at the root of a tree has the tree's weight (R41). -/
theorem IsTree.root_weight {node : List Node} {i : Idx} {t : CodeTree} (h : IsTree node i t) :
    ∃ n, node[i.toNat]? = some n ∧ n.weight = t.weight := by
  cases t with
  | leaf s w => exact ⟨_, h, rfl⟩
  | internal w l r => obtain ⟨a, b, hn, -, -⟩ := h; exact ⟨_, hn, rfl⟩

theorem IsTree.lt_length {node : List Node} {i : Idx} {t : CodeTree} (h : IsTree node i t) : i.toNat < node.length := by
  obtain ⟨n, hn, -⟩ := h.root_weight
  exact (List.getElem?_eq_some_iff.1 hn).1

/-- An arena holds at most one tree at an index. -/
theorem IsTree.unique {node : List Node} {i : Idx} {t u : CodeTree} (h : IsTree node i t) (k : IsTree node i u) :
    t = u := by
  induction t generalizing i u with
  | leaf s w =>
    cases u with
    | leaf s' w' =>
      unfold IsTree at h k
      rw [h] at k
      simpa using k
    | internal w' l r => obtain ⟨a, b, hn, -, -⟩ := k; simp [IsTree, hn] at h
  | internal w l r hl hr =>
    obtain ⟨a, b, hn, ha, hb⟩ := h
    cases u with
    | leaf s' w' => simp [IsTree, hn] at k
    | internal w' l' r' =>
      obtain ⟨a', b', hn', ha', hb'⟩ := k
      rw [hn] at hn'
      simp only [Option.some.injEq, Node.internal.injEq] at hn'
      obtain ⟨rfl, rfl, rfl⟩ := hn'
      rw [hl ha ha', hr hb hb']

/-- Visit over a tree the arena holds (R173): it counts the nodes and leaves and enters every leaf's path. -/
theorem visit_of_isTree {node : List Node} {i : Idx} {t : CodeTree} (h : IsTree node i t) (fuel : Nat) (p : Bits)
    (d : Derived) (hf : t.depth < fuel) :
    visit node fuel i p d = some ⟨d.size + t.size, d.numleaf + t.leaves, (t.paths p).foldl enterPath d.path⟩ := by
  induction t generalizing i fuel p d with
  | leaf s w =>
    cases fuel with
    | zero => simp at hf
    | succ fuel =>
      unfold IsTree at h
      simp [visit, h, CodeTree.size, CodeTree.leaves, CodeTree.paths, enterPath]
  | internal w l r hl hr =>
    cases fuel with
    | zero => simp at hf
    | succ fuel =>
      obtain ⟨a, b, hn, ha, hb⟩ := h
      simp only [CodeTree.depth] at hf
      rw [visit, hn]
      simp only
      rw [hl ha fuel _ _ (by omega)]
      simp only
      rw [hr hb fuel _ _ (by omega)]
      simp only [CodeTree.size, CodeTree.leaves, CodeTree.paths, List.foldl_append, Option.some.injEq, Derived.mk.injEq, and_true]
      omega

/-- SerializeTree over a tree the arena holds writes its serialized form (44_tree_codec.md R191, R190). -/
theorem serialize_of_isTree {node : List Node} {i : Idx} {t : CodeTree} (h : IsTree node i t) (fuel : Nat)
    (hf : t.depth < fuel) : serialize node fuel i = some t.bits := by
  induction t generalizing i fuel with
  | leaf s w =>
    cases fuel with
    | zero => simp at hf
    | succ fuel => unfold IsTree at h; simp [serialize, h, encode, encodeWord, encodeField, CodeTree.bits]
  | internal w l r hl hr =>
    cases fuel with
    | zero => simp at hf
    | succ fuel =>
      obtain ⟨a, b, hn, ha, hb⟩ := h
      simp only [CodeTree.depth] at hf
      rw [serialize, hn]
      simp only
      rw [hl ha fuel (by omega), hr hb fuel (by omega)]
      simp [encode, encodeWord, encodeField, CodeTree.bits]

/-- The session after DeriveTree() on the tree `t` (R173). -/
def Session.derived (c : Session) (t : CodeTree) : Session :=
  { c with
    path := t.pathTable, size := BitVec.ofNat 10 t.size, numleaf := BitVec.ofNat 9 t.leaves
    treeBits := BitVec.ofNat 32 (t.size + 9 * t.leaves) }

/-- DeriveTree() on a tree the arena holds at ROOT (R173). -/
theorem deriveTree_of_isTree {s : State} {t : CodeTree} (h : IsTree s.ses.node s.ses.root t) (hf : t.depth < walkFuel) :
    deriveTree s = .ok () { s with ses := s.ses.derived t, status := { s.status with treeValid := true } } := by
  rw [deriveTree, visit_of_isTree h walkFuel _ _ hf]
  simp only [Nat.zero_add, Config.W, CodeTree.pathTable, Session.derived]
  rw [Nat.mul_comm t.leaves]
  rfl

/-- WTREE's write on a tree the arena holds at ROOT (R191). -/
theorem writeTree_of_isTree {s : State} {t : CodeTree} (h : IsTree s.ses.node s.ses.root t) (hf : t.depth < walkFuel) :
    writeTree s = putBits t.bits s := by
  rw [writeTree, serialize_of_isTree h walkFuel hf]

/-- A path in the table is the path of a leaf of the tree, or was there before. -/
theorem foldl_enterPath_eq_some {l : List (SymVal × Bits)} {v : Vector PathEntry 257} {k : Nat} {p : Bits}
    (h : ((l.foldl enterPath v)[k]?).getD none = some p) :
    (∃ e ∈ l, e.1.toNat = k ∧ e.2 = p) ∨ (v[k]?).getD none = some p := by
  induction l generalizing v with
  | nil => exact Or.inr h
  | cons e l ih =>
    rcases ih h with ⟨e', he', h1, h2⟩ | h'
    · exact Or.inl ⟨e', List.mem_cons_of_mem _ he', h1, h2⟩
    · by_cases hk : e.1.toNat = k
      · by_cases hb : k < 257
        · rw [enterPath, Vector.getElem?_setIfInBounds] at h'
          simp [hk, hb] at h'
          exact Or.inl ⟨e, List.mem_cons_self, hk, h'⟩
        · simp [enterPath, hb] at h'
      · right
        rw [enterPath, Vector.getElem?_setIfInBounds] at h'
        simpa [hk] using h'

/-- A leaf's symbol has a path in the table. -/
theorem foldl_enterPath_isSome {l : List (SymVal × Bits)} {v : Vector PathEntry 257} {k : Nat} (hk : k < 257)
    (h : (∃ e ∈ l, e.1.toNat = k) ∨ ((v[k]?).getD none).isSome = true) :
    (((l.foldl enterPath v)[k]?).getD none).isSome = true := by
  induction l generalizing v with
  | nil => simpa using h
  | cons e l ih =>
    apply ih
    by_cases hm : ∃ e' ∈ l, e'.1.toNat = k
    · exact Or.inl hm
    · right
      rw [enterPath, Vector.getElem?_setIfInBounds]
      by_cases he : e.1.toNat = k
      · simp [he, hk]
      · simp only [he, if_false]
        rcases h with ⟨e', he', hk'⟩ | h
        · rcases List.mem_cons.1 he' with rfl | hmem
          · exact absurd hk' he
          · exact absurd ⟨e', hmem, hk'⟩ hm
        · exact h

theorem CodeTree.paths_fst (t : CodeTree) (p : Bits) : (t.paths p).map Prod.fst = t.syms := by
  induction t generalizing p with
  | leaf => rfl
  | internal w l r hl hr => simp [CodeTree.paths, CodeTree.syms, hl, hr]

@[simp] theorem noPaths_get (k : Nat) : (noPaths[k]?).getD none = none := by
  by_cases h : k < 257 <;> simp [noPaths, h]

/-- The table's entry of a symbol is the path of a leaf with that symbol (R173). -/
theorem CodeTree.pathTable_mem {t : CodeTree} {k : Nat} {p : Bits} (h : (t.pathTable[k]?).getD none = some p) :
    ∃ s, s.toNat = k ∧ (s, p) ∈ t.paths [] := by
  rcases foldl_enterPath_eq_some h with ⟨e, he, h1, h2⟩ | h'
  · exact ⟨e.1, h1, by rw [← h2]; exact he⟩
  · simp at h'

/-- The table has an entry exactly for the symbols of the leaves (R175 (a)). -/
theorem CodeTree.pathTable_isSome {t : CodeTree} {k : Nat} (hk : k < 257) :
    ((t.pathTable[k]?).getD none).isSome = true ↔ ∃ s ∈ t.syms, s.toNat = k := by
  constructor
  · intro h
    obtain ⟨p, hp⟩ := Option.isSome_iff_exists.1 h
    obtain ⟨s, hs, hm⟩ := CodeTree.pathTable_mem hp
    refine ⟨s, ?_, hs⟩
    rw [← t.paths_fst []]
    exact List.mem_map.2 ⟨_, hm, rfl⟩
  · rintro ⟨s, hs, rfl⟩
    apply foldl_enterPath_isSome hk
    rw [← t.paths_fst []] at hs
    obtain ⟨e, he, rfl⟩ := List.mem_map.1 hs
    exact Or.inl ⟨e, he, rfl⟩

end Sys2Proof.Machine
end

