-- ==== Sys2Proof/Laws/Queue.lean ====
section
/-! SUPPORT. The ranked queue over an arena whose entries are trees: QueueInsert ranks a tree (41_ranked_queue.md R130),
the merge loop is the merge on tree values, and BuildTree() ends in its last tree (43_tree_builder.md R170). -/

namespace Sys2Proof.Machine

open List (Forall₂)

@[simp] theorem CodeTree.weight_internal (w : Weight) (l r : CodeTree) : (CodeTree.internal w l r).weight = w := rfl
@[simp] theorem CodeTree.weight_leaf (s : SymVal) (w : Weight) : (CodeTree.leaf s w).weight = w := rfl

@[simp] theorem Res.andThen_ok {α β : Type} (a : α) (s : State) (k : α → State → Res β) :
    (Res.ok a s).andThen k = k a s := rfl
@[simp] theorem Res.andThen_raise {α β : Type} (f : FaultKind) (s : State) (k : α → State → Res β) :
    (Res.raise f s : Res α).andThen k = .raise f s := rfl
@[simp] theorem Res.andThen_hang {α β : Type} (s : State) (k : α → State → Res β) :
    (Res.hang s : Res α).andThen k = .hang s := rfl
@[simp] theorem Res.andThen_stuck {α β : Type} (r : Fault) (k : α → State → Res β) :
    (Res.stuck r : Res α).andThen k = .stuck r := rfl

theorem Res.andThen_assoc {α β γ : Type} (r : Res α) (k : α → State → Res β) (l : β → State → Res γ) :
    (r.andThen k).andThen l = r.andThen fun a s => (k a s).andThen l := by
  cases r <;> rfl

/-- `andThen` goes on exactly when the first part does. -/
theorem Res.andThen_eq_ok {α β : Type} {r : Res α} {k : α → State → Res β} {b : β} {t : State} :
    r.andThen k = .ok b t ↔ ∃ a s, r = .ok a s ∧ k a s = .ok b t := by
  cases r <;> simp [Res.andThen]

/-- AllocLeaf and AllocInternal (10_state.md R42) in an arena with room. -/
theorem alloc_ok {s : State} (n : Node) (h : s.ses.node.length < Config.NODE_CAP) :
    alloc n s = .ok s.nextIdx (s.setNode (s.ses.node ++ [n])) := by
  simp [alloc, Nat.not_le.2 h]

/-- A full arena (R42). -/
theorem alloc_full {s : State} (n : Node) (h : Config.NODE_CAP ≤ s.ses.node.length) :
    alloc n s = .raise .capacityFault s := by
  simp [alloc, h]

/-- The index of the next entry is the number of entries (R42). -/
theorem nextIdx_toNat {s : State} (h : s.ses.node.length ≤ Config.NODE_CAP) :
    s.nextIdx.toNat = s.ses.node.length := by
  simp only [Config.NODE_CAP] at h
  simp [State.nextIdx]; omega

theorem queuePos_of_trees {node : List Node} {q : List Idx} {ts : List CodeTree} (h : Forall₂ (IsTree node) q ts)
    {i : Idx} {t : CodeTree} (hi : IsTree node i t) :
    ∃ pos, queuePos node t.weight q = some pos ∧ pos = (ts.takeWhile (fun u => u.weight ≤ t.weight)).length ∧
      Forall₂ (IsTree node) (q.take pos ++ i :: q.drop pos) (rankTree t ts) := by
  induction h with
  | nil => exact ⟨0, rfl, rfl, by simpa [rankTree] using hi⟩
  | @cons j u q ts hj hq ih =>
    obtain ⟨n, hn, hw⟩ := hj.root_weight
    by_cases hle : u.weight ≤ t.weight
    · obtain ⟨pos, hp, hl, hf⟩ := ih
      refine ⟨pos + 1, ?_, ?_, ?_⟩
      · simp [queuePos, hn, hw, hle, hp]
      · simp [hle, hl]
      · simp only [rankTree, hle, if_true, List.take_succ_cons, List.drop_succ_cons, List.cons_append]
        exact .cons hj hf
    · refine ⟨0, ?_, ?_, ?_⟩
      · simp [queuePos, hn, hw, hle]
      · simp [hle]
      · simp only [rankTree, hle, if_false, List.take_zero, List.drop_zero, List.nil_append]
        exact .cons hi (.cons hj hq)

/-- QueueInsert of a tree into a queue of trees with room (R130): the position is the number of leading entries of at
most its weight, and the queue is ranked. -/
theorem queueInsert_of_trees {s : State} {ts : List CodeTree} (h : Forall₂ (IsTree s.ses.node) s.ses.q ts) {i : Idx}
    {t : CodeTree} (hi : IsTree s.ses.node i t) (hl : s.ses.q.length < Config.QCAP) :
    ∃ pos, pos = (ts.takeWhile (fun u => u.weight ≤ t.weight)).length ∧
      queueInsert i s = .ok pos (s.setQ (s.ses.q.take pos ++ i :: s.ses.q.drop pos)) ∧
      Forall₂ (IsTree s.ses.node) (s.ses.q.take pos ++ i :: s.ses.q.drop pos) (rankTree t ts) := by
  obtain ⟨pos, hp, hpos, hf⟩ := queuePos_of_trees h hi
  obtain ⟨n, hn, hw⟩ := hi.root_weight
  refine ⟨pos, hpos, ?_, hf⟩
  simp [queueInsert, Nat.not_le.2 hl, State.nodeAt, hn, hw, hp]

theorem rankTree_perm (t : CodeTree) (ts : List CodeTree) : (rankTree t ts).Perm (t :: ts) := by
  induction ts with
  | nil => simp [rankTree]
  | cons u us ih =>
    unfold rankTree
    split
    · exact (ih.cons u).trans (List.Perm.swap t u us)
    · exact List.Perm.refl _

@[simp] theorem rankTree_length (t : CodeTree) (ts : List CodeTree) : (rankTree t ts).length = ts.length + 1 := by
  simpa using (rankTree_perm t ts).length_eq

/-- The symbols of all leaves of a list of trees. -/
def allSyms (ts : List CodeTree) : List SymVal := ts.flatMap CodeTree.syms

/-- The number of leaves of a list of trees. -/
def totalLeaves (ts : List CodeTree) : Nat := (ts.map CodeTree.leaves).sum

theorem totalWeight_rank (t : CodeTree) (ts : List CodeTree) : totalWeight (rankTree t ts) = t.weight.toNat + totalWeight ts := by
  simpa [totalWeight] using ((rankTree_perm t ts).map (fun t => t.weight.toNat)).sum_eq

theorem totalLeaves_rank (t : CodeTree) (ts : List CodeTree) : totalLeaves (rankTree t ts) = t.leaves + totalLeaves ts := by
  simpa [totalLeaves] using ((rankTree_perm t ts).map CodeTree.leaves).sum_eq

theorem allSyms_rank (t : CodeTree) (ts : List CodeTree) : (allSyms (rankTree t ts)).Perm (t.syms ++ allSyms ts) := by
  simpa [allSyms] using (rankTree_perm t ts).flatMap_right CodeTree.syms

/-- The merge keeps the number of leaves (R171 (c)). -/
theorem mergeTrees_leaves (fuel : Nat) (ts : List CodeTree) : totalLeaves (mergeTrees fuel ts) = totalLeaves ts := by
  induction fuel generalizing ts with
  | zero => simp [mergeTrees]
  | succ fuel ih =>
    match ts with
    | [] => simp [mergeTrees]
    | [t] => simp [mergeTrees]
    | a :: b :: rest =>
      rw [mergeTrees, ih, totalLeaves_rank]
      simp [totalLeaves, CodeTree.leaves]; omega

/-- The merge keeps the leaves' symbols (R171 (c)). -/
theorem mergeTrees_syms (fuel : Nat) (ts : List CodeTree) : (allSyms (mergeTrees fuel ts)).Perm (allSyms ts) := by
  induction fuel generalizing ts with
  | zero => simp [mergeTrees]
  | succ fuel ih =>
    match ts with
    | [] => simp [mergeTrees]
    | [t] => simp [mergeTrees]
    | a :: b :: rest =>
      rw [mergeTrees]
      refine (ih _).trans ((allSyms_rank _ _).trans ?_)
      simp [allSyms, CodeTree.syms]

/-- One tree is left after `n - 1` passes (R171 (a)). -/
theorem mergeTrees_length (fuel : Nat) (ts : List CodeTree) (h : ts ≠ []) (hf : ts.length ≤ fuel + 1) :
    (mergeTrees fuel ts).length = 1 := by
  induction fuel generalizing ts with
  | zero =>
    match ts, h with
    | [t], _ => simp [mergeTrees]
    | a :: b :: rest, _ => simp at hf
  | succ fuel ih =>
    match ts, h with
    | [t], _ => simp [mergeTrees]
    | a :: b :: rest, _ =>
      rw [mergeTrees]
      apply ih
      · intro hn; simpa [hn] using rankTree_length (.internal (a.weight + b.weight) a b) rest
      · simp at hf ⊢; omega

theorem Forall₂.isTree_append {node : List Node} {q : List Idx} {ts : List CodeTree} (more : List Node)
    (h : Forall₂ (IsTree node) q ts) : Forall₂ (IsTree (node ++ more)) q ts :=
  h.imp fun _ _ h => h.append more

theorem entryWeight_of {node : List Node} {i : Idx} {n : Node} (h : node[i.toNat]? = some n) :
    entryWeight node i = n.weight := by
  simp [entryWeight, h]

theorem IsTree.entryWeight {node : List Node} {i : Idx} {t : CodeTree} (h : IsTree node i t) :
    entryWeight node i = t.weight := by
  obtain ⟨n, hn, hw⟩ := h.root_weight
  rw [entryWeight_of hn, hw]

theorem queueEntries_cons (node : List Node) (i : Idx) (q : List Idx) :
    queueEntries node (i :: q) = (i, entryWeight node i) :: queueEntries node q := rfl

@[simp] theorem queueEntries_length (node : List Node) (q : List Idx) : (queueEntries node q).length = q.length := by
  simp [queueEntries]

@[simp] theorem rankEntry_length (e : Idx × Weight) (es : List (Idx × Weight)) :
    (rankEntry e es).length = es.length + 1 := by
  induction es with
  | nil => rfl
  | cons x xs ih => rw [rankEntry]; split <;> simp [ih]

/-- The entries of a queue of trees have the trees' weights, also when the arena grows. -/
theorem queueEntries_append {node : List Node} {q : List Idx} {ts : List CodeTree} (more : List Node)
    (h : Forall₂ (IsTree node) q ts) : queueEntries (node ++ more) q = queueEntries node q := by
  induction h with
  | nil => rfl
  | cons ht _ ih => rw [queueEntries_cons, queueEntries_cons, ih, ht.entryWeight, (ht.append more).entryWeight]

/-- QueueInsert (R130) ranks the entry. -/
theorem queueEntries_insert {node : List Node} {q : List Idx} {w : Weight} {pos : Nat} {i : Idx}
    (h : queuePos node w q = some pos) (hi : entryWeight node i = w) :
    queueEntries node (q.take pos ++ i :: q.drop pos) = rankEntry (i, w) (queueEntries node q) := by
  induction q generalizing pos with
  | nil => simp [queueEntries, rankEntry, hi]
  | cons j q ih =>
    rw [queuePos] at h
    cases hj : node[j.toNat]? with
    | none => simp [hj] at h
    | some n =>
      simp only [hj] at h
      rw [queueEntries_cons, rankEntry, entryWeight_of hj]
      split at h
      · next hle =>
        obtain ⟨pos', hp, rfl⟩ := Option.map_eq_some_iff.1 h
        rw [if_pos hle, ← ih hp, List.take_succ_cons, List.drop_succ_cons, List.cons_append, queueEntries_cons,
          entryWeight_of hj]
      · next hle =>
        obtain rfl := Option.some.inj h
        rw [if_neg hle, List.take_zero, List.drop_zero, List.nil_append, queueEntries_cons, queueEntries_cons, hi,
          entryWeight_of hj]

theorem mergeNodes_cons (fuel next : Nat) (a b : Idx × Weight) (rest : List (Idx × Weight)) :
    mergeNodes (fuel + 1) next (a :: b :: rest) = .internal (a.2 + b.2) a.1 b.1 ::
      mergeNodes fuel (next + 1) (rankEntry (BitVec.ofNat 10 next, a.2 + b.2) rest) := rfl

theorem mem_rankEntry {x e : Idx × Weight} {es : List (Idx × Weight)} (h : x ∈ rankEntry e es) : x = e ∨ x ∈ es := by
  induction es with
  | nil => exact .inl (List.mem_singleton.1 h)
  | cons y es ih =>
    rw [rankEntry] at h
    split at h
    · rcases List.mem_cons.1 h with rfl | h
      · exact .inr List.mem_cons_self
      · exact (ih h).imp_right (List.mem_cons_of_mem _)
    · exact List.mem_cons.1 h

/-- The merge allocates children before their parents (10_state.md R43), when the queue names nodes below `next`. -/
theorem mergeNodes_childrenFirst (fuel next : Nat) (es : List (Idx × Weight)) (h : ∀ e ∈ es, e.1.toNat < next) :
    ChildrenFirst next (mergeNodes fuel next es) := by
  induction fuel generalizing next es with
  | zero => intro k w l r hk; simp [mergeNodes] at hk
  | succ fuel ih =>
    match es, h with
    | [], _ | [_], _ => intro k w l r hk; simp [mergeNodes] at hk
    | a :: b :: rest, h =>
      intro k w l r hk
      rw [mergeNodes_cons] at hk
      cases k with
      | zero =>
        simp only [List.getElem?_cons_zero, Option.some.injEq, Node.internal.injEq] at hk
        obtain ⟨-, rfl, rfl⟩ := hk
        exact ⟨h a List.mem_cons_self, h b (List.mem_cons_of_mem _ List.mem_cons_self)⟩
      | succ k =>
        rw [List.getElem?_cons_succ] at hk
        have := ih (next + 1) _ (fun e he => by
          rcases mem_rankEntry he with rfl | he
          · have := Nat.mod_le next (2 ^ 10)
            simp only [BitVec.toNat_ofNat]; omega
          · have := h e (List.mem_cons_of_mem _ (List.mem_cons_of_mem _ he)); omega) k w l r hk
        omega

/-- One pass of the merge loop on trees (R170), when the weights and the arena allow it. -/
theorem mergeTwo_of_trees {s : State} {a b : Idx} {ta tb : CodeTree} {ts : List CodeTree}
    (ha : IsTree s.ses.node a ta) (hb : IsTree s.ses.node b tb) (hq : Forall₂ (IsTree s.ses.node) s.ses.q ts)
    (hl : s.ses.q.length < Config.QCAP) (hn : s.ses.node.length < Config.NODE_CAP)
    (hw : ta.weight.toNat + tb.weight.toNat < 2 ^ 41) :
    ∃ q', mergeTwo a b s =
        .ok () ((s.setNode (s.ses.node ++ [Node.internal (ta.weight + tb.weight) a b])).setQ q') ∧
      Forall₂ (IsTree (s.ses.node ++ [Node.internal (ta.weight + tb.weight) a b])) q'
        (rankTree (.internal (ta.weight + tb.weight) ta tb) ts) ∧
      queueEntries (s.ses.node ++ [Node.internal (ta.weight + tb.weight) a b]) q' =
        rankEntry (s.nextIdx, ta.weight + tb.weight) (queueEntries s.ses.node s.ses.q) := by
  obtain ⟨na, hna, hwa⟩ := ha.root_weight
  obtain ⟨nb, hnb, hwb⟩ := hb.root_weight
  have hnew : IsTree (s.ses.node ++ [Node.internal (ta.weight + tb.weight) a b]) s.nextIdx
      (.internal (ta.weight + tb.weight) ta tb) := by
    refine ⟨a, b, ?_, ha.append _, hb.append _⟩
    rw [nextIdx_toNat (Nat.le_of_lt hn)]; simp
  have hq' := Forall₂.isTree_append [Node.internal (ta.weight + tb.weight) a b] hq
  obtain ⟨pos, hpos, hins, hf⟩ := queueInsert_of_trees
    (s := s.setNode (s.ses.node ++ [Node.internal (ta.weight + tb.weight) a b])) (ts := ts) hq' hnew hl
  obtain ⟨pos', hp, hpos', -⟩ := queuePos_of_trees hq' hnew
  obtain rfl : pos' = pos := by rw [hpos, hpos']
  refine ⟨_, ?_, hf, by rw [← queueEntries_append _ hq]; exact queueEntries_insert hp hnew.entryWeight⟩
  simp only [mergeTwo, State.nodeAt, hna, hnb, hwa, hwb]
  rw [if_neg (Nat.not_le.2 hw), alloc_ok _ hn, Res.andThen_ok, hins]
  rfl

/-- A pass that the weights or the arena do not allow raises CapacityFault and changes session registers only. -/
theorem mergeTwo_capacity {s : State} {a b : Idx} {ta tb : CodeTree} (ha : IsTree s.ses.node a ta)
    (hb : IsTree s.ses.node b tb)
    (h : Config.NODE_CAP ≤ s.ses.node.length ∨ 2 ^ 41 ≤ ta.weight.toNat + tb.weight.toNat) :
    mergeTwo a b s = .raise .capacityFault s := by
  obtain ⟨na, hna, hwa⟩ := ha.root_weight
  obtain ⟨nb, hnb, hwb⟩ := hb.root_weight
  simp only [mergeTwo, State.nodeAt, hna, hnb, hwa, hwb]
  split
  · rfl
  · rename_i h41
    rw [alloc_full _ (h.resolve_right h41), Res.andThen_raise]

/-- The merge loop on a queue of trees (R170): either it raises CapacityFault, or the queue ends as the merge of the
tree values, NODE has grown by the nodes of the merge in allocation order (10_state.md R42), and when all passes ran the
entry left is the last of them. -/
theorem mergeLoop_of_trees (fuel : Nat) {s : State} {ts : List CodeTree} (hq : Forall₂ (IsTree s.ses.node) s.ses.q ts)
    (hl : s.ses.q.length ≤ Config.QCAP) (hn : s.ses.node.length ≤ Config.NODE_CAP) :
    (∃ c, mergeLoop fuel s = .raise .capacityFault { s with ses := c } ∧
      (2 ^ 41 ≤ totalWeight ts ∨ Config.NODE_CAP + 1 < s.ses.node.length + ts.length)) ∨
    ∃ more q', mergeLoop fuel s = .ok () ((s.setNode (s.ses.node ++ more)).setQ q') ∧
      (s.ses.node ++ more).length ≤ Config.NODE_CAP ∧
      Forall₂ (IsTree (s.ses.node ++ more)) q' (mergeTrees fuel ts) ∧ more.length = min fuel (ts.length - 1) ∧
      totalWeight (mergeTrees fuel ts) = totalWeight ts ∧
      more = mergeNodes fuel s.ses.node.length (queueEntries s.ses.node s.ses.q) ∧
      (ts.length = 1 → q' = s.ses.q) ∧
      (1 < ts.length → ts.length ≤ fuel + 1 → q' = [BitVec.ofNat 10 (s.ses.node.length + ts.length - 2)]) := by
  induction fuel generalizing s ts with
  | zero =>
    refine Or.inr ⟨[], s.ses.q, ?_, by simpa using hn, by simpa [mergeTrees] using hq, by simp, by simp [mergeTrees],
      rfl, fun _ => rfl, fun h1 h2 => by omega⟩
    simp [mergeLoop, State.setNode, State.setQ]
  | succ fuel ih =>
    have hid : s = (s.setNode (s.ses.node ++ [])).setQ s.ses.q := by simp [State.setNode, State.setQ]
    match hqs : s.ses.q, ts, hq with
    | [], [], _ =>
      refine Or.inr ⟨[], [], ?_, by simpa using hn, by simp [mergeTrees], by simp, by simp [mergeTrees],
        by simp [queueEntries, mergeNodes], fun h1 => by simp at h1, fun h1 => by simp at h1⟩
      simp [mergeLoop, hqs, State.setNode, State.setQ]; rw [← hqs]
    | [i], [t], hq =>
      refine Or.inr ⟨[], [i], ?_, by simpa using hn, by simpa [mergeTrees] using hq, by simp, by simp [mergeTrees],
        by simp [queueEntries, mergeNodes], fun _ => rfl, fun h1 => by simp at h1⟩
      simp [mergeLoop, hqs, State.setNode, State.setQ]; rw [← hqs]
    | a :: b :: rest, ta :: tb :: ts, .cons ha (.cons hb hrest) =>
      simp only [hqs, List.length_cons] at hl
      by_cases hok : s.ses.node.length < Config.NODE_CAP ∧ ta.weight.toNat + tb.weight.toNat < 2 ^ 41
      · obtain ⟨q', hm, hf, hqe⟩ := mergeTwo_of_trees (s := s.setQ rest) ha hb hrest
          (by simp; omega) hok.1 hok.2
        have hlen : q'.length = rest.length + 1 := by
          rw [hf.length_eq, rankTree_length, ← hrest.length_eq]
        have hsum : (ta.weight + tb.weight).toNat = ta.weight.toNat + tb.weight.toNat := by
          rw [BitVec.toNat_add, Nat.mod_eq_of_lt hok.2]
        simp only [State.setQ_ses] at hm hf hqe
        rcases ih (s := ((s.setQ rest).setNode (s.ses.node ++ [Node.internal (ta.weight + tb.weight) a b])).setQ q')
          (ts := rankTree (.internal (ta.weight + tb.weight) ta tb) ts) hf (by simp [hlen]; omega)
          (by simp; omega) with ⟨c, hc, hwhy⟩ |
            ⟨more, q'', hl', hcap, hf', hml, hmw, hmn, hone, hroot⟩
        · left
          refine ⟨c, ?_, ?_⟩
          · rw [mergeLoop, hqs]; simp only [hm, Res.andThen_ok, hc]; rfl
          · rw [totalWeight_rank, CodeTree.weight_internal, hsum] at hwhy
            simp only [ State.setQ_ses, State.setNode_ses, List.length_append, List.length_cons,
              List.length_nil, rankTree_length] at hwhy
            simp only [totalWeight, List.map_cons, List.sum_cons, List.length_cons] at hwhy ⊢
            omega
        · right
          refine ⟨.internal (ta.weight + tb.weight) a b :: more, q'', ?_, ?_, ?_, ?_, ?_, ?_, fun h1 => by simp at h1, ?_⟩
          · rw [mergeLoop, hqs]
            simp only [hm, Res.andThen_ok, hl']
            simp [State.setNode, State.setQ]
          · simpa using hcap
          · simpa [mergeTrees] using hf'
          · rw [rankTree_length] at hml
            simp only [List.length_cons, hml]; omega
          · rw [mergeTrees, hmw, totalWeight_rank, CodeTree.weight_internal, hsum]
            simp only [totalWeight, List.map_cons, List.sum_cons]; omega
          · rw [queueEntries_cons, queueEntries_cons, mergeNodes_cons, ha.entryWeight, hb.entryWeight, hmn]
            simp only [State.setQ_ses, State.setNode_ses, hqe, List.length_append, List.length_cons, List.length_nil]
            rfl
          · intro _ hfu
            simp only [rankTree_length, List.length_cons] at hone hroot hfu ⊢
            cases ts with
            | nil =>
              cases hrest
              have hq1 := congrArg (List.map Prod.fst) hqe
              simp only [queueEntries, List.map_map, Function.comp_def, List.map_id', List.map_nil, rankEntry,
                List.map_cons] at hq1
              rw [hone rfl, State.setQ_ses, hq1]
              rfl
            | cons u us =>
              simp only [List.length_cons] at hroot hfu ⊢
              rw [hroot (by omega) (by omega)]
              simp; congr 1; omega
      · left
        have hcap := mergeTwo_capacity (s := s.setQ rest) ha hb (by
          simp only [State.setQ_ses]; omega)
        refine ⟨(s.setQ rest).ses, ?_, ?_⟩
        · rw [mergeLoop, hqs]; simp only [hcap, Res.andThen_raise]; rfl
        · simp only [totalWeight, List.map_cons, List.sum_cons, List.length_cons]
          omega

/-- The tree that the merge of a non-empty queue ends in (R170). -/
def rootTree (ts : List CodeTree) : CodeTree := ((mergeTrees ts.length ts).head?).getD (.leaf 0 0)

theorem mergeTrees_eq_root {ts : List CodeTree} (h : ts ≠ []) : mergeTrees ts.length ts = [rootTree ts] := by
  have hl := mergeTrees_length ts.length ts h (by omega)
  match hm : mergeTrees ts.length ts with
  | [t] => simp [rootTree, hm]
  | [] => simp [hm] at hl
  | a :: b :: r => simp [hm] at hl

theorem rootTree_leaves {ts : List CodeTree} (h : ts ≠ []) : (rootTree ts).leaves = totalLeaves ts := by
  have := mergeTrees_leaves ts.length ts
  rw [mergeTrees_eq_root h] at this
  simpa [totalLeaves] using this

theorem rootTree_syms {ts : List CodeTree} (h : ts ≠ []) : (rootTree ts).syms.Perm (allSyms ts) := by
  have := mergeTrees_syms ts.length ts
  rw [mergeTrees_eq_root h] at this
  simpa [allSyms] using this

/-- BuildTree() on a queue of trees with at most 257 leaves together (R170, R173): CapacityFault, which needs a weight
sum of `2^41` or a full arena; or the tree is the merge of the tree values, the queue is empty and the path table is
the tree's. -/
theorem buildTree_of_trees {s : State} {ts : List CodeTree} (hq : Forall₂ (IsTree s.ses.node) s.ses.q ts)
    (hne : ts ≠ []) (hl : s.ses.q.length ≤ Config.QCAP) (hn : s.ses.node.length ≤ Config.NODE_CAP)
    (hleaves : totalLeaves ts ≤ 257) :
    (∃ c, buildTree s = .raise .capacityFault
        { s with ses := c, status := { s.status with treeValid := false } } ∧
      (2 ^ 41 ≤ totalWeight ts ∨ Config.NODE_CAP + 1 < s.ses.node.length + ts.length)) ∨
    ∃ more i, buildTree s = .ok () { s with
        ses := { s.ses with root := i, node := s.ses.node ++ more, q := [] }.derived (rootTree ts)
        status := { s.status with treeValid := true } } ∧
      (s.ses.node ++ more).length ≤ Config.NODE_CAP ∧ IsTree (s.ses.node ++ more) i (rootTree ts) ∧
      more.length = ts.length - 1 ∧ (rootTree ts).weight.toNat = totalWeight ts ∧
      more = mergeNodes ts.length s.ses.node.length (queueEntries s.ses.node s.ses.q) ∧
      (ts.length = 1 → s.ses.q = [i]) ∧ (1 < ts.length → i = BitVec.ofNat 10 (s.ses.node.length + ts.length - 2)) := by
  have hqne : s.ses.q ≠ [] := by
    intro h; rw [h] at hq; cases hq; exact hne rfl
  have hlen := hq.length_eq
  rw [buildTree]
  simp only [State.setTreeValid_ses, State.setRoot_ses, hqne, if_false]
  rcases mergeLoop_of_trees s.ses.q.length (s := (s.setRoot NIL).setTreeValid false) (ts := ts) hq hl hn with
    ⟨c, hc, hwhy⟩ | ⟨more, q', hm, hcap, hf, hml, hmw, hmn, hone, hroot⟩
  · exact Or.inl ⟨c, by rw [hc]; rfl, hwhy⟩
  · right
    rw [hlen] at hml hmw hmn hroot
    simp only [State.setTreeValid_ses, State.setRoot_ses] at hone
    rw [hlen, mergeTrees_eq_root hne] at hf
    rw [mergeTrees_eq_root hne] at hmw
    match q', hf with
    | [i], .cons hi _ =>
      refine ⟨more, i, ?_, hcap, hi, by rw [hml]; omega, by simpa [totalWeight] using hmw, hmn,
        fun h1 => (hone h1).symm, fun h1 => by simpa using hroot h1 (by omega)⟩
      rw [hm, Res.andThen_ok]
      simp only [queueRemove, State.setQ_ses]
      rw [deriveTree_of_isTree (t := rootTree ts) (by simpa using hi)]
      · simp [State.setNode, State.setQ, State.setRoot, State.setTreeValid, Session.derived]
      · have := (rootTree ts).depth_lt
        rw [rootTree_leaves hne] at this
        simp [walkFuel, Config.NODE_CAP]; omega

/-- BuildTree() on a queue of trees raises CapacityFault exactly when a weight sum reaches `2^41` or the arena has no
room for the internal nodes (R170, R171 (b), (e)). -/
theorem buildTree_capacity {s : State} {ts : List CodeTree} (hq : Forall₂ (IsTree s.ses.node) s.ses.q ts)
    (hne : ts ≠ []) (hl : s.ses.q.length ≤ Config.QCAP) (hn : s.ses.node.length ≤ Config.NODE_CAP)
    (hleaves : totalLeaves ts ≤ 257)
    (h : 2 ^ 41 ≤ totalWeight ts ∨ Config.NODE_CAP + 1 < s.ses.node.length + ts.length) :
    ∃ c, buildTree s = .raise .capacityFault { s with ses := c, status := { s.status with treeValid := false } } := by
  rcases buildTree_of_trees hq hne hl hn hleaves with ⟨c, hc, -⟩ | ⟨more, i, -, hcap, -, hml, hmw, -⟩
  · exact ⟨c, hc⟩
  · have := (rootTree ts).weight.isLt
    have := List.length_pos_iff.2 hne
    rw [List.length_append] at hcap
    omega

/-- The leaves the queue names are trees of the arena (10_state.md R44). -/
theorem leafAt_isTree {node : List Node} {i : Idx} {t : CodeTree} (h : leafAt node i = some t) : IsTree node i t := by
  unfold leafAt at h
  split at h
  · rename_i s w hn
    simp only [Option.some.injEq] at h
    subst h; exact hn
  · cases h

theorem queueLeaves_trees {c : Session} (h : ∀ i ∈ c.q, (leafAt c.node i).isSome = true) :
    Forall₂ (IsTree c.node) c.q (queueLeaves c) := by
  unfold queueLeaves
  generalize c.q = q at h
  induction q with
  | nil => exact .nil
  | cons i q ih =>
    obtain ⟨t, ht⟩ := Option.isSome_iff_exists.1 (h i List.mem_cons_self)
    rw [List.filterMap_cons_some ht]
    exact .cons (leafAt_isTree ht) (ih fun j hj => h j (List.mem_cons_of_mem _ hj))

theorem queueLeaves_leaves {c : Session} (t : CodeTree) (h : t ∈ queueLeaves c) : t.leaves = 1 := by
  obtain ⟨i, -, hi⟩ := List.mem_filterMap.1 h
  unfold leafAt at hi
  split at hi
  · simp only [Option.some.injEq] at hi; subst hi; rfl
  · cases hi

theorem queueLeaves_total (c : Session) : totalLeaves (queueLeaves c) = (queueLeaves c).length := by
  unfold totalLeaves
  rw [List.map_congr_left (g := fun _ => 1) (fun t ht => queueLeaves_leaves t ht)]
  simp

/-- Every entry of a legal queue names an allocated node (10_state.md R44). -/
theorem QueueOk.readable {c : Session} (h : QueueOk c) : ∀ i ∈ c.q, ∃ n, c.node[i.toNat]? = some n := by
  intro i hi
  obtain ⟨t, ht⟩ := Option.isSome_iff_exists.1 (h.2.2.1 i hi)
  obtain ⟨n, hn, -⟩ := (leafAt_isTree ht).root_weight
  exact ⟨n, hn⟩

/-- In an ordered queue the leading entries of at most a weight are all the entries of at most that weight (R137 (e)). -/
theorem queuePos_count {node : List Node} {q : List Idx} {w : Weight} (hq : q.Pairwise (Before node))
    (hr : ∀ i ∈ q, ∃ n, node[i.toNat]? = some n) :
    queuePos node w q = some ((q.filter fun j => decide (entryWeight node j ≤ w)).length) := by
  induction q with
  | nil => rfl
  | cons i q ih =>
    obtain ⟨hhead, htail⟩ := List.pairwise_cons.1 hq
    obtain ⟨n, hn⟩ := hr i List.mem_cons_self
    rw [queuePos, hn]
    have ih' := ih htail (fun j hj => hr j (List.mem_cons_of_mem _ hj))
    simp only
    by_cases hle : n.weight ≤ w
    · rw [if_pos hle, ih', List.filter_cons_of_pos (by simpa [entryWeight_of hn] using hle)]; rfl
    · rw [if_neg hle, List.filter_cons_of_neg (by simpa [entryWeight_of hn] using hle)]
      have : q.filter (fun j => decide (entryWeight node j ≤ w)) = [] := by
        rw [List.filter_eq_nil_iff]
        intro j hj
        obtain ⟨a, b, ha, hb, hab⟩ := hhead j hj
        rw [hn] at ha; obtain rfl := Option.some.inj ha
        rw [entryWeight_of hb]
        have : n.weight.toNat ≤ b.weight.toNat := by
          rcases hab with h | ⟨h, -⟩
          · exact Nat.le_of_lt (BitVec.lt_def.1 h)
          · rw [h]
        rw [BitVec.le_def] at hle
        simp only [decide_eq_true_eq, BitVec.le_def]; omega
      rw [this]; rfl

theorem queuePos_append {node more : List Node} {q : List Idx} {w : Weight}
    (hr : ∀ i ∈ q, ∃ n, node[i.toNat]? = some n) : queuePos (node ++ more) w q = queuePos node w q := by
  induction q with
  | nil => rfl
  | cons i q ih =>
    obtain ⟨n, hn⟩ := hr i List.mem_cons_self
    rw [queuePos, queuePos, hn, getElem?_append_of_eq_some more hn, ih (fun j hj => hr j (List.mem_cons_of_mem _ hj))]

end Sys2Proof.Machine
end

