-- ==== Sys2Proof/Laws/Frequency.lean ====
section
/-! SUPPORT. The counting pass (42_frequency_accumulator.md R150) and the queue load (R152). -/

namespace Sys2Proof.Machine

open List (Forall₂)

theorem occurrences_cons (k : Nat) (x : SymVal) (xs : List SymVal) :
    occurrences k (x :: xs) = occurrences k xs + if x.toNat = k then 1 else 0 := by
  simp [occurrences, List.count_cons]

/-- The frequency table after a list of words has been counted on top of it (R150). -/
def countInto (f : Vector Count 256) (xs : List SymVal) : Vector Count 256 :=
  xs.foldl (fun f x => f.setIfInBounds x.toNat ((f[x.toNat]?).getD 0 + 1)) f

/-- The count of a symbol grows by its occurrences while no counter is full (R156 (a)). -/
theorem countInto_get (f : Vector Count 256) (xs : List SymVal) (k : Nat) (hk : k < 256)
    (hx : ∀ x ∈ xs, x.toNat ≤ 255) (h : ((f[k]?).getD 0).toNat + occurrences k xs < 2 ^ 32) :
    (((countInto f xs)[k]?).getD 0).toNat = ((f[k]?).getD 0).toNat + occurrences k xs := by
  induction xs generalizing f with
  | nil => simp [countInto, occurrences]
  | cons x xs ih =>
    rw [occurrences_cons] at h ⊢
    have hstep : countInto f (x :: xs) = countInto (f.setIfInBounds x.toNat ((f[x.toNat]?).getD 0 + 1)) xs := rfl
    have hval : (((f.setIfInBounds x.toNat ((f[x.toNat]?).getD 0 + 1))[k]?).getD 0).toNat =
        ((f[k]?).getD 0).toNat + if x.toNat = k then 1 else 0 := by
      rw [Vector.getElem?_setIfInBounds]
      by_cases he : x.toNat = k
      · subst he
        simp only [hk, if_true, Option.getD_some, BitVec.toNat_add] at h ⊢
        rw [show (1 : Count).toNat = 1 from rfl, Nat.mod_eq_of_lt (by omega)]
      · simp [he]
    rw [hstep, ih _ (fun y hy => hx y (List.mem_cons_of_mem _ hy)) (by rw [hval]; omega), hval]
    omega

/-- Accumulate() over words none of whose counters is full (R150): they are counted and taken from SIN, and the pass
goes on with the rest. -/
theorem accumulate_words (xs tail : List SymVal) (n : Word64) (s : State) (hs : s.io.sin.items = xs ++ tail)
    (hx : ∀ x ∈ xs, x.toNat ≤ 255) (h : ∀ k < 256, (s.freqAt k).toNat + occurrences k xs < 2 ^ 32) :
    accumulate (xs ++ tail) n s = accumulate tail (n + BitVec.ofNat 64 xs.length)
      { s with ses := { s.ses with freq := countInto s.ses.freq xs }
               io := { s.io with sin := { s.io.sin with items := tail } } } := by
  induction xs generalizing n s with
  | nil =>
    simp only [List.nil_append] at hs
    simp [countInto, ← hs]
  | cons x xs ih =>
    have hx0 := hx x List.mem_cons_self
    have hlt : x.toNat < 256 := by omega
    have h0 := h x.toNat hlt
    rw [occurrences_cons, if_pos rfl] at h0
    have hfull : s.freqAt x.toNat ≠ BitVec.allOnes 32 := by
      intro hc; rw [hc] at h0; simp at h0; omega
    have hpe : x ≠ pseudoEof := by
      intro hc; rw [hc] at hx0; simp [pseudoEof] at hx0
    rw [List.cons_append, accumulate]
    have hf2 : (s.setSin (xs ++ tail)).freqAt x.toNat = s.freqAt x.toNat := rfl
    simp only [hpe, if_false, isDataSymbol, hx0, decide_true, hf2, hfull, Bool.true_eq_false]
    rw [ih]
    · have hn : n + 1 + BitVec.ofNat 64 xs.length = n + BitVec.ofNat 64 (x :: xs).length := by
        rw [List.length_cons, Nat.add_comm xs.length 1, BitVec.ofNat_add, ← BitVec.add_assoc]; rfl
      rw [hn]
      simp [countInto, State.freqAt]
    · simp
    · exact fun y hy => hx y (List.mem_cons_of_mem _ hy)
    · intro k hk
      have := h k hk
      rw [occurrences_cons] at this
      by_cases he : x.toNat = k
      · subst he
        rw [State.freqAt_setFreq_same _ _ _ hk, BitVec.toNat_add, show (1 : Count).toNat = 1 from rfl,
          Nat.mod_eq_of_lt (by omega)]
        simp at this; omega
      · rw [State.freqAt_setFreq_other _ _ _ _ he]
        have hk2 : (s.setSin (xs ++ tail)).freqAt k = s.freqAt k := rfl
        rw [hk2]
        simp [he] at this; omega

/-- Accumulate() at the end of its words (R150): END when the host signals it, or the embedded marker, which is taken. -/
theorem accumulate_end (n : Word64) (s : State) (he : s.io.sin.ends = true) :
    accumulate [] n s = .ok (n, false) s := by
  simp [accumulate, he]

/-- A pass whose host stops giving words without an end (70_reset_and_hazards.md R286): a wait. -/
theorem accumulate_starved (n : Word64) (s : State) (he : s.io.sin.ends = false) : accumulate [] n s = .hang s := by
  simp [accumulate, he]

theorem accumulate_marker (more : List SymVal) (n : Word64) (s : State) :
    accumulate (pseudoEof :: more) n s = .ok (n, true) (s.setSin more) := by
  simp [accumulate]

theorem Before.append {node : List Node} {i j : Idx} (more : List Node) (h : Before node i j) :
    Before (node ++ more) i j := by
  obtain ⟨a, b, ha, hb, hlt⟩ := h
  exact ⟨a, b, getElem?_append_of_eq_some more ha, getElem?_append_of_eq_some more hb, hlt⟩

/-- QueueInsert of the newest node keeps the queue in its order (10_state.md R44): the new entry goes behind every
entry of its weight, and all of those have smaller indices. -/
theorem insert_before {node : List Node} {q : List Idx} {i : Idx} {n : Node} {pos : Nat}
    (hq : q.Pairwise (Before node)) (hlt : ∀ j ∈ q, j.toNat < i.toNat) (hn : node[i.toNat]? = some n)
    (hp : queuePos node n.weight q = some pos) : (q.take pos ++ i :: q.drop pos).Pairwise (Before node) := by
  induction q generalizing pos with
  | nil => simp
  | cons j q ih =>
    rw [queuePos] at hp
    cases hj : node[j.toNat]? with
    | none => simp [hj] at hp
    | some m =>
      simp only [hj] at hp
      obtain ⟨hhead, htail⟩ := List.pairwise_cons.1 hq
      by_cases hle : m.weight ≤ n.weight
      · simp only [hle, if_true, Option.map_eq_some_iff] at hp
        obtain ⟨pos', hp', rfl⟩ := hp
        simp only [List.take_succ_cons, List.drop_succ_cons, List.cons_append]
        refine List.pairwise_cons.2 ⟨?_, ih htail (fun k hk => hlt k (List.mem_cons_of_mem _ hk)) hp'⟩
        intro k hk
        rcases List.mem_append.1 hk with hk | hk
        · exact hhead k (List.mem_of_mem_take hk)
        · rcases List.mem_cons.1 hk with rfl | hk
          · refine ⟨m, n, hj, hn, ?_⟩
            rcases Nat.lt_or_eq_of_le (BitVec.le_def.1 hle) with h | h
            · exact Or.inl (BitVec.lt_def.2 h)
            · exact Or.inr ⟨BitVec.eq_of_toNat_eq h, hlt j List.mem_cons_self⟩
          · exact hhead k (List.mem_of_mem_drop hk)
      · simp only [hle, if_false, Option.some.injEq] at hp
        subst hp
        simp only [List.take_zero, List.drop_zero, List.nil_append]
        have hlt' : n.weight < m.weight := BitVec.not_le.1 hle
        refine List.pairwise_cons.2 ⟨?_, hq⟩
        intro k hk
        rcases List.mem_cons.1 hk with rfl | hk
        · exact ⟨n, m, hn, hj, Or.inl hlt'⟩
        · obtain ⟨a, b, ha, hb, hab⟩ := hhead k hk
          rw [hj] at ha
          obtain rfl := Option.some.inj ha
          refine ⟨n, b, hn, hb, Or.inl ?_⟩
          rcases hab with h | ⟨h, -⟩
          · exact BitVec.lt_trans hlt' h
          · rw [← h]; exact hlt'

/-- The queue after the load of leaves (R152): trees, ordered, every index below NALLOC, none twice. -/
structure Loaded (node : List Node) (q : List Idx) (ts : List CodeTree) : Prop where
  trees : Forall₂ (IsTree node) q ts
  order : q.Pairwise (Before node)
  below : ∀ i ∈ q, i.toNat < node.length
  nodup : q.Nodup

/-- A leaf into a queue with room (R152, R132): NODE grows by it, and the queue is ranked. -/
theorem allocInsert_of_loaded {s : State} {ts : List CodeTree} (h : Loaded s.ses.node s.ses.q ts) (sym : SymVal) (w : Weight)
    (hn : s.ses.node.length < Config.NODE_CAP) (hl : s.ses.q.length < Config.QCAP) :
    ∃ pos, pos = (ts.takeWhile (fun u => u.weight ≤ w)).length ∧
      alloc (.leaf sym w) s = .ok s.nextIdx (s.setNode (s.ses.node ++ [.leaf sym w])) ∧
      queueInsert s.nextIdx (s.setNode (s.ses.node ++ [.leaf sym w])) =
        .ok pos ((s.setNode (s.ses.node ++ [.leaf sym w])).setQ (s.ses.q.take pos ++ s.nextIdx :: s.ses.q.drop pos)) ∧
      Loaded (s.ses.node ++ [.leaf sym w]) (s.ses.q.take pos ++ s.nextIdx :: s.ses.q.drop pos)
        (rankTree (.leaf sym w) ts) := by
  have hidx := nextIdx_toNat (Nat.le_of_lt hn)
  have hget : (s.ses.node ++ [Node.leaf sym w])[s.nextIdx.toNat]? = some (.leaf sym w) := by rw [hidx]; simp
  have hnew : IsTree (s.ses.node ++ [Node.leaf sym w]) s.nextIdx (.leaf sym w) := hget
  have hq' := Forall₂.isTree_append [Node.leaf sym w] h.trees
  obtain ⟨pos, hpos, hins, hf⟩ := queueInsert_of_trees (s := s.setNode (s.ses.node ++ [Node.leaf sym w])) (ts := ts)
    hq' hnew hl
  obtain ⟨pos', hp', hpos', -⟩ := queuePos_of_trees hq' hnew
  obtain rfl : pos' = pos := by rw [hpos, hpos']
  refine ⟨pos', hpos, alloc_ok _ hn, hins, ⟨hf, ?_, ?_, ?_⟩⟩
  · refine insert_before (n := .leaf sym w) (h.order.imp fun hb => hb.append _) ?_ hget hp'
    intro j hj; rw [hidx]; exact h.below j hj
  · intro i hi
    simp only [List.length_append, List.length_cons, List.length_nil] at hi ⊢
    rcases List.mem_append.1 hi with hi | hi
    · have := h.below i (List.mem_of_mem_take hi); omega
    · rcases List.mem_cons.1 hi with rfl | hi
      · omega
      · have := h.below i (List.mem_of_mem_drop hi); omega
  · have hperm : (s.ses.q.take pos' ++ s.nextIdx :: s.ses.q.drop pos').Perm (s.nextIdx :: s.ses.q) := by
      refine List.perm_middle.trans ?_
      rw [List.take_append_drop]
    refine hperm.nodup_iff.2 (List.nodup_cons.2 ⟨?_, h.nodup⟩)
    intro hm
    have := h.below _ hm
    omega

theorem loadLeaf_of_loaded {s : State} {ts : List CodeTree} (h : Loaded s.ses.node s.ses.q ts) (sym : SymVal) (w : Weight)
    (hn : s.ses.node.length < Config.NODE_CAP) (hl : s.ses.q.length < Config.QCAP) :
    ∃ q', loadLeaf sym w s = .ok () ((s.setNode (s.ses.node ++ [.leaf sym w])).setQ q') ∧
      Loaded (s.ses.node ++ [.leaf sym w]) q' (rankTree (.leaf sym w) ts) := by
  obtain ⟨pos, -, ha, hi, hld⟩ := allocInsert_of_loaded h sym w hn hl
  exact ⟨_, by rw [loadLeaf, ha, Res.andThen_ok, hi, Res.andThen_ok], hld⟩

/-- The leaves of the symbols in `ks` that occur. -/
def leavesOf (f : Vector Count 256) (ks : List Nat) : List CodeTree :=
  (ks.filter fun k => decide ((f[k]?).getD 0 ≠ 0)).map
    fun k => CodeTree.leaf (BitVec.ofNat 9 k) (((f[k]?).getD 0).setWidth 41)

/-- Rank the trees of a list one after the other. -/
def rankAll (ts leaves : List CodeTree) : List CodeTree := leaves.foldl (fun q t => rankTree t q) ts

@[simp] theorem rankAll_length (ts leaves : List CodeTree) : (rankAll ts leaves).length = ts.length + leaves.length := by
  induction leaves generalizing ts with
  | nil => rfl
  | cons t l ih =>
    have := ih (rankTree t ts)
    simp only [rankAll, List.foldl_cons, List.length_cons] at this ⊢
    rw [this, rankTree_length]; omega

theorem loadLeaves_of_loaded (ks : List Nat) {s : State} {ts : List CodeTree} (h : Loaded s.ses.node s.ses.q ts)
    (hn : s.ses.node.length + ks.length < Config.NODE_CAP) (hl : s.ses.q.length + ks.length < Config.QCAP) :
    ∃ q', loadLeaves ks s =
        .ok () ((s.setNode (s.ses.node ++ (leavesOf s.ses.freq ks).map leafNode)).setQ q') ∧
      Loaded (s.ses.node ++ (leavesOf s.ses.freq ks).map leafNode) q' (rankAll ts (leavesOf s.ses.freq ks)) := by
  induction ks generalizing s ts with
  | nil =>
    refine ⟨s.ses.q, ?_, by simpa [leavesOf, rankAll] using h⟩
    simp [loadLeaves, leavesOf, State.setNode, State.setQ]
  | cons k ks ih =>
    simp only [List.length_cons] at hn hl
    rw [loadLeaves]
    by_cases hz : s.freqAt k = 0
    · have hl0 : leavesOf s.ses.freq (k :: ks) = leavesOf s.ses.freq ks := by
        unfold State.freqAt at hz; rw [leavesOf, List.filter_cons_of_neg (by simpa using hz)]; rfl
      rw [if_pos hz, hl0]
      exact ih h (by omega) (by omega)
    · have hl1 : leavesOf s.ses.freq (k :: ks) =
          .leaf (BitVec.ofNat 9 k) ((s.freqAt k).setWidth 41) :: leavesOf s.ses.freq ks := by
        unfold State.freqAt at hz ⊢; rw [leavesOf, List.filter_cons_of_pos (by simpa using hz)]; rfl
      rw [if_neg hz, hl1]
      obtain ⟨q1, h1, hld⟩ := loadLeaf_of_loaded h (BitVec.ofNat 9 k) ((s.freqAt k).setWidth 41) (by omega) (by omega)
      have hlen : q1.length = s.ses.q.length + 1 := by
        rw [hld.trees.length_eq, rankTree_length, ← h.trees.length_eq]
      obtain ⟨q2, h2, hld2⟩ := ih (s := (s.setNode (s.ses.node ++
          [Node.leaf (BitVec.ofNat 9 k) ((s.freqAt k).setWidth 41)])).setQ q1) hld
        (by simp; omega) (by simp; omega)
      refine ⟨q2, ?_, ?_⟩
      · rw [h1, Res.andThen_ok, h2]
        simp [State.setNode, State.setQ, leafNode]
      · simpa [rankAll, leafNode] using hld2

theorem tableLeaves_eq (f : Vector Count 256) :
    tableLeaves f = leavesOf f (List.range 256) ++ [.leaf pseudoEof 1] := rfl

theorem leavesOf_length (f : Vector Count 256) (ks : List Nat) : (leavesOf f ks).length ≤ ks.length := by
  simpa [leavesOf] using List.length_filter_le _ ks

/-- LoadQueue() (R152) never fails: NODE holds the leaves of the table in ascending symbol order with PSEUDO_EOF last,
the queue ranks them, and everything of an earlier tree is gone. -/
theorem loadQueue_ok (s : State) :
    ∃ q', loadQueue s =
        .ok () (((resetTree s).setNode ((tableLeaves s.ses.freq).map leafNode)).setQ q') ∧
      Loaded ((tableLeaves s.ses.freq).map leafNode) q' (rankAll [] (tableLeaves s.ses.freq)) := by
  have h0 : Loaded (resetTree s).ses.node (resetTree s).ses.q [] := ⟨.nil, by simp, by simp, by simp⟩
  obtain ⟨q1, h1, hld1⟩ := loadLeaves_of_loaded (List.range 256) h0 (by simp [Config.NODE_CAP]) (by simp [Config.QCAP])
  have hlen := leavesOf_length s.ses.freq (List.range 256)
  rw [List.length_range] at hlen
  simp only [resetTree_ses, List.nil_append] at h1 hld1
  have hq1 : q1.length = (leavesOf s.ses.freq (List.range 256)).length := by
    simpa using hld1.trees.length_eq
  obtain ⟨q2, h2, hld2⟩ := loadLeaf_of_loaded
    (s := ((resetTree s).setNode ((leavesOf s.ses.freq (List.range 256)).map leafNode)).setQ q1) hld1 pseudoEof 1
    (by simp [Config.NODE_CAP]; omega) (by simp [Config.QCAP]; omega)
  refine ⟨q2, ?_, ?_⟩
  · rw [loadQueue, h1, Res.andThen_ok, h2]
    simp [State.setNode, State.setQ, tableLeaves_eq, leafNode]
  · rw [tableLeaves_eq]
    simpa [leafNode, rankAll] using hld2

theorem rankAll_perm (ts leaves : List CodeTree) : (rankAll ts leaves).Perm (leaves ++ ts) := by
  induction leaves generalizing ts with
  | nil => exact List.Perm.refl _
  | cons t l ih =>
    exact (ih (rankTree t ts)).trans
      (((rankTree_perm t ts).append_left l).trans List.perm_middle)

theorem rankedLeaves_perm (f : Vector Count 256) : (rankedLeaves f).Perm (tableLeaves f) := by
  have h := rankAll_perm [] (tableLeaves f)
  rw [List.append_nil] at h
  exact h

theorem tableLeaves_length (f : Vector Count 256) : (tableLeaves f).length ≤ 257 := by
  have := leavesOf_length f (List.range 256)
  rw [List.length_range] at this
  simp [tableLeaves_eq]; omega

theorem tableLeaves_ne (f : Vector Count 256) : tableLeaves f ≠ [] := by simp [tableLeaves_eq]

theorem mem_leavesOf {f : Vector Count 256} {ks : List Nat} {t : CodeTree} (h : t ∈ leavesOf f ks) :
    ∃ k ∈ ks, t = .leaf (BitVec.ofNat 9 k) (((f[k]?).getD 0).setWidth 41) := by
  obtain ⟨k, hk, rfl⟩ := List.mem_map.1 h
  exact ⟨k, (List.mem_filter.1 hk).1, rfl⟩

theorem mem_tableLeaves {f : Vector Count 256} {t : CodeTree} (h : t ∈ tableLeaves f) : ∃ sym w, t = .leaf sym w := by
  rw [tableLeaves_eq] at h
  rcases List.mem_append.1 h with h | h
  · obtain ⟨k, -, rfl⟩ := mem_leavesOf h
    exact ⟨_, _, rfl⟩
  · exact ⟨_, _, List.mem_singleton.1 h⟩

/-- The leaves of a table have different symbols (R152). -/
theorem tableLeaves_nodup (f : Vector Count 256) : (tableLeaves f).Nodup := by
  rw [tableLeaves_eq]
  refine List.nodup_append.2 ⟨?_, by simp, ?_⟩
  · refine List.Pairwise.map _ (R := fun i j => i ≠ j ∧ i < 256 ∧ j < 256) ?_ ?_
    · rintro i j ⟨hij, hi, hj⟩ h
      simp only [CodeTree.leaf.injEq] at h
      have := congrArg BitVec.toNat h.1
      simp at this; omega
    · refine List.Pairwise.filter _ ?_
      refine List.Pairwise.imp_of_mem ?_ (List.nodup_range (n := 256))
      intro i j hi hj hij
      exact ⟨hij, List.mem_range.1 hi, List.mem_range.1 hj⟩
  · intro a ha b hb
    obtain ⟨k, hk, rfl⟩ := mem_leavesOf ha
    rw [List.mem_singleton.1 hb]
    intro h
    simp only [CodeTree.leaf.injEq] at h
    have := congrArg BitVec.toNat h.1
    have := List.mem_range.1 hk
    simp [pseudoEof] at *; omega

/-- The queue after LoadQueue() names each leaf by its place among the leaves (R152). -/
theorem loaded_entries {f : Vector Count 256} {q : List Idx}
    (h : Forall₂ (IsTree ((tableLeaves f).map leafNode)) q (rankedLeaves f)) :
    queueEntries ((tableLeaves f).map leafNode) q = rankedEntries f := by
  have hm : ∀ t ∈ rankedLeaves f, t ∈ tableLeaves f := fun t => (rankedLeaves_perm f).mem_iff.1
  unfold rankedEntries
  revert h hm
  generalize rankedLeaves f = ts
  intro h
  induction h with
  | nil => intro _; rfl
  | @cons i t q ts hi _ ih =>
    intro hm
    rw [queueEntries_cons, List.map_cons, ih fun u hu => hm u (List.mem_cons_of_mem _ hu), hi.entryWeight]
    obtain ⟨sym, w, rfl⟩ := mem_tableLeaves (hm t List.mem_cons_self)
    have hi : ((tableLeaves f).map leafNode)[i.toNat]? = some (.leaf sym w) := hi
    rw [List.getElem?_map, Option.map_eq_some_iff] at hi
    obtain ⟨u, hu, hun⟩ := hi
    obtain ⟨sym', w', rfl⟩ := mem_tableLeaves (List.mem_of_getElem? hu)
    have hun : Node.leaf sym' w' = .leaf sym w := hun
    simp only [Node.leaf.injEq] at hun
    obtain ⟨rfl, rfl⟩ := hun
    obtain ⟨hlt, hget⟩ := List.getElem?_eq_some_iff.1 hu
    rw [← hget, (tableLeaves_nodup f).idxOf_getElem _ hlt, BitVec.ofNat_toNat, BitVec.setWidth_eq]

theorem rankedLeaves_ne (f : Vector Count 256) : rankedLeaves f ≠ [] := by
  intro h
  have := (rankedLeaves_perm f).length_eq
  rw [h] at this
  exact tableLeaves_ne f (List.length_eq_zero_iff.1 this.symm)

theorem leavesOf_leaves (f : Vector Count 256) (ks : List Nat) : totalLeaves (leavesOf f ks) = (leavesOf f ks).length := by
  simp [totalLeaves, leavesOf, CodeTree.leaves, List.map_map, Function.comp_def]

theorem tableLeaves_leaves (f : Vector Count 256) : totalLeaves (tableLeaves f) = (tableLeaves f).length := by
  have := leavesOf_leaves f (List.range 256)
  simp only [totalLeaves] at this ⊢
  simp [tableLeaves_eq, this, CodeTree.leaves]

theorem rankedLeaves_leaves (f : Vector Count 256) : totalLeaves (rankedLeaves f) = (tableLeaves f).length := by
  rw [← tableLeaves_leaves]
  exact ((rankedLeaves_perm f).map CodeTree.leaves).sum_eq

theorem leavesOf_weight (f : Vector Count 256) (ks : List Nat) :
    totalWeight (leavesOf f ks) ≤ ks.length * (2 ^ 32 - 1) := by
  induction ks with
  | nil => simp [leavesOf, totalWeight]
  | cons k ks ih =>
    by_cases hz : (f[k]?).getD 0 = 0
    · rw [leavesOf, List.filter_cons_of_neg (by simpa using hz)]
      have : totalWeight (leavesOf f ks) ≤ (k :: ks).length * (2 ^ 32 - 1) := by
        exact ih.trans (Nat.mul_le_mul_right _ (Nat.le_succ _))
      exact this
    · rw [leavesOf, List.filter_cons_of_pos (by simpa using hz)]
      have hw : (((f[k]?).getD 0).setWidth 41 : Weight).toNat ≤ 2 ^ 32 - 1 := by
        have h := ((f[k]?).getD 0).isLt
        rw [BitVec.toNat_setWidth]
        exact (Nat.mod_le _ _).trans (Nat.le_sub_one_of_lt h)
      simp only [leavesOf, totalWeight] at ih
      rw [totalWeight, List.map_cons, List.map_cons, List.sum_cons, CodeTree.weight_leaf, List.length_cons, Nat.add_mul,
        Nat.one_mul, Nat.add_comm]
      exact Nat.add_le_add ih hw

/-- The weights of a loaded queue are far below `2^41` together (00_scope.md R8 (c)). -/
theorem rankedLeaves_weight (f : Vector Count 256) : totalWeight (rankedLeaves f) < 2 ^ 41 := by
  have h1 : totalWeight (rankedLeaves f) = totalWeight (tableLeaves f) :=
    List.Perm.sum_eq ((rankedLeaves_perm f).map fun t : CodeTree => t.weight.toNat)
  have h2 := leavesOf_weight f (List.range 256)
  have h3 : totalWeight (tableLeaves f) = totalWeight (leavesOf f (List.range 256)) + 1 := by
    simp [tableLeaves_eq, totalWeight]
  rw [List.length_range] at h2
  omega

theorem leavesOf_syms (f : Vector Count 256) (ks : List Nat) (s : SymVal) :
    s ∈ allSyms (leavesOf f ks) ↔ ∃ k ∈ ks, (f[k]?).getD 0 ≠ 0 ∧ s = BitVec.ofNat 9 k := by
  simp only [allSyms, leavesOf, List.mem_flatMap, List.mem_map, List.mem_filter, decide_eq_true_eq]
  constructor
  · rintro ⟨t, ⟨k, ⟨hk, hz⟩, rfl⟩, hs⟩
    exact ⟨k, hk, hz, by simpa [CodeTree.syms] using hs⟩
  · rintro ⟨k, hk, hz, rfl⟩
    exact ⟨_, ⟨k, ⟨hk, hz⟩, rfl⟩, by simp [CodeTree.syms]⟩

/-- The tree of a frequency table (42_frequency_accumulator.md R152, 43_tree_builder.md R170). -/
def tableTree (f : Vector Count 256) : CodeTree := rootTree (rankedLeaves f)

theorem tableTree_merge (f : Vector Count 256) : mergeTrees (tableLeaves f).length (rankedLeaves f) = [tableTree f] := by
  rw [← (rankedLeaves_perm f).length_eq]
  exact mergeTrees_eq_root (rankedLeaves_ne f)

theorem tableTree_leaves (f : Vector Count 256) : (tableTree f).leaves = (tableLeaves f).length := by
  rw [tableTree, rootTree_leaves (rankedLeaves_ne f), rankedLeaves_leaves]

/-- The leaves of the tree of a table are the symbols that occur and PSEUDO_EOF (43_tree_builder.md R175 (a), (b)). -/
theorem tableTree_syms (f : Vector Count 256) (s : SymVal) :
    s ∈ (tableTree f).syms ↔ s = pseudoEof ∨ ∃ k < 256, (f[k]?).getD 0 ≠ 0 ∧ s = BitVec.ofNat 9 k := by
  have h1 : s ∈ (tableTree f).syms ↔ s ∈ allSyms (rankedLeaves f) := (rootTree_syms (rankedLeaves_ne f)).mem_iff
  have h2 : s ∈ allSyms (rankedLeaves f) ↔ s ∈ allSyms (tableLeaves f) :=
    ((rankedLeaves_perm f).flatMap_right CodeTree.syms).mem_iff
  have h3 : s ∈ allSyms (tableLeaves f) ↔ s ∈ allSyms (leavesOf f (List.range 256)) ∨ s = pseudoEof := by
    simp [tableLeaves_eq, allSyms, CodeTree.syms]
  rw [h1, h2, h3, leavesOf_syms, or_comm]
  simp

theorem tableTree_legal (f : Vector Count 256) : (tableTree f).Legal := by
  refine ⟨by rw [tableTree_leaves]; exact tableLeaves_length f, ?_⟩
  intro s hs
  rcases (tableTree_syms f s).1 hs with rfl | ⟨k, hk, -, rfl⟩
  · simp [pseudoEof]
  · simp; omega

/-- The index of ROOT after LoadQueue() and BuildTree(): the last node allocated, or the only leaf (43_tree_builder.md
R170). -/
def tableRoot (f : Vector Count 256) : Idx := BitVec.ofNat 10 ((tableTree f).size - 1)

/-- LoadQueue() then BuildTree() (R152, R170, R171 (b)) never fails: the arena is that of the table, which holds its
tree, the queue is empty, and the metrics and the path table are the tree's. -/
theorem loadQueue_buildTree (s : State) :
    ((loadQueue s).andThen fun _ s => buildTree s) = .ok () { s with
        ses := { s.ses with root := tableRoot s.ses.freq, node := tableNodes s.ses.freq, q := [] }.derived
          (tableTree s.ses.freq)
        status := { s.status with treeValid := true } } ∧
      (tableNodes s.ses.freq).length = (tableTree s.ses.freq).size ∧
      IsTree (tableNodes s.ses.freq) (tableRoot s.ses.freq) (tableTree s.ses.freq) := by
  obtain ⟨q', hl, hld⟩ := loadQueue_ok s
  have hlen := tableLeaves_length s.ses.freq
  have hrl := (rankedLeaves_perm s.ses.freq).length_eq
  have hq' : q'.length = (tableLeaves s.ses.freq).length := by rw [hld.trees.length_eq]; exact hrl
  rcases buildTree_of_trees
    (s := ((resetTree s).setNode ((tableLeaves s.ses.freq).map leafNode)).setQ q') (ts := rankedLeaves s.ses.freq)
    hld.trees (rankedLeaves_ne _) (by simp [hq', Config.QCAP]; omega) (by simp [Config.NODE_CAP]; omega)
    (by rw [rankedLeaves_leaves]; omega) with ⟨c, -, hwhy⟩ | ⟨more, i, hb, -, ht, hml, -, hmn, hone, hroot⟩
  · have h1 := rankedLeaves_weight s.ses.freq
    simp only [State.setQ_ses, State.setNode_ses, List.length_map, Config.NODE_CAP] at hwhy
    omega
  · simp only [State.setQ_ses, State.setNode_ses, List.length_map, hrl] at hmn hone hroot
    rw [loaded_entries hld.trees] at hmn
    have h2 := tableTree_leaves s.ses.freq
    have h3 := (tableTree s.ses.freq).size_eq
    have h4 := (tableTree s.ses.freq).leaves_pos
    have hi : i = tableRoot s.ses.freq := by
      unfold tableRoot
      by_cases h1 : (tableLeaves s.ses.freq).length = 1
      · have hlt := ht.lt_length
        simp only [State.setQ_ses, State.setNode_ses, List.length_append, List.length_map, hml, hrl, h1] at hlt
        apply BitVec.eq_of_toNat_eq
        rw [BitVec.toNat_ofNat, show (tableTree s.ses.freq).size - 1 = 0 by omega]
        omega
      · rw [hroot (by omega)]
        congr 1; omega
    subst hi
    subst hmn
    have hnode : (((resetTree s).setNode ((tableLeaves s.ses.freq).map leafNode)).setQ q').ses.node ++
        mergeNodes (tableLeaves s.ses.freq).length (tableLeaves s.ses.freq).length (rankedEntries s.ses.freq) =
          tableNodes s.ses.freq := rfl
    rw [hnode] at ht hb
    refine ⟨?_, ?_, ht⟩
    rotate_left
    · rw [← hnode, List.length_append, hml]
      simp only [State.setQ_ses, State.setNode_ses, List.length_map]
      omega
    rw [hl, Res.andThen_ok, hb]
    simp [State.setNode, State.setQ, resetTree, State.setRoot, State.setTreeValid, State.setMetrics, State.setPath,
      Session.derived, tableTree]

/-- LoadQueue() then BuildTree() in front of what follows. -/
theorem load_build {β : Type} (s : State) (k : State → Res β) :
    ((loadQueue s).andThen fun _ s => (buildTree s).andThen fun _ s => k s) = k { s with
        ses := { s.ses with root := tableRoot s.ses.freq, node := tableNodes s.ses.freq, q := [] }.derived
          (tableTree s.ses.freq)
        status := { s.status with treeValid := true } } := by
  have := Res.andThen_assoc (loadQueue s) (fun _ s => buildTree s) (fun _ s => k s)
  rw [← this, (loadQueue_buildTree s).1, Res.andThen_ok]

/-- The arena of a table (R152, R170) has as many entries as its tree has nodes. -/
theorem tableNodes_length (f : Vector Count 256) : (tableNodes f).length = (tableTree f).size :=
  (loadQueue_buildTree { State.reset with ses := { Session.fresh with freq := f } }).2.1

theorem tableNodes_isTree (f : Vector Count 256) : IsTree (tableNodes f) (tableRoot f) (tableTree f) :=
  (loadQueue_buildTree { State.reset with ses := { Session.fresh with freq := f } }).2.2

/-- In the arena of a table every child stands before its parent (10_state.md R43). -/
theorem tableNodes_childrenFirst (f : Vector Count 256) : ChildrenFirst 0 (tableNodes f) := by
  have hlen := tableLeaves_length f
  intro k w l r hk
  rw [tableNodes, List.getElem?_append, List.length_map] at hk
  split at hk
  · rw [List.getElem?_map, Option.map_eq_some_iff] at hk
    obtain ⟨u, hu, hun⟩ := hk
    obtain ⟨_, _, rfl⟩ := mem_tableLeaves (List.mem_of_getElem? hu)
    cases hun
  · have := mergeNodes_childrenFirst _ _ _ (fun e he => by
      obtain ⟨t, ht, rfl⟩ := List.mem_map.1 he
      have hlt := List.idxOf_lt_length_iff.2 ((rankedLeaves_perm f).mem_iff.1 ht)
      have := Nat.mod_le ((tableLeaves f).idxOf t) (2 ^ 10)
      simp only [BitVec.toNat_ofNat]; omega) _ w l r hk
    omega

end Sys2Proof.Machine
end

