-- ==== Sys2Proof/Laws/Streams.lean ====
section
/-! SUPPORT. What the stream primitives do (20_memory.md R61 to R63): a field read from bits that start with it, a short
read, and bits or words written to a host that takes them. -/

namespace Sys2Proof.Machine

/-- ReadBits on a field the stream starts with (R62). -/
theorem takeBits_got {n : Nat} (v : BitVec n) (ends : Bool) (rest : Bits) :
    takeBits n ends (bitsOf v ++ rest) = .got v rest := by
  simp [takeBits]

/-- ReadBits past the end (R62). -/
theorem takeBits_short {n : Nat} {bs : Bits} (h : bs.length < n) : takeBits n true bs = .short := by
  simp [takeBits, takeField_eq_none.2 h]

/-- ReadBits on a stream that just stops (70_reset_and_hazards.md R286). -/
theorem takeBits_starved {n : Nat} {bs : Bits} (h : bs.length < n) : takeBits n false bs = .starved := by
  simp [takeBits, takeField_eq_none.2 h]

theorem readBits_got {n : Nat} {s : State} (v : BitVec n) (f : FaultKind) (rest : Bits)
    (h : s.io.bin.items = bitsOf v ++ rest) : readBits n f s = .ok v (s.setBin rest) := by
  simp [readBits, h, takeBits_got]

theorem readBits_short {n : Nat} {s : State} (f : FaultKind) (h : s.io.bin.items.length < n)
    (he : s.io.bin.ends = true) : readBits n f s = .raise f (s.setBin []) := by
  simp [readBits, he, takeBits_short h]

theorem readBits_starved {n : Nat} {s : State} (f : FaultKind) (h : s.io.bin.items.length < n)
    (he : s.io.bin.ends = false) : readBits n f s = .hang (s.setBin []) := by
  simp [readBits, he, takeBits_starved h]

/-- Everything a read of `n` bits can do (R62): a field the stream starts with, a short read, or a wait. -/
theorem readBits_cases (n : Nat) (f : FaultKind) (s : State) :
    (∃ v rest, s.io.bin.items = bitsOf v ++ rest ∧ readBits n f s = .ok v (s.setBin rest)) ∨
    (s.io.bin.items.length < n ∧ s.io.bin.ends = true ∧ readBits n f s = .raise f (s.setBin [])) ∨
    (s.io.bin.items.length < n ∧ s.io.bin.ends = false ∧ readBits n f s = .hang (s.setBin [])) := by
  cases ht : takeField n s.io.bin.items with
  | some p =>
    obtain ⟨v, rest⟩ := p
    have h := takeField_eq_some.1 ht
    exact Or.inl ⟨v, rest, h, readBits_got v f rest h⟩
  | none =>
    have h := takeField_eq_none.1 ht
    right
    cases he : s.io.bin.ends
    · exact Or.inr ⟨h, rfl, readBits_starved f h he⟩
    · exact Or.inl ⟨h, rfl, readBits_short f h he⟩

/-- The state after bits have been appended to BOUT (R63). -/
def wroteBits (bs : Bits) (s : State) : State :=
  addOutBits bs.length (s.sendBout bs (roomLeft s.io.bout.room bs.length))

/-- Bits written to a host that takes them (R63). -/
theorem putBits_ok {s : State} {bs : Bits} (h : Takes s.io.bout.room bs.length) :
    putBits bs s = .ok () (wroteBits bs s) := by
  unfold putBits wroteBits
  cases hr : s.io.bout.room with
  | none => simp [roomLeft]
  | some r => simp [roomLeft, h r hr]

/-- Bits written to a host that takes only some of them (R63, 70_reset_and_hazards.md R286): those, then a wait. -/
theorem putBits_full {s : State} {bs : Bits} {r : Nat} (hr : s.io.bout.room = some r) (h : r < bs.length) :
    putBits bs s = .hang (addOutBits r (s.sendBout (bs.take r) (some 0))) := by
  rw [putBits, hr]
  simp only
  rw [if_neg (by omega)]

theorem Takes.left {room : Option Nat} {a b : Nat} (h : Takes room (a + b)) : Takes room a :=
  fun r hr => by have := h r hr; omega

theorem Takes.right {room : Option Nat} {a b : Nat} (h : Takes room (a + b)) : Takes (roomLeft room a) b := by
  intro r hr
  cases room with
  | none => simp [roomLeft] at hr
  | some r' =>
    have := h r' rfl
    simp only [roomLeft, Option.map_some, Option.some.injEq] at hr
    omega

theorem roomLeft_roomLeft (room : Option Nat) (a b : Nat) : roomLeft (roomLeft room a) b = roomLeft room (a + b) := by
  cases room <;> simp [roomLeft, Nat.sub_sub]

@[simp] theorem roomLeft_zero (room : Option Nat) : roomLeft room 0 = room := by cases room <;> simp [roomLeft]

/-- OUT_BITS counts two writes as one while it stays below `2^64` (R61, R63). -/
theorem outBitsPlus_outBitsPlus (b : Word64) (m n : Nat) (h : b.toNat + m + n < 2 ^ 64) :
    outBitsPlus (outBitsPlus b m) n = outBitsPlus b (m + n) := by
  have h1 : outBitsPlus b m = b + BitVec.ofNat 64 m := by rw [outBitsPlus, if_pos (by omega)]
  have h2 : (b + BitVec.ofNat 64 m).toNat = b.toNat + m := by
    rw [BitVec.toNat_add, BitVec.toNat_ofNat]; omega
  rw [h1, outBitsPlus, h2, if_pos h, outBitsPlus, if_pos (by omega), BitVec.add_assoc, BitVec.ofNat_add]

theorem outBitsPlus_zero_left (n : Nat) (h : n < 2 ^ 64) : outBitsPlus 0 n = BitVec.ofNat 64 n := by
  simp only [outBitsPlus]
  rw [if_pos (by simpa using h)]
  exact BitVec.zero_add _

@[simp] theorem outBitsPlus_zero_right (b : Word64) : outBitsPlus b 0 = b := by
  simp only [outBitsPlus]
  rw [if_pos (by have := b.isLt; omega)]
  exact BitVec.add_zero b

/-- Two writes to BOUT are one of both bit strings (R63). -/
theorem wroteBits_wroteBits (a b : Bits) (s : State) (h : s.ses.outBits.toNat + a.length + b.length < 2 ^ 64) :
    wroteBits b (wroteBits a s) = wroteBits (a ++ b) s := by
  have h2 := outBitsPlus_outBitsPlus s.ses.outBits a.length b.length h
  simp [wroteBits, addOutBits, State.setOutBits, State.sendBout, roomLeft_roomLeft, h2]

@[simp] theorem wroteBits_nil (s : State) : wroteBits [] s = s := by
  simp [wroteBits, addOutBits, State.setOutBits, State.sendBout]

@[simp] theorem wroteBits_room (bs : Bits) (s : State) :
    (wroteBits bs s).io.bout.room = roomLeft s.io.bout.room bs.length := rfl

@[simp] theorem wroteBits_ses (bs : Bits) (s : State) :
    (wroteBits bs s).ses = { s.ses with outBits := outBitsPlus s.ses.outBits bs.length } := rfl

/-- The state after words have been appended to SOUT (R61). -/
def wroteWords (ws : List (BitVec 8)) (s : State) : State :=
  addOutBits (8 * ws.length) (s.sendSout ws (roomLeft s.io.sout.room ws.length))

/-- A word written to a host that takes it (R61). -/
theorem writeWord_ok {s : State} {w : BitVec 8} (h : Takes s.io.sout.room 1) :
    writeWord w s = .ok () (wroteWords [w] s) := by
  unfold writeWord wroteWords
  cases hr : s.io.sout.room with
  | none => simp [roomLeft, Config.W]
  | some r =>
    cases r with
    | zero => have := h 0 hr; omega
    | succ r => simp [roomLeft, Config.W]

/-- A word written to a host that takes no more (R61, R286): a wait. -/
theorem writeWord_full {s : State} (w : BitVec 8) (hr : s.io.sout.room = some 0) : writeWord w s = .hang s := by
  rw [writeWord, hr]

theorem wroteWords_wroteWords (a b : List (BitVec 8)) (s : State)
    (h : s.ses.outBits.toNat + 8 * a.length + 8 * b.length < 2 ^ 64) :
    wroteWords b (wroteWords a s) = wroteWords (a ++ b) s := by
  have h2 := outBitsPlus_outBitsPlus s.ses.outBits (8 * a.length) (8 * b.length) h
  simp [wroteWords, addOutBits, State.setOutBits, State.sendSout, roomLeft_roomLeft, h2, Nat.mul_add]

@[simp] theorem wroteWords_nil (s : State) : wroteWords [] s = s := by
  simp [wroteWords, addOutBits, State.setOutBits, State.sendSout]

@[simp] theorem wroteWords_room (ws : List (BitVec 8)) (s : State) :
    (wroteWords ws s).io.sout.room = roomLeft s.io.sout.room ws.length := rfl

@[simp] theorem wroteWords_ses (ws : List (BitVec 8)) (s : State) :
    (wroteWords ws s).ses = { s.ses with outBits := outBitsPlus s.ses.outBits (8 * ws.length) } := rfl

end Sys2Proof.Machine
end

