-- ==== Sys2Proof/Laws/Codec.lean ====
section
/-! SUPPORT. ReadTree() (44_tree_codec.md R193): it accepts exactly the serialized forms of legal trees that fit the
arena, builds the tree they are the form of, and says how anything else ends. -/

namespace Sys2Proof.Machine

theorem leafBits (v : SymVal) : encode (.wireTreeLeaf v) = true :: bitsOf v := rfl

theorem internalBits : encode .wireTreeInternal = [false] := rfl

@[simp] theorem CodeTree.preOrder_length (t : CodeTree) (base : Nat) : (t.preOrder base).length = t.size := by
  induction t generalizing base with
  | leaf => rfl
  | internal w l r hl hr => simp [CodeTree.preOrder, CodeTree.size, hl, hr]; omega

/-- The nodes of a tree in pre-order, behind an arena of `before.length` entries, are the tree (10_state.md R43,
44_tree_codec.md R193). -/
theorem CodeTree.isTree_preOrder (t : CodeTree) (before : List Node) (h : before.length + t.size ≤ 1024) :
    IsTree (before ++ t.preOrder before.length) (BitVec.ofNat 10 before.length) t := by
  induction t generalizing before with
  | leaf s w =>
    simp only [CodeTree.size] at h
    show (before ++ [Node.leaf s w])[(BitVec.ofNat 10 before.length).toNat]? = some (.leaf s w)
    rw [BitVec.toNat_ofNat, Nat.mod_eq_of_lt (by omega)]
    simp
  | internal w l r hl hr =>
    simp only [CodeTree.size] at h
    refine ⟨BitVec.ofNat 10 (before.length + 1), BitVec.ofNat 10 (before.length + 1 + l.size), ?_, ?_, ?_⟩
    · rw [BitVec.toNat_ofNat, Nat.mod_eq_of_lt (by omega)]
      simp [CodeTree.preOrder]
    · have := (hl (before ++ [.internal w (BitVec.ofNat 10 (before.length + 1))
        (BitVec.ofNat 10 (before.length + 1 + l.size))]) (by simp; omega)).append (r.preOrder (before.length + 1 + l.size))
      simpa [CodeTree.preOrder] using this
    · have := hr (before ++ .internal w (BitVec.ofNat 10 (before.length + 1))
        (BitVec.ofNat 10 (before.length + 1 + l.size)) :: l.preOrder (before.length + 1)) (by simp; omega)
      have hlen : (before ++ Node.internal w (BitVec.ofNat 10 (before.length + 1))
          (BitVec.ofNat 10 (before.length + 1 + l.size)) :: l.preOrder (before.length + 1)).length =
          before.length + 1 + l.size := by simp; omega
      rw [hlen] at this
      simpa [CodeTree.preOrder] using this

/-- ReadTree() on the serialized form of a tree (R193, R195): the nodes are the tree with weight 1, in pre-order from
`base`, and the bits behind it are left. -/
theorem parseTree_bits (t : CodeTree) (hs : ∀ s ∈ t.syms, s.toNat ≤ 256) (ends : Bool) (fuel base : Nat) (rest : Bits)
    (hf : t.depth < fuel) (hcap : base + t.size ≤ Config.NODE_CAP) :
    parseTree ends fuel base (t.bits ++ rest) = .ok (t.unweighted.preOrder base) rest := by
  induction t generalizing fuel base rest with
  | leaf s w =>
    cases fuel with
    | zero => simp at hf
    | succ fuel =>
      have hsym : s.toNat ≤ 256 := hs s (by simp [CodeTree.syms])
      simp only [CodeTree.size] at hcap
      simp only [CodeTree.bits, List.cons_append, parseTree]
      rw [if_neg (show ¬ Config.NODE_CAP ≤ base by omega), takeBits_got]
      simp [leafValue, isSymbol, hsym, CodeTree.unweighted, CodeTree.preOrder]
  | internal w l r hl hr =>
    cases fuel with
    | zero => simp at hf
    | succ fuel =>
      simp only [CodeTree.size] at hcap
      simp only [CodeTree.depth] at hf
      have hlp := hl (fun s h => hs s (by simp [CodeTree.syms, h])) fuel (base + 1) (r.bits ++ rest)
        (by omega) (by omega)
      have hrp := hr (fun s h => hs s (by simp [CodeTree.syms, h])) fuel (base + 1 + l.size) rest
        (by omega) (by omega)
      simp only [CodeTree.bits, List.cons_append, List.append_assoc, parseTree]
      rw [if_neg (show ¬ Config.NODE_CAP ≤ base by omega)]
      simp [parseKids, hlp, hrp, CodeTree.unweighted, CodeTree.preOrder]

/-- What ReadTree() accepts is the serialized form of a legal tree that fits the arena (R193, R195). -/
theorem parseTree_ok {ends : Bool} {fuel base : Nat} {bs rest : Bits} {nodes : List Node}
    (h : parseTree ends fuel base bs = .ok nodes rest) :
    ∃ t : CodeTree, bs = t.bits ++ rest ∧ (∀ s ∈ t.syms, s.toNat ≤ 256) ∧ t.depth < fuel ∧
      base + t.size ≤ Config.NODE_CAP ∧ nodes.length = t.size := by
  induction fuel generalizing base bs rest nodes with
  | zero => simp [parseTree] at h
  | succ fuel ih =>
    match bs with
    | [] => cases ends <;> simp [parseTree] at h
    | true :: bs =>
      simp only [parseTree, if_true] at h
      split at h
      · simp at h
      · rename_i hb
        cases ht : takeField 9 bs with
        | none => cases ends <;> simp [takeBits, ht] at h
        | some p =>
          obtain ⟨v, rest'⟩ := p
          simp only [takeBits, ht, leafValue] at h
          split at h
          · rename_i hv
            simp only [Parse.ok.injEq] at h
            obtain ⟨rfl, rfl⟩ := h
            refine ⟨.leaf v 1, ?_, ?_, ?_, ?_, rfl⟩
            · rw [takeField_eq_some.1 ht]; rfl
            · simpa [CodeTree.syms, isSymbol] using hv
            · simp [CodeTree.depth]
            · simp only [CodeTree.size]; omega
          · simp at h
    | false :: bs =>
      simp only [parseTree, Bool.false_eq_true, if_false] at h
      split at h
      · simp at h
      · rename_i hb
        simp only [parseKids] at h
        cases hl : parseTree ends fuel (base + 1) bs with
        | corrupt r => simp [hl] at h
        | starved => simp [hl] at h
        | ok ln rest1 =>
          simp only [hl] at h
          cases hr : parseTree ends fuel (base + 1 + ln.length) rest1 with
          | corrupt r => simp [hr] at h
          | starved => simp [hr] at h
          | ok rn rest2 =>
            simp only [hr, Parse.ok.injEq] at h
            obtain ⟨rfl, rfl⟩ := h
            obtain ⟨tl, h1, h2, h3, h4, h5⟩ := ih hl
            obtain ⟨tr, k1, k2, k3, k4, k5⟩ := ih hr
            refine ⟨.internal 1 tl tr, ?_, ?_, ?_, ?_, ?_⟩
            · simp [CodeTree.bits, h1, k1]
            · intro s hs
              simp only [CodeTree.syms, List.mem_append] at hs
              exact hs.elim (h2 s) (k2 s)
            · simp only [CodeTree.depth]; omega
            · simp only [CodeTree.size]; omega
            · simp [CodeTree.size, h5, k5]; omega

/-- The bits of a tree's fields are its serialized form (30_encoding.md R103, 44_tree_codec.md R190). -/
@[simp] theorem CodeTree.fieldBits_fields (t : CodeTree) : fieldBits t.fields = t.bits := by
  induction t with
  | leaf s w => simp [fieldBits, CodeTree.fields, CodeTree.bits, leafBits]
  | internal w l r hl hr =>
    simp only [fieldBits] at hl hr
    simp [fieldBits, CodeTree.fields, CodeTree.bits, internalBits, hl, hr]

@[simp] theorem CodeTree.fields_length (t : CodeTree) : t.fields.length = t.size := by
  induction t with
  | leaf => rfl
  | internal w l r hl hr => simp [CodeTree.fields, CodeTree.size, hl, hr]; omega

theorem CodeTree.depth_lt_size (t : CodeTree) : t.depth < t.size := by
  have := t.depth_lt; have := t.size_eq; have := t.leaves_pos; omega

/-- A tree whose fields are legal has legal symbols (30_encoding.md R108). -/
theorem CodeTree.syms_of_fields {t : CodeTree} (h : ∀ g ∈ t.fields, g.WellFormed = true) : ∀ s ∈ t.syms, s.toNat ≤ 256 := by
  induction t with
  | leaf s w =>
    intro y hy
    rw [List.mem_singleton.1 hy]
    simpa [CodeTree.fields, Instr.WellFormed, legalSym] using h
  | internal w l r hl hr =>
    simp only [CodeTree.fields, List.mem_cons, List.mem_append] at h
    intro y hy
    rcases List.mem_append.1 hy with hy | hy
    · exact hl (fun g hg => h g (Or.inr (Or.inl hg))) y hy
    · exact hr (fun g hg => h g (Or.inr (Or.inr hg))) y hy

/-- The first field a tree payload still lacks is a node's. -/
theorem CodeTree.fields_node {t : CodeTree} {i : Instr} (h : i ∈ t.fields) :
    i = .wireTreeInternal ∨ ∃ v, i = .wireTreeLeaf v := by
  induction t with
  | leaf s w => exact Or.inr ⟨s, List.mem_singleton.1 h⟩
  | internal w l r hl hr =>
    simp only [CodeTree.fields, List.mem_cons, List.mem_append] at h
    rcases h with h | h | h
    · exact Or.inl h
    · exact hl h
    · exact hr h

/-- ReadTree() behind a legal beginning of a tree (R193): where it stops on the next field, it stops. -/
theorem parseTree_stops (u : CodeTree) {good more : List Instr} {next : Instr} (hu : u.fields = good ++ next :: more)
    (hg : ∀ g ∈ good, g.WellFormed = true) (ends : Bool) (fuel base : Nat) (tail : Bits) (r : Parse)
    (hf : good.length < fuel) (hb : base + good.length ≤ Config.NODE_CAP)
    (hr : ∀ f, parseTree ends (f + 1) (base + good.length) tail = r) (hstop : ∀ ns rest, r ≠ .ok ns rest) :
    parseTree ends fuel base (fieldBits good ++ tail) = r := by
  induction u generalizing good more fuel base with
  | leaf s w =>
    cases good with
    | nil =>
      cases fuel with
      | zero => simp at hf
      | succ fuel => exact hr fuel
    | cons g good => simp [CodeTree.fields] at hu
  | internal w l rt hl hrt =>
    cases fuel with
    | zero => simp at hf
    | succ fuel =>
      cases good with
      | nil => exact hr fuel
      | cons g good =>
        simp only [CodeTree.fields, List.cons_append, List.cons.injEq] at hu
        obtain ⟨rfl, hu⟩ := hu
        simp only [List.length_cons] at hf hb
        have hg' : ∀ g ∈ good, g.WellFormed = true := fun g h => hg g (List.mem_cons_of_mem _ h)
        have e1 : fieldBits (.wireTreeInternal :: good) ++ tail = false :: (fieldBits good ++ tail) := by
          simp [fieldBits, internalBits]
        rw [e1, parseTree, if_neg (by omega)]
        simp only [Bool.false_eq_true, if_false, List.length_cons] at hr ⊢
        rw [parseKids]
        rcases List.append_eq_append_iff.1 hu with ⟨g2, rfl, hr2⟩ | ⟨c, hc, hr2⟩
        · have hlen : (l.fields ++ g2).length = l.size + g2.length := by simp
          rw [hlen] at hf hb hr
          have hp := parseTree_bits l (CodeTree.syms_of_fields fun g h => hg' g (List.mem_append_left _ h)) ends fuel
            (base + 1) (fieldBits g2 ++ tail) (by have := l.depth_lt_size; omega) (by omega)
          have e2 : fieldBits (l.fields ++ g2) ++ tail = l.bits ++ (fieldBits g2 ++ tail) := by
            rw [← CodeTree.fieldBits_fields l]; simp [fieldBits]
          rw [e2, hp]
          simp only [CodeTree.preOrder_length, CodeTree.unweighted_size]
          rw [hrt hr2 (fun g h => hg' g (List.mem_append_right _ h)) fuel (base + 1 + l.size) (by omega) (by omega)
            (by intro f; rw [show base + 1 + l.size + g2.length = base + (l.size + g2.length + 1) by omega]; exact hr f)]
          split
          · exact absurd rfl (hstop _ _)
          · rfl
        · cases c with
          | nil =>
            simp only [List.append_nil] at hc
            simp only [List.nil_append] at hr2
            subst hc
            rw [CodeTree.fields_length] at hf hb hr
            have hp := parseTree_bits l (CodeTree.syms_of_fields hg') ends fuel (base + 1) tail
              (by have := l.depth_lt_size; omega) (by omega)
            rw [CodeTree.fieldBits_fields, hp]
            simp only [CodeTree.preOrder_length, CodeTree.unweighted_size]
            have := hrt (good := []) hr2.symm (by simp) fuel (base + 1 + l.size) (by simp; omega) (by simp; omega)
              (by
                intro f
                rw [show base + 1 + l.size + ([] : List Instr).length = base + (l.size + 1) by simp; omega]
                exact hr f)
            simp only [fieldBits, List.flatMap_nil, List.nil_append] at this
            rw [this]
            split
            · exact absurd rfl (hstop _ _)
            · rfl
          | cons n c =>
            simp only [List.cons_append, List.cons.injEq] at hr2
            obtain ⟨rfl, -⟩ := hr2
            rw [hl hc hg' fuel (base + 1) (by omega) (by omega)
              (by intro f; rw [show base + 1 + good.length = base + (good.length + 1) by omega]; exact hr f)]
            split
            · exact absurd rfl (hstop _ _)
            · rfl

/-- ReadTree() on a payload that stops inside the tree (R193, 60_exceptions.md R261): CorruptFormat with nothing left
where the stream ends, a wait where it just stops. -/
theorem parseTree_cut {base fuel : Nat} {items : Bits} (ends : Bool) (h : CutPayload base items)
    (hf : Config.NODE_CAP < fuel) : parseTree ends fuel base items = if ends then .corrupt [] else .starved := by
  obtain ⟨good, next, cut, ⟨⟨u, more, hu⟩, hg⟩, rfl, hpre, hne, hb, hcap⟩ := h
  refine parseTree_stops u hu hg ends fuel base cut _ (by omega) hb ?_ (by cases ends <;> simp)
  intro f
  cases cut with
  | nil => rfl
  | cons b cut =>
    have hb' : base + good.length < Config.NODE_CAP := hcap.resolve_left (by simp)
    rcases CodeTree.fields_node (t := u) (i := next) (by simp [hu]) with rfl | ⟨v, rfl⟩
    · rw [internalBits] at hpre hne
      obtain ⟨rfl, hp⟩ := List.cons_prefix_cons.1 hpre
      rw [List.prefix_nil.1 hp] at hne
      exact absurd rfl hne
    · rw [leafBits] at hpre hne
      obtain ⟨rfl, hp⟩ := List.cons_prefix_cons.1 hpre
      have hlen : cut.length < 9 := by
        rcases Nat.lt_or_ge cut.length 9 with h | h
        · exact h
        · exact absurd (congrArg (true :: ·) (hp.eq_of_length_le (by rw [bitsOf_length]; exact h))) hne
      simp only [parseTree, if_true]
      rw [if_neg (by omega)]
      cases ends
      · rw [takeBits_starved hlen]; rfl
      · rw [takeBits_short hlen]; rfl

/-- ReadTree() on a payload it rejects (R193, R108): CorruptFormat, and the bits it leaves. -/
theorem parseTree_broken {ends : Bool} {base fuel : Nat} {items left : Bits} (h : BrokenPayload ends base items left)
    (hf : Config.NODE_CAP < fuel) : parseTree ends fuel base items = .corrupt left := by
  cases h with
  | cut _ he hc => rw [parseTree_cut ends hc hf, he]; rfl
  | value good next v left hg hb hv =>
    obtain ⟨⟨u, more, hu⟩, hg⟩ := hg
    rw [List.append_assoc]
    refine parseTree_stops u hu hg ends fuel base _ _ (by omega) (by omega) ?_ (by simp)
    intro f
    simp only [List.cons_append, parseTree, if_true]
    rw [if_neg (by omega), takeBits_got]
    simp [leafValue, isSymbol, hv]
  | full good next tag left hg hb =>
    obtain ⟨⟨u, more, hu⟩, hg⟩ := hg
    refine parseTree_stops u hu hg ends fuel base _ _ (by omega) (by omega) ?_ (by simp)
    intro f
    rw [parseTree, if_pos (by omega)]

theorem node_cap_lt_walkFuel : Config.NODE_CAP < walkFuel := by simp [walkFuel]

/-- ReadTree() from BIN on a payload it rejects, and on one that just stops (R193, 70_reset_and_hazards.md R286). -/
theorem readTree_broken {s : State} {left : Bits}
    (h : BrokenPayload s.io.bin.ends s.ses.node.length s.io.bin.items left) :
    readTree s = .raise .corruptFormat (s.setBin left) := by
  rw [readTree, parseTree_broken h node_cap_lt_walkFuel]; rfl

theorem readTree_stopped {s : State} (h : CutPayload s.ses.node.length s.io.bin.items) (he : s.io.bin.ends = false) :
    readTree s = .hang (s.setBin []) := by
  rw [readTree, parseTree_cut _ h node_cap_lt_walkFuel, he]; rfl

/-- A tree that fits the arena is legal (00_scope.md R8, 44_tree_codec.md R193). -/
theorem CodeTree.legal_of_size {t : CodeTree} (hs : ∀ s ∈ t.syms, s.toNat ≤ 256) (h : t.size ≤ 513) : t.Legal := by
  have := t.size_eq
  exact ⟨by omega, hs⟩

/-- ReadTree() from BIN on a serialized form (R193). -/
theorem readTree_bits {s : State} {t : CodeTree} {rest : Bits} (hs : ∀ y ∈ t.syms, y.toNat ≤ 256)
    (hd : t.depth < walkFuel) (hcap : s.ses.node.length + t.size ≤ Config.NODE_CAP)
    (hb : s.io.bin.items = t.bits ++ rest) :
    readTree s = .ok s.nextIdx
        ((s.setBin rest).setNode (s.ses.node ++ t.unweighted.preOrder s.ses.node.length)) ∧
      IsTree (s.ses.node ++ t.unweighted.preOrder s.ses.node.length) s.nextIdx t.unweighted := by
  refine ⟨?_, ?_⟩
  · rw [readTree, hb, parseTree_bits t hs s.io.bin.ends walkFuel s.ses.node.length rest hd hcap]
    rfl
  · exact t.unweighted.isTree_preOrder s.ses.node (by
      simp only [Config.NODE_CAP] at hcap; rw [CodeTree.unweighted_size]; omega)

/-- Everything ReadTree() can do in an arena with `base` entries: a legal tree the stream starts with; CorruptFormat;
or a wait. -/
theorem readTree_cases (s : State) :
    (∃ (t : CodeTree) (rest : Bits), s.io.bin.items = t.bits ++ rest ∧
      (∀ y ∈ t.syms, y.toNat ≤ 256) ∧ t.depth < walkFuel ∧ s.ses.node.length + t.size ≤ Config.NODE_CAP ∧
      IsTree (s.ses.node ++ t.unweighted.preOrder s.ses.node.length) s.nextIdx t.unweighted ∧
      readTree s = .ok s.nextIdx
        ((s.setBin rest).setNode (s.ses.node ++ t.unweighted.preOrder s.ses.node.length))) ∨
    (∃ rest, readTree s = .raise .corruptFormat (s.setBin rest)) ∨ readTree s = .hang (s.setBin []) := by
  cases hp : parseTree s.io.bin.ends walkFuel s.ses.node.length s.io.bin.items with
  | ok nodes rest =>
    left
    obtain ⟨t, hb, hs, hd, hcap, hl⟩ := parseTree_ok hp
    obtain ⟨hr, ht⟩ := readTree_bits hs hd hcap hb
    exact ⟨t, rest, hb, hs, hd, hcap, ht, hr⟩
  | corrupt rest => exact Or.inr (Or.inl ⟨rest, by rw [readTree, hp]; rfl⟩)
  | starved => exact Or.inr (Or.inr (by rw [readTree, hp]; rfl))

end Sys2Proof.Machine
end

