-- ==== Sys2Proof/Laws/Compress.lean ====
section
/-! SUPPORT. The compressor: the length of the Data field (45_stream_compress.md R213), the header (R217), and the loop
over the words of the input. -/

namespace Sys2Proof.Machine

/-- A path found in the tree leads to its leaf (43_tree_builder.md R175 (d)). -/
theorem CodeTree.paths_follow {t : CodeTree} {p q : Bits} {s : SymVal} (h : (s, q) ∈ t.paths p) :
    ∃ r w, q = p ++ r ∧ t.follow r = some (.leaf s w) := by
  induction t generalizing p with
  | leaf s' w =>
    simp only [CodeTree.paths, List.mem_singleton, Prod.mk.injEq] at h
    obtain ⟨rfl, rfl⟩ := h
    exact ⟨[], w, by simp, rfl⟩
  | internal w l r hl hr =>
    simp only [CodeTree.paths, List.mem_append] at h
    rcases h with h | h
    · obtain ⟨r', w', rfl, hf⟩ := hl h
      exact ⟨false :: r', w', by simp, by simpa [CodeTree.follow] using hf⟩
    · obtain ⟨r', w', rfl, hf⟩ := hr h
      exact ⟨true :: r', w', by simp, by simpa [CodeTree.follow] using hf⟩

/-- A path ends where its leaf is, no deeper than the tree (R171 (d)). -/
theorem CodeTree.follow_length {t : CodeTree} {p : Bits} {sub : CodeTree} (h : t.follow p = some sub) : p.length ≤ t.depth := by
  induction t generalizing p with
  | leaf s w =>
    cases p with
    | nil => simp
    | cons b p => simp [CodeTree.follow] at h
  | internal w l r hl hr =>
    cases p with
    | nil => simp
    | cons b p =>
      cases b
      · have := hl (p := p) (by simpa [CodeTree.follow] using h)
        simp only [List.length_cons, CodeTree.depth]; omega
      · have := hr (p := p) (by simpa [CodeTree.follow] using h)
        simp only [List.length_cons, CodeTree.depth]; omega

/-- The entry of a symbol in the path table leads to a leaf of that symbol (R175 (d)). -/
theorem CodeTree.pathTable_follow {t : CodeTree} {k : Nat} {p : Bits} (h : (t.pathTable[k]?).getD none = some p) :
    ∃ s w, s.toNat = k ∧ t.follow p = some (.leaf s w) := by
  obtain ⟨s, hs, hm⟩ := CodeTree.pathTable_mem h
  obtain ⟨r, w, rfl, hf⟩ := CodeTree.paths_follow hm
  exact ⟨s, w, hs, by simpa using hf⟩

theorem pathBits_of_hasPath {v : Vector PathEntry 257} {k : Nat} (h : HasPath v k) :
    (v[k]?).getD none = some (pathBits v k) := by
  obtain ⟨p, hp⟩ := Option.isSome_iff_exists.1 h
  simp [pathBits, hp]

theorem pathBits_follow {t : CodeTree} {x : SymVal} (h : HasPath t.pathTable x.toNat) :
    ∃ w, t.follow (pathBits t.pathTable x.toNat) = some (.leaf x w) := by
  obtain ⟨s, w, hs, hf⟩ := CodeTree.pathTable_follow (pathBits_of_hasPath h)
  obtain rfl := BitVec.eq_of_toNat_eq hs
  exact ⟨w, hf⟩

/-- A codeword has at most 256 bits (00_scope.md R8). -/
theorem pathBits_length {t : CodeTree} (hl : t.Legal) (k : Nat) : (pathBits t.pathTable k).length ≤ 256 := by
  unfold pathBits
  cases h : (t.pathTable[k]?).getD none with
  | none => simp
  | some p =>
    obtain ⟨s, w, -, hf⟩ := CodeTree.pathTable_follow h
    have := CodeTree.follow_length hf
    have := hl.depth_le
    simp only [Option.getD_some]; omega

theorem sum_single (f : Nat → Nat) (n j : Nat) (h : j < n) :
    ((List.range n).map fun k => (if j = k then 1 else 0) * f k).sum = f j := by
  induction n with
  | zero => omega
  | succ n ih =>
    rw [List.range_succ, List.map_append, List.sum_append]
    by_cases hj : j = n
    · subst hj
      have h0 : ((List.range j).map fun k => (if j = k then 1 else 0) * f k).sum = 0 := by
        apply List.sum_eq_zero
        intro x hx
        obtain ⟨k, hk, rfl⟩ := List.mem_map.1 hx
        rw [if_neg (by have := List.mem_range.1 hk; omega), Nat.zero_mul]
      rw [h0]; simp
    · rw [ih (by omega)]
      simp [hj]

/-- The codewords of a list of words have `sum count * length` bits (45_stream_compress.md R213). -/
theorem wordBits_length (v : Vector PathEntry 257) (xs : List SymVal) (h : AllWords xs) :
    (wordBits v xs).length = ((List.range 256).map fun k => occurrences k xs * (pathBits v k).length).sum := by
  induction xs with
  | nil =>
    symm
    apply List.sum_eq_zero
    intro n hn
    obtain ⟨k, -, rfl⟩ := List.mem_map.1 hn
    simp [occurrences]
  | cons x xs ih =>
    have hx : x.toNat ≤ 255 := h x List.mem_cons_self
    have hs : ((List.range 256).map fun k => occurrences k (x :: xs) * (pathBits v k).length) =
        (List.range 256).map fun k => occurrences k xs * (pathBits v k).length +
          (if x.toNat = k then 1 else 0) * (pathBits v k).length := by
      apply List.map_congr_left
      intro k _
      rw [occurrences_cons, Nat.add_mul]
    rw [hs, List.sum_map_add, sum_single _ _ _ (by omega), ← ih (fun y hy => h y (List.mem_cons_of_mem _ hy))]
    simp [wordBits, Nat.add_comm]

/-- The number of words is the sum of the counts (42_frequency_accumulator.md R156 (a)). -/
theorem length_eq_sum (xs : List SymVal) (h : AllWords xs) :
    xs.length = ((List.range 256).map fun k => occurrences k xs).sum := by
  induction xs with
  | nil =>
    symm
    apply List.sum_eq_zero
    intro n hn
    obtain ⟨k, -, rfl⟩ := List.mem_map.1 hn
    rfl
  | cons x xs ih =>
    have hx : x.toNat ≤ 255 := h x List.mem_cons_self
    have hs : ((List.range 256).map fun k => occurrences k (x :: xs)) =
        (List.range 256).map fun k => occurrences k xs + (if x.toNat = k then 1 else 0) * 1 := by
      apply List.map_congr_left
      intro k _
      rw [occurrences_cons, Nat.mul_one]
    rw [hs, List.sum_map_add, sum_single (fun _ => 1) _ _ (by omega),
      ← ih (fun y hy => h y (List.mem_cons_of_mem _ hy))]
    rfl

/-- Bounds of 00_scope.md R8 (d). -/
theorem length_lt (xs : List SymVal) (h : AllWords xs) (hc : ∀ k < 256, occurrences k xs < 2 ^ 32) :
    xs.length < 2 ^ 40 := by
  rw [length_eq_sum xs h]
  have : ((List.range 256).map fun k => occurrences k xs).sum ≤
      ((List.range 256).map fun k => occurrences k xs).length • (2 ^ 32 - 1) := by
    apply List.sum_le_card_nsmul
    intro x hx
    obtain ⟨k, hk, rfl⟩ := List.mem_map.1 hx
    have := hc k (List.mem_range.1 hk)
    omega
  simp only [List.length_map, List.length_range, smul_eq_mul] at this
  omega

theorem wordBits_length_le {t : CodeTree} (hl : t.Legal) (xs : List SymVal) :
    (wordBits t.pathTable xs).length ≤ xs.length * 256 := by
  induction xs with
  | nil => simp [wordBits]
  | cons x xs ih =>
    have := pathBits_length hl x.toNat
    simp only [wordBits, List.flatMap_cons, List.length_append, List.length_cons] at ih ⊢
    omega

@[simp] theorem wordBits_cons (v : Vector PathEntry 257) (x : SymVal) (xs : List SymVal) :
    wordBits v (x :: xs) = pathBits v x.toNat ++ wordBits v xs := by simp [wordBits]

@[simp] theorem wordBits_nil (v : Vector PathEntry 257) : wordBits v [] = [] := rfl

/-- The header EmitStream() writes (R217, 30_encoding.md R98). -/
theorem headerStream_of_isTree {s : State} {t : CodeTree} (h : IsTree s.ses.node s.ses.root t) (hd : t.depth < walkFuel)
    (hb : s.ses.treeBits = BitVec.ofNat 32 t.bits.length) :
    headerStream s = some (headerField s.build s.status.hdrsel s.ses.freq t) := by
  unfold headerStream headerField
  cases s.status.hdrsel
  · rfl
  · simp [serialize_of_isTree h walkFuel hd, hb, encode, encodeWord, encodeField]

/-- The state after the words `xs` of an emit pass, with `tail` left on SIN, have been written, but for OUT_BITS. -/
def emitted (xs tail : List SymVal) (n : Word64) (s : State) : State :=
  { s with
    ses := { s.ses with outBits := n }
    io := { s.io with
      sin := { s.io.sin with items := tail }
      bout := { s.io.bout with
        sent := s.io.bout.sent ++ wordBits s.ses.path xs
        room := roomLeft s.io.bout.room (wordBits s.ses.path xs).length } } }

/-- The loop of EmitStream() over words with a path (R217): their paths are written, and the loop goes on. -/
theorem emitWords_words (xs tail : List SymVal) (s : State) (hi : s.io.sin.items = xs ++ tail) (hx : AllWords xs)
    (hp : ∀ x ∈ xs, HasPath s.ses.path x.toNat) (hr : Takes s.io.bout.room (wordBits s.ses.path xs).length) :
    ∃ n, emitWords (xs ++ tail) s = emitWords tail (emitted xs tail n s) ∧
      (s.ses.outBits.toNat + (wordBits s.ses.path xs).length < 2 ^ 64 →
        n = outBitsPlus s.ses.outBits (wordBits s.ses.path xs).length) := by
  induction xs generalizing s with
  | nil =>
    simp only [List.nil_append] at hi
    refine ⟨s.ses.outBits, ?_, by simp⟩
    simp [emitted, ← hi]
  | cons x xs ih =>
    have hx0 : x.toNat ≤ 255 := hx x List.mem_cons_self
    have hpe : x ≠ pseudoEof := by intro hc; rw [hc] at hx0; simp [pseudoEof] at hx0
    have hpx := pathBits_of_hasPath (hp x List.mem_cons_self)
    simp only [wordBits_cons, List.length_append] at hr ⊢
    have hstep : emitWords (x :: (xs ++ tail)) s =
        emitWords (xs ++ tail) (wroteBits (pathBits s.ses.path x.toNat) (s.setSin (xs ++ tail))) := by
      rw [emitWords]
      have hpa : (s.setSin (xs ++ tail)).pathAt x.toNat = some (pathBits s.ses.path x.toNat) := hpx
      simp only [hpe, if_false, isDataSymbol, hx0, decide_true, Bool.true_eq_false, hpa]
      rw [writePath, putBits_ok (by exact hr.left), Res.andThen_ok]
    obtain ⟨n, hn, hb⟩ := ih (wroteBits (pathBits s.ses.path x.toNat) (s.setSin (xs ++ tail))) rfl
      (fun y hy => hx y (List.mem_cons_of_mem _ hy)) (fun y hy => hp y (List.mem_cons_of_mem _ hy)) (by exact hr.right)
    refine ⟨n, ?_, ?_⟩
    · rw [List.cons_append, hstep, hn]
      simp [emitted, wroteBits, addOutBits, State.setOutBits, State.sendBout, State.setSin, roomLeft_roomLeft]
    · intro hlt
      have h1 : (outBitsPlus s.ses.outBits (pathBits s.ses.path x.toNat).length).toNat =
          s.ses.outBits.toNat + (pathBits s.ses.path x.toNat).length := by
        rw [outBitsPlus, if_pos (by omega), BitVec.toNat_add, BitVec.toNat_ofNat]; omega
      rw [hb (by
        simp only [wroteBits_ses, State.setSin_ses]
        rw [h1]; omega)]
      simp only [wroteBits_ses, State.setSin_ses]
      exact outBitsPlus_outBitsPlus _ _ _ (by omega)

/-- The loop of EmitStream() on a host that takes fewer bits than the words' paths have (R217,
70_reset_and_hazards.md R286): it takes those, and the loop waits. -/
theorem emitWords_full (xs tail : List SymVal) (s : State) {r : Nat} (hx : AllWords xs)
    (hp : ∀ x ∈ xs, HasPath s.ses.path x.toNat) (hr : s.io.bout.room = some r)
    (hlt : r < (wordBits s.ses.path xs).length) :
    ∃ u, emitWords (xs ++ tail) s = .hang u ∧ u.status = s.status ∧
      u.io.bout = ⟨s.io.bout.sent ++ (wordBits s.ses.path xs).take r, some 0, s.io.bout.held⟩ := by
  induction xs generalizing s r with
  | nil => simp at hlt
  | cons x xs ih =>
    have hx0 : x.toNat ≤ 255 := hx x List.mem_cons_self
    have hpe : x ≠ pseudoEof := by intro hc; rw [hc] at hx0; simp [pseudoEof] at hx0
    have hpa : (s.setSin (xs ++ tail)).pathAt x.toNat = some (pathBits s.ses.path x.toNat) :=
      pathBits_of_hasPath (hp x List.mem_cons_self)
    rw [List.cons_append, emitWords]
    simp only [hpe, if_false, isDataSymbol, hx0, decide_true, Bool.true_eq_false, hpa]
    rw [wordBits_cons, List.length_append] at hlt
    rw [wordBits_cons, writePath]
    by_cases h : r < (pathBits s.ses.path x.toNat).length
    · rw [putBits_full (by exact hr) h]
      exact ⟨_, rfl, rfl, by rw [List.take_append_of_le_length (by omega)]; rfl⟩
    · rw [putBits_ok (by intro r' hr'; rw [State.setSin_io, hr] at hr'; simp only [Option.some.injEq] at hr'; omega),
        Res.andThen_ok]
      obtain ⟨u, hu, hs, hb⟩ := ih (wroteBits (pathBits s.ses.path x.toNat) (s.setSin (xs ++ tail)))
        (r := r - (pathBits s.ses.path x.toNat).length) (fun y hy => hx y (List.mem_cons_of_mem _ hy))
        (fun y hy => hp y (List.mem_cons_of_mem _ hy))
        (by rw [wroteBits_room, State.setSin_io, hr]; rfl) (by
          simp only [wroteBits_ses, State.setSin_ses]; omega)
      refine ⟨u, hu, hs, ?_⟩
      rw [hb, List.take_append, List.take_of_length_le (i := r) (by omega)]
      simp [wroteBits, addOutBits, State.setOutBits, State.sendBout]

/-- The loop of EmitStream() on a host that stops giving words without an end (R217, R286): a wait. -/
theorem emitWords_starved {s : State} (he : s.io.sin.ends = false) : emitWords [] s = .hang s := by
  simp [emitWords, he]

/-- The end of an emit pass: `END`, or the embedded marker, which is taken (R217). -/
theorem emitWords_end {s : State} {tail : List SymVal} (hi : s.io.sin.items = tail)
    (h : PassEnds s.io.sin.ends tail) : emitWords tail s = .ok () (s.setSin tail.tail) := by
  rcases h with ⟨rfl, he⟩ | h
  · simp [emitWords, he, State.setSin_self hi]
  · cases tail with
    | nil => simp at h
    | cons y more =>
      simp only [List.head?_cons, Option.some.injEq] at h
      simp [emitWords, h]

/-- The end of a counting pass (42_frequency_accumulator.md R150). -/
theorem accumulate_tail {s : State} {tail : List SymVal} (n : Word64) (hi : s.io.sin.items = tail)
    (h : PassEnds s.io.sin.ends tail) :
    accumulate tail n s = .ok (n, decide (tail ≠ [])) (s.setSin tail.tail) := by
  rcases h with ⟨rfl, he⟩ | h
  · simp [accumulate, he, State.setSin_self hi]
  · cases tail with
    | nil => simp at h
    | cons y more =>
      simp only [List.head?_cons, Option.some.injEq] at h
      simp [accumulate, h]

/-- A whole counting pass that nothing stops (R150, R151). -/
theorem countPass_ok {s : State} {xs tail : List SymVal} (hi : s.io.sin.items = xs ++ tail) (hx : AllWords xs)
    (he : PassEnds s.io.sin.ends tail) (hc : ∀ k < 256, (s.freqAt k).toNat + occurrences k xs < 2 ^ 32) :
    countPass s = .ok (BitVec.ofNat 64 xs.length, decide (tail ≠ [])) { s with
      ses := { s.ses with freq := countInto s.ses.freq xs }
      io := { s.io with sin := { s.io.sin with items := tail.tail, held := false } } } := by
  rw [countPass, hi, accumulate_words xs tail 0 (acquireSin s) hi hx hc]
  have h := accumulate_tail (s := { acquireSin s with
    ses := { (acquireSin s).ses with freq := countInto (acquireSin s).ses.freq xs }
    io := { (acquireSin s).io with sin := { (acquireSin s).io.sin with items := tail } } }) (tail := tail)
    (0 + BitVec.ofNat 64 xs.length) rfl he
  rw [h, Res.andThen_ok]
  simp [acquireSin, State.setSin, releaseSin]

/-- A SIN item 257..511 is InvalidArgument; it is taken (R150). -/
theorem accumulate_bad (y : SymVal) (more : List SymVal) (n : Word64) (s : State) (hy : 256 < y.toNat) :
    accumulate (y :: more) n s = .raise .invalidArgument (s.setSin more) := by
  have hp : y ≠ pseudoEof := by rintro rfl; simp [pseudoEof] at hy
  have : ¬ y.toNat ≤ 255 := by omega
  simp [accumulate, hp, isDataSymbol, this]

/-- A full count is CapacityFault; the item is taken (R150). -/
theorem accumulate_full (y : SymVal) (more : List SymVal) (n : Word64) (s : State) (hy : y.toNat ≤ 255)
    (hf : s.freqAt y.toNat = BitVec.allOnes 32) :
    accumulate (y :: more) n s = .raise .capacityFault (s.setSin more) := by
  have hp : y ≠ pseudoEof := by rintro rfl; simp [pseudoEof] at hy
  have hf' : (s.setSin more).freqAt y.toNat = BitVec.allOnes 32 := hf
  simp [accumulate, hp, isDataSymbol, hy, hf']

/-- A counting pass that an item stops, behind words that count normally (R150, R151). -/
theorem countPass_bad {s : State} {xs more : List SymVal} {y : SymVal} (hi : s.io.sin.items = xs ++ y :: more)
    (hx : AllWords xs) (hc : ∀ k < 256, (s.freqAt k).toNat + occurrences k xs < 2 ^ 32) :
    (256 < y.toNat → countPass s = .raise .invalidArgument { s with
      ses := { s.ses with freq := countInto s.ses.freq xs }
      io := { s.io with sin := { s.io.sin with items := more, held := true } } }) ∧
    (y.toNat ≤ 255 → (s.freqAt y.toNat).toNat + occurrences y.toNat xs = 2 ^ 32 - 1 →
      countPass s = .raise .capacityFault { s with
        ses := { s.ses with freq := countInto s.ses.freq xs }
        io := { s.io with sin := { s.io.sin with items := more, held := true } } }) := by
  refine ⟨?_, ?_⟩
  · intro hy
    rw [countPass, hi, accumulate_words xs _ 0 (acquireSin s) hi hx hc, accumulate_bad _ _ _ _ hy]
    rfl
  · intro hy hf
    rw [countPass, hi, accumulate_words xs _ 0 (acquireSin s) hi hx hc, accumulate_full _ _ _ _ hy]
    · rfl
    · apply BitVec.eq_of_toNat_eq
      have := countInto_get s.ses.freq xs y.toNat (by omega) hx (by have := hc y.toNat (by omega); exact this)
      refine Eq.trans this ?_
      rw [BitVec.toNat_allOnes]; exact hf


/-- The image of a path: bit `255 - k` is its `k`-th choice (10_state.md R45). -/
theorem pathImage_bit (p : Bits) (hp : p.length ≤ 256) (k : Nat) (hk : k < p.length) :
    p[k]? = some ((pathImage p).getLsbD (255 - k)) := by
  unfold pathImage
  rw [BitVec.getLsbD_ofNat]
  have h1 : 255 - k < 256 := by omega
  simp only [h1, decide_true, Bool.true_and]
  rw [Nat.testBit_mul_two_pow]
  have h2 : 256 - p.length ≤ 255 - k := by omega
  simp only [h2, decide_true, Bool.true_and]
  have h3 : 255 - k - (256 - p.length) = p.length - 1 - k := by omega
  rw [h3]
  clear h1 h2 h3 hp
  induction p generalizing k with
  | nil => simp at hk
  | cons b p ih =>
    rw [bitsToNat_cons]
    cases k with
    | zero =>
      simp only [List.getElem?_cons_zero, List.length_cons, Nat.add_sub_cancel, Nat.sub_zero]
      rw [Nat.mul_comm, Nat.testBit_two_pow_mul_add _ (bitsToNat_lt p)]
      cases b <;> simp
    | succ k =>
      simp only [List.length_cons] at hk
      rw [List.getElem?_cons_succ, ih k (by omega), Nat.mul_comm, Nat.testBit_two_pow_mul_add _ (bitsToNat_lt p)]
      have : (b :: p).length - 1 - (k + 1) = p.length - 1 - k := by simp only [List.length_cons]; omega
      rw [this, if_pos (by omega)]

/-- A serialized tree is short (00_scope.md R8). -/
theorem treeBits_lt {t : CodeTree} (hl : t.Legal) : t.bits.length < 2 ^ 12 := by
  have := t.bits_length; have := t.size_eq; have := hl.1; omega

/-- EmitStream() on data words that have a path (45_stream_compress.md R217): the header, the paths, the PSEUDO_EOF
path. -/
theorem emitStream_ok {s : State} {t : CodeTree} {xs tail : List SymVal} {B : Bits}
    (ht : IsTree s.ses.node s.ses.root t) (hl : t.Legal) (hb : s.ses.treeBits = BitVec.ofNat 32 t.bits.length)
    (hi : s.io.sin.items = xs ++ tail) (hx : AllWords xs) (hp : ∀ x ∈ xs, HasPath s.ses.path x.toNat)
    (hpe : HasPath s.ses.path 256) (he : PassEnds s.io.sin.ends tail)
    (hB : B = headerField s.build s.status.hdrsel s.ses.freq t ++ dataField s.ses.path xs)
    (hr : Takes s.io.bout.room B.length) (ho : s.ses.outBits = 0) (hlt : B.length < 2 ^ 64) :
    emitStream s = .ok () { s with
      ses := { s.ses with outBits := BitVec.ofNat 64 B.length }
      io := { s.io with
        sin := { s.io.sin with items := tail.tail }
        bout := { s.io.bout with sent := s.io.bout.sent ++ B, room := roomLeft s.io.bout.room B.length } } } := by
  subst hB
  rw [emitStream, headerStream_of_isTree ht hl.depth_lt_fuel hb]
  generalize headerField s.build s.status.hdrsel s.ses.freq t = H at *
  simp only [dataField, List.length_append] at hr hlt ⊢
  rw [← Nat.add_assoc] at hr
  rw [putBits_ok hr.left.left, Res.andThen_ok]
  obtain ⟨n, hn, hnb⟩ := emitWords_words xs tail (wroteBits H s) hi hx hp hr.left.right
  have h0 : (wroteBits H s).ses.outBits = BitVec.ofNat 64 H.length := by
    rw [wroteBits_ses]; simp only [ho]; exact outBitsPlus_zero_left _ (by omega)
  have hn2 : n = BitVec.ofNat 64 (H.length + (wordBits s.ses.path xs).length) := by
    have h1 := hnb (by rw [h0, BitVec.toNat_ofNat]; show _ % _ + (wordBits s.ses.path xs).length < _; omega)
    rw [h1, h0]
    have := outBitsPlus_outBitsPlus 0 H.length (wordBits s.ses.path xs).length (by show 0 + _ + _ < _; omega)
    rw [outBitsPlus_zero_left _ (by omega), outBitsPlus_zero_left _ (by omega)] at this
    exact this
  have hi2 : (wroteBits H s).io.sin.items = xs ++ tail := hi
  have hend := emitWords_end (s := emitted xs tail n (wroteBits H s)) (tail := tail) rfl (by exact he)
  rw [hi2, hn, hend, Res.andThen_ok]
  have hpp : ((emitted xs tail n (wroteBits H s)).setSin tail.tail).pathAt 256 = some (pathBits s.ses.path 256) :=
    pathBits_of_hasPath hpe
  rw [hpp]
  simp only
  rw [writePath, putBits_ok (by
    show Takes (roomLeft (roomLeft s.io.bout.room H.length) (wordBits s.ses.path xs).length) _
    rw [roomLeft_roomLeft]; exact hr.right)]
  have h3 : outBitsPlus n (pathBits s.ses.path 256).length =
      BitVec.ofNat 64 (H.length + ((wordBits s.ses.path xs).length + (pathBits s.ses.path 256).length)) := by
    have := outBitsPlus_outBitsPlus 0 (H.length + (wordBits s.ses.path xs).length) (pathBits s.ses.path 256).length
      (by show 0 + _ + _ < _; omega)
    rw [outBitsPlus_zero_left _ (by omega), outBitsPlus_zero_left _ (by omega)] at this
    rw [hn2, this, Nat.add_assoc]
  unfold wroteBits emitted addOutBits
  simp only [State.setOutBits, State.sendBout, State.setSin, roomLeft_roomLeft, List.append_assoc, h3, Nat.add_assoc]

/-- EmitStream() up to its words (R217): the header is written, then every word's path. -/
theorem emitStream_words {s : State} {t : CodeTree} {xs tail : List SymVal} (ht : IsTree s.ses.node s.ses.root t)
    (hl : t.Legal) (hb : s.ses.treeBits = BitVec.ofNat 32 t.bits.length) (hi : s.io.sin.items = xs ++ tail)
    (hx : AllWords xs) (hp : ∀ x ∈ xs, HasPath s.ses.path x.toNat)
    (hr : Takes s.io.bout.room
      (headerField s.build s.status.hdrsel s.ses.freq t ++ wordBits s.ses.path xs).length) :
    ∃ u : State, u.status = s.status ∧ u.ses.path = s.ses.path ∧
      u.io.sin = { s.io.sin with items := tail } ∧
      u.io.bout = ⟨s.io.bout.sent ++ (headerField s.build s.status.hdrsel s.ses.freq t ++ wordBits s.ses.path xs),
        roomLeft s.io.bout.room
          (headerField s.build s.status.hdrsel s.ses.freq t ++ wordBits s.ses.path xs).length, s.io.bout.held⟩ ∧
      emitStream s = (emitWords tail u).andThen fun _ s =>
        match s.pathAt 256 with
        | none => .stuck .unreadableEntry
        | some p => writePath p s := by
  rw [emitStream, headerStream_of_isTree ht hl.depth_lt_fuel hb]
  generalize headerField s.build s.status.hdrsel s.ses.freq t = H at *
  rw [List.length_append] at hr
  obtain ⟨n, hn, -⟩ := emitWords_words xs tail (wroteBits H s) hi hx hp hr.right
  refine ⟨emitted xs tail n (wroteBits H s), rfl, rfl, rfl, ?_, ?_⟩
  · simp [emitted, wroteBits, addOutBits, State.setOutBits, State.sendBout, roomLeft_roomLeft]
  · simp only
    rw [putBits_ok hr.left, Res.andThen_ok]
    have hi2 : (wroteBits H s).io.sin.items = xs ++ tail := hi
    rw [hi2]
    exact congrArg (Res.andThen · _) hn

/-- EmitStream() on a host that takes only a beginning of the header and the words' paths, or of the whole stream
(R217, 70_reset_and_hazards.md R286): it writes that beginning and waits. -/
theorem emitStream_full {s : State} {t : CodeTree} {xs tail : List SymVal} {r : Nat} {B : Bits}
    (ht : IsTree s.ses.node s.ses.root t) (hl : t.Legal) (hb : s.ses.treeBits = BitVec.ofNat 32 t.bits.length)
    (hi : s.io.sin.items = xs ++ tail) (hx : AllWords xs) (hp : ∀ x ∈ xs, HasPath s.ses.path x.toNat)
    (hB : B = headerField s.build s.status.hdrsel s.ses.freq t ++ wordBits s.ses.path xs ∨
      PassEnds s.io.sin.ends tail ∧ HasPath s.ses.path 256 ∧
        B = headerField s.build s.status.hdrsel s.ses.freq t ++ dataField s.ses.path xs)
    (hr : s.io.bout.room = some r) (hlt : r < B.length) :
    ∃ u, emitStream s = .hang u ∧ u.status = s.status ∧
      u.io.bout = ⟨s.io.bout.sent ++ B.take r, some 0, s.io.bout.held⟩ := by
  by_cases hw : r < (headerField s.build s.status.hdrsel s.ses.freq t ++ wordBits s.ses.path xs).length
  · have hBr : B.take r = (headerField s.build s.status.hdrsel s.ses.freq t ++ wordBits s.ses.path xs).take r := by
      rcases hB with rfl | ⟨-, -, rfl⟩
      · rfl
      · rw [dataField, ← List.append_assoc, List.take_append_of_le_length (Nat.le_of_lt hw)]
    rw [hBr, emitStream, headerStream_of_isTree ht hl.depth_lt_fuel hb]
    clear hBr hB hlt
    generalize headerField s.build s.status.hdrsel s.ses.freq t = H at *
    simp only
    by_cases hh : r < H.length
    · rw [putBits_full hr hh]
      exact ⟨_, rfl, rfl, by rw [List.take_append_of_le_length (Nat.le_of_lt hh)]; rfl⟩
    · rw [List.length_append] at hw
      rw [putBits_ok (by intro r' hr'; rw [hr] at hr'; simp only [Option.some.injEq] at hr'; omega), Res.andThen_ok]
      obtain ⟨u, hu, hs, hb⟩ := emitWords_full xs tail (wroteBits H s) (r := r - H.length) hx hp
        (by rw [wroteBits_room, hr]; rfl) (by show _ < (wordBits s.ses.path xs).length; omega)
      have hi2 : (wroteBits H s).io.sin.items = xs ++ tail := hi
      rw [hi2, hu]
      refine ⟨u, rfl, hs, ?_⟩
      rw [hb, List.take_append, List.take_of_length_le (i := r) (by omega)]
      simp [wroteBits, addOutBits, State.setOutBits, State.sendBout]
  · rcases hB with rfl | ⟨he, hpe, rfl⟩
    · exact absurd hlt hw
    · obtain ⟨v, h1, h2, h3, h4, h5⟩ := emitStream_words ht hl hb hi hx hp
        (by intro r' hr'; rw [hr] at hr'; simp only [Option.some.injEq] at hr'; omega)
      rw [h5, emitWords_end (by rw [h3]) (by rw [h3]; exact he), Res.andThen_ok]
      have hpp : (v.setSin tail.tail).pathAt 256 = some (pathBits s.ses.path 256) := by
        rw [State.pathAt, State.setSin_ses, h2]; exact pathBits_of_hasPath hpe
      rw [hpp]
      simp only
      rw [dataField, ← List.append_assoc] at hlt ⊢
      generalize headerField s.build s.status.hdrsel s.ses.freq t ++ wordBits s.ses.path xs = W at *
      rw [List.length_append] at hlt
      rw [writePath, putBits_full (r := r - W.length) (by rw [State.setSin_io, h4, hr]; rfl) (by omega)]
      refine ⟨_, rfl, h1, ?_⟩
      simp only [addOutBits_io, State.sendBout_io, State.setSin_io, h4]
      rw [List.take_append, List.take_of_length_le (i := r) (by omega)]
      simp

/-- An item 257..511 in the stream (R217). -/
theorem emitWords_bad (y : SymVal) (more : List SymVal) (s : State) (hy : 256 < y.toNat) :
    emitWords (y :: more) s = .raise .invalidArgument (s.setSin more) := by
  have hp : y ≠ pseudoEof := by rintro rfl; simp [pseudoEof] at hy
  have : ¬ y.toNat ≤ 255 := by omega
  simp [emitWords, hp, isDataSymbol, this]

/-- A data word without a path in the stream (R217). -/
theorem emitWords_unknown (y : SymVal) (more : List SymVal) (s : State) (hy : y.toNat ≤ 255)
    (hn : ¬ HasPath s.ses.path y.toNat) : emitWords (y :: more) s = .raise .preconditionViolation (s.setSin more) := by
  have hp : y ≠ pseudoEof := by rintro rfl; simp [pseudoEof] at hy
  have : (s.setSin more).pathAt y.toNat = none := by
    have := hn
    unfold HasPath at this
    rw [State.pathAt]; simpa using this
  simp [emitWords, hp, isDataSymbol, hy, this]

end Sys2Proof.Machine
end

