-- ==== Sys2Proof/Laws/Decoder.lean ====
section
/-! SUPPORT. The decoder: the frequency table of a header (46_stream_decoder.md R233), the walk over one codeword, over
many, and over data that ends too early (R235). -/

namespace Sys2Proof.Machine

/-- The symbols of `ks` get the counts `c`. -/
def setCounts (c : Nat → Count) (ks : List Nat) (f : Vector Count 256) : Vector Count 256 :=
  ks.foldl (fun f k => f.setIfInBounds k (c k)) f

/-- The counts of a frequency table the stream starts with (R233). -/
theorem readCounts_bits (c : Nat → Count) (ks : List Nat) (rest : Bits) (s : State)
    (h : s.io.bin.items = ks.flatMap (fun k => bitsOf (c k)) ++ rest) :
    readCounts ks s = .ok () { s with
      ses := { s.ses with freq := setCounts c ks s.ses.freq }
      io := { s.io with bin := { s.io.bin with items := rest } } } := by
  induction ks generalizing s with
  | nil =>
    simp only [List.flatMap_nil, List.nil_append] at h
    simp [readCounts, setCounts, ← h]
  | cons k ks ih =>
    rw [List.flatMap_cons, List.append_assoc] at h
    rw [readCounts, readBits_got (c k) _ _ h, Res.andThen_ok, fieldCount, Res.andThen_ok, ih _ rfl]
    rfl

/-- A frequency table that is cut short is TruncatedStream (R233, 60_exceptions.md R261). -/
theorem readCounts_short (ks : List Nat) (s : State) (h : s.io.bin.items.length < 32 * ks.length)
    (he : s.io.bin.ends = true) :
    ∃ f, readCounts ks s = .raise .truncatedStream { s with
      ses := { s.ses with freq := f }, io := { s.io with bin := { s.io.bin with items := [] } } } := by
  induction ks generalizing s with
  | nil => simp at h
  | cons k ks ih =>
    rcases readBits_cases 32 .truncatedStream s with ⟨v, rest, hb, hr⟩ | ⟨-, -, hr⟩ | ⟨-, hf, -⟩
    · rw [readCounts, hr, Res.andThen_ok, fieldCount, Res.andThen_ok]
      have hlen : rest.length < 32 * ks.length := by
        rw [hb, List.length_append, bitsOf_length, List.length_cons] at h; omega
      obtain ⟨f, hf⟩ := ih ((s.setBin rest).setFreq k v) hlen he
      exact ⟨f, by rw [hf]; rfl⟩
    · exact ⟨s.ses.freq, by rw [readCounts, hr]; rfl⟩
    · rw [he] at hf; cases hf

/-- A frequency table on a stream that just stops (R233, 70_reset_and_hazards.md R286): a wait. -/
theorem readCounts_starved (ks : List Nat) (s : State) (h : s.io.bin.items.length < 32 * ks.length)
    (he : s.io.bin.ends = false) : ∃ f, readCounts ks s = .hang ((s.setFreqs f).setBin []) := by
  induction ks generalizing s with
  | nil => simp at h
  | cons k ks ih =>
    rcases readBits_cases 32 .truncatedStream s with ⟨v, rest, hb, hr⟩ | ⟨-, hf, -⟩ | ⟨-, -, hr⟩
    · rw [readCounts, hr, Res.andThen_ok, fieldCount, Res.andThen_ok]
      have hlen : rest.length < 32 * ks.length := by
        rw [hb, List.length_append, bitsOf_length, List.length_cons] at h; omega
      obtain ⟨f, hf⟩ := ih ((s.setBin rest).setFreq k v) hlen he
      exact ⟨f, by rw [hf]; rfl⟩
    · rw [he] at hf; cases hf
    · exact ⟨s.ses.freq, by rw [readCounts, hr]; rfl⟩

/-- Everything the read of a frequency table can do (R233). -/
theorem readCounts_cases (ks : List Nat) (s : State) :
    ∃ f rest, readCounts ks s = .ok () ((s.setBin rest).setFreqs f) ∨
      readCounts ks s = .raise .truncatedStream ((s.setBin rest).setFreqs f) ∨
      readCounts ks s = .hang ((s.setBin rest).setFreqs f) := by
  induction ks generalizing s with
  | nil => exact ⟨s.ses.freq, s.io.bin.items, Or.inl rfl⟩
  | cons k ks ih =>
    rcases readBits_cases 32 .truncatedStream s with ⟨v, rest, -, hr⟩ | ⟨-, -, hr⟩ | ⟨-, -, hr⟩
    · obtain ⟨f, rest', h⟩ := ih ((s.setBin rest).setFreq k v)
      refine ⟨f, rest', ?_⟩
      rw [readCounts, hr, Res.andThen_ok, fieldCount, Res.andThen_ok]
      rcases h with h | h | h
      · exact Or.inl (by rw [h]; rfl)
      · exact Or.inr (Or.inl (by rw [h]; rfl))
      · exact Or.inr (Or.inr (by rw [h]; rfl))
    · exact ⟨s.ses.freq, [], Or.inr (Or.inl (by rw [readCounts, hr]; rfl))⟩
    · exact ⟨s.ses.freq, [], Or.inr (Or.inr (by rw [readCounts, hr]; rfl))⟩

theorem setCounts_get (c : Nat → Count) (n : Nat) (f : Vector Count 256) (k : Nat) (hk : k < 256) :
    (setCounts c (List.range n) f)[k]? = if k < n then some (c k) else f[k]? := by
  induction n with
  | zero => simp [setCounts]
  | succ n ih =>
    have : setCounts c (List.range (n + 1)) f = (setCounts c (List.range n) f).setIfInBounds n (c n) := by
      simp [setCounts, List.range_succ]
    rw [this, Vector.getElem?_setIfInBounds, ih]
    by_cases h : n = k
    · subst h; simp [hk]
    · simp only [h, if_false]
      by_cases h2 : k < n
      · simp [h2, Nat.lt_succ_of_lt h2]
      · simp [h2]; omega

/-- A table written out in symbol order is the table (30_encoding.md R98 row 3a). -/
theorem setCounts_all (f g : Vector Count 256) : setCounts (fun k => (f[k]?).getD 0) (List.range 256) g = f := by
  ext k hk
  have h := setCounts_get (fun k => (f[k]?).getD 0) 256 g k hk
  rw [if_pos hk, Vector.getElem?_eq_getElem hk] at h
  simp only [Option.some.injEq] at h
  rw [h, Vector.getElem?_eq_getElem hk]
  rfl

theorem toList_eq_map (f : Vector Count 256) : f.toList = (List.range 256).map fun k => (f[k]?).getD 0 := by
  apply List.ext_getElem?
  intro k
  by_cases hk : k < 256
  · rw [List.getElem?_map, List.getElem?_range hk, Vector.getElem?_toList]
    simp [hk]
  · simp [hk]

/-- The bits of a frequency table, count by count (R98 row 3a). -/
theorem countBits (f : Vector Count 256) :
    f.toList.flatMap bitsOf = (List.range 256).flatMap fun k => bitsOf ((f[k]?).getD 0) := by
  rw [toList_eq_map, List.flatMap_map]

/-- CheckRoot() on a tree (R237). -/
theorem checkRoot_of_isTree {s : State} {t : CodeTree} (h : IsTree s.ses.node s.ses.root t)
    (hr : 1 < t.leaves ∨ pseudoEof ∈ t.syms) : checkRoot s = .ok () s := by
  cases t with
  | leaf y w =>
    unfold IsTree at h
    have : y = pseudoEof := by
      rcases hr with hr | hr
      · simp [CodeTree.leaves] at hr
      · simpa [CodeTree.syms, eq_comm] using hr
    simp [checkRoot, State.nodeAt, h, this]
  | internal w l r =>
    obtain ⟨a, b, hn, -, -⟩ := h
    simp [checkRoot, State.nodeAt, hn]

theorem checkRoot_dataLeaf {s : State} {y : SymVal} {w : Weight} (h : IsTree s.ses.node s.ses.root (.leaf y w))
    (hy : y ≠ pseudoEof) : checkRoot s = .raise .corruptFormat s := by
  unfold IsTree at h
  simp [checkRoot, State.nodeAt, h, hy]

theorem CodeTree.one_lt_leaves (w : Weight) (l r : CodeTree) : 1 < (CodeTree.internal w l r).leaves := by
  have := l.leaves_pos; have := r.leaves_pos; simp only [CodeTree.leaves]; omega

/-- An arena that holds a tree of more than one leaf has an internal node at its root. -/
theorem IsTree.internal_root {node : List Node} {i : Idx} {t : CodeTree} (h : IsTree node i t) (hl : 1 < t.leaves) :
    ∃ w l r tl tr, t = .internal w tl tr ∧ node[i.toNat]? = some (.internal w l r) ∧ IsTree node l tl ∧
      IsTree node r tr := by
  cases t with
  | leaf => simp [CodeTree.leaves] at hl
  | internal w tl tr =>
    obtain ⟨l, r, hn, ha, hb⟩ := h
    exact ⟨w, l, r, tl, tr, rfl, hn, ha, hb⟩

/-- The walk over one codeword (R235): the cursor goes down to its leaf; PSEUDO_EOF ends the walk; any other word is
written and the cursor goes back to the root. -/
theorem walkBits_word (u : CodeTree) (p rest : Bits) (sym : SymVal) (w : Weight) (s : State)
    (hu : IsTree s.ses.node s.ses.cur u) (hp : u.follow p = some (.leaf sym w)) (hne : p ≠ []) :
    ∃ i, s.ses.node[i.toNat]? = some (.leaf sym w) ∧ walkBits (p ++ rest) s =
      if sym = pseudoEof then .ok () ((s.setBin rest).setCur i)
      else ((writeWord (sym.setWidth 8) ((s.setBin rest).setCur i)).andThen fun _ s => backToRoot s).andThen
        fun _ s => walkBits rest s := by
  induction p generalizing u s with
  | nil => exact absurd rfl hne
  | cons b p ih =>
    cases u with
    | leaf y v => simp [CodeTree.follow] at hp
    | internal v ul ur =>
      obtain ⟨l, r, hn, hl, hr⟩ := hu
      have hsub : ∃ sub, IsTree s.ses.node (if b then r else l) sub ∧ sub.follow p = some (.leaf sym w) := by
        cases b
        · exact ⟨ul, by simpa using hl, by simpa [CodeTree.follow] using hp⟩
        · exact ⟨ur, by simpa using hr, by simpa [CodeTree.follow] using hp⟩
      obtain ⟨sub, hs, hf⟩ := hsub
      rw [List.cons_append, walkBits]
      simp only [State.nodeAt, hn, State.setCur_ses, State.setBin_ses]
      cases p with
      | nil =>
        simp only [CodeTree.follow, Option.some.injEq] at hf
        subst hf
        unfold IsTree at hs
        refine ⟨_, hs, ?_⟩
        simp only [hs, List.nil_append]
      | cons b' p =>
        cases sub with
        | leaf y v' => simp [CodeTree.follow] at hf
        | internal v' sl sr =>
          obtain ⟨a', c', hn', hl', hr'⟩ := hs
          simp only [hn']
          obtain ⟨i, hi, hw⟩ := ih (.internal v' sl sr)
            ((s.setBin (b' :: p ++ rest)).setCur (if b then r else l)) ⟨a', c', hn', hl', hr'⟩ hf (by simp)
          exact ⟨i, hi, by rw [hw]; rfl⟩

/-- The walk over data that ends on an internal node (R235): TruncatedStream where the stream ends, a wait where it just
stops. -/
theorem walkBits_cut (u sub : CodeTree) (p : Bits) (s : State) (hu : IsTree s.ses.node s.ses.cur u)
    (hp : u.follow p = some sub) (hl : 1 < sub.leaves) (hi : s.io.bin.items = p) :
    ∃ i, walkBits p s = if s.io.bin.ends then .raise .truncatedStream ((s.setBin []).setCur i)
      else .hang ((s.setBin []).setCur i) := by
  induction p generalizing u s with
  | nil =>
    refine ⟨s.ses.cur, ?_⟩
    have h1 : (s.setBin []).setCur s.ses.cur = s := by rw [State.setBin_self hi]; rfl
    rw [walkBits, h1]
  | cons b p ih =>
    cases u with
    | leaf y v => simp [CodeTree.follow] at hp
    | internal v ul ur =>
      obtain ⟨l, r, hn, hl', hr'⟩ := hu
      have hsub : ∃ sub', IsTree s.ses.node (if b then r else l) sub' ∧ sub'.follow p = some sub := by
        cases b
        · exact ⟨ul, by simpa using hl', by simpa [CodeTree.follow] using hp⟩
        · exact ⟨ur, by simpa using hr', by simpa [CodeTree.follow] using hp⟩
      obtain ⟨sub', hs, hf⟩ := hsub
      have hint : 1 < sub'.leaves := by
        cases sub' with
        | leaf y v' =>
          cases p with
          | nil => simp only [CodeTree.follow, Option.some.injEq] at hf; rw [hf]; exact hl
          | cons b' p => simp [CodeTree.follow] at hf
        | internal v' a c => exact CodeTree.one_lt_leaves v' a c
      obtain ⟨w', l', r', tl', tr', -, hn', -, -⟩ := hs.internal_root hint
      rw [walkBits]
      simp only [State.nodeAt, hn, State.setCur_ses, State.setBin_ses, hn']
      obtain ⟨i, h⟩ := ih sub' ((s.setBin p).setCur (if b then r else l)) hs hf rfl
      exact ⟨i, by rw [h]; rfl⟩

/-- The words of a list, as SOUT carries them (20_memory.md R61). -/
def outWords (xs : List SymVal) : List (BitVec 8) := xs.map fun x => x.setWidth 8

/-- The walk over the codewords of data words (R235): they are written, and the cursor is back at the root. -/
theorem walkBits_words (t : CodeTree) (xs : List SymVal) (rest : Bits) (s : State) (ht : IsTree s.ses.node s.ses.root t)
    (hl : 1 < t.leaves) (hc : s.ses.cur = s.ses.root) (hx : AllWords xs)
    (hp : ∀ x ∈ xs, HasPath t.pathTable x.toNat) (hr : Takes s.io.sout.room xs.length)
    (hi : s.io.bin.items = wordBits t.pathTable xs ++ rest) :
    ∃ n, walkBits (wordBits t.pathTable xs ++ rest) s = walkBits rest { s with
        ses := { s.ses with outBits := n }
        io := { s.io with
          bin := { s.io.bin with items := rest }
          sout := { s.io.sout with
            sent := s.io.sout.sent ++ outWords xs, room := roomLeft s.io.sout.room xs.length } } } ∧
      (s.ses.outBits.toNat + 8 * xs.length < 2 ^ 64 → n = outBitsPlus s.ses.outBits (8 * xs.length)) := by
  induction xs generalizing s with
  | nil =>
    simp only [wordBits_nil, List.nil_append] at hi
    refine ⟨s.ses.outBits, ?_, by simp⟩
    simp [outWords, ← hi]
  | cons x xs ih =>
    have hx0 : x.toNat ≤ 255 := hx x List.mem_cons_self
    have hpe : x ≠ pseudoEof := by intro hc; rw [hc] at hx0; simp [pseudoEof] at hx0
    obtain ⟨w, hf⟩ := pathBits_follow (hp x List.mem_cons_self)
    have hne : pathBits t.pathTable x.toNat ≠ [] := by
      intro h0
      rw [h0] at hf
      simp only [CodeTree.follow, Option.some.injEq] at hf
      rw [hf] at hl; simp [CodeTree.leaves] at hl
    have hr1 : Takes s.io.sout.room (1 + xs.length) := by
      rw [Nat.add_comm]; exact hr
    have htc : IsTree s.ses.node s.ses.cur t := by rw [hc]; exact ht
    obtain ⟨i, -, hw⟩ := walkBits_word t (pathBits t.pathTable x.toNat) (wordBits t.pathTable xs ++ rest) x w s htc hf hne
    obtain ⟨w', l', r', tl', tr', -, hn', -, -⟩ := ht.internal_root hl
    have hback : backToRoot (wroteWords [x.setWidth 8] ((s.setBin (wordBits t.pathTable xs ++ rest)).setCur i)) =
        .ok () ((wroteWords [x.setWidth 8] ((s.setBin (wordBits t.pathTable xs ++ rest)).setCur i)).setCur
          s.ses.root) := by
      simp [backToRoot, State.nodeAt, hn']
    obtain ⟨n, hn, hb⟩ := ih ((wroteWords [x.setWidth 8] ((s.setBin (wordBits t.pathTable xs ++ rest)).setCur i)).setCur
          s.ses.root) ht rfl (fun y hy => hx y (List.mem_cons_of_mem _ hy))
          (fun y hy => hp y (List.mem_cons_of_mem _ hy)) (by exact hr1.right) rfl
    refine ⟨n, ?_, ?_⟩
    · rw [wordBits_cons, List.append_assoc, hw, if_neg hpe, writeWord_ok (by exact hr1.left), Res.andThen_ok, hback,
        Res.andThen_ok, hn]
      simp only [wroteWords, addOutBits, State.setOutBits, State.sendSout, State.setBin, State.setCur, roomLeft_roomLeft,
        outWords, List.map_cons, List.length_cons, List.length_nil, List.append_assoc, List.singleton_append, hc]
      rw [Nat.add_comm (0 + 1) xs.length]
    · intro hlt
      simp only [List.length_cons] at hlt ⊢
      have h1 : (outBitsPlus s.ses.outBits 8).toNat = s.ses.outBits.toNat + 8 := by
        rw [outBitsPlus, if_pos (by omega), BitVec.toNat_add, BitVec.toNat_ofNat]; omega
      rw [hb (by
        show (outBitsPlus s.ses.outBits (8 * 1)).toNat + 8 * xs.length < 2 ^ 64
        rw [Nat.mul_one, h1]; omega)]
      show outBitsPlus (outBitsPlus s.ses.outBits (8 * 1)) (8 * xs.length) = _
      rw [outBitsPlus_outBitsPlus _ _ _ (by omega)]
      congr 1; omega

/-- Walk() over the codewords of data words and of PSEUDO_EOF (R235, 30_encoding.md R104): the words are written, the
cursor stays on the PSEUDO_EOF leaf, and the bits behind stay. -/
theorem walk_data (t : CodeTree) (xs : List SymVal) (rest : Bits) (s : State) (ht : IsTree s.ses.node s.ses.root t)
    (hx : AllWords xs) (hp : ∀ x ∈ xs, HasPath t.pathTable x.toNat) (he : HasPath t.pathTable 256)
    (hr : Takes s.io.sout.room xs.length) (hi : s.io.bin.items = dataField t.pathTable xs ++ rest) :
    ∃ n i w, walk s = .ok () { s with
        ses := { s.ses with outBits := n, cur := i }
        io := { s.io with
          bin := { s.io.bin with items := rest }
          sout := { s.io.sout with
            sent := s.io.sout.sent ++ outWords xs, room := roomLeft s.io.sout.room xs.length } } } ∧
      s.ses.node[i.toNat]? = some (.leaf pseudoEof w) ∧
      (s.ses.outBits.toNat + 8 * xs.length < 2 ^ 64 → n = outBitsPlus s.ses.outBits (8 * xs.length)) := by
  have hpe : HasPath t.pathTable pseudoEof.toNat := he
  obtain ⟨w, hf⟩ := pathBits_follow hpe
  by_cases hl : 1 < t.leaves
  · obtain ⟨w', l', r', tl', tr', -, hn', -, -⟩ := ht.internal_root hl
    rw [dataField, List.append_assoc] at hi
    obtain ⟨n, hn, hb⟩ := walkBits_words t xs (pathBits t.pathTable 256 ++ rest) (s.setCur s.ses.root) ht hl rfl hx hp hr hi
    have hne : pathBits t.pathTable pseudoEof.toNat ≠ [] := by
      intro h0
      rw [h0] at hf
      simp only [CodeTree.follow, Option.some.injEq] at hf
      rw [hf] at hl; simp [CodeTree.leaves] at hl
    obtain ⟨i, hi', hw⟩ := walkBits_word t (pathBits t.pathTable pseudoEof.toNat) rest pseudoEof w
      { s.setCur s.ses.root with
        ses := { (s.setCur s.ses.root).ses with outBits := n }
        io := { (s.setCur s.ses.root).io with
          bin := { (s.setCur s.ses.root).io.bin with items := pathBits t.pathTable 256 ++ rest }
          sout := { (s.setCur s.ses.root).io.sout with
            sent := (s.setCur s.ses.root).io.sout.sent ++ outWords xs
            room := roomLeft (s.setCur s.ses.root).io.sout.room xs.length } } } ht hf hne
    refine ⟨n, i, w, ?_, hi', hb⟩
    rw [walk]
    simp only [State.nodeAt, State.setCur_ses, hn', State.setCur_io, hi]
    rw [hn]
    refine hw.trans ?_
    rw [if_pos rfl]
    rfl
  · cases t with
    | internal w' a b => exact absurd (CodeTree.one_lt_leaves w' a b) hl
    | leaf y w' =>
      have hy : y = pseudoEof ∧ w' = w := by
        have h0 := CodeTree.follow_length hf
        simp only [CodeTree.depth, Nat.le_zero, List.length_eq_zero_iff] at h0
        rw [h0] at hf
        simpa [CodeTree.follow] using hf
      obtain ⟨rfl, rfl⟩ := hy
      have hnil : xs = [] := by
        cases xs with
        | nil => rfl
        | cons x xs =>
          obtain ⟨w2, hf2⟩ := pathBits_follow (hp x List.mem_cons_self)
          have h0 := CodeTree.follow_length hf2
          simp only [CodeTree.depth, Nat.le_zero, List.length_eq_zero_iff] at h0
          rw [h0] at hf2
          simp only [CodeTree.follow, Option.some.injEq, CodeTree.leaf.injEq] at hf2
          have := hx x List.mem_cons_self
          rw [← hf2.1] at this
          simp [pseudoEof] at this
      subst hnil
      have hbits : pathBits (CodeTree.leaf pseudoEof w').pathTable 256 = [] := by
        have h0 := CodeTree.follow_length hf
        simp only [CodeTree.depth, Nat.le_zero, List.length_eq_zero_iff] at h0
        exact h0
      unfold IsTree at ht
      refine ⟨s.ses.outBits, s.ses.root, w', ?_, ht, by simp⟩
      simp only [dataField, wordBits_nil, List.nil_append, hbits] at hi
      rw [walk]
      simp only [State.nodeAt, State.setCur_ses, ht, if_true]
      simp [State.setCur, outWords, ← hi]

/-- Walk() over data words in a tree of more than one leaf (R235): they are written and the walk goes on at the root. -/
theorem walk_words (t : CodeTree) (xs : List SymVal) (rest : Bits) (s : State) (ht : IsTree s.ses.node s.ses.root t)
    (hl : 1 < t.leaves) (hx : AllWords xs) (hp : ∀ x ∈ xs, HasPath t.pathTable x.toNat)
    (hr : Takes s.io.sout.room xs.length) (hi : s.io.bin.items = wordBits t.pathTable xs ++ rest) :
    ∃ u : State, u.status = s.status ∧ u.ses.node = s.ses.node ∧ u.ses.root = s.ses.root ∧ u.ses.cur = s.ses.root ∧
      u.io = { s.io with
        bin := { s.io.bin with items := rest }
        sout := ⟨s.io.sout.sent ++ outWords xs, roomLeft s.io.sout.room xs.length, s.io.sout.held⟩ } ∧
      walk s = walkBits rest u := by
  obtain ⟨w', l', r', tl', tr', -, hn', -, -⟩ := ht.internal_root hl
  obtain ⟨n, hn, -⟩ := walkBits_words t xs rest (s.setCur s.ses.root) ht hl rfl hx hp hr hi
  refine ⟨?s, ?_, ?_, ?_, ?_, ?_, ?run⟩
  case run =>
    rw [walk]
    simp only [State.nodeAt, State.setCur_ses, hn', State.setCur_io, hi]
    exact hn
  all_goals rfl

/-- Walk() over data that ends on an internal node, behind data words (R235): TruncatedStream where the stream ends, a
wait where it just stops. -/
theorem walk_cut (t sub : CodeTree) (xs : List SymVal) (p : Bits) (s : State) (ht : IsTree s.ses.node s.ses.root t)
    (hx : AllWords xs) (hp : ∀ x ∈ xs, HasPath t.pathTable x.toNat) (hf : t.follow p = some sub) (hs : 1 < sub.leaves)
    (hr : Takes s.io.sout.room xs.length) (hi : s.io.bin.items = wordBits t.pathTable xs ++ p) :
    ∃ u : State, u.status = s.status ∧ u.io = { s.io with
        bin := { s.io.bin with items := [] }
        sout := ⟨s.io.sout.sent ++ outWords xs, roomLeft s.io.sout.room xs.length, s.io.sout.held⟩ } ∧
      walk s = if s.io.bin.ends then .raise .truncatedStream u else .hang u := by
  have hl : 1 < t.leaves := by
    cases t with
    | internal w a b => exact CodeTree.one_lt_leaves _ _ _
    | leaf y w =>
      cases p with
      | nil => simp only [CodeTree.follow, Option.some.injEq] at hf; rw [hf]; exact hs
      | cons => simp [CodeTree.follow] at hf
  obtain ⟨v, h1, h2, h3, h4, h5, hw⟩ := walk_words t xs p s ht hl hx hp hr hi
  obtain ⟨i, hc⟩ := walkBits_cut t sub p v (by rw [h2, h4]; exact ht) hf hs (by rw [h5])
  rw [hw, hc, h5]
  exact ⟨(v.setBin []).setCur i, h1, by rw [State.setCur_io, State.setBin_io, h5], rfl⟩

/-- Walk() on a host that takes fewer words than the data has (R235, 70_reset_and_hazards.md R286): it takes those, and
the walk waits. -/
theorem walk_full (t : CodeTree) (xs : List SymVal) (rest : Bits) (s : State) {r : Nat}
    (ht : IsTree s.ses.node s.ses.root t) (hl : 1 < t.leaves) (hx : AllWords xs)
    (hp : ∀ x ∈ xs, HasPath t.pathTable x.toNat) (hr : s.io.sout.room = some r) (hlt : r < xs.length)
    (hi : s.io.bin.items = wordBits t.pathTable xs ++ rest) :
    ∃ u : State, walk s = .hang u ∧ u.status = s.status ∧
      u.io.sout = ⟨s.io.sout.sent ++ outWords (xs.take r), some 0, s.io.sout.held⟩ := by
  obtain ⟨x, hxr⟩ : ∃ x, xs = xs.take r ++ x :: xs.drop (r + 1) :=
    ⟨xs[r], by rw [← List.drop_eq_getElem_cons hlt, List.take_append_drop]⟩
  have hmem : x ∈ xs := by rw [hxr]; simp
  have hx0 : x.toNat ≤ 255 := hx x hmem
  have hpe : x ≠ pseudoEof := by intro hc; rw [hc] at hx0; simp [pseudoEof] at hx0
  have hlen : (xs.take r).length = r := by simp; omega
  obtain ⟨v, h1, h2, h3, h4, h5, hw⟩ := walk_words t (xs.take r)
    (pathBits t.pathTable x.toNat ++ (wordBits t.pathTable (xs.drop (r + 1)) ++ rest)) s ht hl
    (fun y hy => hx y (List.mem_of_mem_take hy)) (fun y hy => hp y (List.mem_of_mem_take hy))
    (by intro r' hr'; rw [hr] at hr'; simp only [Option.some.injEq] at hr'; omega)
    (by rw [hi]; conv_lhs => rw [hxr]
        simp [wordBits])
  obtain ⟨w, hf⟩ := pathBits_follow (hp x hmem)
  have hne : pathBits t.pathTable x.toNat ≠ [] := by
    intro h0
    rw [h0] at hf
    simp only [CodeTree.follow, Option.some.injEq] at hf
    rw [hf] at hl; simp [CodeTree.leaves] at hl
  obtain ⟨i, -, hb⟩ := walkBits_word t (pathBits t.pathTable x.toNat)
    (wordBits t.pathTable (xs.drop (r + 1)) ++ rest) x w v (by rw [h2, h4]; exact ht) hf hne
  rw [hw, hb, if_neg hpe, writeWord_full _ (by
    simp only [State.setCur_io, State.setBin_io, h5, hr, hlen]
    simp [roomLeft])]
  refine ⟨_, rfl, h1, ?_⟩
  simp [h5, hr, hlen, roomLeft]

/-- A walk that ends leaves CUR on an allocated entry (R235, 10_state.md R22). -/
theorem walkBits_cur {bs : Bits} {s u : State} (h : walkBits bs s = .ok () u) : ∃ n, u.nodeAt u.ses.cur = some n := by
  induction bs generalizing s with
  | nil => unfold walkBits at h; split at h <;> cases h
  | cons b rest ih =>
    unfold walkBits at h
    split at h
    · simp only at h
      split at h
      · cases h
      · exact ih h
      · rename_i sym w hn
        split at h
        · simp only [Res.ok.injEq, true_and] at h
          rw [← h]
          exact ⟨_, hn⟩
        · obtain ⟨_, v, -, hv⟩ := Res.andThen_eq_ok.1 h
          exact ih hv
    · cases h

theorem walk_cur {s u : State} (h : walk s = .ok () u) : ∃ n, u.nodeAt u.ses.cur = some n := by
  unfold walk at h
  simp only at h
  split at h
  · cases h
  · rename_i sym w hn
    split at h
    · simp only [Res.ok.injEq, true_and] at h
      rw [← h]
      exact ⟨_, hn⟩
    · cases h
  · exact walkBits_cur h

/-- StepMagic() on the magic field (46_stream_decoder.md R231). -/
theorem stepMagic_ok {S : State} {X : Bits} (h : S.io.bin.items = bitsOf S.build.magic ++ X) :
    stepMagic S = .ok () ((S.setBin X).setDstate .expectHeaderSelector) := by
  rw [stepMagic, readBits_got S.build.magic _ X h, Res.andThen_ok, fieldMagic, State.setBin_build, if_pos rfl]

/-- StepSelector() on each selector (R232). -/
theorem stepSelector_counts {S : State} {X : Bits} (h : S.io.bin.items = bitsOf S.build.selCounts ++ X) :
    stepSelector S = .ok () (((S.setBin X).setHdrsel false).setDstate .expectHeaderPayload) := by
  rw [stepSelector, readBits_got S.build.selCounts _ X h, Res.andThen_ok, fieldSelector, State.setBin_build, if_pos rfl]

theorem stepSelector_tree {S : State} {X : Bits} (hb : Config.legalBuild S.build = true)
    (h : S.io.bin.items = bitsOf S.build.selTree ++ X) :
    stepSelector S = .ok () (((S.setBin X).setHdrsel true).setDstate .expectHeaderPayload) := by
  have hne : S.build.selTree ≠ S.build.selCounts := by
    intro h; simp [Config.legalBuild, h] at hb
  rw [stepSelector, readBits_got S.build.selTree _ X h, Res.andThen_ok, fieldSelector, State.setBin_build, if_neg hne,
    if_pos rfl]

/-- StepPayload() on a tree payload, up to CheckRoot() (R234). -/
theorem payloadTree_run {S : State} {z : Word32} {t : CodeTree} {X : Bits} (hn : S.ses.node = []) (hl : t.Legal)
    (hi : S.io.bin.items = bitsOf z ++ t.bits ++ X) :
    ∃ S' : State, S' = { S with
        status := { S.status with treeValid := true }
        ses := { S.ses with hdrTreeBits := z, root := 0, node := t.unweighted.preOrder 0 }.derived t
        io := { S.io with bin := { S.io.bin with items := X } } } ∧
      IsTree S'.ses.node S'.ses.root t.unweighted ∧ payloadTree S = checkRoot S' := by
  have hl' := CodeTree.unweighted_legal.2 hl
  have hnode : ((S.setBin (t.bits ++ X)).setHdrTreeBits z).ses.node = [] := hn
  obtain ⟨hrd, ht⟩ := readTree_bits (s := (S.setBin (t.bits ++ X)).setHdrTreeBits z) (t := t) (rest := X)
    hl.2 hl.depth_lt_fuel (by rw [hnode]; have := hl.size_le; show 0 + _ ≤ 513; omega) rfl
  have hidx : ((S.setBin (t.bits ++ X)).setHdrTreeBits z).nextIdx = 0 := by
    simp [State.nextIdx, hn]
  rw [hidx, hnode, List.nil_append, List.length_nil] at hrd ht
  refine ⟨_, rfl, ht, ?_⟩
  rw [payloadTree, readBits_got z _ (t.bits ++ X) (by rw [hi, List.append_assoc]), Res.andThen_ok, fieldTreeSize,
    Res.andThen_ok, hrd, Res.andThen_ok, deriveTree_of_isTree (t := t.unweighted) (by exact ht) hl'.depth_lt_fuel, Res.andThen_ok]
  simp only [Session.derived, CodeTree.unweighted_size, CodeTree.unweighted_leaves, CodeTree.unweighted_pathTable]
  rfl

/-- StepPayload() on a tree payload (R234, R237). -/
theorem payloadTree_ok {S : State} {z : Word32} {t : CodeTree} {X : Bits} (hn : S.ses.node = []) (hl : t.Legal)
    (hr : 1 < t.leaves ∨ pseudoEof ∈ t.syms) (hi : S.io.bin.items = bitsOf z ++ t.bits ++ X) :
    IsTree (t.unweighted.preOrder 0) 0 t.unweighted ∧ payloadTree S = .ok () { S with
        status := { S.status with treeValid := true }
        ses := { S.ses with hdrTreeBits := z, root := 0, node := t.unweighted.preOrder 0 }.derived t
        io := { S.io with bin := { S.io.bin with items := X } } } := by
  obtain ⟨S', hS, ht, hp⟩ := payloadTree_run hn hl hi
  subst hS
  exact ⟨ht, by rw [hp, checkRoot_of_isTree ht (by simpa using hr)]⟩

/-- The tree of a frequency table has a PSEUDO_EOF leaf (43_tree_builder.md R175 (b)). -/
theorem tableTree_root (f : Vector Count 256) : 1 < (tableTree f).leaves ∨ pseudoEof ∈ (tableTree f).syms :=
  Or.inr ((tableTree_syms _ _).2 (Or.inl rfl))

/-- StepPayload() on a frequency table (R233). -/
theorem payloadCounts_ok {S : State} {f : Vector Count 256} {X : Bits}
    (hi : S.io.bin.items = f.toList.flatMap bitsOf ++ X) :
    payloadCounts S = .ok () { S with
        status := { S.status with treeValid := true }
        ses := { S.ses with freq := f, root := tableRoot f, node := tableNodes f, q := [] }.derived (tableTree f)
        io := { S.io with bin := { S.io.bin with items := X } } } := by
  rw [countBits] at hi
  have hr := readCounts_bits _ _ _ _ hi
  rw [setCounts_all] at hr
  rw [payloadCounts, hr, Res.andThen_ok, load_build, checkRoot_of_isTree (tableNodes_isTree f) (tableTree_root f)]

/-- The tree that the arena holds after a header of the tree `t`: `t` itself, or `t` with every weight 1 (R233,
44_tree_codec.md R196). Its path table and its walks are those of `t`. -/
def SameShape (u t : CodeTree) : Prop := u = t ∨ u = t.unweighted

theorem SameShape.pathTable {u t : CodeTree} (h : SameShape u t) : u.pathTable = t.pathTable := by
  rcases h with rfl | rfl <;> simp

theorem SameShape.leaves {u t : CodeTree} (h : SameShape u t) : u.leaves = t.leaves := by
  rcases h with rfl | rfl <;> simp

theorem CodeTree.follow_unweighted {t sub : CodeTree} {p : Bits} (h : t.follow p = some sub) :
    t.unweighted.follow p = some sub.unweighted := by
  induction p generalizing t with
  | nil => simp only [CodeTree.follow, Option.some.injEq] at h ⊢; rw [h]
  | cons b p ih =>
    cases t with
    | leaf => simp [CodeTree.follow] at h
    | internal w l r =>
      rw [CodeTree.unweighted]
      cases b
      · exact ih (t := l) (by simpa [CodeTree.follow] using h)
      · exact ih (t := r) (by simpa [CodeTree.follow] using h)

theorem SameShape.follow {u t sub : CodeTree} {p : Bits} (h : SameShape u t) (hf : t.follow p = some sub) :
    ∃ sub', u.follow p = some sub' ∧ sub'.leaves = sub.leaves := by
  rcases h with rfl | rfl
  · exact ⟨sub, hf, rfl⟩
  · exact ⟨_, CodeTree.follow_unweighted hf, by simp⟩

/-- The first two steps of DECODE, each selector (R231, R232). -/
theorem decodeHead_counts {S : State} {X : Bits}
    (h : S.io.bin.items = bitsOf S.build.magic ++ bitsOf S.build.selCounts ++ X) :
    ((stepMagic S).andThen fun _ s => stepSelector s) =
      .ok () (((S.setBin X).setHdrsel false).setDstate .expectHeaderPayload) := by
  rw [stepMagic_ok (X := bitsOf S.build.selCounts ++ X) (by rw [h, List.append_assoc]), Res.andThen_ok,
    stepSelector_counts (X := X) (by rfl)]
  rfl

theorem decodeHead_tree {S : State} {X : Bits} (hb : Config.legalBuild S.build = true)
    (h : S.io.bin.items = bitsOf S.build.magic ++ bitsOf S.build.selTree ++ X) :
    ((stepMagic S).andThen fun _ s => stepSelector s) =
      .ok () (((S.setBin X).setHdrsel true).setDstate .expectHeaderPayload) := by
  rw [stepMagic_ok (X := bitsOf S.build.selTree ++ X) (by rw [h, List.append_assoc]), Res.andThen_ok,
    stepSelector_tree (X := X) (by exact hb) (by rfl)]
  rfl

/-- DECODE up to its walk, on any header it accepts (R230 to R234, R237): the tree of the header is at ROOT, and of
the streams only the header has been taken. -/
theorem runDecode_header {s : State} {hdr : Bool} {H X : Bits} {t : CodeTree} (hf : s.status.fault = none)
    (hb : Config.legalBuild s.build = true) (hH : StreamHeader s.build hdr H t)
    (hr : 1 < t.leaves ∨ pseudoEof ∈ t.syms) (hi : s.io.bin.items = H ++ X) :
    ∃ (S : State) (u : CodeTree), SameShape u t ∧ IsTree S.ses.node S.ses.root u ∧
      S.status = { State.reset.status with dstate := .walking, hdrsel := hdr, treeValid := true } ∧
      S.io = { s.io with
        bin := { s.io.bin with items := X, held := true }, sout := { s.io.sout with held := true } } ∧
      runDecode s = (walk S).andThen fun _ s => .ok (okReply s.ses.outBits 0) (closeDecoder s) := by
  have hst : ∀ hdr, (((((openDecoder s).setHdrsel hdr).setDstate .expectHeaderPayload).setTreeValid true).setDstate
      .walking).status = { State.reset.status with dstate := .walking, hdrsel := hdr, treeValid := true } := by
    intro hdr
    simp only [openDecoder, acquireSout_status, acquireBin_status, State.setOutBits_status, State.setDstate_status,
      State.setHdrsel_status, State.setTreeValid_status, sessionInit_status, hf]
    rfl
  have hrun : runDecode s = ((stepMagic (openDecoder s)).andThen fun _ s => stepSelector s).andThen fun _ s =>
      (stepPayload s).andThen fun _ s => (walk (s.setDstate .walking)).andThen fun _ s =>
      .ok (okReply s.ses.outBits 0) (closeDecoder s) := by
    rw [Res.andThen_assoc]; rfl
  cases hH with
  | tree z t hl =>
    obtain ⟨ht, hp⟩ := payloadTree_ok (S := (((openDecoder s).setBin (bitsOf z ++ t.bits ++ X)).setHdrsel true).setDstate
      .expectHeaderPayload) (X := X) rfl hl hr rfl
    refine ⟨?s, t.unweighted, Or.inr rfl, ?_, ?_, ?_, ?run⟩
    case run =>
      rw [hrun, decodeHead_tree (by exact hb) (X := bitsOf z ++ t.bits ++ X) (by
        show s.io.bin.items = _; rw [hi]; simp only [List.append_assoc]; rfl), Res.andThen_ok, stepPayload]
      simp only [State.setDstate_status, State.setHdrsel_status, if_true]
      rw [hp, Res.andThen_ok]
    · exact ht
    · exact hst true
    · rfl
  | counts f t hm =>
    obtain rfl : tableTree f = t := by rw [tableTree_merge] at hm; simpa using hm
    have hp := payloadCounts_ok (S := (((openDecoder s).setBin
      (f.toList.flatMap bitsOf ++ X)).setHdrsel false).setDstate .expectHeaderPayload) (f := f) (X := X) rfl
    refine ⟨?s2, tableTree f, Or.inl rfl, ?_, ?_, ?_, ?run2⟩
    case run2 =>
      rw [hrun, decodeHead_counts (X := f.toList.flatMap bitsOf ++ X) (by
        show s.io.bin.items = _; rw [hi]; simp only [List.append_assoc]; rfl), Res.andThen_ok, stepPayload]
      simp only [State.setDstate_status, State.setHdrsel_status, Bool.false_eq_true, if_false]
      rw [hp, Res.andThen_ok]
    · exact tableNodes_isTree f
    · exact hst false
    · rfl

end Sys2Proof.Machine
end

