-- ==== Sys2Proof/Laws/Frame.lean ====
section
/-! SUPPORT. Everything a procedure of the rules can do, said once for each: which pieces of state it may change, and
which faults it may raise. The frames of the instructions follow from these. -/

namespace Sys2Proof.Machine

/-- The pieces of state a procedure may change. -/
inductive Piece where
  | cur | root | size | numleaf | treeBits | hdrTreeBits | origBits | projBits | outBits | savings | freq | node | q | path
  | prepped | declined | empty | treeValid | hdrsel | dstate | sin | sout | bin | bout
  deriving DecidableEq, Repr

/-- A piece of state is the same in both states. -/
def Same (s t : State) : Piece → Prop
  | .cur => t.ses.cur = s.ses.cur
  | .root => t.ses.root = s.ses.root
  | .size => t.ses.size = s.ses.size
  | .numleaf => t.ses.numleaf = s.ses.numleaf
  | .treeBits => t.ses.treeBits = s.ses.treeBits
  | .hdrTreeBits => t.ses.hdrTreeBits = s.ses.hdrTreeBits
  | .origBits => t.ses.origBits = s.ses.origBits
  | .projBits => t.ses.projBits = s.ses.projBits
  | .outBits => t.ses.outBits = s.ses.outBits
  | .savings => t.ses.savings = s.ses.savings
  | .freq => t.ses.freq = s.ses.freq
  | .node => t.ses.node = s.ses.node
  | .q => t.ses.q = s.ses.q
  | .path => t.ses.path = s.ses.path
  | .prepped => t.status.prepped = s.status.prepped
  | .declined => t.status.declined = s.status.declined
  | .empty => t.status.empty = s.status.empty
  | .treeValid => t.status.treeValid = s.status.treeValid
  | .hdrsel => t.status.hdrsel = s.status.hdrsel
  | .dstate => t.status.dstate = s.status.dstate
  | .sin => t.io.sin = s.io.sin
  | .sout => t.io.sout = s.io.sout
  | .bin => t.io.bin = s.io.bin
  | .bout => t.io.bout = s.io.bout

theorem Same.refl (s : State) (p : Piece) : Same s s p := by cases p <;> rfl

theorem Same.trans {s t u : State} {p : Piece} (h : Same s t p) (k : Same t u p) : Same s u p := by
  cases p <;> exact Eq.trans k h

/-- The end state `t` of a procedure started in `s` that changes no piece but `ps`: the inputs are consumed from the
front, the outputs grow, and the rest of the state stays. -/
structure Touches (ps : List Piece) (s t : State) : Prop where
  same : ∀ p, p ∉ ps → Same s t p
  build : t.build = s.build
  host : t.host = s.host
  freeCtr : t.freeCtr = s.freeCtr
  rsp : t.rsp = s.rsp
  fault : t.status.fault = s.status.fault
  busy : t.io.busy = s.io.busy
  rspValid : t.io.rspValid = s.io.rspValid
  sin : ∃ n, t.io.sin.items = s.io.sin.items.drop n
  bin : ∃ n, t.io.bin.items = s.io.bin.items.drop n
  sout : ∃ ws, t.io.sout.sent = s.io.sout.sent ++ ws
  bout : ∃ bs, t.io.bout.sent = s.io.bout.sent ++ bs

theorem Touches.refl (ps : List Piece) (s : State) : Touches ps s s :=
  ⟨fun p _ => Same.refl s p, rfl, rfl, rfl, rfl, rfl, rfl, rfl, ⟨0, rfl⟩, ⟨0, rfl⟩, ⟨[], by simp⟩, ⟨[], by simp⟩⟩

theorem Touches.trans {ps : List Piece} {s t u : State} (h : Touches ps s t) (k : Touches ps t u) : Touches ps s u := by
  obtain ⟨n, hn⟩ := h.sin; obtain ⟨n', hn'⟩ := k.sin
  obtain ⟨m, hm⟩ := h.bin; obtain ⟨m', hm'⟩ := k.bin
  obtain ⟨ws, hws⟩ := h.sout; obtain ⟨ws', hws'⟩ := k.sout
  obtain ⟨bs, hbs⟩ := h.bout; obtain ⟨bs', hbs'⟩ := k.bout
  exact ⟨fun p hp => (h.same p hp).trans (k.same p hp), k.build.trans h.build, k.host.trans h.host,
    k.freeCtr.trans h.freeCtr, k.rsp.trans h.rsp, k.fault.trans h.fault, k.busy.trans h.busy,
    k.rspValid.trans h.rspValid,
    ⟨n + n', by rw [hn', hn, List.drop_drop]⟩, ⟨m + m', by rw [hm', hm, List.drop_drop]⟩,
    ⟨ws ++ ws', by rw [hws', hws, List.append_assoc]⟩, ⟨bs ++ bs', by rw [hbs', hbs, List.append_assoc]⟩⟩

theorem Touches.mono {ps qs : List Piece} {s t : State} (h : Touches ps s t) (hs : ps ⊆ qs) : Touches qs s t :=
  { h with same := fun p hp => h.same p fun hm => hp (hs hm) }

/-- An update that writes the pieces `ps` and neither the streams nor the rest. -/
theorem Touches.of_write {ps : List Piece} {s t : State} (same : ∀ p, p ∉ ps → Same s t p) (hb : t.build = s.build)
    (hh : t.host = s.host) (hc : t.freeCtr = s.freeCtr) (hr : t.rsp = s.rsp) (hf : t.status.fault = s.status.fault)
    (hio : t.io = s.io) : Touches ps s t := by
  refine ⟨same, hb, hh, hc, hr, hf, ?_, ?_, ⟨0, ?_⟩, ⟨0, ?_⟩, ⟨[], ?_⟩, ⟨[], ?_⟩⟩ <;> simp [hio]

/-- What a procedure ends in: it changes no piece but `ps` and raises no fault but `fs`. -/
def Res.Ends {α : Type} (ps : List Piece) (fs : List FaultKind) (s : State) : Res α → Prop
  | .ok _ t => Touches ps s t
  | .raise f t => f ∈ fs ∧ Touches ps s t
  | .hang t => Touches ps s t
  | .stuck _ => True

theorem Res.Ends.mono {α : Type} {ps qs : List Piece} {fs gs : List FaultKind} {s : State} {r : Res α}
    (h : r.Ends ps fs s) (hp : ps ⊆ qs) (hf : fs ⊆ gs) : r.Ends qs gs s := by
  cases r with
  | ok a t => exact Touches.mono h hp
  | raise f t => exact ⟨hf h.1, h.2.mono hp⟩
  | hang t => exact Touches.mono h hp
  | stuck f => trivial

theorem Res.Ends.after {α : Type} {ps : List Piece} {fs : List FaultKind} {s s' : State} {r : Res α}
    (h : Touches ps s s') (k : r.Ends ps fs s') : r.Ends ps fs s := by
  cases r with
  | ok a t => exact h.trans k
  | raise f t => exact ⟨k.1, h.trans k.2⟩
  | hang t => exact h.trans k
  | stuck f => trivial

theorem Res.Ends.andThen {α β : Type} {ps : List Piece} {fs : List FaultKind} {s : State} {r : Res α}
    {k : α → State → Res β} (h : r.Ends ps fs s) (hk : ∀ a t, (k a t).Ends ps fs t) : (r.andThen k).Ends ps fs s := by
  cases r with
  | ok a t => exact Res.Ends.after h (hk a t)
  | raise f t => exact h
  | hang t => exact h
  | stuck f => trivial

/-! ### Updates -/

theorem setPrepped_touches (b : Bool) (s : State) : Touches [.prepped] s (s.setPrepped b) :=
  .of_write (by intro p hp; cases p <;> first | rfl | simp at hp) rfl rfl rfl rfl rfl rfl
theorem setDeclined_touches (b : Bool) (s : State) : Touches [.declined] s (s.setDeclined b) :=
  .of_write (by intro p hp; cases p <;> first | rfl | simp at hp) rfl rfl rfl rfl rfl rfl
theorem setEmpty_touches (b : Bool) (s : State) : Touches [.empty] s (s.setEmpty b) :=
  .of_write (by intro p hp; cases p <;> first | rfl | simp at hp) rfl rfl rfl rfl rfl rfl
theorem setTreeValid_touches (b : Bool) (s : State) : Touches [.treeValid] s (s.setTreeValid b) :=
  .of_write (by intro p hp; cases p <;> first | rfl | simp at hp) rfl rfl rfl rfl rfl rfl
theorem setHdrsel_touches (b : Bool) (s : State) : Touches [.hdrsel] s (s.setHdrsel b) :=
  .of_write (by intro p hp; cases p <;> first | rfl | simp at hp) rfl rfl rfl rfl rfl rfl
theorem setDstate_touches (d : DState) (s : State) : Touches [.dstate] s (s.setDstate d) :=
  .of_write (by intro p hp; cases p <;> first | rfl | simp at hp) rfl rfl rfl rfl rfl rfl
theorem setCur_touches (i : Idx) (s : State) : Touches [.cur] s (s.setCur i) :=
  .of_write (by intro p hp; cases p <;> first | rfl | simp at hp) rfl rfl rfl rfl rfl rfl
theorem setRoot_touches (i : Idx) (s : State) : Touches [.root] s (s.setRoot i) :=
  .of_write (by intro p hp; cases p <;> first | rfl | simp at hp) rfl rfl rfl rfl rfl rfl
theorem setNode_touches (n : List Node) (s : State) : Touches [.node] s (s.setNode n) :=
  .of_write (by intro p hp; cases p <;> first | rfl | simp at hp) rfl rfl rfl rfl rfl rfl
theorem setQ_touches (q : List Idx) (s : State) : Touches [.q] s (s.setQ q) :=
  .of_write (by intro p hp; cases p <;> first | rfl | simp at hp) rfl rfl rfl rfl rfl rfl
theorem setHdrTreeBits_touches (n : Word32) (s : State) : Touches [.hdrTreeBits] s (s.setHdrTreeBits n) :=
  .of_write (by intro p hp; cases p <;> first | rfl | simp at hp) rfl rfl rfl rfl rfl rfl
theorem setOutBits_touches (n : Word64) (s : State) : Touches [.outBits] s (s.setOutBits n) :=
  .of_write (by intro p hp; cases p <;> first | rfl | simp at hp) rfl rfl rfl rfl rfl rfl
theorem setPrepass_touches (a b c : Word64) (s : State) :
    Touches [.origBits, .projBits, .savings] s (s.setPrepass a b c) :=
  .of_write (by intro p hp; cases p <;> first | rfl | simp at hp) rfl rfl rfl rfl rfl rfl
theorem setFreq_touches (k : Nat) (c : Count) (s : State) : Touches [.freq] s (s.setFreq k c) :=
  .of_write (by intro p hp; cases p <;> first | rfl | simp at hp) rfl rfl rfl rfl rfl rfl
theorem setFreqs_touches (f : Vector Count 256) (s : State) : Touches [.freq] s (s.setFreqs f) :=
  .of_write (by intro p hp; cases p <;> first | rfl | simp at hp) rfl rfl rfl rfl rfl rfl

/-- A port is acquired or released: its other contents stay. -/
theorem acquireSin_touches (s : State) : Touches [.sin] s (acquireSin s) :=
  ⟨by intro p hp; cases p <;> first | rfl | simp at hp, rfl, rfl, rfl, rfl, rfl, rfl, rfl, ⟨0, rfl⟩, ⟨0, rfl⟩,
    ⟨[], by simp⟩, ⟨[], by simp⟩⟩
theorem releaseSin_touches (s : State) : Touches [.sin] s (releaseSin s) :=
  ⟨by intro p hp; cases p <;> first | rfl | simp at hp, rfl, rfl, rfl, rfl, rfl, rfl, rfl, ⟨0, rfl⟩, ⟨0, rfl⟩,
    ⟨[], by simp⟩, ⟨[], by simp⟩⟩
theorem acquireSout_touches (s : State) : Touches [.sout] s (acquireSout s) :=
  ⟨by intro p hp; cases p <;> first | rfl | simp at hp, rfl, rfl, rfl, rfl, rfl, rfl, rfl, ⟨0, rfl⟩, ⟨0, rfl⟩,
    ⟨[], by simp⟩, ⟨[], by simp⟩⟩
theorem releaseSout_touches (s : State) : Touches [.sout] s (releaseSout s) :=
  ⟨by intro p hp; cases p <;> first | rfl | simp at hp, rfl, rfl, rfl, rfl, rfl, rfl, rfl, ⟨0, rfl⟩, ⟨0, rfl⟩,
    ⟨[], by simp⟩, ⟨[], by simp⟩⟩
theorem acquireBin_touches (s : State) : Touches [.bin] s (acquireBin s) :=
  ⟨by intro p hp; cases p <;> first | rfl | simp at hp, rfl, rfl, rfl, rfl, rfl, rfl, rfl, ⟨0, rfl⟩, ⟨0, rfl⟩,
    ⟨[], by simp⟩, ⟨[], by simp⟩⟩
theorem releaseBin_touches (s : State) : Touches [.bin] s (releaseBin s) :=
  ⟨by intro p hp; cases p <;> first | rfl | simp at hp, rfl, rfl, rfl, rfl, rfl, rfl, rfl, ⟨0, rfl⟩, ⟨0, rfl⟩,
    ⟨[], by simp⟩, ⟨[], by simp⟩⟩
theorem acquireBout_touches (s : State) : Touches [.bout] s (acquireBout s) :=
  ⟨by intro p hp; cases p <;> first | rfl | simp at hp, rfl, rfl, rfl, rfl, rfl, rfl, rfl, ⟨0, rfl⟩, ⟨0, rfl⟩,
    ⟨[], by simp⟩, ⟨[], by simp⟩⟩
theorem releaseBout_touches (s : State) : Touches [.bout] s (releaseBout s) :=
  ⟨by intro p hp; cases p <;> first | rfl | simp at hp, rfl, rfl, rfl, rfl, rfl, rfl, rfl, ⟨0, rfl⟩, ⟨0, rfl⟩,
    ⟨[], by simp⟩, ⟨[], by simp⟩⟩

theorem setSin_touches {s : State} {items : List SymVal} (h : ∃ n, items = s.io.sin.items.drop n) :
    Touches [.sin] s (s.setSin items) :=
  ⟨by intro p hp; cases p <;> first | rfl | simp at hp, rfl, rfl, rfl, rfl, rfl, rfl, rfl, h, ⟨0, rfl⟩,
    ⟨[], by simp⟩, ⟨[], by simp⟩⟩
theorem setBin_touches {s : State} {items : Bits} (h : ∃ n, items = s.io.bin.items.drop n) :
    Touches [.bin] s (s.setBin items) :=
  ⟨by intro p hp; cases p <;> first | rfl | simp at hp, rfl, rfl, rfl, rfl, rfl, rfl, rfl, ⟨0, rfl⟩, h,
    ⟨[], by simp⟩, ⟨[], by simp⟩⟩
theorem sendBout_touches (bs : Bits) (room : Option Nat) (n : Nat) (s : State) :
    Touches [.bout, .outBits] s (addOutBits n (s.sendBout bs room)) :=
  ⟨by intro p hp; cases p <;> first | rfl | simp at hp, rfl, rfl, rfl, rfl, rfl, rfl, rfl, ⟨0, rfl⟩, ⟨0, rfl⟩,
    ⟨[], by simp⟩, ⟨bs, rfl⟩⟩
theorem sendSout_touches (ws : List (BitVec 8)) (room : Option Nat) (n : Nat) (s : State) :
    Touches [.sout, .outBits] s (addOutBits n (s.sendSout ws room)) :=
  ⟨by intro p hp; cases p <;> first | rfl | simp at hp, rfl, rfl, rfl, rfl, rfl, rfl, rfl, ⟨0, rfl⟩, ⟨0, rfl⟩,
    ⟨ws, rfl⟩, ⟨[], by simp⟩⟩

/-- The pieces of a tree and of what is derived from it (43_tree_builder.md R173). -/
def treePieces : List Piece := [.node, .q, .root, .size, .numleaf, .treeBits, .path, .treeValid]

theorem resetTree_touches (s : State) : Touches treePieces s (resetTree s) :=
  .of_write (by intro p hp; cases p <;> first | rfl | simp [treePieces] at hp) rfl rfl rfl rfl rfl rfl

/-! ### Streams -/

/-- ReadBits (20_memory.md R62). -/
theorem readBits_ends (n : Nat) (f : FaultKind) (s : State) : (readBits n f s).Ends [.bin] [f] s := by
  have hall : [] = s.io.bin.items.drop s.io.bin.items.length := by simp
  rcases readBits_cases n f s with ⟨v, rest, hb, h⟩ | ⟨-, -, h⟩ | ⟨-, -, h⟩ <;> rw [h]
  · exact setBin_touches ⟨(bitsOf v).length, by rw [hb, List.drop_left]⟩
  · exact ⟨List.mem_singleton_self f, setBin_touches ⟨_, hall⟩⟩
  · exact setBin_touches ⟨_, hall⟩

/-- WriteBits, WritePath (R63). -/
theorem putBits_ends (bs : Bits) (s : State) : (putBits bs s).Ends [.bout, .outBits] [] s := by
  unfold putBits
  split
  · exact sendBout_touches _ _ _ _
  · split
    · exact sendBout_touches _ _ _ _
    · exact sendBout_touches _ _ _ _

/-- WriteWord (R61). -/
theorem writeWord_ends (w : BitVec 8) (s : State) : (writeWord w s).Ends [.sout, .outBits] [] s := by
  unfold writeWord
  split
  · exact sendSout_touches _ _ _ _
  · exact Touches.refl _ _
  · exact sendSout_touches _ _ _ _

/-! ### The arena, the queue, the tree -/

theorem alloc_ends (n : Node) (s : State) : (alloc n s).Ends [.node] [.capacityFault] s := by
  unfold alloc
  split
  · exact ⟨List.mem_singleton_self _, Touches.refl _ _⟩
  · exact setNode_touches _ _

theorem queueInsert_ends (i : Idx) (s : State) : (queueInsert i s).Ends [.q] [.capacityFault] s := by
  unfold queueInsert
  split
  · exact ⟨List.mem_singleton_self _, Touches.refl _ _⟩
  · split
    · trivial
    · split
      · trivial
      · exact setQ_touches _ _

theorem mergeTwo_ends (a b : Idx) (s : State) : (mergeTwo a b s).Ends [.node, .q] [.capacityFault] s := by
  unfold mergeTwo
  split
  · split
    · exact ⟨List.mem_singleton_self _, Touches.refl _ _⟩
    · exact ((alloc_ends _ _).mono (by simp) (by simp)).andThen fun i t =>
        ((queueInsert_ends i t).mono (by simp) (by simp)).andThen fun _ u => Touches.refl _ u
  · trivial

theorem mergeLoop_ends (fuel : Nat) (s : State) : (mergeLoop fuel s).Ends [.node, .q] [.capacityFault] s := by
  induction fuel generalizing s with
  | zero => exact Touches.refl _ _
  | succ fuel ih =>
    unfold mergeLoop
    split
    · exact Res.Ends.after ((setQ_touches _ _).mono (by simp))
        ((mergeTwo_ends _ _ _).andThen fun _ t => ih t)
    · exact Touches.refl _ _

theorem deriveTree_ends (s : State) :
    (deriveTree s).Ends [.size, .numleaf, .treeBits, .path, .treeValid] [] s := by
  unfold deriveTree
  split
  · trivial
  · exact .of_write (by intro p hp; cases p <;> first | rfl | simp at hp) rfl rfl rfl rfl rfl rfl

theorem buildTree_ends (s : State) :
    (buildTree s).Ends treePieces [.preconditionViolation, .capacityFault] s := by
  unfold buildTree
  refine Res.Ends.after (s' := (s.setRoot NIL).setTreeValid false) ?_ ?_
  · exact .of_write (by intro p hp; cases p <;> first | rfl | simp [treePieces] at hp) rfl rfl rfl rfl rfl rfl
  · simp only
    split
    · exact ⟨by simp, Touches.refl _ _⟩
    · refine ((mergeLoop_ends _ _).mono (by simp [treePieces]) (by simp)).andThen fun _ t => ?_
      unfold queueRemove
      cases hq : t.ses.q with
      | nil => trivial
      | cons i rest =>
        exact Res.Ends.after (s' := (t.setQ rest).setRoot i)
          (.of_write (by intro p hp; cases p <;> first | rfl | simp [treePieces] at hp) rfl rfl rfl rfl rfl rfl)
          ((deriveTree_ends _).mono (by simp [treePieces]) (by simp))

theorem loadQueue_ends (s : State) : (loadQueue s).Ends treePieces [] s := by
  obtain ⟨q', h, -⟩ := loadQueue_ok s
  rw [h]
  exact .of_write (by intro p hp; cases p <;> first | (simp [treePieces] at hp; done) | rfl) rfl rfl rfl rfl rfl rfl

/-! ### Counting and the compressor -/

theorem accumulate_ends (xs : List SymVal) (n : Word64) (s : State) (h : ∃ k, xs = s.io.sin.items.drop k) :
    (accumulate xs n s).Ends [.freq, .sin] [.invalidArgument, .capacityFault] s := by
  induction xs generalizing n s with
  | nil =>
    unfold accumulate
    split <;> exact Touches.refl _ _
  | cons x rest ih =>
    obtain ⟨k, hk⟩ := h
    have hrest : rest = s.io.sin.items.drop (k + 1) := by
      rw [← List.drop_drop, ← hk]; rfl
    have hs : Touches [.freq, .sin] s (s.setSin rest) := (setSin_touches ⟨_, hrest⟩).mono (by simp)
    unfold accumulate
    simp only
    split
    · exact hs
    · split
      · exact ⟨by simp, hs⟩
      · split
        · exact ⟨by simp, hs⟩
        · exact Res.Ends.after (hs.trans ((setFreq_touches _ _ _).mono (by simp)))
            (ih _ _ ⟨0, rfl⟩)

theorem countPass_ends (s : State) : (countPass s).Ends [.freq, .sin] [.invalidArgument, .capacityFault] s := by
  unfold countPass
  exact Res.Ends.andThen (Res.Ends.after ((acquireSin_touches s).mono (by simp)) (accumulate_ends _ _ _ ⟨0, rfl⟩))
    fun _ t => (releaseSin_touches t).mono (by simp)

theorem emitWords_ends (xs : List SymVal) (s : State) (h : ∃ k, xs = s.io.sin.items.drop k) :
    (emitWords xs s).Ends [.sin, .bout, .outBits] [.invalidArgument, .preconditionViolation] s := by
  induction xs generalizing s with
  | nil =>
    unfold emitWords
    split <;> exact Touches.refl _ _
  | cons x rest ih =>
    obtain ⟨k, hk⟩ := h
    have hrest : rest = s.io.sin.items.drop (k + 1) := by
      rw [← List.drop_drop, ← hk]; rfl
    have hs : Touches [.sin, .bout, .outBits] s (s.setSin rest) := (setSin_touches ⟨_, hrest⟩).mono (by simp)
    unfold emitWords
    simp only
    split
    · exact hs
    · split
      · exact ⟨by simp, hs⟩
      · split
        · exact ⟨by simp, hs⟩
        · rename_i p hp
          have hput := putBits_ends p (s.setSin rest)
          unfold writePath
          have hkeep : ∀ u t, putBits p (s.setSin rest) = .ok u t → rest = t.io.sin.items := by
            intro u t he
            rw [he] at hput
            have := hput.same .sin (by simp)
            rw [this]; rfl
          refine Res.Ends.after hs ?_
          cases hr : putBits p (s.setSin rest) with
          | ok u t =>
            rw [hr] at hput
            exact Res.Ends.after (Touches.mono hput (by simp)) (ih t ⟨0, by rw [← hkeep u t hr]; rfl⟩)
          | raise f t => rw [hr] at hput; exact absurd hput.1 (by simp)
          | hang t => rw [hr] at hput; exact Touches.mono hput (by simp)
          | stuck f => trivial

theorem emitStream_ends (s : State) :
    (emitStream s).Ends [.sin, .bout, .outBits] [.invalidArgument, .preconditionViolation] s := by
  unfold emitStream
  split
  · trivial
  · refine ((putBits_ends _ _).mono (by simp) (by simp)).andThen fun _ t => ?_
    refine (emitWords_ends _ t ⟨0, rfl⟩).andThen fun _ u => ?_
    split
    · trivial
    · exact (putBits_ends _ _).mono (by simp) (by simp)

/-! ### The decoder -/

/-- What ReadTree() leaves of the bits (R193): the end of them. -/
def Parse.Leaves (bs : Bits) : Parse → Prop
  | .ok _ rest => ∃ n, rest = bs.drop n
  | .corrupt rest => ∃ n, rest = bs.drop n
  | .starved => True

theorem leafValue_leaves (v : SymVal) {bs rest : Bits} (h : ∃ n, rest = bs.drop n) : (leafValue v rest).Leaves bs := by
  unfold leafValue
  split <;> exact h

theorem parseKids_leaves {sub : Nat → Bits → Parse} (h : ∀ base bs, (sub base bs).Leaves bs) (base : Nat) (bs : Bits) :
    (parseKids sub base bs).Leaves bs := by
  have h1 := h (base + 1) bs
  unfold parseKids
  cases hl : sub (base + 1) bs with
  | corrupt rest => rw [hl] at h1; exact h1
  | starved => trivial
  | ok ln rest =>
    rw [hl] at h1
    obtain ⟨n, hn⟩ := h1
    have h2 := h (base + 1 + ln.length) rest
    simp only
    cases hr : sub (base + 1 + ln.length) rest with
    | starved => trivial
    | corrupt rest' =>
      rw [hr] at h2
      obtain ⟨m, hm⟩ := h2
      exact ⟨n + m, by rw [hm, hn, List.drop_drop]⟩
    | ok rn rest' =>
      rw [hr] at h2
      obtain ⟨m, hm⟩ := h2
      exact ⟨n + m, by rw [hm, hn, List.drop_drop]⟩

theorem parseTree_leaves (ends : Bool) (fuel base : Nat) (bs : Bits) : (parseTree ends fuel base bs).Leaves bs := by
  induction fuel generalizing base bs with
  | zero => exact ⟨0, rfl⟩
  | succ fuel ih =>
    cases bs with
    | nil =>
      unfold parseTree
      split
      · exact ⟨0, rfl⟩
      · trivial
    | cons tag bs =>
      have hone : ∀ {p : Parse}, p.Leaves bs → p.Leaves (tag :: bs) := by
        intro p hp
        cases p with
        | starved => trivial
        | ok _ rest => obtain ⟨n, hn⟩ := hp; exact ⟨n + 1, hn⟩
        | corrupt rest => obtain ⟨n, hn⟩ := hp; exact ⟨n + 1, hn⟩
      unfold parseTree
      split
      · exact hone ⟨0, rfl⟩
      · split
        · unfold takeBits
          cases ht : takeField 9 bs with
          | none =>
            cases ends
            · trivial
            · exact hone ⟨bs.length, by simp⟩
          | some p =>
            obtain ⟨v, rest⟩ := p
            have hb := takeField_eq_some.1 ht
            exact hone (leafValue_leaves v ⟨(bitsOf v).length, by rw [hb, List.drop_left]⟩)
        · exact hone (parseKids_leaves ih base bs)

theorem applyParse_ends (s : State) {p : Parse} (h : p.Leaves s.io.bin.items) :
    (applyParse s p).Ends [.bin, .node] [.corruptFormat] s := by
  cases p with
  | ok nodes rest => exact ((setBin_touches h).mono (by simp)).trans ((setNode_touches _ _).mono (by simp))
  | corrupt rest => exact ⟨by simp, (setBin_touches h).mono (by simp)⟩
  | starved => exact (setBin_touches ⟨s.io.bin.items.length, by simp⟩).mono (by simp)

/-- ReadTree() (44_tree_codec.md R193). -/
theorem readTree_ends (s : State) : (readTree s).Ends [.bin, .node] [.corruptFormat] s :=
  applyParse_ends s (parseTree_leaves _ _ _ _)

theorem fieldMagic_ends (m : Word32) (s : State) : (fieldMagic m s).Ends [.dstate] [.notAHuffmanFile] s := by
  unfold fieldMagic
  split
  · exact setDstate_touches _ _
  · exact ⟨by simp, Touches.refl _ _⟩

theorem fieldSelector_ends (h : Word32) (s : State) :
    (fieldSelector h s).Ends [.hdrsel, .dstate] [.corruptFormat] s := by
  unfold fieldSelector
  split
  · exact ((setHdrsel_touches _ _).mono (by simp)).trans ((setDstate_touches _ _).mono (by simp))
  · split
    · exact ((setHdrsel_touches _ _).mono (by simp)).trans ((setDstate_touches _ _).mono (by simp))
    · exact ⟨by simp, Touches.refl _ _⟩

theorem fieldCount_ends (k : Nat) (c : Word32) (s : State) : (fieldCount k c s).Ends [.freq] [] s :=
  setFreq_touches k c s

theorem fieldTreeSize_ends (t : Word32) (s : State) : (fieldTreeSize t s).Ends [.hdrTreeBits] [] s :=
  setHdrTreeBits_touches t s

theorem leafField_ends (v : SymVal) (s : State) : (leafField v s).Ends [.bin, .node] [.corruptFormat] s := by
  unfold leafField
  split
  · exact ⟨by simp, Touches.refl _ _⟩
  · exact (applyParse_ends s (leafValue_leaves v ⟨0, rfl⟩)).andThen fun _ t => Touches.refl _ t

theorem internalField_ends (s : State) : (internalField s).Ends [.bin, .node] [.corruptFormat] s := by
  unfold internalField
  split
  · exact ⟨by simp, Touches.refl _ _⟩
  · exact (applyParse_ends s (parseKids_leaves (fun _ _ => parseTree_leaves _ _ _ _) _ _)).andThen
      fun _ t => Touches.refl _ t

theorem stepMagic_ends (s : State) : (stepMagic s).Ends [.bin, .dstate] [.notAHuffmanFile] s :=
  ((readBits_ends _ _ _).mono (by simp) (by simp)).andThen fun m t => (fieldMagic_ends m t).mono (by simp) (by simp)

theorem stepSelector_ends (s : State) :
    (stepSelector s).Ends [.bin, .hdrsel, .dstate] [.truncatedStream, .corruptFormat] s :=
  ((readBits_ends _ _ _).mono (by simp) (by simp)).andThen fun h t => (fieldSelector_ends h t).mono (by simp) (by simp)

theorem readCounts_ends (ks : List Nat) (s : State) : (readCounts ks s).Ends [.bin, .freq] [.truncatedStream] s := by
  induction ks generalizing s with
  | nil => exact Touches.refl _ _
  | cons k rest ih =>
    exact (((readBits_ends _ _ _).mono (by simp) (by simp)).andThen fun c t =>
      (fieldCount_ends k c t).mono (by simp) (by simp)).andThen fun _ t => ih t

theorem checkRoot_ends (s : State) : (checkRoot s).Ends [] [.corruptFormat] s := by
  unfold checkRoot
  split
  · trivial
  · split
    · exact Touches.refl _ _
    · exact ⟨by simp, Touches.refl _ _⟩
  · exact Touches.refl _ _

/-- LoadQueue() then BuildTree() never raises a fault (R171 (b), R171 (e)). -/
theorem loadQueue_buildTree_ends (s : State) : ((loadQueue s).andThen fun _ s => buildTree s).Ends treePieces [] s := by
  have h := (loadQueue_buildTree s).1
  rw [h]
  exact .of_write (by intro p hp; cases p <;> first | rfl | simp [treePieces] at hp) rfl rfl rfl rfl rfl rfl

theorem payloadCounts_ends (s : State) :
    (payloadCounts s).Ends (treePieces ++ [.bin, .freq]) [.truncatedStream, .corruptFormat] s := by
  refine ((readCounts_ends _ _).mono (by simp) (by simp)).andThen fun _ t => ?_
  rw [← Res.andThen_assoc (loadQueue t) (fun _ s => buildTree s) (fun _ s => checkRoot s)]
  exact ((loadQueue_buildTree_ends t).mono (by simp) (by simp)).andThen fun _ u =>
    (checkRoot_ends u).mono (by simp) (by simp)

theorem payloadTree_ends (s : State) : (payloadTree s).Ends
    [.node, .root, .size, .numleaf, .treeBits, .path, .treeValid, .bin, .hdrTreeBits]
    [.truncatedStream, .corruptFormat] s := by
  refine (((readBits_ends _ _ _).mono (by simp) (by simp)).andThen fun z t =>
    (fieldTreeSize_ends z t).mono (by simp) (by simp)).andThen fun _ t => ?_
  refine ((readTree_ends t).mono (by simp) (by simp)).andThen fun r u => ?_
  exact (Res.Ends.after ((setRoot_touches r u).mono (by simp)) ((deriveTree_ends _).mono (by simp) (by simp))).andThen
    fun _ v => (checkRoot_ends v).mono (by simp) (by simp)

theorem stepPayload_ends (s : State) : (stepPayload s).Ends
    (treePieces ++ [.bin, .freq, .hdrTreeBits]) [.truncatedStream, .corruptFormat] s := by
  unfold stepPayload
  split
  · exact (payloadTree_ends s).mono (by simp [treePieces]) (by simp)
  · exact (payloadCounts_ends s).mono (by simp [treePieces]) (by simp)

theorem backToRoot_ends (s : State) : (backToRoot s).Ends [.cur] [] s := by
  unfold backToRoot
  simp only
  split
  · trivial
  · trivial
  · exact setCur_touches _ _

theorem walkBits_ends (bs : Bits) (s : State) (h : ∃ n, bs = s.io.bin.items.drop n) :
    (walkBits bs s).Ends [.cur, .bin, .sout, .outBits] [.truncatedStream] s := by
  induction bs generalizing s with
  | nil =>
    unfold walkBits
    split
    · exact ⟨by simp, Touches.refl _ _⟩
    · exact Touches.refl _ _
  | cons b rest ih =>
    obtain ⟨k, hk⟩ := h
    have hrest : rest = s.io.bin.items.drop (k + 1) := by
      rw [← List.drop_drop, ← hk]; rfl
    unfold walkBits
    split
    · rename_i w l r hn
      have hs : Touches [.cur, .bin, .sout, .outBits] s ((s.setBin rest).setCur (if b then r else l)) :=
        ((setBin_touches ⟨_, hrest⟩).mono (by simp)).trans ((setCur_touches _ _).mono (by simp))
      have hb : ((s.setBin rest).setCur (if b then r else l)).io.bin.items = rest := rfl
      refine Res.Ends.after hs ?_
      generalize (s.setBin rest).setCur (if b then r else l) = u at hb
      simp only
      split
      · trivial
      · exact ih _ ⟨0, hb.symm⟩
      · rename_i sym w' hleaf
        split
        · exact Touches.refl _ _
        · have hput : ((writeWord (sym.setWidth 8) u).andThen fun _ s => backToRoot s).Ends
              [.cur, .sout, .outBits] [] u :=
            ((writeWord_ends _ _).mono (by simp) (by simp)).andThen fun _ t =>
              (backToRoot_ends t).mono (by simp) (by simp)
          cases hr : (writeWord (sym.setWidth 8) u).andThen fun _ s => backToRoot s with
          | ok _ t =>
            rw [hr] at hput
            have hbin : rest = t.io.bin.items := by
              have := hput.same .bin (by simp)
              rw [this, hb]
            exact Res.Ends.after (Touches.mono hput (by simp)) (ih t ⟨0, hbin⟩)
          | raise f t => rw [hr] at hput; exact absurd hput.1 (by simp)
          | hang t => rw [hr] at hput; exact Touches.mono hput (by simp)
          | stuck f => trivial
    · trivial

theorem walk_ends (s : State) : (walk s).Ends [.cur, .bin, .sout, .outBits] [.truncatedStream] s := by
  unfold walk
  refine Res.Ends.after ((setCur_touches s.ses.root s).mono (by simp)) ?_
  simp only
  split
  · trivial
  · split
    · exact Touches.refl _ _
    · trivial
  · exact walkBits_ends _ _ ⟨0, rfl⟩

/-! ### The rules of the commands, behind the front end -/

theorem runRdreg_ends (num : BitVec 10) (s : State) : (runRdreg num s).Ends [] [.illegalCommand] s := by
  unfold runRdreg
  split
  · exact ⟨by simp, Touches.refl _ _⟩
  · exact Touches.refl _ _

theorem runQins_ends (v : Bool) (sym : SymVal) (w : Weight) (s : State) :
    (runQins v sym w s).Ends [.node, .q] [.invalidArgument, .capacityFault] (s.setPrepped false) := by
  unfold runQins
  simp only
  split
  · exact ⟨by simp, Touches.refl _ _⟩
  · split
    · exact ⟨by simp, Touches.refl _ _⟩
    · split
      · exact ⟨by simp, Touches.refl _ _⟩
      · exact ((alloc_ends _ _).mono (by simp) (by simp)).andThen fun i t =>
          ((queueInsert_ends i t).mono (by simp) (by simp)).andThen fun _ u => Touches.refl _ u

theorem imageReply_ends (i : Idx) (s : State) : (imageReply i s).Ends [] [] s := by
  unfold imageReply
  split
  · trivial
  · exact Touches.refl _ _

theorem runQrem_ends (s : State) : (runQrem s).Ends [.q, .empty] [] (s.setPrepped false) := by
  unfold runQrem queueRemove
  cases hq : (s.setPrepped false).ses.q with
  | nil => exact (setEmpty_touches _ _).mono (by simp)
  | cons i rest =>
    exact Res.Ends.after (((setQ_touches rest _).mono (by simp)).trans ((setEmpty_touches false _).mono (by simp)))
      ((imageReply_ends _ _).mono (by simp) (by simp))

theorem runQpeek_ends (s : State) : (runQpeek s).Ends [.empty] [] s := by
  unfold runQpeek
  split
  · exact setEmpty_touches _ _
  · exact Res.Ends.after (setEmpty_touches false _) ((imageReply_ends _ _).mono (by simp) (by simp))

theorem runQsize_ends (s : State) : (runQsize s).Ends [] [] s := Touches.refl _ _

theorem runFacc_ends (s : State) :
    (runFacc s).Ends [.freq, .sin] [.invalidArgument, .capacityFault] (s.setPrepped false) :=
  (countPass_ends _).andThen fun _ t => Touches.refl _ t

theorem settleCur_touches (s : State) : Touches [.cur] s (settleCur s) := setCur_touches _ s

theorem runQload_ends (s : State) : (runQload s).Ends (.cur :: treePieces) [] (s.setPrepped false) :=
  ((loadQueue_ends _).mono (by simp) (by simp)).andThen fun _ t => (settleCur_touches t).mono (by simp)

theorem runFset_ends (sym : SymVal) (c : Count) (s : State) :
    (runFset sym c s).Ends [.freq] [.invalidArgument] (s.setPrepped false) := by
  unfold runFset
  simp only
  split
  · exact ⟨by simp, Touches.refl _ _⟩
  · exact setFreq_touches _ _ _

theorem runFget_ends (sym : SymVal) (s : State) : (runFget sym s).Ends [] [.invalidArgument] s := by
  unfold runFget
  split
  · exact ⟨by simp, Touches.refl _ _⟩
  · exact Touches.refl _ _

theorem runBuild_ends (s : State) :
    (runBuild s).Ends treePieces [.preconditionViolation, .capacityFault] (s.setPrepped false) :=
  (buildTree_ends _).andThen fun _ t => Touches.refl _ t

theorem runNget_ends (num : Idx) (s : State) : (runNget num s).Ends [] [] s := Touches.refl _ _

theorem runPget_ends (sym : SymVal) (s : State) : (runPget sym s).Ends [] [.invalidArgument] s := by
  unfold runPget
  split
  · exact ⟨by simp, Touches.refl _ _⟩
  · split <;> exact Touches.refl _ _

theorem runWtree_ends (s : State) : (runWtree s).Ends [.bout, .outBits] [.preconditionViolation] s := by
  unfold runWtree
  split
  · exact ⟨by simp, Touches.refl _ _⟩
  · refine Res.Ends.andThen (Res.Ends.after
      (((acquireBout_touches s).mono (by simp)).trans ((setOutBits_touches 0 _).mono (by simp))) ?_)
      fun _ t => (releaseBout_touches t).mono (by simp)
    unfold writeTree
    split
    · trivial
    · exact (putBits_ends _ _).mono (by simp) (by simp)

theorem runRtree_ends (s : State) : (runRtree s).Ends
    [.cur, .bin, .node, .root, .size, .numleaf, .treeBits, .path, .treeValid] [.corruptFormat]
    (acquireBin (resetTree (s.setPrepped false))) :=
  ((readTree_ends _).mono (by simp) (by simp)).andThen fun r t =>
    (Res.Ends.after (((releaseBin_touches t).mono (by simp)).trans ((setRoot_touches r _).mono (by simp)))
      ((deriveTree_ends _).mono (by simp) (by simp))).andThen fun _ u => (settleCur_touches u).mono (by simp)

theorem runPrep_ends (hdr : Bool) (s : State) : (runPrep hdr s).Ends
    (treePieces ++ [.freq, .sin, .origBits, .projBits, .savings, .prepped]) [.invalidArgument, .capacityFault]
    ((sessionInit s).setHdrsel hdr) := by
  refine ((countPass_ends _).mono (by simp) (by simp)).andThen fun r t => ?_
  rw [← Res.andThen_assoc (loadQueue t) (fun _ s => buildTree s) (fun _ s => .ok
    (okReply ((recordSizes r.1 s).setPrepped true).ses.savings ((recordSizes r.1 s).setPrepped true).ses.projBits)
    ((recordSizes r.1 s).setPrepped true))]
  exact ((loadQueue_buildTree_ends t).mono (by simp) (by simp)).andThen fun _ u =>
    ((setPrepass_touches _ _ _ u).mono (by simp)).trans ((setPrepped_touches true _).mono (by simp))

theorem runEmit_ends (force : Bool) (s : State) : (runEmit force s).Ends [.declined, .sin, .bout, .outBits]
    [.invalidArgument, .preconditionViolation] s := by
  unfold runEmit
  split
  · exact ⟨by simp, Touches.refl _ _⟩
  · split
    · exact (setDeclined_touches _ _).mono (by simp)
    · refine Res.Ends.andThen (Res.Ends.after
        (((setDeclined_touches false s).mono (by simp)).trans (((acquireSin_touches _).mono (by simp)).trans
          (((acquireBout_touches _).mono (by simp)).trans ((setOutBits_touches 0 _).mono (by simp)))))
        ((emitStream_ends _).mono (by simp) (by simp)))
        fun _ t => ((releaseSin_touches t).mono (by simp)).trans ((releaseBout_touches _).mono (by simp))

theorem runDecode_ends (s : State) : (runDecode s).Ends
    (treePieces ++ [.cur, .bin, .sout, .freq, .hdrTreeBits, .outBits, .hdrsel, .dstate])
    [.notAHuffmanFile, .truncatedStream, .corruptFormat] (openDecoder s) := by
  refine ((stepMagic_ends _).mono (by simp) (by simp)).andThen fun _ t => ?_
  refine ((stepSelector_ends t).mono (by simp) (by simp)).andThen fun _ u => ?_
  refine ((stepPayload_ends u).mono (by simp [treePieces]) (by simp)).andThen fun _ v => ?_
  refine Res.Ends.andThen (Res.Ends.after ((setDstate_touches .walking v).mono (by simp))
    ((walk_ends _).mono (by simp) (by simp))) fun _ w => ?_
  exact ((setDstate_touches .done w).mono (by simp)).trans (((releaseBin_touches _).mono (by simp)).trans
    ((releaseSout_touches _).mono (by simp)))

/-- How a command without a fault ends (10_state.md R21, 60_exceptions.md R255, 70_reset_and_hazards.md R286): with its
response, with a fault, or waiting; its rule ran in the state with cleared results. -/
theorem frontEnd_ends {run : State → Res Response} {ps : List Piece} {fs : List FaultKind} {s s' t : State}
    (h : s.status.fault = none) (hr : (run (clearResults s)).Ends ps fs s') (hn : frontEnd run s = .next t) :
    ∃ u, Touches ps s' u ∧ ((∃ r, run (clearResults s) = .ok r u ∧ t = respond r u) ∨ (∃ f ∈ fs, t = takeFault f u) ∨
      t = waitForEver u) := by
  rw [frontEnd_ok run h] at hn
  cases hc : run (clearResults s) with
  | ok r u => rw [hc] at hn hr; exact ⟨u, hr, Or.inl ⟨r, rfl, by simpa using hn.symm⟩⟩
  | raise f u => rw [hc] at hn hr; exact ⟨u, hr.2, Or.inr (Or.inl ⟨f, hr.1, by simpa using hn.symm⟩)⟩
  | hang u => rw [hc] at hn hr; exact ⟨u, hr, Or.inr (Or.inr (by simpa using hn.symm))⟩
  | stuck f => rw [hc] at hn; simp at hn

/-- How a field of the compressed stream ends: not taken, taken, with a fault, or waiting (log 8). -/
theorem offeredField_ends {expected : Bool} {run : State → Res Unit} {ps : List Piece} {fs : List FaultKind} {s t : State}
    (hr : (run s).Ends ps fs s) (hn : offeredField expected run s = .next t) :
    t = s ∨ (s.status.fault = none ∧ s.io.bin.held = true ∧ expected = true ∧ ∃ u, Touches ps s u ∧ (t = u ∨ (∃ f ∈ fs, t = takeFault f u) ∨ t = waitForEver u)) := by
  unfold offeredField at hn
  split at hn
  · rename_i hc
    refine Or.inr ⟨hc.1, hc.2.1, hc.2.2, ?_⟩
    cases hx : run s with
    | ok r u => rw [hx] at hn hr; exact ⟨u, hr, Or.inl (by simpa [fieldDone] using hn.symm)⟩
    | raise f u => rw [hx] at hn hr; exact ⟨u, hr.2, Or.inr (Or.inl ⟨f, hr.1, by simpa [fieldDone] using hn.symm⟩)⟩
    | hang u => rw [hx] at hn hr; exact ⟨u, hr, Or.inr (Or.inr (by simpa [fieldDone] using hn.symm))⟩
    | stuck f => rw [hx] at hn; simp [fieldDone] at hn
  · exact Or.inl (by simpa using hn.symm)

end Sys2Proof.Machine
end

