-- ==== Sys2Proof/Laws/Arena.lean ====
section
/-! SUPPORT. The procedures keep the arena and the queue legal (10_state.md R41, R44), and none of them stops the
machine on a legal arena (log 9, log 10). -/

namespace Sys2Proof.Machine

/-- The arena is legal and the queue names allocated entries (R41, R44). -/
def Arena (s : State) : Prop := ArenaOk s.ses.node ∧ ∀ i ∈ s.ses.q, i.toNat < s.ses.node.length

/-- Every end state of a procedure has a property. -/
def Res.All {α : Type} (P : State → Prop) : Res α → Prop
  | .ok _ s => P s
  | .raise _ s => P s
  | .hang s => P s
  | .stuck _ => True

/-- The procedure does not stop the machine. -/
def Res.Live {α : Type} : Res α → Prop
  | .stuck _ => False
  | _ => True

theorem Res.All.andThen {α β : Type} {P : State → Prop} {r : Res α} {k : α → State → Res β} (h : r.All P)
    (hk : ∀ a t, r = .ok a t → P t → (k a t).All P) : (r.andThen k).All P := by
  cases r with
  | ok a t => exact hk a t rfl h
  | raise f t => exact h
  | hang t => exact h
  | stuck f => trivial

theorem Res.Live.andThen {α β : Type} {r : Res α} {k : α → State → Res β} (h : r.Live)
    (hk : ∀ a t, r = .ok a t → (k a t).Live) : (r.andThen k).Live := by
  cases r with
  | ok a t => exact hk a t rfl
  | raise f t => trivial
  | hang t => trivial
  | stuck f => exact h

/-- An entry the arena may get (R41): a leaf with a symbol 0..256, or an internal node with allocated children. -/
def EntryOk (len : Nat) : Node → Prop
  | .leaf s _ => s.toNat ≤ 256
  | .internal _ l r => l.toNat < len ∧ r.toNat < len

theorem ArenaOk.iff {node : List Node} :
    ArenaOk node ↔ node.length ≤ Config.NODE_CAP ∧ ∀ n ∈ node, EntryOk node.length n := by
  have : ∀ n : Node, EntryOk node.length n ↔ (match n with
      | .leaf s _ => s.toNat ≤ 256
      | .internal _ l r => l.toNat < node.length ∧ r.toNat < node.length) := by
    intro n; cases n <;> rfl
  exact and_congr_right fun _ => forall_congr' fun n => forall_congr' fun _ => (this n).symm

theorem EntryOk.mono {m n : Nat} {e : Node} (h : EntryOk m e) (hm : m ≤ n) : EntryOk n e := by
  cases e with
  | leaf => exact h
  | internal => exact ⟨Nat.lt_of_lt_of_le h.1 hm, Nat.lt_of_lt_of_le h.2 hm⟩

theorem ArenaOk.nil : ArenaOk [] := ⟨Nat.zero_le _, by simp⟩

theorem ArenaOk.append {node more : List Node} (h : ArenaOk node) (hl : (node ++ more).length ≤ Config.NODE_CAP)
    (hm : ∀ n ∈ more, EntryOk (node ++ more).length n) : ArenaOk (node ++ more) := by
  refine ArenaOk.iff.2 ⟨hl, fun n hn => ?_⟩
  rcases List.mem_append.1 hn with hn | hn
  · exact ((ArenaOk.iff.1 h).2 n hn).mono (by simp)
  · exact hm n hn

/-- Allocation of a legal entry (R42). -/
theorem alloc_arena {n : Node} {s : State} (h : Arena s) (hn : EntryOk s.ses.node.length n) : (alloc n s).All Arena := by
  unfold alloc
  split
  · exact h
  · rename_i hc
    refine ⟨h.1.append (by simp; omega) ?_, ?_⟩
    · intro m hm
      rw [List.mem_singleton.1 hm]
      exact hn.mono (by simp)
    · intro i hi
      have := h.2 i hi
      simp only [State.setNode_ses, List.length_append]; omega

theorem alloc_idx {n : Node} {s t : State} {i : Idx} (h : alloc n s = .ok i t) : i.toNat < t.ses.node.length := by
  unfold alloc at h
  split at h
  · cases h
  · rename_i hc
    simp only [Res.ok.injEq] at h
    obtain ⟨rfl, rfl⟩ := h
    rw [nextIdx_toNat (by omega)]; simp

/-- QueueInsert of an allocated node (41_ranked_queue.md R130). -/
theorem queueInsert_arena {i : Idx} {s : State} (h : Arena s) (hi : i.toNat < s.ses.node.length) :
    (queueInsert i s).All Arena := by
  unfold queueInsert
  split
  · exact h
  · split
    · trivial
    · split
      · trivial
      · refine ⟨h.1, ?_⟩
        intro j hj
        rcases List.mem_append.1 hj with hj | hj
        · exact h.2 j (List.mem_of_mem_take hj)
        · rcases List.mem_cons.1 hj with rfl | hj
          · exact hi
          · exact h.2 j (List.mem_of_mem_drop hj)

theorem mergeTwo_arena {a b : Idx} {s : State} (h : Arena s) (ha : a.toNat < s.ses.node.length)
    (hb : b.toNat < s.ses.node.length) : (mergeTwo a b s).All Arena := by
  unfold mergeTwo
  split
  · split
    · exact h
    · exact (alloc_arena h (show EntryOk _ (.internal _ a b) from ⟨ha, hb⟩)).andThen fun i t hi ht =>
        (queueInsert_arena ht (alloc_idx hi)).andThen fun _ u _ hu => hu
  · trivial

theorem mergeLoop_arena (fuel : Nat) {s : State} (h : Arena s) : (mergeLoop fuel s).All Arena := by
  induction fuel generalizing s with
  | zero => exact h
  | succ fuel ih =>
    unfold mergeLoop
    split
    · rename_i a b rest hq
      refine (mergeTwo_arena (s := s.setQ rest) ⟨h.1, fun i hi => h.2 i ?_⟩ (h.2 a ?_) (h.2 b ?_)).andThen
        fun _ t _ ht => ih ht
      · rw [hq]; exact List.mem_cons_of_mem _ (List.mem_cons_of_mem _ hi)
      · rw [hq]; exact List.mem_cons_self
      · rw [hq]; exact List.mem_cons_of_mem _ List.mem_cons_self
    · exact h

theorem deriveTree_arena {s : State} (h : Arena s) : (deriveTree s).All Arena := by
  unfold deriveTree
  split
  · trivial
  · exact h

/-- BuildTree() keeps the arena legal (43_tree_builder.md R170). -/
theorem buildTree_arena {s : State} (h : Arena s) : (buildTree s).All Arena := by
  unfold buildTree
  simp only
  split
  · exact h
  · refine (mergeLoop_arena _ (s := (s.setRoot NIL).setTreeValid false) h).andThen fun _ t _ ht => ?_
    unfold queueRemove
    cases hq : t.ses.q with
    | nil => trivial
    | cons i rest =>
      exact deriveTree_arena (s := (t.setQ rest).setRoot i)
        ⟨ht.1, fun j hj => ht.2 j (by rw [hq]; exact List.mem_cons_of_mem _ hj)⟩

/-- The leaves of a frequency table are legal entries (42_frequency_accumulator.md R152). -/
theorem tableLeaves_arena (f : Vector Count 256) : ArenaOk ((tableLeaves f).map leafNode) := by
  refine ArenaOk.iff.2 ⟨?_, ?_⟩
  · have := tableLeaves_length f
    simp [Config.NODE_CAP]; omega
  · intro n hn
    obtain ⟨t, ht, rfl⟩ := List.mem_map.1 hn
    rw [tableLeaves_eq] at ht
    rcases List.mem_append.1 ht with ht | ht
    · obtain ⟨k, hk, rfl⟩ := List.mem_map.1 ht
      have := List.mem_range.1 (List.mem_filter.1 hk).1
      simp only [leafNode, EntryOk, BitVec.toNat_ofNat]; omega
    · rw [List.mem_singleton.1 ht]
      simp [leafNode, EntryOk, pseudoEof]

theorem loadQueue_arena (s : State) : (loadQueue s).All Arena := by
  obtain ⟨q', h, hld⟩ := loadQueue_ok s
  rw [h]
  exact ⟨tableLeaves_arena _, hld.below⟩

/-- The nodes ReadTree() makes (44_tree_codec.md R193, R196): leaves with symbols 0..256, and internal nodes whose
children are among them. -/
theorem parseTree_entries {ends : Bool} {fuel base : Nat} {bs rest : Bits} {nodes : List Node}
    (h : parseTree ends fuel base bs = .ok nodes rest) :
    base + nodes.length ≤ Config.NODE_CAP ∧ ∀ n ∈ nodes, EntryOk (base + nodes.length) n := by
  induction fuel generalizing base bs rest nodes with
  | zero => simp [parseTree] at h
  | succ fuel ih =>
    cases bs with
    | nil => unfold parseTree at h; split at h <;> simp at h
    | cons tag bs =>
      unfold parseTree at h
      split at h
      · simp at h
      · rename_i hcap
        split at h
        · split at h
          · rename_i v rest' hv
            unfold leafValue at h
            split at h
            · rename_i hs
              simp only [Parse.ok.injEq] at h
              obtain ⟨rfl, rfl⟩ := h
              refine ⟨by simp; omega, ?_⟩
              intro n hn
              rw [List.mem_singleton.1 hn]
              simpa [EntryOk, isSymbol] using hs
            · simp at h
          · simp at h
          · simp at h
        · unfold parseKids at h
          cases hl : parseTree ends fuel (base + 1) bs with
          | corrupt r => rw [hl] at h; simp at h
          | starved => rw [hl] at h; simp at h
          | ok ln r =>
            rw [hl] at h
            simp only at h
            cases hr : parseTree ends fuel (base + 1 + ln.length) r with
            | corrupt r' => rw [hr] at h; simp at h
            | starved => rw [hr] at h; simp at h
            | ok rn r' =>
              rw [hr] at h
              simp only [Parse.ok.injEq] at h
              obtain ⟨rfl, rfl⟩ := h
              obtain ⟨h1, h2⟩ := ih hl
              obtain ⟨h3, h4⟩ := ih hr
              obtain ⟨-, -, -, -, -, hlen⟩ := parseTree_ok hr
              refine ⟨by simp; omega, ?_⟩
              intro n hn
              rcases List.mem_cons.1 hn with rfl | hn
              · simp only [Config.NODE_CAP] at h3
                have hpos : 0 < rn.length := by
                  obtain ⟨t, -, -, -, -, hsz⟩ := parseTree_ok hr
                  have := t.size_eq; have := t.leaves_pos; omega
                simp only [EntryOk, BitVec.toNat_ofNat, List.length_cons, List.length_append]
                constructor <;> omega
              · rcases List.mem_append.1 hn with hn | hn
                · exact (h2 n hn).mono (by simp; omega)
                · exact (h4 n hn).mono (by simp; omega)

theorem readTree_arena {s : State} (h : Arena s) : (readTree s).All Arena := by
  unfold readTree
  cases hp : parseTree s.io.bin.ends walkFuel s.ses.node.length s.io.bin.items with
  | corrupt rest => exact h
  | starved => exact h
  | ok nodes rest =>
    obtain ⟨h1, h2⟩ := parseTree_entries hp
    refine ⟨h.1.append (by simpa using h1) (by simpa using h2), ?_⟩
    intro i hi
    have := h.2 i hi
    simp only [State.setNode_ses, List.length_append]; omega

/-! ### No procedure stops the machine on a legal state -/

theorem putBits_live (bs : Bits) (s : State) : (putBits bs s).Live := by
  unfold putBits
  split
  · trivial
  · split <;> trivial

theorem writeWord_live (w : BitVec 8) (s : State) : (writeWord w s).Live := by
  unfold writeWord
  split <;> trivial

theorem readBits_live (n : Nat) (f : FaultKind) (s : State) : (readBits n f s).Live := by
  rcases readBits_cases n f s with ⟨v, rest, -, h⟩ | ⟨-, -, h⟩ | ⟨-, -, h⟩ <;> rw [h] <;> trivial

theorem accumulate_live (xs : List SymVal) (n : Word64) (s : State) : (accumulate xs n s).Live := by
  induction xs generalizing n s with
  | nil => unfold accumulate; split <;> trivial
  | cons x rest ih =>
    unfold accumulate
    simp only
    split
    · trivial
    · split
      · trivial
      · split
        · trivial
        · exact ih _ _

theorem countPass_live (s : State) : (countPass s).Live :=
  (accumulate_live _ _ _).andThen fun _ _ _ => trivial

theorem emitWords_live (xs : List SymVal) (s : State) : (emitWords xs s).Live := by
  induction xs generalizing s with
  | nil => unfold emitWords; split <;> trivial
  | cons x rest ih =>
    unfold emitWords
    simp only
    split
    · trivial
    · split
      · trivial
      · split
        · trivial
        · exact (putBits_live _ _).andThen fun _ t _ => ih t

theorem readTree_live (s : State) : (readTree s).Live := by
  unfold readTree
  cases parseTree s.io.bin.ends walkFuel s.ses.node.length s.io.bin.items <;> trivial

theorem readCounts_live (ks : List Nat) (s : State) : (readCounts ks s).Live := by
  induction ks generalizing s with
  | nil => trivial
  | cons k rest ih =>
    exact ((readBits_live 32 .truncatedStream s).andThen (k := fieldCount k) fun _ _ _ => trivial).andThen
      fun _ t _ => ih t

theorem fieldMagic_live (m : Word32) (s : State) : (fieldMagic m s).Live := by unfold fieldMagic; split <;> trivial

theorem fieldSelector_live (h : Word32) (s : State) : (fieldSelector h s).Live := by
  unfold fieldSelector
  split
  · trivial
  · split <;> trivial

/-- The walk inside a tree of more than one leaf (46_stream_decoder.md R235). -/
theorem walkBits_live (t u : CodeTree) (bs : Bits) (s : State) (ht : IsTree s.ses.node s.ses.root t) (hl : 1 < t.leaves)
    (hu : IsTree s.ses.node s.ses.cur u) (hul : 1 < u.leaves) : (walkBits bs s).Live := by
  induction bs generalizing u s with
  | nil => unfold walkBits; split <;> trivial
  | cons b rest ih =>
    obtain ⟨w, l, r, tl, tr, rfl, hn, hil, hir⟩ := hu.internal_root hul
    obtain ⟨w0, l0, r0, -, -, -, hn0, -, -⟩ := ht.internal_root hl
    have hsub : ∃ sub, IsTree s.ses.node (if b then r else l) sub := by
      cases b
      · exact ⟨tl, hil⟩
      · exact ⟨tr, hir⟩
    obtain ⟨sub, hs⟩ := hsub
    unfold walkBits
    simp only [State.nodeAt, hn]
    generalize hv : (s.setBin rest).setCur (if b then r else l) = v
    have hv1 : v.ses.node = s.ses.node := by rw [← hv]; rfl
    have hv2 : v.ses.cur = if b then r else l := by rw [← hv]; rfl
    have hv3 : v.ses.root = s.ses.root := by rw [← hv]; rfl
    cases sub with
    | leaf y w' =>
      unfold IsTree at hs
      rw [hv1, hv2, hs]
      simp only
      split
      · trivial
      · refine Res.Live.andThen (Res.Live.andThen (writeWord_live _ _) fun _ x hx => ?_) fun _ x hx => ?_
        · have hw := writeWord_ends (y.setWidth 8) v
          rw [hx] at hw
          have e1 : x.ses.node = v.ses.node := hw.same .node (by simp)
          have e2 : x.ses.root = v.ses.root := hw.same .root (by simp)
          unfold backToRoot
          simp only [State.nodeAt, State.setCur_ses, e1, e2, hv1, hv3, hn0]
          trivial
        · obtain ⟨_, z, hz, hx⟩ := Res.andThen_eq_ok.1 hx
          have hw := writeWord_ends (y.setWidth 8) v
          rw [hz] at hw
          have e1 : z.ses.node = v.ses.node := hw.same .node (by simp)
          have e2 : z.ses.root = v.ses.root := hw.same .root (by simp)
          unfold backToRoot at hx
          simp only [State.nodeAt, State.setCur_ses, e1, e2, hv1, hv3, hn0, Res.ok.injEq, true_and] at hx
          subst hx
          refine ih t _ ?_ ?_ hl
          · simpa [e1, e2, hv1, hv3] using ht
          · simpa [e1, e2, hv1, hv3] using ht
    | internal w' a c =>
      obtain ⟨l', r', hn', hl', hr'⟩ := hs
      rw [hv1, hv2, hn']
      simp only
      refine ih (.internal w' a c) v (by rw [hv1, hv3]; exact ht) ?_ (CodeTree.one_lt_leaves w' a c)
      rw [hv1, hv2]; exact ⟨l', r', hn', hl', hr'⟩

/-- Walk() on a tree whose root is no leaf but PSEUDO_EOF (R235, R237). -/
theorem walk_live {s : State} {t : CodeTree} (ht : IsTree s.ses.node s.ses.root t) (hr : 1 < t.leaves ∨ pseudoEof ∈ t.syms) :
    (walk s).Live := by
  unfold walk
  simp only
  cases t with
  | leaf y w =>
    have hy : y = pseudoEof := by
      rcases hr with h | h
      · simp [CodeTree.leaves] at h
      · exact (List.mem_singleton.1 h).symm
    unfold IsTree at ht
    simp only [State.nodeAt, State.setCur_ses, ht, hy, if_true]
    trivial
  | internal w a c =>
    have hl := CodeTree.one_lt_leaves w a c
    obtain ⟨w0, l0, r0, -, -, -, hn0, -, -⟩ := ht.internal_root hl
    simp only [State.nodeAt, State.setCur_ses, hn0]
    exact walkBits_live _ _ _ (s.setCur s.ses.root) ht hl ht hl

/-- The entries of a legal queue are allocated (10_state.md R44). -/
theorem QueueOk.lt {c : Session} (h : QueueOk c) : ∀ i ∈ c.q, i.toNat < c.node.length := by
  intro i hi
  obtain ⟨n, hn⟩ := h.readable i hi
  exact (List.getElem?_eq_some_iff.1 hn).1

/-- An entry that is a leaf stays one when the arena grows (R42). -/
theorem leafAt_append {node more : List Node} {i : Idx} (h : (leafAt node i).isSome = true) :
    (leafAt (node ++ more) i).isSome = true := by
  unfold leafAt at *
  split at h
  · rename_i y w hn; rw [getElem?_append_of_eq_some more hn]; rfl
  · simp at h

/-- After a counting pass SIN is released (42_frequency_accumulator.md R151). -/
theorem countPass_released {s : State} (h : PortsClosed s.io) {a t} (he : countPass s = .ok a t) : PortsClosed t.io := by
  have hen := countPass_ends s
  rw [he] at hen
  rw [countPass] at he
  obtain ⟨b, u, hu, he⟩ := Res.andThen_eq_ok.1 he
  simp only [Res.ok.injEq] at he
  obtain ⟨-, rfl⟩ := he
  have e1 := hen.same .sout (by simp); have e2 := hen.same .bin (by simp); have e3 := hen.same .bout (by simp)
  simp only [Same] at e1 e2 e3
  refine ⟨rfl, ?_, ?_, ?_⟩
  · rw [e1]; exact h.2.1
  · rw [e2]; exact h.2.2.1
  · rw [e3]; exact h.2.2.2

/-- The queue of LoadQueue() is legal (R152). -/
theorem loaded_queueOk {f : Vector Count 256} {q' : List Idx} {c : Session}
    (h : Loaded ((tableLeaves f).map leafNode) q' (rankAll [] (tableLeaves f)))
    (hn : c.node = (tableLeaves f).map leafNode) (hq : c.q = q') : QueueOk c := by
  unfold QueueOk
  rw [hn, hq]
  have hlen := h.trees.length_eq
  rw [show (rankAll [] (tableLeaves f)).length = (tableLeaves f).length from (rankedLeaves_perm f).length_eq] at hlen
  have := tableLeaves_length f
  refine ⟨by rw [hlen]; exact this, h.nodup, ?_, h.order⟩
  intro i hi
  have hlt := h.below i hi
  obtain ⟨n, hnn⟩ : ∃ n, ((tableLeaves f).map leafNode)[i.toNat]? = some n :=
    ⟨_, List.getElem?_eq_some_iff.2 ⟨hlt, rfl⟩⟩
  have hmem := List.mem_of_getElem? hnn
  obtain ⟨t, ht, rfl⟩ := List.mem_map.1 hmem
  have : ∃ y w, t = .leaf y w := by
    rw [tableLeaves_eq] at ht
    rcases List.mem_append.1 ht with ht | ht
    · obtain ⟨k, -, rfl⟩ := List.mem_map.1 ht; exact ⟨_, _, rfl⟩
    · exact ⟨_, _, List.mem_singleton.1 ht⟩
  obtain ⟨y, w, rfl⟩ := this
  unfold leafAt
  rw [hnn]; rfl

/-- The symbols of a tree in a legal arena are legal (R41). -/
theorem isTree_syms {node : List Node} {i : Idx} {t : CodeTree} (ha : ArenaOk node) (h : IsTree node i t) :
    ∀ y ∈ t.syms, y.toNat ≤ 256 := by
  induction t generalizing i with
  | leaf y w =>
    unfold IsTree at h
    have := (ArenaOk.iff.1 ha).2 _ (List.mem_of_getElem? h)
    simpa [CodeTree.syms, EntryOk] using this
  | internal w l r hl hr =>
    obtain ⟨a, b, -, h1, h2⟩ := h
    intro y hy
    rcases List.mem_append.1 hy with hy | hy
    · exact hl h1 y hy
    · exact hr h2 y hy

/-- What DeriveTree() leaves describes the tree (10_state.md R30). -/
theorem derived_treeOk {c : Session} {t : CodeTree} (h : IsTree c.node c.root t) (hl : t.Legal) : TreeOk (c.derived t) :=
  ⟨t, h, hl, rfl, rfl, rfl, rfl⟩

theorem queueOk_nil {c : Session} (h : c.q = []) : QueueOk c := by unfold QueueOk; rw [h]; simp [Config.QCAP]

/-- LoadQueue() then BuildTree() leaves a legal arena. -/
theorem load_build_arena (s : State) : ((loadQueue s).andThen fun _ s => buildTree s).All Arena :=
  (loadQueue_arena s).andThen fun _ _ _ ht => buildTree_arena ht

/-- The tree of a frequency table has a PSEUDO_EOF path (43_tree_builder.md R175 (b)). -/
theorem tableTree_path256 (f : Vector Count 256) : ((tableTree f).pathTable[256]?).getD none ≠ none := by
  have := (CodeTree.pathTable_isSome (t := tableTree f) (k := 256) (by omega)).2
    ⟨pseudoEof, (tableTree_syms _ _).2 (Or.inl rfl), rfl⟩
  intro h; rw [h] at this; cases this

end Sys2Proof.Machine
end

