-- ==== Sys2Proof/Laws/Decode.lean ====
section
/-! SUPPORT. What the fields of a command word are (30_encoding.md R90, R91, R92): of a word made by the encoder, and
of any word the decoder accepts. -/

namespace Sys2Proof

theorem Opcode.code_lt (op : Opcode) : op.code < 256 := by cases op <;> decide

/-- The opcode map names exactly the codes of R92. -/
theorem opcodeOf_eq_some {b : BitVec 8} {op : Opcode} : opcodeOf b = some op ↔ b.toNat = op.code := by
  constructor
  · intro h
    unfold opcodeOf at h
    split at h <;> simp only [Option.some.injEq, reduceCtorEq] at h <;> subst h <;> assumption
  · intro h
    unfold opcodeOf
    rw [h]
    cases op <;> rfl

theorem commandWord_toNat (op : Opcode) (low : Nat) (h : low < 2 ^ 56) :
    (commandWord op low).toNat = op.code * 2 ^ 56 + low := by
  have := op.code_lt
  rw [commandWord, BitVec.toNat_ofNat, Nat.mod_eq_of_lt]
  omega

theorem field_toNat (w : CmdWord) (lo len : Nat) : (field w lo len).toNat = w.toNat / 2 ^ lo % 2 ^ len := by
  rw [field, BitVec.extractLsb'_toNat, Nat.shiftRight_eq_div_pow]

/-- A field below the opcode (R91). -/
theorem field_commandWord (op : Opcode) (low lo len : Nat) (h : low < 2 ^ 56) (hl : lo + len ≤ 56) :
    (field (commandWord op low) lo len).toNat = low / 2 ^ lo % 2 ^ len := by
  rw [field_toNat, commandWord_toNat op low h]
  obtain ⟨k, hk⟩ := Nat.exists_eq_add_of_le hl
  have : op.code * 2 ^ 56 = 2 ^ lo * (2 ^ len * (2 ^ k * op.code)) := by
    rw [hk, Nat.pow_add, Nat.pow_add]; ac_rfl
  rw [this, Nat.mul_add_div (Nat.two_pow_pos lo), Nat.mul_add_mod]

/-- A one-bit field of any word. -/
theorem flagField_eq (w : CmdWord) (bit : Nat) : flagField w bit = decide (w.toNat / 2 ^ bit % 2 = 1) := by
  rw [flagField, BitVec.getLsbD, Nat.testBit_eq_decide_div_mod_eq]

/-- A one-bit field below the opcode (R91). -/
theorem flagField_commandWord (op : Opcode) (low bit : Nat) (h : low < 2 ^ 56) (hb : bit < 56) :
    flagField (commandWord op low) bit = decide (low / 2 ^ bit % 2 = 1) := by
  have h1 := field_commandWord op low bit 1 h (by omega)
  rw [field_toNat, Nat.pow_one] at h1
  rw [flagField_eq, h1]

/-- The decoder accepts a word of the encoder whose reserved bits are 0 (R90, R92). -/
theorem decode_commandWord (op : Opcode) (low : Nat) (h : low < 2 ^ 56)
    (hr : low / 2 ^ op.format.reserved.1 % 2 ^ op.format.reserved.2 = 0) :
    decode (commandWord op low) = .ok (operands op (commandWord op low)) := by
  have h1 : opcodeOf (field (commandWord op low) 56 8) = some op := by
    rw [opcodeOf_eq_some, field_toNat, commandWord_toNat op low h]
    have := op.code_lt
    omega
  have h2 : field (commandWord op low) op.format.reserved.1 op.format.reserved.2 = 0 := by
    apply BitVec.eq_of_toNat_eq
    rw [field_commandWord op low _ _ h (by cases op <;> decide), hr]; simp
  rw [decode, h1]
  simp only
  rw [if_pos h2]

/-- What the decoder accepts (R90, R92): a known opcode with its format's reserved bits 0. -/
theorem decode_eq_ok {w : CmdWord} {i : Instr} : decode w = .ok i ↔
    ∃ op : Opcode, w.toNat / 2 ^ 56 = op.code ∧
      w.toNat / 2 ^ op.format.reserved.1 % 2 ^ op.format.reserved.2 = 0 ∧ i = operands op w := by
  have hw := w.isLt
  constructor
  · intro h
    unfold decode at h
    split at h
    · simp at h
    · rename_i op ho
      split at h
      · rename_i hr
        refine ⟨op, ?_, ?_, ?_⟩
        · rw [opcodeOf_eq_some, field_toNat] at ho; omega
        · rw [← field_toNat, hr]; simp
        · simpa using h.symm
      · simp at h
  · rintro ⟨op, ho, hr, rfl⟩
    have h1 : opcodeOf (field w 56 8) = some op := by rw [opcodeOf_eq_some, field_toNat]; omega
    have h2 : field w op.format.reserved.1 op.format.reserved.2 = 0 := by
      apply BitVec.eq_of_toNat_eq
      rw [field_toNat, hr]; simp
    rw [decode, h1]
    simp only
    rw [if_pos h2]

end Sys2Proof
end

