-- ==== Sys2Proof/Laws/PerInstr.lean ====
section
/-! SUPPORT. Statements about every instruction, one lemma per constructor: its encoding has the number of bits the
spec's opcode table gives its row. -/

namespace Sys2Proof.Laws.EncodedWidth

/-- The number of bits of an instruction's row (30_encoding.md R90, R98, R103). -/
def width : Instr → Nat
  | .wireMagic _ | .wireSelector _ | .wireCount _ _ | .wireTreeSize _ => 32
  | .wireTreeLeaf _ => 10
  | .wireTreeInternal => 1
  | .clr | .rdreg _ | .qins _ _ _ | .qrem | .qpeek | .qsize | .facc | .qload | .fset _ _ | .fget _ | .build
  | .nget _ | .pget _ | .wtree | .rtree | .prep _ | .emit _ | .decode => 64

/-- The encoder writes exactly the bits of the row. -/
def Statement (i : Instr) : Prop := (encode i).length = width i

theorem clr : Statement .clr := bitsOf_length _
theorem rdreg (num : BitVec 10) : Statement (.rdreg num) := bitsOf_length _
theorem qins (v : Bool) (sym : SymVal) (weight : Weight) : Statement (.qins v sym weight) := bitsOf_length _
theorem qrem : Statement .qrem := bitsOf_length _
theorem qpeek : Statement .qpeek := bitsOf_length _
theorem qsize : Statement .qsize := bitsOf_length _
theorem facc : Statement .facc := bitsOf_length _
theorem qload : Statement .qload := bitsOf_length _
theorem fset (sym : SymVal) (count : Count) : Statement (.fset sym count) := bitsOf_length _
theorem fget (sym : SymVal) : Statement (.fget sym) := bitsOf_length _
theorem build : Statement .build := bitsOf_length _
theorem nget (num : Idx) : Statement (.nget num) := bitsOf_length _
theorem pget (sym : SymVal) : Statement (.pget sym) := bitsOf_length _
theorem wtree : Statement .wtree := bitsOf_length _
theorem rtree : Statement .rtree := bitsOf_length _
theorem prep (hdr : Bool) : Statement (.prep hdr) := bitsOf_length _
theorem emit (force : Bool) : Statement (.emit force) := bitsOf_length _
theorem decode : Statement .decode := bitsOf_length _
theorem wireMagic (m : Word32) : Statement (.wireMagic m) := bitsOf_length m
theorem wireSelector (h : Word32) : Statement (.wireSelector h) := bitsOf_length h
theorem wireCount (sym : BitVec 8) (c : Word32) : Statement (.wireCount sym c) := bitsOf_length c
theorem wireTreeSize (t : Word32) : Statement (.wireTreeSize t) := bitsOf_length t
theorem wireTreeLeaf (s : SymVal) : Statement (.wireTreeLeaf s) := congrArg Nat.succ (bitsOf_length s)
theorem wireTreeInternal : Statement .wireTreeInternal := rfl

end Sys2Proof.Laws.EncodedWidth
end

