-- ==== Sys2Proof/Tests/Slice0.lean ====
section
/-! SUPPORT. Tests: operand checks, command words and stream fields written out from the spec's encodings, one step of
each instruction with the values of spec/95_test_vectors.md, and, for every statement that has hypotheses, a state and
operands that meet them (one theorem per clause, at a boundary of its range). -/

set_option Elab.async false

namespace Sys2Proof.Tests

open Sys2Proof Sys2Proof.Machine

/-! ### Helpers -/

/-- RC, RES0, RES1 and STATUS after a step; none where the machine stopped. -/
def reply : Result → Option (Nat × Nat × Nat × Nat)
  | .next t => some (t.rsp.rc.toNat, t.rsp.res0.toNat, t.rsp.res1.toNat, t.status.word.toNat)
  | _ => none

/-- A part of the state after a step. -/
def seen {α : Type} (f : State → α) : Result → Option α
  | .next t => some (f t)
  | _ => none

/-- The step gives a next state without a fault recorded. -/
def goesOn : Result → Bool
  | .next t => t.status.fault == none
  | _ => false

/-- The step ends in a response to a command. -/
def answered : Result → Bool
  | .next t => t.status.fault == none && !t.io.busy
  | _ => false

theorem of_goesOn {r : Result} (h : goesOn r = true) : ∃ t, r = .next t ∧ t.status.fault = none := by
  match r, h with
  | .next t, h => exact ⟨t, rfl, by simpa [goesOn] using h⟩

theorem of_answered {r : Result} (h : answered r = true) :
    ∃ t, r = .next t ∧ t.status.fault = none ∧ t.io.busy = false := by
  match r, h with
  | .next t, h => exact ⟨t, rfl, by simpa [answered] using h⟩

/-- The bits of a string of 0 and 1. -/
def bs (l : List Nat) : Bits := l.map (· == 1)

/-- SIN items with `END` behind them. -/
def withSin (xs : List SymVal) (s : State) : State :=
  { s with io := { s.io with sin := ⟨xs, true, false⟩ } }

/-- Bits on BIN with the end behind them. -/
def withBin (xs : Bits) (s : State) : State := { s with io := { s.io with bin := ⟨xs, true, false⟩ } }

/-- The state after reset with this frequency table. -/
def withFreq (cs : List (Nat × Count)) : State := cs.foldl (fun s c => s.setFreq c.1 c.2) State.reset

/-- The queue of spec/95_test_vectors.md QU1 after its row 4. -/
def queued : State :=
  { State.reset with ses := { Session.fresh with
      node := [.leaf 0x41 3, .leaf 0x42 2, .leaf 0x43 1, .leaf 256 1], q := [2, 3, 1, 0] } }

/-- The tree of spec/95_test_vectors.md 1.2. -/
def treeZ : CodeTree := .internal 6 (.leaf 256 1) (.leaf 0x5A 5)

/-- The session of spec/95_test_vectors.md 1.2 after step 1. -/
def sessionZ : Session where
  cur := NIL
  root := 2
  size := 3
  numleaf := 2
  treeBits := 21
  hdrTreeBits := 0
  origBits := 40
  projBits := 123
  outBits := 0
  savings := 0xFFFFFFFFFFFFFFAD
  freq := (Vector.replicate 256 0).setIfInBounds 0x5A 5
  node := [.leaf 0x5A 5, .leaf 256 1, .internal 6 1 0]
  q := []
  path := treeZ.pathTable

/-- The machine of spec/95_test_vectors.md 1.2 after step 1, STATUS `0x0190`. -/
def prepared : State :=
  { State.reset with
    ses := sessionZ
    status := { Status.fresh with prepped := true, treeValid := true, hdrsel := true } }

/-- A faulted session: spec/95_test_vectors.md SY2 after `RDREG 13`. -/
def faulted : State :=
  { State.reset with rsp := ⟨15, 0, 0, 0⟩, status := { Status.fresh with fault := some .illegalCommand } }

/-- DECODE or RTREE in the middle of its stream: BIN is held, the decoder is in the given state. -/
def reading (d : DState) (hdrsel : Bool) : State :=
  { State.reset with
    status := { Status.fresh with dstate := d, hdrsel := hdrsel }
    io := { Ports.quiet with bin := ⟨[], true, true⟩ } }

/-- The state after reset with this arena and this queue. -/
def withArena (node : List Node) (q : List Idx) : State :=
  { State.reset with ses := { Session.fresh with node := node, q := q } }

/-- One command with nothing on its streams. -/
def offer (w : CmdWord) : Offer := plainOffer w []

/-- The host's next act. -/
def given (a : HostAct) (s : State) : State := { s with host := [a] }

/-- A path in a table, and none, by evaluation. -/
theorem hasPath_of {v : Vector PathEntry 257} {k : Nat} (h : ((v[k]?).getD none).isSome = true) : HasPath v k := h

theorem no_path_of {v : Vector PathEntry 257} {k : Nat} (h : ((v[k]?).getD none).isSome = false) : ¬ HasPath v k :=
  fun h' => Bool.noConfusion (h.symm.trans h')

theorem hasPaths_of {v : Vector PathEntry 257} {xs : List SymVal}
    (h : xs.all (fun x => ((v[x.toNat]?).getD none).isSome) = true) : ∀ x ∈ xs, HasPath v x.toNat :=
  fun x hx => List.all_eq_true.1 h x hx

theorem takes_none (n : Nat) : Takes none n := fun _ h => nomatch h

theorem takes_some (n : Nat) : Takes (some n) n := fun _ h => Option.some.inj h ▸ Nat.le_refl _

/-! ### Operand checks: an ill-formed term each, and the last value allowed (30_encoding.md R93, R108) -/

theorem test_wf_rdreg : (Instr.rdreg 13).WellFormed = false ∧ (Instr.rdreg 12).WellFormed = true := by decide
theorem test_wf_qins_null : Instr.qinsNull.WellFormed = false ∧ (Instr.qins true 0 0).WellFormed = true := by decide
theorem test_wf_qins_sym :
    (Instr.qins true 257 1).WellFormed = false ∧ (Instr.qins true 256 1).WellFormed = true := by decide
theorem test_wf_fset : (Instr.fset 256 1).WellFormed = false ∧ (Instr.fset 255 1).WellFormed = true := by decide
theorem test_wf_fget : (Instr.fget 256).WellFormed = false ∧ (Instr.fget 255).WellFormed = true := by decide
theorem test_wf_pget : (Instr.pget 257).WellFormed = false ∧ (Instr.pget 256).WellFormed = true := by decide
theorem test_wf_leaf :
    (Instr.wireTreeLeaf 257).WellFormed = false ∧ (Instr.wireTreeLeaf 256).WellFormed = true := by decide

/-! ### Command words: spec/95_test_vectors.md 2.1 -/

theorem test_decode_clr : decode 0x0100000000000000#64 = .ok .clr := rfl
theorem test_decode_rdreg : decode 0x0200000000000005#64 = .ok (.rdreg 5) := rfl
theorem test_decode_qins : decode 0x1080820000000003#64 = .ok (.qins true 65 3) := rfl
theorem test_decode_qins_peof : decode 0x1082000000000001#64 = .ok (.qins true PEOF 1) := rfl
theorem test_decode_qins_null_set : decode 0x1000820000000003#64 = .ok (.qins false 65 3) := rfl
theorem test_decode_qpeek : decode 0x1200000000000000#64 = .ok .qpeek := rfl
theorem test_decode_qsize : decode 0x1300000000000000#64 = .ok .qsize := rfl
theorem test_decode_qrem_bit20 : decode 0x1100000000100000#64 = .error .reservedBit := rfl
theorem test_decode_facc : decode 0x2000000000000000#64 = .ok .facc := rfl
theorem test_decode_qload : decode 0x2100000000000000#64 = .ok .qload := rfl
theorem test_decode_fset : decode 0x220000FFFFFFFFFF#64 = .ok (.fset 0xFF 0xFFFFFFFF) := rfl
theorem test_decode_fget : decode 0x2300000000000041#64 = .ok (.fget 65) := rfl
theorem test_decode_build : decode 0x3000000000000000#64 = .ok .build := rfl
theorem test_decode_nget : decode 0x31000000000003FF#64 = .ok (.nget 0x3FF) := rfl
theorem test_decode_pget : decode 0x3200000000000100#64 = .ok (.pget PEOF) := rfl
theorem test_decode_wtree : decode 0x4000000000000000#64 = .ok .wtree := rfl
theorem test_decode_rtree : decode 0x4100000000000000#64 = .ok .rtree := rfl
theorem test_decode_prep : decode 0x5000000000000000#64 = .ok (.prep false) := rfl
theorem test_decode_emit : decode 0x5100000000000000#64 = .ok (.emit false) := rfl
theorem test_decode_emit_force : decode 0x5100000000000001#64 = .ok (.emit true) := rfl
theorem test_decode_decode : decode 0x6000000000000000#64 = .ok .decode := rfl
theorem test_decode_reserved_opcodes :
    decode 0x0300000000000000#64 = .error .reservedOpcode ∧ decode 0x1400000000000000#64 = .error .reservedOpcode ∧
    decode 0x3300000000000000#64 = .error .reservedOpcode ∧ decode 0xFF00000000000000#64 = .error .reservedOpcode :=
  ⟨rfl, rfl, rfl, rfl⟩
theorem test_decode_clr_bit0 : decode 0x0100000000000001#64 = .error .reservedBit := rfl
theorem test_decode_rdreg_bit10 : decode 0x0200000000000400#64 = .error .reservedBit := rfl
theorem test_decode_pget_bit9 : decode 0x3200000000000200#64 = .error .reservedBit := rfl
theorem test_decode_fset_bit41 : decode 0x2200024100000003#64 = .error .reservedBit := rfl
theorem test_decode_qins_bit50 : decode 0x1084820000000003#64 = .error .reservedBit := rfl
theorem test_decode_prep_bit1 : decode 0x5000000000000002#64 = .error .reservedBit := rfl

/-- The encoder on the field check of spec/95_test_vectors.md 2.1. -/
theorem test_encode_fields :
    encodeWord (.qins true 65 3) = some 0x1080820000000003#64 ∧ encodeWord (.fset 65 3) = some 0x2200004100000003#64 :=
  ⟨rfl, rfl⟩

/-! ### Fields of the compressed stream (30_encoding.md R98, R103), from the bytes of CP1 and CP2 -/

/-- CP1: `FA CE 82 00`. -/
theorem test_field_magic : decodeField .magic (natToBits 40 0xFACE8200FF) =
    some (.wireMagic 0xFACE8200, bs [1, 1, 1, 1, 1, 1, 1, 1]) := by decide +kernel
/-- CP1: `FA CE 82 02`. -/
theorem test_field_selector : decodeField .selector (natToBits 32 0xFACE8202) =
    some (.wireSelector 0xFACE8202, []) := by decide +kernel
/-- CP2: count 0x41 is `00 00 00 03`. -/
theorem test_field_count : decodeField (.count 0x41) (natToBits 32 0x00000003) =
    some (.wireCount 0x41 3, []) := by decide +kernel
/-- CP1: tree size 43 is `00 00 00 2B`. -/
theorem test_field_treeSize : decodeField .treeSize (natToBits 32 0x0000002B) =
    some (.wireTreeSize 43, []) := by decide +kernel
/-- 1.3: the payload `1100000000` is the PSEUDO_EOF leaf. -/
theorem test_field_leaf : decodeField .treeNode (bs [1, 1, 0, 0, 0, 0, 0, 0, 0, 0, 1]) =
    some (.wireTreeLeaf 256, [true]) := by decide +kernel
/-- 1.2: the payload `0 1100000000 ...` starts with an internal node. -/
theorem test_field_internal : decodeField .treeNode (bs [0, 1, 1]) = some (.wireTreeInternal, [true, true]) := by
  decide +kernel
/-- 1.4: a leaf value cut after 6 of 9 bits is no field. -/
theorem test_field_cut : decodeField .treeNode (bs [1, 0, 0, 1, 0, 0, 0]) = none := by decide +kernel

/-! ### One step of each instruction, with the values of spec/95_test_vectors.md -/

/-- SY2. -/
theorem test_clr : reply (exec .clr faulted) = some (0, 0, 0, 0) := by decide +kernel
/-- SY1: ROOT after reset. -/
theorem test_rdreg : reply (exec (.rdreg 3) State.reset) = some (0, 0x3FF, 0, 0) := by decide +kernel
/-- SY2: RDREG 13. -/
theorem test_rdreg_reserved : reply (exec (.rdreg 13) State.reset) = some (15, 0, 0, 0x0007) := by decide +kernel
/-- QU1 row 4: behind the entry of equal weight. -/
theorem test_qins :
    let s := { queued with ses := { queued.ses with node := queued.ses.node.take 3, q := [2, 1, 0] } }
    reply (exec (.qins true 256 1) s) = some (0, 3, 1, 0) ∧
      seen (·.ses.q) (exec (.qins true 256 1) s) = some [2, 3, 1, 0] := by decide +kernel
/-- QU3. -/
theorem test_qins_null : reply (exec .qinsNull State.reset) = some (9, 0, 0, 0x0001) := by decide +kernel
/-- QU1 row 7. -/
theorem test_qrem :
    reply (exec .qrem queued) = some (0, 0x000C860000000001, 0x002FFFFF, 0) ∧
      seen (·.ses.q) (exec .qrem queued) = some [3, 1, 0] := by decide +kernel
/-- QU1 row 11. -/
theorem test_qrem_empty : reply (exec .qrem State.reset) = some (1, 0, 0x3FFFFFFF, 0x0040) := by decide +kernel
/-- QU1 row 6. -/
theorem test_qpeek :
    reply (exec .qpeek queued) = some (0, 0x000C860000000001, 0x002FFFFF, 0) ∧
      seen (·.ses.q) (exec .qpeek queued) = some [2, 3, 1, 0] := by decide +kernel
/-- QU1 row 12. -/
theorem test_qpeek_empty : reply (exec .qpeek State.reset) = some (1, 0, 0x3FFFFFFF, 0x0040) := by decide +kernel
/-- QU1 row 5. -/
theorem test_qsize : reply (exec .qsize queued) = some (0, 4, 0, 0) := by decide +kernel
/-- FR2: the marker ends the pass, what stands behind it is not read, counts add up. -/
theorem test_facc :
    let r := exec .facc (withSin [0x41, 0x100, 0x42] (withFreq [(0x41, 3), (0x42, 2)]))
    reply r = some (0, 1, 1, 0) ∧ seen (fun t => (t.freqAt 0x41, t.freqAt 0x42, t.io.sin.items)) r =
      some (4, 2, [0x42]) := by decide +kernel
/-- FR6: a full counter does not wrap. -/
theorem test_facc_full :
    reply (exec .facc (withSin [0xFF] (withFreq [(0xFF, 0xFFFFFFFF)]))) = some (14, 0, 0, 0x0006) := by decide +kernel
/-- FR10. -/
theorem test_qload :
    let r := exec .qload (withFreq [(0x61, 1), (0x62, 2), (0x63, 4)])
    reply r = some (0, 4, 0, 0) ∧ seen (fun t => (t.ses.node, t.ses.q)) r =
      some ([.leaf 0x61 1, .leaf 0x62 2, .leaf 0x63 4, .leaf 256 1], [0, 3, 1, 2]) := by decide +kernel
/-- CUR names the third entry, which the new arena has, and has not (10_state.md R22; log 15). -/
theorem test_qload_cur :
    let at2 (s : State) := { s with ses := { s.ses with cur := 2 } }
    seen (·.ses.cur) (exec .qload (at2 (withFreq [(0x61, 1), (0x62, 2)]))) = some 2 ∧
      seen (·.ses.cur) (exec .qload (at2 (withFreq [(0x61, 1)]))) = some 0x3FF := by decide +kernel
/-- FR6. -/
theorem test_fset : seen (·.freqAt 0xFF) (exec (.fset 0xFF 0xFFFFFFFF) State.reset) = some 0xFFFFFFFF := by
  decide +kernel
/-- FR7. -/
theorem test_fset_peof : reply (exec (.fset PEOF 1) State.reset) = some (9, 0, 0, 0x0001) := by decide +kernel
/-- FR6. -/
theorem test_fget : reply (exec (.fget 0xFF) (withFreq [(0xFF, 0xFFFFFFFF)])) = some (0, 0xFFFFFFFF, 0, 0) := by
  decide +kernel
/-- FR8. -/
theorem test_fget_peof : reply (exec (.fget PEOF) State.reset) = some (9, 0, 0, 0x0001) := by decide +kernel
/-- 1.1 step 3 and its three merges. -/
theorem test_build :
    reply (exec .build queued) = some (0, 7, 4, 0x0080) ∧
      seen (fun t => (t.ses.root, t.ses.treeBits, t.ses.node.drop 4)) (exec .build queued) =
        some (6, 43, [.internal 2 2 3, .internal 4 1 4, .internal 7 0 5]) ∧
      seen (fun t => (pathBits t.ses.path 0x43, pathBits t.ses.path 256)) (exec .build queued) =
        some ([true, true, false], [true, true, true]) := by decide +kernel
/-- QU3, the last row: the merged weight `2^41` does not fit. -/
theorem test_build_weight :
    reply (exec .build { State.reset with ses := { Session.fresh with
      node := [.leaf 256 0x1FFFFFFFFFF, .leaf 0 1], q := [1, 0] } }) = some (14, 0, 0, 0x0006) := by decide +kernel
/-- 1.2: NODE[2] = Internal(6, 1, 0), as TB1 lays an internal node out. -/
theorem test_nget : reply (exec (.nget 2) prepared) = some (0, 0x0008000000000006, 0x00200001, 0x0190) := by
  decide +kernel
/-- TB11. -/
theorem test_nget_none : reply (exec (.nget 0) State.reset) = some (0, 0, 0x3FFFFFFF, 0) := by decide +kernel
/-- 1.2: PATH[0x5A] = `1`; TB12 gives the image of that path. -/
theorem test_pget :
    reply (exec (.pget 0x5A) prepared) = some (0, 0x201, 0, 0x0190) ∧
      seen (·.rsp.resPath.toNat) (exec (.pget 0x5A) prepared) = some (0x80 * 2 ^ 248) := by decide +kernel
/-- TB10. -/
theorem test_pget_no_symbol : reply (exec (.pget 257) State.reset) = some (9, 0, 0, 0x0001) := by decide +kernel
/-- TB7. -/
theorem test_wtree :
    reply (exec .wtree prepared) = some (0, 0x15, 0, 0x0190) ∧ seen (·.io.bout.sent) (exec .wtree prepared) =
      some (bs [0, 1, 1, 0, 0, 0, 0, 0, 0, 0, 0, 1, 0, 0, 1, 0, 1, 1, 0, 1, 0]) := by decide +kernel
/-- CD16. -/
theorem test_wtree_none : reply (exec .wtree State.reset) = some (10, 0, 0, 0x0002) := by decide +kernel
/-- CD11: the later visit wins. CUR names the fourth entry, which the new arena has not (10_state.md R22; log 15). -/
theorem test_rtree :
    let s := { State.reset with ses := { Session.fresh with cur := 3 } }
    let r := exec .rtree (withBin (bs [0, 1, 0, 0, 1, 0, 0, 0, 0, 0, 1, 1, 0, 0, 1, 0, 0, 0, 0, 0, 1]) s)
    reply r = some (0, 3, 2, 0x0080) ∧ seen (fun t => (t.ses.node, pathBits t.ses.path 0x41, t.ses.cur)) r =
      some ([.internal 1 1 2, .leaf 0x41 1, .leaf 0x41 1], [true], 0x3FF) := by decide +kernel
/-- CD8: the right subtree's tag is missing. -/
theorem test_rtree_cut :
    reply (exec .rtree (withBin (bs [0, 1, 0, 0, 1, 0, 0, 0, 0, 0, 1]) State.reset)) = some (12, 0, 0, 0x0004) := by
  decide +kernel
/-- 1.2 step 1: the tree and the metrics. -/
theorem test_prep :
    let r := exec (.prep true) (withSin [0x5A, 0x5A, 0x5A, 0x5A, 0x5A] State.reset)
    seen (fun t => (t.rsp.rc, t.ses.node, t.status.word)) r =
        some (0, [.leaf 0x5A 5, .leaf 256 1, .internal 6 1 0], 0x0190) ∧
      seen (fun t => (t.ses.root, t.ses.origBits, t.ses.treeBits)) r = some (2, 40, 21) := by decide +kernel
/-- CP10. -/
theorem test_prep_no_symbol :
    reply (exec (.prep true) (withSin [0x41, 0x12C] State.reset)) = some (9, 0, 0, 0x0101) := by decide +kernel
/-- 1.2 step 2. -/
theorem test_emit :
    let r := exec (.emit true) (withSin [0x5A, 0x5A, 0x5A, 0x5A, 0x5A] prepared)
    reply r = some (0, 0x7B, 0x7B, 0x0190) ∧ seen (·.io.bout.sent) r =
      some ((natToBits 128 0xFACE8200FACE8202000000156012D7C0).take 123) := by decide +kernel
/-- The decline rule on the state of 1.2, as 1.3 step 2 answers it. -/
theorem test_emit_declines :
    let r := exec (.emit false) (withSin [0x5A] prepared)
    reply r = some (2, 0, 0x7B, 0x01B0) ∧ seen (·.io.sin.items) r = some [0x5A] := by decide +kernel
/-- 1.2 step 3. -/
theorem test_decode :
    let r := exec .decode (withBin ((natToBits 128 0xFACE8200FACE8202000000156012D7C0).take 123) State.reset)
    reply r = some (0, 0x28, 0, 0x0B80) ∧ seen (fun t => (t.io.sout.sent, t.io.bin.items)) r =
      some ([0x5A, 0x5A, 0x5A, 0x5A, 0x5A], []) := by decide +kernel
/-- DE15: the root is a data leaf. -/
theorem test_decode_data_root :
    let r := exec .decode
      (withBin (natToBits 96 0xFACE8200FACE82020000000A ++ bs [1, 0, 0, 1, 0, 0, 0, 0, 0, 1, 0, 1, 0, 1]) State.reset)
    reply r = some (12, 0, 0, 0x0704) ∧ seen (·.io.bin.items) r = some (bs [0, 1, 0, 1]) := by decide +kernel
/-- DE6: `FA CE 82 01` is no magic. -/
theorem test_wireMagic :
    reply (exec (.wireMagic 0xFACE8201) (reading .expectMagic false)) = some (11, 0, 0, 0x0203) := by decide +kernel
/-- DE9: the magic is no selector. -/
theorem test_wireSelector :
    reply (exec (.wireSelector 0xFACE8200) (reading .expectHeaderSelector false)) = some (12, 0, 0, 0x0404) := by
  decide +kernel
/-- DE22: the largest count is accepted. -/
theorem test_wireCount :
    seen (·.freqAt 0) (exec (.wireCount 0 0xFFFFFFFF) (reading .expectHeaderPayload false)) = some 0xFFFFFFFF := by
  decide +kernel
/-- DE18: the tree size is stored whatever it is. -/
theorem test_wireTreeSize :
    seen (·.ses.hdrTreeBits) (exec (.wireTreeSize 0xFFFFFFFF) (reading .expectHeaderPayload true)) =
      some 0xFFFFFFFF := by decide +kernel
/-- CD9: leaf value 257. -/
theorem test_wireTreeLeaf : reply (exec (.wireTreeLeaf 257) (reading .idle false)) = some (12, 0, 0, 0x0004) := by
  decide +kernel
/-- CD11, its first field: the two subtrees that follow become the children. -/
theorem test_wireTreeInternal :
    let s := reading .idle false
    seen (·.ses.node) (exec .wireTreeInternal { s with io := { s.io with bin :=
      ⟨bs [1, 0, 0, 1, 0, 0, 0, 0, 0, 1, 1, 0, 0, 1, 0, 0, 0, 0, 0, 1], true, true⟩ } }) =
      some [.internal 1 1 2, .leaf 0x41 1, .leaf 0x41 1] := by decide +kernel
/-- SY3: a word with a reserved opcode, then the same word in the faulted session. -/
theorem test_illegal_word :
    reply (step (given (.command (offer 0x0300000000000000)) State.reset)) = some (15, 0, 0, 0x0007) ∧
      reply (step (given (.command (offer 0x0300000000000000)) faulted)) = some (3, 0, 0, 0x0007) := by decide +kernel
/-- P1: the first command runs from reset. -/
theorem test_first_command :
    reply (step (State.reset.withFetchWord 64 0x1080820000000003)) = some (0, 0, 0, 0) := by decide +kernel

/-! ### Invariants of the states used below -/

theorem queued_queueOk : QueueOk queued.ses := by
  refine ⟨by decide, by decide, by decide, ?_⟩
  have h (i j : Idx) (a b : Node) (hi : queued.ses.node[i.toNat]? = some a) (hj : queued.ses.node[j.toNat]? = some b)
      (h : a.weight < b.weight ∨ (a.weight = b.weight ∧ i.toNat < j.toNat)) : Before queued.ses.node i j :=
    ⟨a, b, hi, hj, h⟩
  show List.Pairwise _ [2, 3, 1, 0]
  simp only [List.pairwise_cons, List.mem_cons, List.not_mem_nil, or_false, forall_eq_or_imp, forall_eq,
    false_implies, implies_true, List.Pairwise.nil, and_true]
  refine ⟨⟨h _ _ _ _ rfl rfl ?_, h _ _ _ _ rfl rfl ?_, h _ _ _ _ rfl rfl ?_⟩,
    ⟨h _ _ _ _ rfl rfl ?_, h _ _ _ _ rfl rfl ?_⟩, h _ _ _ _ rfl rfl ?_⟩ <;> decide

theorem treeZ_legal : treeZ.Legal := by constructor <;> decide

theorem sessionZ_isTree : IsTree sessionZ.node sessionZ.root treeZ := ⟨1, 0, rfl, rfl, rfl⟩

theorem sessionZ_treeOk : TreeOk sessionZ :=
  ⟨treeZ, sessionZ_isTree, treeZ_legal, by decide, by decide, by decide, rfl⟩

theorem prepared_sessionOk : SessionOk prepared.status prepared.ses := by
  refine ⟨⟨by decide, ?_⟩,
    ⟨by decide, List.nodup_nil, fun i h => absurd h (List.not_mem_nil (a := i)), List.Pairwise.nil⟩, sessionZ_treeOk,
    fun _ => ⟨rfl, by decide +kernel⟩, .inl rfl⟩
  intro n hn
  have : n ∈ [Node.leaf 0x5A 5, .leaf 256 1, .internal 6 1 0] := hn
  simp only [List.mem_cons, List.not_mem_nil, or_false] at this
  rcases this with rfl | rfl | rfl <;> decide

theorem prepared_inv : Inv prepared :=
  ⟨.inl rfl, fun _ => ⟨rfl, rfl, rfl, rfl⟩, fun h => absurd rfl h, fun _ _ => ⟨prepared_sessionOk, .inl rfl⟩⟩
/-! ### Witnesses: what the statements assume is met, each clause at a boundary of its range -/

theorem test_witness_ResetAbandonsCommand :
    (given .reset { prepared with io := { prepared.io with busy := true } }).host = .reset :: [] := rfl
theorem test_witness_StepRunsDecoded :
    let s := given (.command (offer 0x1080820000000003)) State.reset
    s.host = .command (offer 0x1080820000000003) :: [] ∧ s.io.busy = false ∧
      decode (offer 0x1080820000000003).word = .ok (.qins true 65 3) := ⟨rfl, rfl, rfl⟩
theorem test_witness_BusySamplesNothing :
    let s := given (.command (offer 0)) { State.reset with io := { Ports.quiet with busy := true } }
    (s.host = .command (offer 0) :: [] ∧ s.io.busy = true) ∧ State.reset.host = [] := ⟨⟨rfl, rfl⟩, rfl⟩
theorem test_witness_IllegalWordTraps :
    let s := given (.command (offer 0xFFFFFFFFFFFFFFFF)) State.reset
    s.host = .command (offer 0xFFFFFFFFFFFFFFFF) :: [] ∧ s.io.busy = false ∧ s.status.fault = none ∧
      decode (offer 0xFFFFFFFFFFFFFFFF).word = .error .reservedOpcode := ⟨rfl, rfl, rfl, rfl⟩
/-- Once with an illegal word, once with a legal one. -/
theorem test_witness_FaultedSessionRefuses :
    ∀ w ∈ [0x0100000000000001#64, 0x1300000000000000#64],
      let s := given (.command (offer w)) faulted
      s.host = .command (offer w) :: [] ∧ s.io.busy = false ∧ s.status.fault = some .illegalCommand ∧
        (offer w).word ≠ 0x0100000000000000#64 := by
  intro w hw
  refine ⟨rfl, rfl, rfl, ?_⟩
  simp only [List.mem_cons, List.not_mem_nil, or_false] at hw
  rcases hw with rfl | rfl <;> decide

/-- The fault an instruction ends in from a session without one. -/
def faultOf (i : Instr) (s : State) : Option FaultKind := (seen (·.status.fault) (exec i s)).getD none

theorem of_faultOf {i : Instr} {s : State} {f : FaultKind} (h : faultOf i s = some f) :
    ∃ t, exec i s = .next t ∧ t.status.fault = some f := by
  unfold faultOf at h
  cases he : exec i s with
  | next t => rw [he] at h; exact ⟨t, rfl, h⟩
  | fault => rw [he] at h; cases h
  | refused => rw [he] at h; cases h

/-- Every fault is raised by some instruction. -/
theorem test_witness_FaultsPerCommand : ∀ f : FaultKind,
    ∃ (i : Instr) (s t : State), s.status.fault = none ∧ exec i s = .next t ∧ t.status.fault = some f := by
  intro f
  have h (i : Instr) (s : State) (hs : s.status.fault = none) (h : faultOf i s = some f) :
      ∃ (i : Instr) (s t : State), s.status.fault = none ∧ exec i s = .next t ∧ t.status.fault = some f :=
    let ⟨t, h1, h2⟩ := of_faultOf h
    ⟨i, s, t, hs, h1, h2⟩
  cases f with
  | invalidArgument => exact h (.pget 257) State.reset rfl (by decide +kernel)
  | preconditionViolation => exact h .wtree State.reset rfl (by decide +kernel)
  | notAHuffmanFile => exact h .decode State.reset rfl (by decide +kernel)
  | corruptFormat => exact h .rtree State.reset rfl (by decide +kernel)
  | truncatedStream => exact h .decode (withBin (bitsOf 0xFACE8200#32) State.reset) rfl (by decide +kernel)
  | capacityFault =>
    exact h (.qins true 0 0) { State.reset with ses := { Session.fresh with node := List.replicate 513 (.leaf 0 0) } }
      rfl (by decide +kernel)
  | illegalCommand => exact h (.rdreg 13) State.reset rfl (by decide +kernel)

theorem test_witness_CommandRoundTrip : (Instr.qins true 511 0x1FFFFFFFFFF).isCommand = true := rfl
theorem test_witness_DecodedWordIsEncoded : decode 0x109FFFFFFFFFFFF#64 = .error .reservedBit ∧
    decode 0x1083FFFFFFFFFFFF#64 = .ok (.qins true 0x1FF 0x1FFFFFFFFFF) := ⟨rfl, rfl⟩
theorem test_witness_FieldRoundTrip :
    (Instr.wireTreeLeaf 511).slot = some .treeNode ∧ (Instr.wireMagic 0).slot = some .magic := ⟨rfl, rfl⟩
theorem test_witness_RdregReads : prepared.status.fault = none ∧ 12 < (13 : BitVec 10).toNat := by decide
theorem test_witness_NgetReads :
    prepared.status.fault = none ∧ prepared.ses.node[(2 : Idx).toNat]? = some (.internal 6 1 0) ∧
      prepared.ses.node.length ≤ (3 : Idx).toNat := by decide
theorem test_witness_PgetReads :
    prepared.status.fault = none ∧
    ((0x5A : SymVal).toNat ≤ 256 ∧ prepared.status.treeValid = true ∧
      prepared.pathAt (0x5A : SymVal).toNat = some [true] ∧ [true].length ≤ 256) ∧
    ((256 : SymVal).toNat ≤ 256 ∧ State.reset.status.treeValid = false) ∧
    ((0x41 : SymVal).toNat ≤ 256 ∧ prepared.pathAt (0x41 : SymVal).toNat = none) ∧ 256 < (257 : SymVal).toNat :=
  ⟨rfl, ⟨by decide, rfl, by decide +kernel, by decide⟩, ⟨by decide, rfl⟩, ⟨by decide, by decide +kernel⟩, by decide⟩
theorem test_witness_FsetWrites :
    State.reset.status.fault = none ∧ (255 : SymVal).toNat ≤ 255 ∧ 255 < (256 : SymVal).toNat := by decide
theorem test_witness_FgetReads :
    State.reset.status.fault = none ∧ (255 : SymVal).toNat ≤ 255 ∧ 255 < (256 : SymVal).toNat := by decide
theorem test_witness_QinsInserts :
    queued.status.fault = none ∧ QueueOk queued.ses ∧ queued.ses.q.length < 257 ∧ queued.ses.node.length < 513 ∧
      (256 : SymVal).toNat ≤ 256 := ⟨rfl, queued_queueOk, by decide, by decide, by decide⟩
theorem test_witness_QinsRejects :
    State.reset.status.fault = none ∧ 256 < (257 : SymVal).toNat ∧ (256 : SymVal).toNat ≤ 256 ∧
    257 ≤ (withArena (List.replicate 257 (.leaf 0 0)) (List.replicate 257 0)).ses.q.length ∧
    513 ≤ (withArena (List.replicate 513 (.leaf 0 0)) []).ses.node.length := by decide +kernel
theorem test_witness_QremRemoves :
    queued.status.fault = none ∧
    (queued.ses.q = 2 :: [3, 1, 0] ∧ queued.ses.node[(2 : Idx).toNat]? = some (.leaf 0x43 1)) ∧
    State.reset.ses.q = [] := ⟨rfl, ⟨rfl, rfl⟩, rfl⟩
theorem test_witness_QpeekLooks :
    queued.status.fault = none ∧
    (queued.ses.q = 2 :: [3, 1, 0] ∧ queued.ses.node[(2 : Idx).toNat]? = some (.leaf 0x43 1)) ∧
    State.reset.ses.q = [] := ⟨rfl, ⟨rfl, rfl⟩, rfl⟩
theorem test_witness_QsizeCounts : queued.status.fault = none := rfl
theorem test_witness_QremReturnsLightest :
    queued.status.fault = none ∧ QueueOk queued.ses ∧ queued.ses.q ≠ [] := ⟨rfl, queued_queueOk, by decide⟩

theorem allWords_of (xs : List SymVal) (h : xs.all (fun x => decide (x.toNat ≤ 255)) = true) : AllWords xs := by
  simpa [AllWords] using h

theorem occurrences_lt {xs : List SymVal} {n : Nat} (h : xs.length ≤ n) (k : Nat) : occurrences k xs ≤ n :=
  Nat.le_trans List.count_le_length (by simpa using h)

theorem occurrences_few {xs : List SymVal} (h : xs.length < 2 ^ 32) : ∀ k < 256, occurrences k xs < 2 ^ 32 :=
  fun k _ => Nat.lt_of_le_of_lt (occurrences_lt (Nat.le_refl _) k) h

/-- Both ends of a pass, and a count that becomes `2^32 - 1`. -/
theorem test_witness_FaccCounts :
    let s := withSin [255, 256, 7] (withFreq [(255, 0xFFFFFFFE)])
    (s.status.fault = none ∧ s.io.sin.items = [255] ++ [256, 7] ∧ AllWords [255] ∧
      PassEnds s.io.sin.ends [256, 7] ∧ ∀ k < 256, (s.freqAt k).toNat + occurrences k [255] < 2 ^ 32) ∧
    (PassEnds State.reset.io.sin.ends [] ∧ State.reset.io.sin.items = [] ++ []) :=
  ⟨⟨rfl, rfl, allWords_of _ rfl, .inr rfl, by decide +kernel⟩, .inl ⟨rfl, rfl⟩, rfl⟩

theorem test_witness_CountingRejects_item :
    let s := withSin [0, 257, 1] State.reset
    s.status.fault = none ∧ s.io.sin.items = [0] ++ 257 :: [1] ∧ AllWords [0] ∧
    (∀ k < 256, (((Vector.replicate 256 0 : Vector Count 256)[k]?).getD 0).toNat + occurrences k [0] < 2 ^ 32) ∧
    256 < (257 : SymVal).toNat := ⟨rfl, rfl, allWords_of _ rfl, by decide +kernel, by decide⟩
theorem test_witness_CountingRejects_facc :
    let s := withSin [255, 1] (withFreq [(255, 0xFFFFFFFF)])
    s.status.fault = none ∧ s.io.sin.items = [] ++ 255 :: [1] ∧ AllWords [] ∧
    (∀ k < 256, (s.freqAt k).toNat + occurrences k [] < 2 ^ 32) ∧ (255 : SymVal).toNat ≤ 255 ∧
    (s.freqAt (255 : SymVal).toNat).toNat + occurrences (255 : SymVal).toNat [] = 2 ^ 32 - 1 :=
  ⟨rfl, rfl, allWords_of _ rfl, by decide +kernel, by decide, by decide +kernel⟩
/-- PREP counts from 0: the word `2^32 - 1` times, and once more. -/
theorem test_witness_CountingRejects_prep (n : Nat) (hn : n = 2 ^ 32 - 1) :
    let xs := List.replicate n (255 : SymVal)
    let s := withSin (xs ++ 255 :: []) State.reset
    s.status.fault = none ∧ s.io.sin.items = xs ++ 255 :: [] ∧ AllWords xs ∧
    (∀ k < 256, (((Vector.replicate 256 0 : Vector Count 256)[k]?).getD 0).toNat + occurrences k xs < 2 ^ 32) ∧
    (255 : SymVal).toNat ≤ 255 ∧
    (((Vector.replicate 256 0 : Vector Count 256)[(255 : SymVal).toNat]?).getD 0).toNat +
      occurrences (255 : SymVal).toNat xs = 2 ^ 32 - 1 := by
  intro xs s
  refine ⟨rfl, rfl, ?_, ?_, by decide, ?_⟩
  · intro x hx; rw [List.eq_of_mem_replicate hx]; decide
  · intro k hk
    have h := occurrences_lt (xs := xs) (n := n) (Nat.le_of_eq List.length_replicate) k
    have h0 : (((Vector.replicate 256 0 : Vector Count 256)[k]?).getD 0).toNat = 0 := by simp [hk]
    rw [h0]; omega
  · have h : occurrences (255 : SymVal).toNat xs = n := by simp [xs, occurrences, List.map_replicate]
    have h0 : (((Vector.replicate 256 0 : Vector Count 256)[(255 : SymVal).toNat]?).getD 0).toNat = 0 := by
      decide +kernel
    rw [h0, h, Nat.zero_add, hn]

theorem test_witness_QloadLoads : (withFreq [(255, 0xFFFFFFFF)]).status.fault = none := rfl
theorem test_witness_BuildMerges :
    queued.status.fault = none ∧ QueueOk queued.ses ∧ queued.ses.q.length = 4 ∧ 0 < 4 ∧
      totalWeight (queueLeaves queued.ses) < 2 ^ 41 ∧ queued.ses.node.length + 4 ≤ 514 :=
  ⟨rfl, queued_queueOk, rfl, by decide, by decide, by decide⟩
/-- A queue of one entry. -/
theorem test_witness_BuildMerges_one :
    let s := withArena [.leaf 256 1] [0]
    s.status.fault = none ∧ QueueOk s.ses ∧ s.ses.q.length = 1 ∧ totalWeight (queueLeaves s.ses) < 2 ^ 41 ∧
      s.ses.node.length + 1 ≤ 514 :=
  ⟨rfl, ⟨by decide, by decide, by decide, List.pairwise_singleton _ _⟩, rfl, by decide, by decide⟩
/-- The nodes of the merge on the example of 43_tree_builder.md R172, and the arena of 1.2. -/
theorem test_mergeNodes :
    mergeNodes 4 4 (queueEntries queued.ses.node queued.ses.q) =
      [.internal 2 2 3, .internal 4 1 4, .internal 7 0 5] ∧
    tableNodes ((Vector.replicate 256 0).setIfInBounds 0x5A 5) = [.leaf 0x5A 5, .leaf 256 1, .internal 6 1 0] := by
  decide +kernel

theorem queueOk_leaves {c : Session} {i j : Idx} {v w : SymVal} {x y : Weight} (hq : c.q = [i, j]) (hij : i ≠ j)
    (hi : c.node[i.toNat]? = some (.leaf v x)) (hj : c.node[j.toNat]? = some (.leaf w y)) (hxy : x < y) : QueueOk c := by
  refine ⟨by rw [hq]; simp [Config.QCAP], by rw [hq]; simp [hij], ?_, ?_⟩
  · rw [hq]; intro k hk
    simp only [List.mem_cons, List.not_mem_nil, or_false] at hk
    rcases hk with rfl | rfl <;> simp [leafAt, hi, hj]
  · rw [hq]; simpa using ⟨_, _, hi, hj, .inl hxy⟩

/-- The empty queue; the weight sum `2^41` of QU3; and 513 nodes allocated with two leaves queued. -/
theorem test_witness_BuildRejects :
    State.reset.status.fault = none ∧ State.reset.ses.q = [] ∧
    (let c := { Session.fresh with node := [.leaf 256 0x1FFFFFFFFFF, .leaf 0 1], q := [1, 0] }
     QueueOk c ∧ c.node.length ≤ 513 ∧ c.q ≠ [] ∧ 2 ^ 41 ≤ totalWeight (queueLeaves c)) ∧
    (let c := { Session.fresh with node := .leaf 0 1 :: .leaf 1 2 :: List.replicate 511 (.leaf 0 0), q := [0, 1] }
     QueueOk c ∧ c.node.length ≤ 513 ∧ c.q ≠ [] ∧ 514 < c.node.length + c.q.length) :=
  ⟨rfl, rfl, ⟨queueOk_leaves rfl (by decide) rfl rfl (by decide), by decide, by decide, by decide⟩,
    ⟨queueOk_leaves rfl (by decide) rfl rfl (by decide), by decide +kernel, by decide, by decide +kernel⟩⟩
theorem test_witness_DegenerateTrees :
    State.reset.status.fault = none ∧ State.reset.ses.freq = Vector.replicate 256 0 ∧
    (255 < 256 ∧ (1 : Count) ≠ 0 ∧
      (withFreq [(255, 1)]).ses.freq = (Vector.replicate 256 0).setIfInBounds 255 1) ∧
    ((0xFFFFFFFF : Count) ≠ 0 ∧ (0xFFFFFFFF : Count) ≠ 1 ∧
      (withFreq [(0, 0xFFFFFFFF)]).ses.freq = (Vector.replicate 256 0).setIfInBounds 0 0xFFFFFFFF) :=
  ⟨rfl, rfl, ⟨by decide, by decide, rfl⟩, by decide, by decide, rfl⟩
theorem test_witness_PathTableIsPrefixFree :
    SessionOk prepared.status prepared.ses ∧ prepared.status.treeValid = true ∧ 256 < 257 ∧
      HasPath prepared.ses.path 256 ∧ prepared.pathAt 256 = some [false] ∧ prepared.pathAt 0x5A = some [true] ∧
      256 ≠ 0x5A :=
  ⟨prepared_sessionOk, rfl, by decide, hasPath_of (by decide +kernel), by decide +kernel, by decide +kernel, by decide⟩
theorem test_witness_WtreeWrites :
    prepared.status.fault = none ∧
    (prepared.status.treeValid = true ∧ TreeOk prepared.ses ∧ IsTree prepared.ses.node prepared.ses.root treeZ ∧
      Takes prepared.io.bout.room treeZ.bits.length ∧ Takes (some 21) treeZ.bits.length) ∧
    State.reset.status.treeValid = false :=
  ⟨rfl, ⟨rfl, sessionZ_treeOk, sessionZ_isTree, takes_none _, takes_some 21⟩, rfl⟩

/-- The payload `0 1100000000 1001011010` of spec/95_test_vectors.md 1.2. -/
def payloadZ : Bits := bs [0, 1, 1, 0, 0, 0, 0, 0, 0, 0, 0, 1, 0, 0, 1, 0, 1, 1, 0, 1, 0]

theorem payloadZ_bits : treeZ.bits = payloadZ := by decide +kernel

/-- The first two of its three fields. -/
theorem beginsZ : BeginsTree [.wireTreeInternal, .wireTreeLeaf 256] (.wireTreeLeaf 0x5A) :=
  ⟨⟨treeZ, [], rfl⟩, by decide⟩

/-- It ends one bit early. -/
theorem cutZ : CutPayload 0 (payloadZ.take 20) :=
  ⟨_, _, (encode (.wireTreeLeaf 0x5A)).take 9, beginsZ, by decide +kernel, List.take_prefix _ _, by decide, by decide,
    .inr (by decide)⟩

/-- Any number of internal nodes begins a tree: CD13 to CD15 of spec/95_test_vectors.md. -/
theorem spine_fields : ∀ n, ∃ (u : CodeTree) (more : List Instr),
    u.fields = List.replicate n .wireTreeInternal ++ .wireTreeLeaf 0 :: more
  | 0 => ⟨.leaf 0 1, [], rfl⟩
  | n + 1 =>
    let ⟨u, more, h⟩ := spine_fields n
    ⟨.internal 1 u (.leaf 0 1), more ++ [.wireTreeLeaf 0], by simp [CodeTree.fields, h, List.replicate_succ]⟩

theorem begins_spine (n : Nat) : BeginsTree (List.replicate n .wireTreeInternal) (.wireTreeLeaf 0) :=
  ⟨spine_fields n, fun g hg => by rw [List.eq_of_mem_replicate hg]; rfl⟩

theorem spine_bits : ∀ n, fieldBits (List.replicate n .wireTreeInternal) = List.replicate n false
  | 0 => rfl
  | n + 1 => congrArg (false :: ·) (spine_bits n)

/-- CD15: the arena is full and the next tag is missing. -/
theorem cutSpine : CutPayload 0 (List.replicate 513 false) :=
  ⟨_, _, [], begins_spine 513, by rw [spine_bits, List.append_nil], List.nil_prefix, by decide,
    by rw [List.length_replicate]; decide, .inl rfl⟩

/-- Behind two fields, leaf value 257, the first that is no symbol. -/
theorem badValue (ends : Bool) (left : Bits) : BrokenPayload ends 0
    (fieldBits [.wireTreeInternal, .wireTreeLeaf 256] ++ (true :: bitsOf (257 : SymVal)) ++ left) left :=
  .value _ _ _ left beginsZ (by decide) (by decide)

/-- CD13: the 514th tag, whatever stands behind it. -/
theorem fullSpine (ends tag : Bool) (left : Bits) :
    BrokenPayload ends 0 (List.replicate 513 false ++ tag :: left) left :=
  spine_bits 513 ▸ .full _ _ tag left (begins_spine 513) (by rw [List.length_replicate]; decide)

/-- The table of spec/95_test_vectors.md 1.2, which counts `0x5A` five times. -/
def countsZ : Vector Count 256 := (Vector.replicate 256 0).setIfInBounds 0x5A 5

theorem countsZ_tree : mergeTrees (tableLeaves countsZ).length (rankedLeaves countsZ) = [treeZ] := by decide +kernel
theorem test_witness_RtreeReads :
    State.reset.status.fault = none ∧ treeZ.Legal ∧
      (withBin (payloadZ ++ [true]) State.reset).io.bin.items = treeZ.bits ++ [true] :=
  ⟨rfl, treeZ_legal, by rw [payloadZ_bits]; rfl⟩
/-- A payload without its last bit; CD15; a bad value behind a good one; CD13. -/
theorem test_witness_RtreeRejects :
    State.reset.status.fault = none ∧ (∀ b : Bits, (withBin b State.reset).io.bin.items = b) ∧
    BrokenPayload true 0 (payloadZ.take 20) [] ∧ BrokenPayload true 0 (List.replicate 513 false) [] ∧
    BrokenPayload true 0
      (fieldBits [.wireTreeInternal, .wireTreeLeaf 256] ++ (true :: bitsOf (257 : SymVal)) ++ [true]) [true] ∧
    BrokenPayload true 0 (List.replicate 513 false ++ true :: [false]) [false] :=
  ⟨rfl, fun _ => rfl, .cut _ rfl cutZ, .cut _ rfl cutSpine, badValue _ _, fullSpine _ _ _⟩
theorem test_witness_SerializedTreeRoundTrip :
    prepared.status.fault = none ∧ SessionOk prepared.status prepared.ses ∧ prepared.status.treeValid = true ∧
      Takes prepared.io.bout.room (2 * prepared.ses.treeBits.toNat) ∧ Takes (some 42) (2 * prepared.ses.treeBits.toNat) :=
  ⟨rfl, prepared_sessionOk, rfl, takes_none _, takes_some 42⟩
/-- Both ends of the counting pass. -/
theorem test_witness_PrepPrepares :
    (State.reset.status.fault = none ∧ State.reset.io.sin.items = [] ++ [] ∧ AllWords [] ∧
      PassEnds State.reset.io.sin.ends [] ∧ ∀ k < 256, occurrences k [] < 2 ^ 32) ∧
    (let s := withSin [0, 255, 256] State.reset
     s.io.sin.items = [0, 255] ++ [256] ∧ AllWords [0, 255] ∧ PassEnds s.io.sin.ends [256] ∧
        ∀ k < 256, occurrences k [0, 255] < 2 ^ 32) :=
  ⟨⟨rfl, rfl, allWords_of _ rfl, .inl ⟨rfl, rfl⟩, occurrences_few (by decide)⟩, rfl, allWords_of _ rfl, .inr rfl,
    occurrences_few (by decide)⟩
/-- No pre-pass; and a projected size equal to the original. -/
theorem test_witness_EmitDeclines :
    State.reset.status.fault = none ∧ State.reset.status.prepped = false ∧
    (let s := { prepared with ses := { sessionZ with origBits := 123 } }
     s.status.prepped = true ∧ s.ses.origBits.toNat ≤ s.ses.projBits.toNat) := by decide +kernel
theorem test_witness_EmitWrites :
    let s := withSin [0x5A, 256] prepared
    let xs : List SymVal := [0x5A]
    let B := headerField s.build s.status.hdrsel s.ses.freq treeZ ++ dataField s.ses.path xs
    s.status.fault = none ∧ SessionOk s.status s.ses ∧ s.status.prepped = true ∧
      IsTree s.ses.node s.ses.root treeZ ∧ s.io.sin.items = xs ++ [256] ∧ AllWords xs ∧
      (∀ x ∈ xs, HasPath s.ses.path x.toNat) ∧ PassEnds s.io.sin.ends [256] ∧ Takes s.io.bout.room B.length ∧
      B.length < 2 ^ 64 ∧
      (let c := { sessionZ with origBits := 124 }
       c.projBits.toNat < c.origBits.toNat) :=
  ⟨rfl, prepared_sessionOk, rfl, sessionZ_isTree, rfl, allWords_of _ rfl, hasPaths_of (by decide +kernel), .inr rfl,
    takes_none _, by decide +kernel, by decide⟩
theorem test_witness_EmitRejects :
    let s := withSin [0x5A, 257, 1] prepared
    let u := withSin [0x5A, 255, 1] prepared
    let xs : List SymVal := [0x5A]
    s.status.fault = none ∧ SessionOk s.status s.ses ∧ s.status.prepped = true ∧
      IsTree s.ses.node s.ses.root treeZ ∧ s.io.sin.items = xs ++ 257 :: [1] ∧ AllWords xs ∧
      (∀ x ∈ xs, HasPath s.ses.path x.toNat) ∧
      Takes s.io.bout.room
        (headerField s.build s.status.hdrsel s.ses.freq treeZ ++ wordBits s.ses.path xs).length ∧
      256 < (257 : SymVal).toNat ∧
      u.io.sin.items = xs ++ 255 :: [1] ∧ (255 : SymVal).toNat ≤ 255 ∧ ¬ HasPath u.ses.path (255 : SymVal).toNat :=
  ⟨rfl, prepared_sessionOk, rfl, sessionZ_isTree, rfl, allWords_of _ rfl, hasPaths_of (by decide +kernel),
    takes_none _, by decide, rfl, by decide, no_path_of (by decide +kernel)⟩
theorem test_witness_SizeAccounting :
    let s := withSin [0, 255] State.reset
    s.status.fault = none ∧ s.io.sin.items = [0, 255] ++ [] ∧ AllWords [0, 255] ∧ PassEnds s.io.sin.ends [] ∧
      (∀ k < 256, occurrences k [0, 255] < 2 ^ 32) ∧
      ∃ t, exec (.prep false) s = .next t ∧ Takes t.io.bout.room t.ses.projBits.toNat :=
  ⟨rfl, rfl, allWords_of _ rfl, .inl ⟨rfl, rfl⟩, occurrences_few (by decide), by
    have h : seen (·.io.bout.room) (exec (.prep false) (withSin [0, 255] State.reset)) = some none := by decide +kernel
    match he : exec (.prep false) (withSin [0, 255] State.reset) with
    | .next t =>
      rw [he] at h
      have h : t.io.bout.room = none := Option.some.inj h
      exact ⟨t, rfl, by rw [h]; exact takes_none _⟩
    | .fault _ => rw [he] at h; cases h
    | .refused _ => rw [he] at h; cases h⟩
theorem test_witness_DecodeReadsTreeStream :
    let xs : List SymVal := [0x5A]
    let s := withBin (bitsOf State.reset.build.magic ++ bitsOf State.reset.build.selTree ++ bitsOf (0 : Word32) ++
      treeZ.bits ++ dataField treeZ.pathTable xs ++ [true]) State.reset
    s.status.fault = none ∧ Config.legalBuild s.build = true ∧ treeZ.Legal ∧ AllWords xs ∧
      (∀ x ∈ xs, HasPath treeZ.pathTable x.toNat) ∧ HasPath treeZ.pathTable 256 ∧ 8 * xs.length < 2 ^ 64 ∧
      Takes s.io.sout.room xs.length ∧ Takes (some 1) xs.length ∧
      s.io.bin.items = bitsOf s.build.magic ++ bitsOf s.build.selTree ++ bitsOf (0 : Word32) ++ treeZ.bits ++
        dataField treeZ.pathTable xs ++ [true] :=
  ⟨rfl, by decide, treeZ_legal, allWords_of _ rfl, hasPaths_of (by decide +kernel), hasPath_of (by decide +kernel),
    by decide, takes_none _,
    takes_some 1, rfl⟩
theorem test_witness_DecodeReadsTreeStream_counts :
    let xs : List SymVal := [0x5A]
    let s := withBin (bitsOf State.reset.build.magic ++ bitsOf State.reset.build.selCounts ++
      countsZ.toList.flatMap bitsOf ++ dataField treeZ.pathTable xs ++ [true]) State.reset
    s.status.fault = none ∧ mergeTrees (tableLeaves countsZ).length (rankedLeaves countsZ) = [treeZ] ∧ AllWords xs ∧
      (∀ x ∈ xs, HasPath treeZ.pathTable x.toNat) ∧ 8 * xs.length < 2 ^ 64 ∧ Takes s.io.sout.room xs.length ∧
      s.io.bin.items = bitsOf s.build.magic ++ bitsOf s.build.selCounts ++ countsZ.toList.flatMap bitsOf ++
        dataField treeZ.pathTable xs ++ [true] :=
  ⟨rfl, countsZ_tree, allWords_of _ rfl, hasPaths_of (by decide +kernel), by decide, takes_none _, rfl⟩
theorem test_witness_CompressedStreamRoundTrip :
    let s := withSin [0, 255] State.reset
    s.status.fault = none ∧ Config.legalBuild s.build = true ∧ s.io.sin.items = [0, 255] ∧ s.io.sin.ends = true ∧
      AllWords [0, 255] ∧ (∀ k < 256, occurrences k [0, 255] < 2 ^ 32) ∧
      ∃ t, exec (.prep true) s = .next t ∧ Takes t.io.bout.room t.ses.projBits.toNat ∧ Takes t.io.sout.room 2 :=
  ⟨rfl, by decide, rfl, rfl, allWords_of _ rfl, occurrences_few (by decide), by
    have h : seen (fun t => (t.io.bout.room, t.io.sout.room)) (exec (.prep true) (withSin [0, 255] State.reset)) =
      some (none, none) := by decide +kernel
    match he : exec (.prep true) (withSin [0, 255] State.reset) with
    | .next t =>
      rw [he] at h
      have h : t.io.bout.room = none ∧ t.io.sout.room = none := Prod.mk.inj (Option.some.inj h)
      exact ⟨t, rfl, by rw [h.1]; exact takes_none _, by rw [h.2]; exact takes_none _⟩
    | .fault _ => rw [he] at h; cases h
    | .refused _ => rw [he] at h; cases h⟩

/-- The magic and a tree selector. -/
def headBits : Bits := bitsOf State.reset.build.magic ++ bitsOf State.reset.build.selTree

/-- 31 bits; a wrong magic; a selector of 31 bits; a selector that is neither constant. -/
theorem test_witness_DecodeRejectsHeader :
    State.reset.status.fault = none ∧
    (let s := withBin (List.replicate 31 true) State.reset
     s.io.bin.items.length < 32 ∧ s.io.bin.ends = true) ∧
    ((0xFACE8201 : Word32) ≠ State.reset.build.magic ∧
      (withBin (bitsOf (0xFACE8201 : Word32)) State.reset).io.bin.items = bitsOf (0xFACE8201 : Word32) ++ []) ∧
    (let s := withBin (bitsOf State.reset.build.magic ++ List.replicate 31 true) State.reset
     (List.replicate 31 true).length < 32 ∧
      s.io.bin.items = bitsOf s.build.magic ++ List.replicate 31 true ∧ s.io.bin.ends = true) ∧
    ((0xFACE8200 : Word32) ≠ State.reset.build.selCounts ∧ (0xFACE8200 : Word32) ≠ State.reset.build.selTree ∧
      (withBin (bitsOf State.reset.build.magic ++ bitsOf (0xFACE8200 : Word32) ++ [true]) State.reset).io.bin.items =
        bitsOf State.reset.build.magic ++ bitsOf (0xFACE8200 : Word32) ++ [true]) :=
  ⟨rfl, ⟨by decide, rfl⟩, ⟨by decide, by simp [withBin]⟩, ⟨by decide, rfl, rfl⟩, by decide, by decide, rfl⟩
/-- 8191 bits of a table; 31 bits of a size; each broken payload; a lone leaf 255. -/
theorem test_witness_DecodeRejectsPayload :
    State.reset.status.fault = none ∧ Config.legalBuild State.reset.build = true ∧
    (∀ p : Bits, p = List.replicate 8191 false → p.length < 8192 ∧
      (withBin (bitsOf State.reset.build.magic ++ bitsOf State.reset.build.selCounts ++ p) State.reset).io.bin.items =
        bitsOf State.reset.build.magic ++ bitsOf State.reset.build.selCounts ++ p) ∧
    ((List.replicate 31 true).length < 32 ∧
      (withBin (headBits ++ List.replicate 31 true) State.reset).io.bin.items = headBits ++ List.replicate 31 true) ∧
    ((∀ p : Bits, (withBin (headBits ++ bitsOf (21 : Word32) ++ p) State.reset).io.bin.items =
        headBits ++ bitsOf (21 : Word32) ++ p) ∧
      BrokenPayload true 0 (payloadZ.take 20) [] ∧ BrokenPayload true 0 (List.replicate 513 false) [] ∧
      BrokenPayload true 0
        (fieldBits [.wireTreeInternal, .wireTreeLeaf 256] ++ (true :: bitsOf (257 : SymVal)) ++ [true]) [true] ∧
      BrokenPayload true 0 (List.replicate 513 false ++ true :: [false]) [false]) ∧
    ((255 : SymVal).toNat ≤ 255 ∧
      (withBin (headBits ++ bitsOf (10 : Word32) ++ (true :: bitsOf (255 : SymVal)) ++ []) State.reset).io.bin.items =
        headBits ++ bitsOf (10 : Word32) ++ (true :: bitsOf (255 : SymVal)) ++ []) ∧
    (withBin [] State.reset).io.bin.ends = true :=
  ⟨rfl, by decide, fun p hp => ⟨by rw [hp, List.length_replicate]; decide, rfl⟩, ⟨by decide, rfl⟩,
    ⟨fun _ => rfl, .cut _ rfl cutZ, .cut _ rfl cutSpine, badValue _ _, fullSpine _ _ _⟩, ⟨by decide, rfl⟩, rfl⟩

/-- The tree of 1.2 as a header, with a tree size that is not its own; and as the table that gives it. -/
theorem headerZ_tree : StreamHeader State.reset.build true (headBits ++ bitsOf (0 : Word32) ++ treeZ.bits) treeZ :=
  .tree 0 treeZ treeZ_legal

theorem headerZ_counts : StreamHeader State.reset.build false
    (bitsOf State.reset.build.magic ++ bitsOf State.reset.build.selCounts ++ countsZ.toList.flatMap bitsOf) treeZ :=
  .counts countsZ treeZ countsZ_tree
/-- The data ends between two codewords (an empty rest), behind each of the two headers (DE20), and inside one (the
tree of a longer codeword). -/
theorem test_witness_DecodeTruncatedData :
    let xs : List SymVal := [0x5A]
    (∀ b : Bits, (withBin b State.reset).status.fault = none ∧ (withBin b State.reset).build = State.reset.build ∧
      (withBin b State.reset).io.bin.items = b ∧ (withBin b State.reset).io.bin.ends = true ∧
      Takes (withBin b State.reset).io.sout.room xs.length) ∧
    Config.legalBuild State.reset.build = true ∧ (∃ H, StreamHeader State.reset.build true H treeZ) ∧
    (∃ H, StreamHeader State.reset.build false H treeZ) ∧ AllWords xs ∧
    (∀ x ∈ xs, HasPath treeZ.pathTable x.toNat) ∧ treeZ.follow [] = some treeZ ∧ 1 < treeZ.leaves ∧
    (let t : CodeTree := .internal 1 (.leaf 0 1) treeZ
     t.Legal ∧ t.follow [true] = some treeZ) :=
  ⟨fun _ => ⟨rfl, rfl, rfl, rfl, takes_none _⟩, by decide, ⟨_, headerZ_tree⟩, ⟨_, headerZ_counts⟩, allWords_of _ rfl,
    hasPaths_of (by decide +kernel), rfl, by decide, ⟨by decide, by decide⟩, rfl⟩
theorem test_witness_HeaderFieldsTaken :
    (∀ d h, (reading d h).status.fault = none ∧ (reading d h).io.bin.held = true ∧
      (reading d h).status.dstate = d ∧ (reading d h).status.hdrsel = h) ∧
    (0 : Word32) ≠ State.reset.build.magic ∧ (0 : Word32) ≠ State.reset.build.selCounts ∧
    (0 : Word32) ≠ State.reset.build.selTree ∧ Config.legalBuild State.reset.build = true :=
  ⟨fun _ _ => ⟨rfl, rfl, rfl, rfl⟩, by decide, by decide, by decide, by decide⟩
/-- The last symbol and the last free entry; the first value that is no symbol; a full arena; two leaves to come; a
subtree that is cut, with and without an end; a bad value in it; a node behind the last free entry. -/
theorem test_witness_TreeFieldsTaken :
    let s := reading .expectHeaderPayload true
    let u := { s with io := { s.io with bin := ⟨payloadZ.drop 1, true, true⟩ } }
    let e (n : Nat) := { s with ses := { s.ses with node := List.replicate n (.leaf 0 1) } }
    let b (items : Bits) := { s with io := { s.io with bin := ⟨items, true, true⟩ } }
    s.status.fault = none ∧ s.io.bin.held = true ∧ s.status.dstate = .expectHeaderPayload ∧ s.status.hdrsel = true ∧
    (reading .idle false).status.dstate = .idle ∧ (reading .done false).status.dstate = .done ∧
    (256 : SymVal).toNat ≤ 256 ∧ (e 512).ses.node.length < 513 ∧
    256 < (257 : SymVal).toNat ∧ 513 ≤ (e 513).ses.node.length ∧
    (let l : CodeTree := .leaf 256 1
     let r : CodeTree := .leaf 0x5A 5
     (∀ sym ∈ l.syms ++ r.syms, sym.toNat ≤ 256) ∧ u.ses.node.length + 1 + l.size + r.size ≤ 513 ∧
      u.io.bin.items = l.bits ++ r.bits ++ []) ∧
    ((b []).ses.node.length = 0 ∧ CutPayload 0 (false :: (payloadZ.take 20).drop 1) ∧
      BrokenPayload true 0 (false :: (payloadZ.take 20).drop 1) [] ∧
      BrokenPayload true 0 (false :: (fieldBits [.wireTreeLeaf 256] ++ (true :: bitsOf (257 : SymVal)) ++ [])) [] ∧
      BrokenPayload true 512 (false :: true :: [false]) [false] ∧
      CutPayload 512 (false :: [])) :=
  ⟨rfl, rfl, rfl, rfl, rfl, rfl, by decide, by decide +kernel, by decide, by decide +kernel,
    ⟨by decide, by decide, by decide +kernel⟩, rfl, cutZ, .cut _ rfl cutZ, badValue _ _,
    .full [.wireTreeInternal] (.wireTreeLeaf 0) true _ (begins_spine 1) (by decide),
    ⟨[.wireTreeInternal], .wireTreeLeaf 0, [], begins_spine 1, rfl, List.nil_prefix, by decide, by decide,
      .inl rfl⟩⟩
/-- No port; a faulted session; each field at a place where another one is expected. -/
theorem test_witness_FieldsNotTaken :
    (Instr.wireTreeLeaf 0).isCommand = false ∧ State.reset.io.bin.held = false ∧ faulted.status.fault ≠ none ∧
    (∀ d h, (reading d h).io.bin.held = true ∧ (reading d h).status.fault = none) ∧
    wrongPlace (.wireMagic 0) (reading .walking true).status ∧
    wrongPlace (.wireSelector 0) (reading .expectMagic false).status ∧
    wrongPlace (.wireCount 0 0) (reading .expectHeaderPayload true).status ∧
    wrongPlace (.wireTreeSize 0) (reading .expectHeaderPayload false).status ∧
    wrongPlace (.wireTreeLeaf 0) (reading .expectHeaderPayload false).status ∧
    wrongPlace .wireTreeInternal (reading .walking true).status :=
  ⟨rfl, rfl, by decide, fun _ _ => ⟨rfl, rfl⟩, DState.noConfusion, DState.noConfusion, .inr rfl, .inr rfl,
    .inr (.inr (.inr ⟨rfl, rfl⟩)), .inr (.inr (.inl rfl))⟩
/-- Every instruction the frame names goes on from a state without a fault. -/
theorem test_witness_ReadingFrame :
    ∀ i ∈ [Instr.rdreg 12, .qpeek, .qsize, .fget 255, .nget 0x3FF, .pget 256],
      queued.status.fault = none ∧ ∃ t, exec i queued = .next t ∧ t.status.fault = none :=
  fun i hi => ⟨rfl, of_goesOn (by revert i; decide +kernel)⟩
theorem test_witness_TreeBuildingFrame :
    ∀ i ∈ [Instr.qins true 256 1, .qrem, .fset 255 1, .qload, .build],
      queued.status.fault = none ∧ ∃ t, exec i queued = .next t ∧ t.status.fault = none :=
  fun i hi => ⟨rfl, of_goesOn (by revert i; decide +kernel)⟩

/-- The machine of 1.2 with what each streaming instruction needs on its input. -/
def serving (bin : Bits) : State := withBin bin (withSin [0x5A] prepared)

theorem test_witness_StreamingFrame :
    ∀ x ∈ [(Instr.facc, []), (.wtree, []), (.rtree, payloadZ), (.emit true, []), (.prep true, []),
        (.decode, headBits ++ bitsOf (21 : Word32) ++ payloadZ ++ [false])],
      (serving x.2).status.fault = none ∧ ∃ t, exec x.1 (serving x.2) = .next t ∧ t.status.fault = none :=
  fun x hx => ⟨rfl, of_goesOn (by revert x; decide +kernel)⟩
theorem test_witness_StreamsPerCommand :
    ∃ t, exec .facc (serving []) = .next t := (of_goesOn (by decide +kernel)).imp fun _ h => h.1
theorem test_witness_PreppedRule :
    ∀ x ∈ [(Instr.clr, []), (.qins true 0 0, []), (.qrem, []), (.facc, []), (.qload, []), (.fset 0 0, []),
        (.rtree, payloadZ), (.decode, headBits ++ bitsOf (21 : Word32) ++ payloadZ ++ [false]), (.rdreg 0, []),
        (.qpeek, []), (.qsize, []), (.fget 0, []), (.nget 0, []), (.pget 0, []), (.wtree, []), (.emit true, []),
        (.prep false, [])],
      (serving x.2).status.fault = none ∧
        ∃ t, exec x.1 (serving x.2) = .next t ∧ t.status.fault = none ∧ t.io.busy = false :=
  fun x hx => ⟨rfl, of_answered (by revert x; decide +kernel)⟩
/-- BUILD needs a queue. -/
theorem test_witness_PreppedRule_build : queued.status.fault = none ∧ ∃ t, exec .build queued = .next t :=
  ⟨rfl, (of_goesOn (by decide +kernel)).imp fun _ h => h.1⟩
/-- The machine of 1.2 with streams that stop: these SIN items, these BIN bits, this room on BOUT and SOUT. -/
def stopping (sin : List SymVal) (bin : Bits) (room : Option Nat) : State :=
  { prepared with io := { Ports.quiet with
      sin := ⟨sin, false, false⟩, bin := ⟨bin, false, false⟩, bout := ⟨[], room, false⟩, sout := ⟨[], room, false⟩ } }

theorem test_witness_StoppedInputHangs_count :
    let s := stopping [0, 255] [] none
    s.status.fault = none ∧ s.io.sin.items = [0, 255] ∧ s.io.sin.ends = false ∧ AllWords [0, 255] ∧
      (∀ k < 256, ((s.ses.freq[k]?).getD 0).toNat + occurrences k [0, 255] < 2 ^ 32) ∧
      ∀ k < 256, (((Vector.replicate 256 0 : Vector Count 256)[k]?).getD 0).toNat + occurrences k [0, 255] < 2 ^ 32 :=
  ⟨rfl, rfl, rfl, allWords_of _ rfl, by decide +kernel, by decide +kernel⟩
/-- SIN stops behind a word; BOUT takes nothing at all, and one bit less than the whole stream. -/
theorem test_witness_StoppedInputHangs_emit :
    let s := stopping [0x5A] [] none
    let u (r : Nat) := stopping [0x5A, 256] [] (some r)
    let B := headerField s.build s.status.hdrsel s.ses.freq treeZ ++ wordBits s.ses.path [0x5A]
    let W := B ++ pathBits s.ses.path 256
    (s.status.fault = none ∧ SessionOk s.status s.ses ∧ s.status.prepped = true ∧
      IsTree s.ses.node s.ses.root treeZ ∧ s.io.sin.items = [0x5A] ++ [] ∧ AllWords [0x5A] ∧
      (∀ x ∈ ([0x5A] : List SymVal), HasPath s.ses.path x.toNat) ∧ s.io.sin.ends = false ∧
      Takes s.io.bout.room B.length) ∧
    (∀ r, (u r).io.sin.items = [0x5A] ++ [256] ∧ PassEnds (u r).io.sin.ends [256] ∧ (u r).io.bout.room = some r) ∧
    0 < W.length ∧ W.length - 1 < W.length ∧ 0 < B.length :=
  ⟨⟨rfl, prepared_sessionOk, rfl, sessionZ_isTree, rfl, allWords_of _ rfl, hasPaths_of (by decide +kernel), rfl,
    takes_none _⟩, fun _ => ⟨rfl, .inr rfl, rfl⟩, by decide +kernel, by decide +kernel, by decide +kernel⟩
theorem test_witness_StoppedInputHangs_wtree :
    let s := stopping [] [] (some 20)
    s.status.fault = none ∧ s.status.treeValid = true ∧ TreeOk s.ses ∧ IsTree s.ses.node s.ses.root treeZ ∧
      s.io.bout.room = some 20 ∧ 20 < treeZ.bits.length :=
  ⟨rfl, rfl, sessionZ_treeOk, sessionZ_isTree, rfl, by decide +kernel⟩
theorem test_witness_StoppedInputHangs_rtree :
    let s := stopping [] (payloadZ.take 20) none
    s.status.fault = none ∧ CutPayload 0 s.io.bin.items ∧ s.io.bin.ends = false := ⟨rfl, cutZ, rfl⟩
/-- A header that stops in each of its fields, one bit before the end of the field. -/
theorem test_witness_StoppedInputHangs_header :
    (∀ b, (stopping [] b none).status.fault = none ∧ (stopping [] b none).io.bin.items = b ∧
      (stopping [] b none).io.bin.ends = false ∧ (stopping [] b none).build = State.reset.build) ∧
    Config.legalBuild State.reset.build = true ∧
    CutHeader State.reset.build (List.replicate 31 true) ∧
    CutHeader State.reset.build (bitsOf State.reset.build.magic ++ List.replicate 31 true) ∧
    CutHeader State.reset.build
      (bitsOf State.reset.build.magic ++ bitsOf State.reset.build.selCounts ++ List.replicate 8191 true) ∧
    CutHeader State.reset.build (headBits ++ List.replicate 31 true) ∧
    CutHeader State.reset.build (headBits ++ bitsOf (21 : Word32) ++ payloadZ.take 20) :=
  ⟨fun _ => ⟨rfl, rfl, rfl, rfl⟩, by decide, .magic _ (by decide), .selector _ (by decide),
    .counts _ (by rw [List.length_replicate]; decide), .treeSize _ (by decide), .payload 21 _ cutZ⟩
/-- The data stops between two codewords, behind either header; SOUT takes no word. -/
theorem test_witness_StoppedInputHangs_data :
    let xs : List SymVal := [0x5A]
    (∀ b r, (stopping [] b r).status.fault = none ∧ (stopping [] b r).build = State.reset.build ∧
      (stopping [] b r).io.bin.items = b ∧ (stopping [] b r).io.bin.ends = false ∧
      (stopping [] b r).io.sout.room = r) ∧
    Config.legalBuild State.reset.build = true ∧ (∃ H, StreamHeader State.reset.build true H treeZ) ∧
    (∃ H, StreamHeader State.reset.build false H treeZ) ∧ AllWords xs ∧
    (∀ x ∈ xs, HasPath treeZ.pathTable x.toNat) ∧ treeZ.follow [] = some treeZ ∧ 1 < treeZ.leaves ∧
    Takes none xs.length ∧ 0 < xs.length :=
  ⟨fun _ _ => ⟨rfl, rfl, rfl, rfl, rfl⟩, by decide, ⟨_, headerZ_tree⟩, ⟨_, headerZ_counts⟩, allWords_of _ rfl,
    hasPaths_of (by decide +kernel), rfl, by decide, takes_none _, by decide⟩
theorem test_witness_StepKeepsInvariant :
    let s := given (.command (offer 0x4000000000000000)) prepared
    Inv s ∧ ∃ t, step s = .next t :=
  ⟨prepared_inv, (of_goesOn (by decide +kernel)).imp fun _ h => h.1⟩
theorem test_witness_StepNeverStops : Inv prepared ∧ Inv faulted :=
  ⟨prepared_inv, .inl rfl, fun _ => ⟨rfl, rfl, rfl, rfl⟩, fun _ => ⟨rfl, rfl⟩, fun h => nomatch h⟩
end Sys2Proof.Tests
end

section
/-! PROOFS. The statements of 10_state.md: reset, STATUS, the control registers, PREPPED, and the invariant that every
step keeps. -/

namespace Sys2Proof.Machine

/-! ### Reset and STATUS -/

theorem freqAt_reset {k : Nat} (hk : k < 256) : State.reset.freqAt k = 0 := by
  simp [State.freqAt, State.reset, Session.fresh, hk]

theorem pathAt_reset (k : Nat) : State.reset.pathAt k = none := noPaths_get k

/-- Settles O1: the registers by evaluation, FREQ and PATH entry by entry. -/
theorem resetState : Obligations.ResetState :=
  ⟨rfl, rfl, rfl, rfl, rfl, rfl, rfl, rfl, rfl, rfl, rfl, rfl, rfl, rfl, fun _ => freqAt_reset,
    fun k _ => pathAt_reset k⟩

theorem faultField_lt (f : Option FaultKind) : (faultField f).toNat < 8 := by
  rcases f with _ | f
  · decide
  · cases f <;> decide

theorem DState.code_lt (d : DState) : d.code.toNat < 6 := by cases d <;> decide

/-- The number STATUS reads as: no field carries into the next, and nothing is cut off at 16 bits (10_state.md R23). -/
theorem Status.word_toNat (st : Status) : st.word.toNat = (faultField st.fault).toNat + st.prepped.toNat * 2 ^ 4
    + st.declined.toNat * 2 ^ 5 + st.empty.toNat * 2 ^ 6 + st.treeValid.toNat * 2 ^ 7 + st.hdrsel.toNat * 2 ^ 8
    + st.dstate.code.toNat * 2 ^ 9 := by
  have hf := faultField_lt st.fault
  have hd := st.dstate.code_lt
  have hp := st.prepped.toNat_lt
  have hc := st.declined.toNat_lt
  have he := st.empty.toNat_lt
  have ht := st.treeValid.toNat_lt
  have hh := st.hdrsel.toNat_lt
  rw [Status.word, BitVec.toNat_ofNat, Nat.mod_eq_of_lt (by omega)]

/-- A run of bits of STATUS as a number. -/
theorem extractLsb'_eq_of_toNat {n : Nat} {w : BitVec 16} {lo : Nat} {v : BitVec n}
    (h : w.toNat / 2 ^ lo % 2 ^ n = v.toNat) : w.extractLsb' lo n = v := by
  apply BitVec.eq_of_toNat_eq
  rw [BitVec.extractLsb'_toNat, Nat.shiftRight_eq_div_pow, h]

/-- A single bit of STATUS as a number. -/
theorem getLsbD_eq_of_toNat {w : BitVec 16} {k : Nat} {b : Bool} (h : w.toNat / 2 ^ k % 2 = b.toNat) :
    w.getLsbD k = b := by
  rw [BitVec.getLsbD, Nat.testBit_eq_decide_div_mod_eq, h]
  cases b <;> rfl

/-- Settles O5: each field is a quotient and a remainder of the number STATUS reads as. -/
theorem statusWordLayout : Obligations.StatusWordLayout := by
  intro st
  have hw := st.word_toNat
  have hf := faultField_lt st.fault
  have hd := st.dstate.code_lt
  have hp := st.prepped.toNat_lt
  have hc := st.declined.toNat_lt
  have he := st.empty.toNat_lt
  have ht := st.treeValid.toNat_lt
  have hh := st.hdrsel.toNat_lt
  have hfault : st.word.extractLsb' 0 4 = faultField st.fault := extractLsb'_eq_of_toNat (by omega)
  have hdstate : st.word.extractLsb' 9 3 = st.dstate.code := extractLsb'_eq_of_toNat (by omega)
  have hhigh : st.word.extractLsb' 12 4 = 0#4 := extractLsb'_eq_of_toNat (by rw [BitVec.toNat_zero]; omega)
  refine ⟨?_, getLsbD_eq_of_toNat (by omega), getLsbD_eq_of_toNat (by omega), getLsbD_eq_of_toNat (by omega),
    getLsbD_eq_of_toNat (by omega), getLsbD_eq_of_toNat (by omega), ?_,
    hhigh⟩
  · rw [hfault]
    rcases st.fault with _ | f
    · rfl
    · cases f <;> rfl
  · rw [hdstate]
    cases st.dstate <;> rfl

/-! ### The control registers -/

/-- RDREG of a number that names a register (40_system_commands.md R123). -/
theorem exec_rdreg_ok {s : State} {num : BitVec 10} {v : Word64} (hf : s.status.fault = none)
    (hv : readReg s num = some v) : exec (.rdreg num) s = .next (respond ⟨0, v, 0, 0⟩ s) := by
  have hv' : readReg (clearResults s) num = some v := hv
  show frontEnd (runRdreg num) s = _
  rw [frontEnd_ok _ hf, runRdreg, hv']
  rfl

/-- RDREG of a reserved number (30_encoding.md R93). -/
theorem exec_rdreg_reserved {s : State} {num : BitVec 10} (hf : s.status.fault = none)
    (hv : readReg s num = none) : exec (.rdreg num) s = .next (takeFault .illegalCommand s) := by
  have hv' : readReg (clearResults s) num = none := hv
  show frontEnd (runRdreg num) s = _
  rw [frontEnd_ok _ hf, runRdreg, hv']
  rfl

/-- The numbers above 12 name no register (10_state.md R39). -/
theorem readReg_reserved (s : State) {num : BitVec 10} (h : 12 < num.toNat) : readReg s num = none := by
  unfold readReg
  split
  case h_14 => rfl
  all_goals omega

/-- Settles O17: a named register is read and a reserved number is IllegalCommand. -/
theorem rdregReads : Obligations.RdregReads := fun s hf =>
  ⟨exec_rdreg_ok hf rfl, exec_rdreg_ok hf rfl, exec_rdreg_ok hf rfl, exec_rdreg_ok hf rfl, exec_rdreg_ok hf rfl,
    exec_rdreg_ok hf rfl, exec_rdreg_ok hf rfl, exec_rdreg_ok hf rfl, exec_rdreg_ok hf rfl, exec_rdreg_ok hf rfl,
    exec_rdreg_ok hf rfl, exec_rdreg_ok hf rfl, exec_rdreg_ok hf rfl,
    fun _ h => exec_rdreg_reserved hf (readReg_reserved s h)⟩

/-! ### PREPPED -/

/-- A command that clears PREPPED before its rule goes on, and does not write it again, ends with PREPPED 0, with its
response, with a fault or waiting (10_state.md R27). -/
theorem frontEnd_prepped_cleared {run : State → Res Response} {ps : List Piece} {fs : List FaultKind} {s s' t : State}
    (hf : s.status.fault = none) (hr : (run (clearResults s)).Ends ps fs s') (hp : Piece.prepped ∉ ps)
    (hs' : s'.status.prepped = false) (hn : frontEnd run s = .next t) : t.status.prepped = false := by
  obtain ⟨u, hu, hend⟩ := frontEnd_ends hf hr hn
  have hup : u.status.prepped = false := Eq.trans (hu.same .prepped hp) hs'
  rcases hend with ⟨r, -, rfl⟩ | ⟨f, -, rfl⟩ | rfl
  · exact hup
  · rfl
  · exact hup

/-- A command whose rule does not write PREPPED keeps it unless it ends in a fault (10_state.md R27). -/
theorem frontEnd_prepped_kept {run : State → Res Response} {ps : List Piece} {fs : List FaultKind} {s t : State}
    (hf : s.status.fault = none) (hr : (run (clearResults s)).Ends ps fs (clearResults s)) (hp : Piece.prepped ∉ ps)
    (hn : frontEnd run s = .next t) (ht : t.status.fault = none) : t.status.prepped = s.status.prepped := by
  obtain ⟨u, hu, hend⟩ := frontEnd_ends hf hr hn
  have hup : u.status.prepped = s.status.prepped := hu.same .prepped hp
  rcases hend with ⟨r, -, rfl⟩ | ⟨f, -, rfl⟩ | rfl
  · exact hup
  · cases ht
  · exact hup

/-- The rule of PREP sets PREPPED when it goes through (45_stream_compress.md R211). -/
theorem runPrep_prepped {hdr : Bool} {s u : State} {r : Response} (h : runPrep hdr s = .ok r u) :
    u.status.prepped = true := by
  obtain ⟨_, _, -, h⟩ := Res.andThen_eq_ok.1 h
  obtain ⟨_, _, -, h⟩ := Res.andThen_eq_ok.1 h
  obtain ⟨_, _, -, h⟩ := Res.andThen_eq_ok.1 h
  cases h
  rfl

/-- A PREP that is over without a fault leaves PREPPED 1 (10_state.md R27). -/
theorem execPrep_prepped {hdr : Bool} {s t : State} (hf : s.status.fault = none) (hn : execPrep hdr s = .next t)
    (ht : t.status.fault = none) (hb : t.io.busy = false) : t.status.prepped = true := by
  obtain ⟨u, -, ⟨r, hr, rfl⟩ | ⟨f, -, rfl⟩ | rfl⟩ := frontEnd_ends hf (runPrep_ends hdr _) hn
  · exact (runPrep_prepped hr : u.status.prepped = true)
  · cases ht
  · cases hb

/-- Settles O57: what each rule does with PREPPED is in its frame. -/
theorem preppedRule : Obligations.PreppedRule := by
  intro i s t hf hn
  refine ⟨?_, ?_, ?_⟩
  · rintro (rfl | ⟨v, sym, w, rfl⟩ | rfl | rfl | rfl | ⟨sym, c, rfl⟩ | rfl | rfl | rfl)
    · cases hn; rfl
    · exact frontEnd_prepped_cleared hf (runQins_ends v sym w _) (by decide) rfl hn
    · exact frontEnd_prepped_cleared hf (runQrem_ends _) (by decide) rfl hn
    · exact frontEnd_prepped_cleared hf (runFacc_ends _) (by decide) rfl hn
    · exact frontEnd_prepped_cleared hf (runQload_ends _) (by decide) rfl hn
    · exact frontEnd_prepped_cleared hf (runFset_ends sym c _) (by decide) rfl hn
    · exact frontEnd_prepped_cleared hf (runBuild_ends _) (by decide) rfl hn
    · exact frontEnd_prepped_cleared hf (runRtree_ends _) (by decide) rfl hn
    · exact frontEnd_prepped_cleared hf (runDecode_ends _) (by decide) rfl hn
  · rintro (⟨num, rfl⟩ | rfl | rfl | ⟨sym, rfl⟩ | ⟨num, rfl⟩ | ⟨sym, rfl⟩ | rfl | ⟨force, rfl⟩) ht
    · exact frontEnd_prepped_kept hf (runRdreg_ends num _) (by decide) hn ht
    · exact frontEnd_prepped_kept hf (runQpeek_ends _) (by decide) hn ht
    · exact frontEnd_prepped_kept hf (runQsize_ends _) (by decide) hn ht
    · exact frontEnd_prepped_kept hf (runFget_ends sym _) (by decide) hn ht
    · exact frontEnd_prepped_kept hf (runNget_ends num _) (by decide) hn ht
    · exact frontEnd_prepped_kept hf (runPget_ends sym _) (by decide) hn ht
    · exact frontEnd_prepped_kept hf (runWtree_ends _) (by decide) hn ht
    · exact frontEnd_prepped_kept hf (runEmit_ends force _) (by decide) hn ht
  · rintro ⟨hdr, rfl⟩ ht hb
    exact execPrep_prepped hf hn ht hb

end Sys2Proof.Machine
end

section
/-! PROOFS. The invariant of the machine between two steps (10_state.md R22, R30, R34, R35, R41, R44): every command
rule keeps it, so every step does. -/

namespace Sys2Proof.Machine

/-! ### A session without a fault between two commands -/

/-- What the invariant says of a state that has no fault and is not busy. -/
structure Ready (s : State) : Prop where
  fault : s.status.fault = none
  ports : PortsClosed s.io
  session : SessionOk s.status s.ses
  cur : CurOk s.ses

/-- The completion codes of a command that ends without a fault (30_encoding.md R96). -/
def PlainRc (rc : BitVec 4) : Prop := rc = 0 ∨ rc = 1 ∨ rc = 2

theorem Inv.ready {s : State} (h : Inv s) (hf : s.status.fault = none) (hb : s.io.busy = false) : Ready s := by
  obtain ⟨-, hports, -, hses⟩ := h
  exact ⟨hf, hports hb, (hses hf hb).1, (hses hf hb).2⟩

theorem Inv.plainRc {s : State} (h : Inv s) (hf : s.status.fault = none) : PlainRc s.rsp.rc := by
  obtain ⟨hrc, -⟩ := h
  rw [RcOk, hf] at hrc
  exact hrc

/-- A command's response keeps the invariant (10_state.md R21). -/
theorem Ready.inv_respond {s : State} (h : Ready s) {r : Response} (hr : PlainRc r.rc) : Inv (respond r s) := by
  refine ⟨?_, fun _ => h.ports, fun hf => absurd h.fault hf, fun _ _ => ⟨h.session, h.cur⟩⟩
  rw [RcOk, respond_status, h.fault]
  exact hr

/-- A fault keeps the invariant, whatever the command has done before it (60_exceptions.md R255). -/
theorem inv_takeFault (f : FaultKind) (s : State) : Inv (takeFault f s) :=
  ⟨.inl rfl, fun _ => ⟨rfl, rfl, rfl, rfl⟩, fun _ => ⟨rfl, rfl⟩, fun h => nomatch h⟩

/-- The refusal of a faulted session keeps the invariant (60_exceptions.md R256). -/
theorem Inv.refuse {s : State} (h : Inv s) {f : FaultKind} (hf : s.status.fault = some f) (hb : s.io.busy = false) :
    Inv (refuse s) := by
  obtain ⟨-, hports, hfaulted, -⟩ := h
  refine ⟨?_, fun _ => hports hb, fun _ => hfaulted (by simp [hf]), fun h => by simp [hf] at h⟩
  rw [RcOk, refuse_status, hf]
  exact .inr rfl

/-- A command that waits for ever keeps the invariant, whatever it has done (70_reset_and_hazards.md R286). -/
theorem inv_waitForEver {s : State} (hf : s.status.fault = none) (hrc : PlainRc s.rsp.rc) : Inv (waitForEver s) := by
  refine ⟨?_, (fun h => nomatch h), fun h => absurd hf h, fun _ h => nomatch h⟩
  rw [RcOk, waitForEver_status, hf]
  exact hrc

/-- The fresh session is legal (40_system_commands.md R120, 10_state.md R49). -/
theorem sessionOk_fresh : SessionOk Status.fresh Session.fresh :=
  ⟨ArenaOk.nil, queueOk_nil rfl, ⟨rfl, rfl, rfl, rfl, rfl⟩, (fun h => nomatch h), .inl rfl⟩

theorem curOk_fresh : CurOk Session.fresh := .inl rfl

/-- A state with the STATUS, the session and the closed ports of reset meets the invariant after a plain answer. -/
theorem inv_of_fresh {s : State} (hst : s.status = Status.fresh) (hses : s.ses = Session.fresh) (hp : PortsClosed s.io)
    (hrc : PlainRc s.rsp.rc) : Inv s := by
  have hf : s.status.fault = none := by rw [hst]; rfl
  refine ⟨?_, fun _ => hp, fun h => absurd hf h, fun _ _ => ?_⟩
  · rw [RcOk, hf]; exact hrc
  · rw [hst, hses]; exact ⟨sessionOk_fresh, curOk_fresh⟩

/-- Settles O2: the fresh session is legal, and the ports are closed. -/
theorem resetMeetsInvariant : Obligations.ResetMeetsInvariant :=
  inv_of_fresh rfl rfl ⟨rfl, rfl, rfl, rfl⟩ (.inl rfl)

/-! ### The rule of a command keeps it -/

/-- A command's rule that goes through in a ready state answers with a plain code and ends in a ready state. -/
def KeepsReady (run : State → Res Response) : Prop :=
  ∀ s r u, Ready s → run s = .ok r u → PlainRc r.rc ∧ Ready u

/-- A command behind the front end keeps the invariant when its rule keeps ready states: its other ends are a refusal, a
fault and a wait, which keep the invariant by themselves (40_system_commands.md R121). -/
theorem frontEnd_inv {run : State → Res Response} {ps : List Piece} {fs : List FaultKind} {s s' t : State}
    (hk : KeepsReady run) (hr : (run (clearResults s)).Ends ps fs s') (hf' : s'.status.fault = s.status.fault)
    (hrc' : s'.rsp.rc = s.rsp.rc) (h : Inv s) (hb : s.io.busy = false) (hn : frontEnd run s = .next t) : Inv t := by
  cases hf : s.status.fault with
  | some f =>
    rw [frontEnd_refuse run hf] at hn
    cases hn
    exact h.refuse hf hb
  | none =>
    obtain ⟨u, hu, ⟨r, hok, rfl⟩ | ⟨f, -, rfl⟩ | rfl⟩ := frontEnd_ends hf hr hn
    · have hs : Ready (clearResults s) := ⟨hf, (h.ready hf hb).ports, (h.ready hf hb).session, (h.ready hf hb).cur⟩
      obtain ⟨hrc, hready⟩ := hk _ r u hs hok
      exact hready.inv_respond hrc
    · exact inv_takeFault f u
    · refine inv_waitForEver (by rw [hu.fault, hf', hf]) ?_
      rw [hu.rsp, hrc']
      exact h.plainRc hf

/-- The pieces of state that say which tree is held and what is queued. -/
def heldPieces : List Piece := [.root, .size, .numleaf, .treeBits, .node, .q, .path, .treeValid]

/-- The pieces of state that the invariant of a session speaks of. -/
def sessionPieces : List Piece := heldPieces ++ [.cur, .prepped, .dstate]

/-- A session whose held pieces are those of `s`, written out. -/
theorem ses_eq_of_same {s u : State} (hs : ∀ p ∈ heldPieces, Same s u p) :
    u.ses = { u.ses with
      root := s.ses.root, size := s.ses.size, numleaf := s.ses.numleaf, treeBits := s.ses.treeBits
      node := s.ses.node, q := s.ses.q, path := s.ses.path } := by
  have hroot : u.ses.root = s.ses.root := hs .root (by decide)
  have hsize : u.ses.size = s.ses.size := hs .size (by decide)
  have hnumleaf : u.ses.numleaf = s.ses.numleaf := hs .numleaf (by decide)
  have htreeBits : u.ses.treeBits = s.ses.treeBits := hs .treeBits (by decide)
  have hnode : u.ses.node = s.ses.node := hs .node (by decide)
  have hq : u.ses.q = s.ses.q := hs .q (by decide)
  have hpath : u.ses.path = s.ses.path := hs .path (by decide)
  rw [← hroot, ← hsize, ← hnumleaf, ← htreeBits, ← hnode, ← hq, ← hpath]

/-- A session none of whose pieces has changed is as legal as before. -/
theorem SessionOk.of_same {s u : State} (h : SessionOk s.status s.ses) (hs : ∀ p ∈ sessionPieces, Same s u p) :
    SessionOk u.status u.ses := by
  have htreeValid : u.status.treeValid = s.status.treeValid := hs .treeValid (by decide)
  have hprepped : u.status.prepped = s.status.prepped := hs .prepped (by decide)
  have hdstate : u.status.dstate = s.status.dstate := hs .dstate (by decide)
  rw [ses_eq_of_same fun p hp => hs p (List.mem_append_left _ hp), SessionOk, htreeValid, hprepped, hdstate]
  exact h

theorem CurOk.of_same {s u : State} (h : CurOk s.ses) (hc : Same s u .cur) (hn : Same s u .node) : CurOk u.ses := by
  have hc : u.ses.cur = s.ses.cur := hc
  have hn : u.ses.node = s.ses.node := hn
  rw [CurOk, hc, hn]
  exact h

/-- A procedure that releases what it holds ends with the ports closed (20_memory.md R64). -/
theorem Touches.portsClosed {ps : List Piece} {s u : State} (h : Touches ps s u) (hc : PortsClosed s.io)
    (hsin : Piece.sin ∈ ps → u.io.sin.held = false) (hsout : Piece.sout ∈ ps → u.io.sout.held = false)
    (hbin : Piece.bin ∈ ps → u.io.bin.held = false) (hbout : Piece.bout ∈ ps → u.io.bout.held = false) :
    PortsClosed u.io := by
  obtain ⟨h1, h2, h3, h4⟩ := hc
  refine ⟨?_, ?_, ?_, ?_⟩
  · by_cases hp : Piece.sin ∈ ps
    · exact hsin hp
    · exact (congrArg InPort.held (h.same _ hp)).trans h1
  · by_cases hp : Piece.sout ∈ ps
    · exact hsout hp
    · exact (congrArg OutPort.held (h.same _ hp)).trans h2
  · by_cases hp : Piece.bin ∈ ps
    · exact hbin hp
    · exact (congrArg InPort.held (h.same _ hp)).trans h3
  · by_cases hp : Piece.bout ∈ ps
    · exact hbout hp
    · exact (congrArg OutPort.held (h.same _ hp)).trans h4

/-- A procedure that touches no stream leaves the ports closed. -/
theorem Touches.portsKept {ps : List Piece} {s u : State} (h : Touches ps s u) (hc : PortsClosed s.io)
    (hd : ∀ p ∈ [Piece.sin, .sout, .bin, .bout], p ∉ ps) : PortsClosed u.io :=
  h.portsClosed hc (fun hm => absurd hm (hd _ (by decide))) (fun hm => absurd hm (hd _ (by decide)))
    (fun hm => absurd hm (hd _ (by decide))) (fun hm => absurd hm (hd _ (by decide)))

/-- A procedure that changes no piece of the session's invariant, and releases what it holds, keeps a ready state. -/
theorem Ready.of_touches {ps : List Piece} {s u : State} (h : Ready s) (ht : Touches ps s u)
    (hd : ∀ p ∈ sessionPieces, p ∉ ps) (hp : PortsClosed u.io) : Ready u where
  fault := ht.fault.trans h.fault
  ports := hp
  session := h.session.of_same fun p hm => ht.same p (hd p hm)
  cur := h.cur.of_same (ht.same _ (hd _ (by decide))) (ht.same _ (hd _ (by decide)))

/-- Clearing PREPPED keeps a ready state (10_state.md R27). -/
theorem Ready.clearPrepped {s : State} (h : Ready s) : Ready (s.setPrepped false) := by
  obtain ⟨harena, hqueue, htree, -, hdstate⟩ := h.session
  exact ⟨h.fault, h.ports, ⟨harena, hqueue, htree, (fun h => nomatch h), hdstate⟩, h.cur⟩

/-! ### The reading commands -/

theorem runRdreg_keeps (num : BitVec 10) : KeepsReady (runRdreg num) := by
  intro s r u hs h
  unfold runRdreg at h
  split at h <;> cases h
  exact ⟨.inl rfl, hs⟩

theorem runQsize_keeps : KeepsReady runQsize := by
  intro s r u hs h
  cases h
  exact ⟨.inl rfl, hs⟩

theorem runFget_keeps (sym : SymVal) : KeepsReady (runFget sym) := by
  intro s r u hs h
  unfold runFget at h
  split at h <;> cases h
  exact ⟨.inl rfl, hs⟩

theorem nodeReply_rc (rc : BitVec 4) (i : Idx) (n : Option Node) : (nodeReply rc i n).rc = rc := by cases n <;> rfl

theorem pathReply_rc (p : PathEntry) : (pathReply p).rc = 0 := by cases p <;> rfl

theorem runNget_keeps (num : Idx) : KeepsReady (runNget num) := by
  intro s r u hs h
  cases h
  exact ⟨.inl (nodeReply_rc _ _ _), hs⟩

theorem runPget_keeps (sym : SymVal) : KeepsReady (runPget sym) := by
  intro s r u hs h
  unfold runPget at h
  split at h
  · cases h
  · split at h <;> cases h <;> exact ⟨.inl (pathReply_rc _), hs⟩

theorem imageReply_ok {i : Idx} {s u : State} {r : Response} (h : imageReply i s = .ok r u) : r.rc = 0 ∧ u = s := by
  unfold imageReply at h
  split at h <;> cases h
  exact ⟨nodeReply_rc _ _ _, rfl⟩

theorem Ready.setEmpty {s : State} (h : Ready s) (b : Bool) : Ready (s.setEmpty b) :=
  h.of_touches (setEmpty_touches b s) (by decide) h.ports

theorem runQpeek_keeps : KeepsReady runQpeek := by
  intro s r u hs h
  unfold runQpeek at h
  split at h
  · cases h
    exact ⟨.inr (.inl rfl), hs.setEmpty true⟩
  · obtain ⟨hrc, rfl⟩ := imageReply_ok h
    exact ⟨.inl hrc, hs.setEmpty false⟩

/-! ### The queue and the frequency table -/

/-- A legal queue without its front entry is legal (41_ranked_queue.md R131). -/
theorem QueueOk.tail {c : Session} (h : QueueOk c) {i : Idx} {rest : List Idx} (hq : c.q = i :: rest) :
    QueueOk { c with q := rest } := by
  obtain ⟨hlen, hnodup, hleaf, horder⟩ := h
  rw [hq] at hlen hnodup hleaf horder
  exact ⟨Nat.le_of_succ_le hlen, hnodup.of_cons, fun j hj => hleaf j (List.mem_cons_of_mem _ hj), horder.of_cons⟩

theorem runQrem_keeps : KeepsReady runQrem := by
  intro s r u hs h
  have h0 := hs.clearPrepped
  unfold runQrem queueRemove at h
  cases hq : (s.setPrepped false).ses.q with
  | nil =>
    rw [hq] at h
    cases h
    exact ⟨.inr (.inl rfl), h0.setEmpty true⟩
  | cons i rest =>
    rw [hq] at h
    obtain ⟨hrc, rfl⟩ := imageReply_ok h
    obtain ⟨harena, hqueue, htree, hprep, hdstate⟩ := h0.session
    have h1 : Ready ((s.setPrepped false).setQ rest) :=
      ⟨h0.fault, h0.ports, ⟨harena, hqueue.tail hq, htree, hprep, hdstate⟩, h0.cur⟩
    exact ⟨.inl hrc, h1.setEmpty false⟩

/-- A legal queue is a loaded queue of its leaves (10_state.md R44). -/
theorem QueueOk.loaded {c : Session} (h : QueueOk c) : Loaded c.node c.q (queueLeaves c) := by
  obtain ⟨-, hnodup, hleaf, horder⟩ := id h
  exact ⟨queueLeaves_trees hleaf, horder, h.lt, hnodup⟩

/-- A valid tree stays described when the arena grows (10_state.md R41). -/
theorem TreeOk.append {c : Session} (h : TreeOk c) (more : List Node) (q : List Idx) :
    TreeOk { c with node := c.node ++ more, q := q } := by
  obtain ⟨t, ht, hdescr⟩ := h
  exact ⟨t, ht.append more, hdescr⟩

/-- What TREE_VALID says stays so when the arena grows, whether there is a tree or not. -/
theorem treeClause_append {b : Bool} {c : Session} (h : if b = true then TreeOk c else NoTree c) (more : List Node)
    (q : List Idx) :
    if b = true then TreeOk { c with node := c.node ++ more, q := q }
    else NoTree { c with node := c.node ++ more, q := q } := by
  cases b with
  | false => exact h
  | true => exact TreeOk.append h more q

theorem CurOk.append {c : Session} (h : CurOk c) (more : List Node) : CurOk { c with node := c.node ++ more } :=
  h.imp id fun hlt => by simp only [List.length_append]; omega

/-- One more leaf in a ready state: the newest node is queued at its rank (41_ranked_queue.md R132). -/
theorem Ready.insertLeaf {s : State} (h : Ready s) {sym : SymVal} (hsym : sym.toNat ≤ 256) {w : Weight}
    (hcap : s.ses.node.length < Config.NODE_CAP) (hq : s.ses.q.length < Config.QCAP) {pos : Nat} {ts : List CodeTree}
    (hl : Loaded (s.ses.node ++ [.leaf sym w]) (s.ses.q.take pos ++ s.nextIdx :: s.ses.q.drop pos) ts) :
    Ready ((s.setNode (s.ses.node ++ [.leaf sym w])).setQ (s.ses.q.take pos ++ s.nextIdx :: s.ses.q.drop pos)) := by
  obtain ⟨harena, ⟨-, -, hleaf, -⟩, htree, hprep, hdstate⟩ := h.session
  have hnew : (leafAt (s.ses.node ++ [.leaf sym w]) s.nextIdx).isSome = true := by
    simp [leafAt, nextIdx_toNat (Nat.le_of_lt hcap)]
  refine ⟨h.fault, h.ports, ⟨harena.append (by simp; omega) ?_, ⟨?_, hl.nodup, ?_, hl.order⟩, ?_,
    hprep, hdstate⟩, h.cur.append _⟩
  · intro n hn
    rw [List.mem_singleton.1 hn]
    exact hsym
  · simp; omega
  · intro j hj
    rcases List.mem_append.1 hj with hj | hj
    · exact leafAt_append (hleaf j (List.mem_of_mem_take hj))
    · rcases List.mem_cons.1 hj with rfl | hj
      · exact hnew
      · exact leafAt_append (hleaf j (List.mem_of_mem_drop hj))
  · exact treeClause_append htree _ _

theorem runQins_keeps (v : Bool) (sym : SymVal) (w : Weight) : KeepsReady (runQins v sym w) := by
  intro s r u hs h
  have h0 := hs.clearPrepped
  obtain ⟨-, hqueue, -⟩ := h0.session
  unfold runQins at h
  simp only at h
  split at h
  · cases h
  · split at h
    · cases h
    · next hsym =>
      split at h
      · cases h
      · next hq =>
        by_cases hcap : (s.setPrepped false).ses.node.length < Config.NODE_CAP
        · obtain ⟨pos, -, halloc, hins, hl⟩ := allocInsert_of_loaded hqueue.loaded sym w hcap (Nat.not_le.1 hq)
          rw [halloc, Res.andThen_ok, hins, Res.andThen_ok] at h
          cases h
          exact ⟨.inl rfl, h0.insertLeaf (by simpa [isSymbol] using hsym) hcap (Nat.not_le.1 hq) hl⟩
        · rw [alloc_full _ (Nat.not_lt.1 hcap)] at h
          cases h

theorem runFset_keeps (sym : SymVal) (c : Count) : KeepsReady (runFset sym c) := by
  intro s r u hs h
  have h0 := hs.clearPrepped
  unfold runFset at h
  simp only at h
  split at h <;> cases h
  exact ⟨.inl rfl, h0.of_touches (setFreq_touches _ _ _) (by decide) h0.ports⟩

theorem runFacc_keeps : KeepsReady runFacc := by
  intro s r u hs h
  have h0 := hs.clearPrepped
  have hends := runFacc_ends s
  rw [h] at hends
  obtain ⟨a, v, hc, h⟩ := Res.andThen_eq_ok.1 h
  cases h
  exact ⟨.inl rfl, h0.of_touches hends (by decide) (countPass_released h0.ports hc)⟩

/-- What LoadQueue() leaves (42_frequency_accumulator.md R152): a legal arena, a legal queue and no tree. -/
theorem loadQueue_legal {s u : State} (h : loadQueue s = .ok () u) :
    ArenaOk u.ses.node ∧ QueueOk u.ses ∧ u.status.treeValid = false ∧ NoTree u.ses := by
  obtain ⟨q, hq, hl⟩ := loadQueue_ok s
  rw [hq] at h
  cases h
  exact ⟨tableLeaves_arena _, loaded_queueOk hl rfl rfl, rfl, rfl, rfl, rfl, rfl, rfl⟩

theorem runQload_keeps : KeepsReady runQload := by
  intro s r u hs h
  have h0 := hs.clearPrepped
  have hends := runQload_ends s
  rw [h] at hends
  obtain ⟨_, v, hl, h⟩ := Res.andThen_eq_ok.1 h
  cases h
  obtain ⟨-, -, -, -, hdstate⟩ := h0.session
  obtain ⟨harena, hqueue, htv, hno⟩ := loadQueue_legal hl
  have hprep : v.status.prepped = false := hends.same .prepped (by decide)
  have hds : v.status.dstate = s.status.dstate := hends.same .dstate (by decide)
  refine ⟨.inl rfl, hends.fault.trans h0.fault, ?_, ⟨harena, hqueue, ?_, ?_, ?_⟩, settleCur_curOk v⟩
  · exact hends.portsKept h0.ports (by decide)
  · rw [settleCur_status, htv]; exact hno
  · rw [settleCur_status, hprep]; exact fun h => nomatch h
  · rw [settleCur_status, hds]; exact hdstate

end Sys2Proof.Machine
end

section
/-! PROOFS. The commands that build, read, write and use a tree, and the step (10_state.md R22, R30, R34, R35). -/

namespace Sys2Proof.Machine

/-! ### The output streams -/

theorem runWtree_keeps : KeepsReady runWtree := by
  intro s r u hs h
  have hends := runWtree_ends s
  rw [h] at hends
  unfold runWtree at h
  split at h
  · cases h
  · obtain ⟨_, v, -, h⟩ := Res.andThen_eq_ok.1 h
    cases h
    exact ⟨.inl rfl, hs.of_touches hends (by decide)
      (hends.portsClosed hs.ports (by simp) (by simp) (by simp) fun _ => rfl)⟩

theorem runEmit_keeps (force : Bool) : KeepsReady (runEmit force) := by
  intro s r u hs h
  have hends := runEmit_ends force s
  rw [h] at hends
  unfold runEmit at h
  split at h
  · cases h
  · split at h
    · cases h
      exact ⟨.inr (.inr rfl), hs.of_touches hends (by decide) hs.ports⟩
    · obtain ⟨_, v, -, h⟩ := Res.andThen_eq_ok.1 h
      cases h
      exact ⟨.inl rfl, hs.of_touches hends (by decide)
        (hends.portsClosed hs.ports (fun _ => rfl) (by simp) (by simp) fun _ => rfl)⟩

/-! ### Where a tree has been made -/

/-- The arena and the queue are legal and ROOT names a tree that the metrics and the path table describe (10_state.md
R30). -/
structure HoldsTree (s : State) : Prop where
  arena : ArenaOk s.ses.node
  queue : QueueOk s.ses
  valid : s.status.treeValid = true
  tree : TreeOk s.ses

/-- A state that holds a tree has a legal session once PREPPED and DSTATE are in order. -/
theorem HoldsTree.sessionOk {s : State} (h : HoldsTree s)
    (hp : s.status.prepped = true → (s.ses.path[256]?).getD none ≠ none)
    (hd : s.status.dstate = .idle ∨ s.status.dstate = .done) : SessionOk s.status s.ses :=
  ⟨h.arena, h.queue, by rw [h.valid]; exact h.tree, fun hpr => ⟨h.valid, hp hpr⟩, hd⟩

/-- A tree stays held while none of its pieces changes. -/
theorem HoldsTree.of_touches {ps : List Piece} {s u : State} (h : HoldsTree s) (ht : Touches ps s u)
    (hd : ∀ p ∈ heldPieces, p ∉ ps) : HoldsTree u := by
  have hses := ses_eq_of_same fun p hp => ht.same p (hd p hp)
  have htreeValid : u.status.treeValid = s.status.treeValid := ht.same .treeValid (hd _ (by decide))
  obtain ⟨harena, hqueue, hvalid, htree⟩ := h
  refine ⟨?_, ?_, htreeValid.trans hvalid, ?_⟩ <;> rw [hses]
  · exact harena
  · exact hqueue
  · exact htree

/-- BuildTree() on a legal arena and queue that goes through holds a tree (43_tree_builder.md R170, R173): its
leaves are those of the queue, at most 257, with the symbols of the arena. NODE has only grown. -/
theorem buildTree_holdsTree {s u : State} (ha : ArenaOk s.ses.node) (hq : QueueOk s.ses)
    (h : buildTree s = .ok () u) : HoldsTree u ∧ ∃ more, u.ses.node = s.ses.node ++ more := by
  have harena : (buildTree s).All Arena := buildTree_arena ⟨ha, hq.lt⟩
  rw [h] at harena
  have htrees := hq.loaded.trees
  have hlen : (queueLeaves s.ses).length ≤ 257 := by rw [← htrees.length_eq]; exact hq.1
  have hne : queueLeaves s.ses ≠ [] := by
    intro hnil
    rw [hnil, List.forall₂_nil_right_iff] at htrees
    simp [buildTree, htrees] at h
  have hleaves : totalLeaves (queueLeaves s.ses) ≤ 257 := by rw [queueLeaves_total]; exact hlen
  rcases buildTree_of_trees htrees hne hq.1 ha.1 hleaves with ⟨c, hc, -⟩ | ⟨more, i, hok, -, ht, -⟩
  · rw [hc] at h
    cases h
  · rw [hok] at h
    cases h
    have hlegal : (rootTree (queueLeaves s.ses)).Legal :=
      ⟨by rw [rootTree_leaves hne]; exact hleaves, isTree_syms harena.1 ht⟩
    exact ⟨⟨harena.1, queueOk_nil rfl, rfl, derived_treeOk (by exact ht) hlegal⟩, more, rfl⟩

theorem CurOk.of_append {s u : State} (h : CurOk s.ses) (hc : Same s u .cur) {more : List Node}
    (hn : u.ses.node = s.ses.node ++ more) : CurOk u.ses := by
  have hc : u.ses.cur = s.ses.cur := hc
  rw [CurOk, hc, hn]
  exact h.append more

theorem runBuild_keeps : KeepsReady runBuild := by
  intro s r u hs h
  have h0 := hs.clearPrepped
  have hends := runBuild_ends s
  rw [h] at hends
  obtain ⟨_, v, hb, h⟩ := Res.andThen_eq_ok.1 h
  cases h
  obtain ⟨harena, hqueue, -, -, hdstate⟩ := h0.session
  obtain ⟨htree, more, hmore⟩ := buildTree_holdsTree harena hqueue hb
  have hprep : u.status.prepped = false := hends.same .prepped (by decide)
  have hds : u.status.dstate = s.status.dstate := hends.same .dstate (by decide)
  refine ⟨.inl rfl, hends.fault.trans h0.fault, ?_, htree.sessionOk ?_ ?_,
    h0.cur.of_append (hends.same _ (by decide)) hmore⟩
  · exact hends.portsKept h0.ports (by decide)
  · rw [hprep]; exact fun h => nomatch h
  · rw [hds]; exact hdstate

/-- LoadQueue() then BuildTree() holds the tree of the frequency table, which has a PSEUDO_EOF path
(42_frequency_accumulator.md R152, 43_tree_builder.md R175 (b)). -/
theorem load_build_holdsTree {s v u : State} (hl : loadQueue s = .ok () v) (hb : buildTree v = .ok () u) :
    HoldsTree u ∧ (u.ses.path[256]?).getD none ≠ none := by
  obtain ⟨harena, hqueue, -⟩ := loadQueue_legal hl
  refine ⟨(buildTree_holdsTree harena hqueue hb).1, ?_⟩
  have htable := (loadQueue_buildTree s).1
  rw [hl, Res.andThen_ok, hb] at htable
  cases htable
  exact tableTree_path256 _

theorem runPrep_keeps (hdr : Bool) : KeepsReady (runPrep hdr) := by
  intro s r u hs h
  have hends := runPrep_ends hdr s
  rw [h] at hends
  obtain ⟨n, a, hcount, h⟩ := Res.andThen_eq_ok.1 h
  obtain ⟨_, b, hload, h⟩ := Res.andThen_eq_ok.1 h
  obtain ⟨_, c, hbuild, h⟩ := Res.andThen_eq_ok.1 h
  cases h
  obtain ⟨htree, hpath⟩ := load_build_holdsTree hload hbuild
  have hcur : c.ses.cur = NIL := hends.same .cur (by decide)
  have hds : c.status.dstate = .idle := hends.same .dstate (by decide)
  have hrest : Touches treePieces a c := by
    have := loadQueue_buildTree_ends a
    rw [hload, Res.andThen_ok, hbuild] at this
    exact this
  have hports : PortsClosed c.io :=
    hrest.portsKept (countPass_released (s := (sessionInit s).setHdrsel hdr) hs.ports hcount) (by decide)
  have hkept : HoldsTree ((recordSizes n.1 c).setPrepped true) :=
    ⟨htree.arena, htree.queue, htree.valid, htree.tree⟩
  exact ⟨.inl rfl, hends.fault.trans hs.fault, hports, hkept.sessionOk (fun _ => hpath) (.inl hds), .inl hcur⟩

/-- ReadTree() then DeriveTree() in an empty arena and queue holds a tree (44_tree_codec.md R193, R196). -/
theorem readTree_deriveTree_holdsTree {s v x u : State} {i : Idx} (hnode : s.ses.node = []) (hq : s.ses.q = [])
    (hr : readTree s = .ok i v) (hx : x.ses = { v.ses with root := i }) (hd : deriveTree x = .ok () u) :
    HoldsTree u := by
  have harena : (readTree s).All Arena := readTree_arena (by rw [Arena, hnode, hq]; exact ⟨ArenaOk.nil, by simp⟩)
  rcases readTree_cases s with ⟨t, rest, -, hsyms, hdepth, hcap, ht, hok⟩ | ⟨rest, hbad⟩ | hhang
  · rw [hok] at hr harena
    cases hr
    have hlegal : t.Legal := CodeTree.legal_of_size hsyms (Nat.le_trans (Nat.le_add_left _ _) hcap)
    have htree : IsTree x.ses.node x.ses.root t.unweighted := by rw [hx]; exact ht
    rw [deriveTree_of_isTree htree (CodeTree.unweighted_legal.2 hlegal).depth_lt_fuel] at hd
    cases hd
    refine ⟨?_, queueOk_nil ?_, rfl, derived_treeOk htree (CodeTree.unweighted_legal.2 hlegal)⟩
    · show ArenaOk x.ses.node
      rw [hx]; exact harena.1
    · show x.ses.q = []
      rw [hx]; exact hq
  · rw [hbad] at hr
    cases hr
  · rw [hhang] at hr
    cases hr

theorem runRtree_keeps : KeepsReady runRtree := by
  intro s r u hs h
  have h0 := hs.clearPrepped
  have hends := runRtree_ends s
  rw [h] at hends
  obtain ⟨i, v, hread, h⟩ := Res.andThen_eq_ok.1 h
  obtain ⟨_, w, hderive, h⟩ := Res.andThen_eq_ok.1 h
  cases h
  have htree := readTree_deriveTree_holdsTree rfl rfl hread rfl hderive
  obtain ⟨-, -, -, -, hdstate⟩ := h0.session
  have hprep : w.status.prepped = false := hends.same .prepped (by decide)
  have hds : w.status.dstate = s.status.dstate := hends.same .dstate (by decide)
  have hbin : w.io.bin.held = false := by
    have := deriveTree_ends ((releaseBin v).setRoot i)
    rw [hderive] at this
    exact congrArg InPort.held (this.same .bin (by decide))
  have hkept : HoldsTree (settleCur w) := htree.of_touches (settleCur_touches w) (by decide)
  refine ⟨.inl rfl, hends.fault.trans h0.fault, ?_, hkept.sessionOk ?_ ?_, settleCur_curOk w⟩
  · exact (((acquireBin_touches (resetTree (s.setPrepped false))).mono (by simp)).trans hends).portsClosed h0.ports
      (by simp) (by simp) (fun _ => hbin) (by simp)
  · rw [settleCur_status, hprep]; exact fun h => nomatch h
  · rw [settleCur_status, hds]; exact hdstate

/-! ### DECODE -/

/-- CheckRoot() changes nothing (46_stream_decoder.md R237). -/
theorem checkRoot_eq_ok {s u : State} (h : checkRoot s = .ok () u) : u = s := by
  unfold checkRoot at h
  split at h
  · cases h
  · split at h <;> cases h
    rfl
  · cases h
    rfl

/-- StepPayload() with the frequency table (R233). -/
theorem payloadCounts_holdsTree {s u : State} (h : payloadCounts s = .ok () u) : HoldsTree u := by
  obtain ⟨_, a, -, h⟩ := Res.andThen_eq_ok.1 h
  obtain ⟨_, b, hload, h⟩ := Res.andThen_eq_ok.1 h
  obtain ⟨_, c, hbuild, h⟩ := Res.andThen_eq_ok.1 h
  rw [checkRoot_eq_ok h]
  exact (load_build_holdsTree hload hbuild).1

/-- StepPayload() with the serialized tree, in an empty arena and queue (R234). -/
theorem payloadTree_holdsTree {s u : State} (hnode : s.ses.node = []) (hq : s.ses.q = [])
    (h : payloadTree s = .ok () u) : HoldsTree u := by
  obtain ⟨_, a, hsize, h⟩ := Res.andThen_eq_ok.1 h
  obtain ⟨i, b, hread, h⟩ := Res.andThen_eq_ok.1 h
  obtain ⟨_, c, hderive, h⟩ := Res.andThen_eq_ok.1 h
  have hends : ((readBits 32 .truncatedStream s).andThen fieldTreeSize).Ends [.bin, .hdrTreeBits] [.truncatedStream]
      s :=
    ((readBits_ends 32 .truncatedStream s).mono (by simp) (by simp)).andThen fun z t =>
      (fieldTreeSize_ends z t).mono (by simp) (by simp)
  rw [hsize] at hends
  have ha : a.ses.node = [] := Eq.trans (hends.same .node (by decide)) hnode
  have hb : a.ses.q = [] := Eq.trans (hends.same .q (by decide)) hq
  rw [checkRoot_eq_ok h]
  exact readTree_deriveTree_holdsTree ha hb hread rfl hderive

/-- StepPayload() in an empty arena and queue holds a tree (R233, R234). -/
theorem stepPayload_holdsTree {s u : State} (hnode : s.ses.node = []) (hq : s.ses.q = [])
    (h : stepPayload s = .ok () u) : HoldsTree u := by
  unfold stepPayload at h
  split at h
  · exact payloadTree_holdsTree hnode hq h
  · exact payloadCounts_holdsTree h

theorem openDecoder_touches (s : State) :
    Touches [.bin, .sout, .outBits, .dstate] (sessionInit s) (openDecoder s) :=
  (((acquireBin_touches _).mono (by simp)).trans ((acquireSout_touches _).mono (by simp))).trans
    (((setOutBits_touches 0 _).mono (by simp)).trans ((setDstate_touches _ _).mono (by simp)))

/-- A CUR on an allocated entry (10_state.md R22). -/
theorem curOk_of_nodeAt {s : State} (h : ∃ n, s.nodeAt s.ses.cur = some n) : CurOk s.ses := by
  obtain ⟨n, hn⟩ := h
  exact .inr (List.getElem?_eq_some_iff.1 hn).1

theorem runDecode_keeps : KeepsReady runDecode := by
  intro s r u hs h
  have hends := runDecode_ends s
  rw [h] at hends
  obtain ⟨_, a, hmagic, h⟩ := Res.andThen_eq_ok.1 h
  obtain ⟨_, b, hselector, h⟩ := Res.andThen_eq_ok.1 h
  obtain ⟨_, c, hpayload, h⟩ := Res.andThen_eq_ok.1 h
  obtain ⟨_, d, hwalk, h⟩ := Res.andThen_eq_ok.1 h
  cases h
  have h1 := stepMagic_ends (openDecoder s)
  rw [hmagic] at h1
  have h2 := stepSelector_ends a
  rw [hselector] at h2
  have h3 := walk_ends (c.setDstate .walking)
  rw [hwalk] at h3
  have hnode : b.ses.node = [] := Eq.trans (h2.same .node (by decide)) (h1.same .node (by decide))
  have hq : b.ses.q = [] := Eq.trans (h2.same .q (by decide)) (h1.same .q (by decide))
  have hread : HoldsTree c := stepPayload_holdsTree hnode hq hpayload
  have hwalked : HoldsTree d :=
    (hread.of_touches (setDstate_touches .walking c) (by decide)).of_touches h3 (by decide)
  have htree : HoldsTree (closeDecoder d) := ⟨hwalked.arena, hwalked.queue, hwalked.valid, hwalked.tree⟩
  have hprep : d.status.prepped = false := hends.same .prepped (by decide)
  have hcur : CurOk d.ses := curOk_of_nodeAt (walk_cur hwalk)
  refine ⟨.inl rfl, hends.fault.trans hs.fault, ?_, htree.sessionOk ?_ (.inr rfl), hcur⟩
  · exact (((openDecoder_touches s).mono (by simp)).trans hends).portsClosed hs.ports (by simp [treePieces])
      (fun _ => rfl) (fun _ => rfl) (by simp [treePieces])
  · show d.status.prepped = true → _
    rw [hprep]; exact fun h => nomatch h

/-! ### The step -/

/-- A command word that is illegal keeps the invariant (40_system_commands.md R121, 30_encoding.md R94). -/
theorem illegalWord_inv {s t : State} (h : Inv s) (hb : s.io.busy = false) (hn : illegalWord s = .next t) : Inv t :=
  frontEnd_inv (run := fun s => .raise .illegalCommand s) (ps := []) (fs := [.illegalCommand])
    (fun _ _ _ _ h => nomatch h) ⟨by simp, Touches.refl _ _⟩ rfl rfl h hb hn

/-- CLR makes the session of reset, from any state (R122). -/
theorem execClr_inv {s t : State} (h : Inv s) (hb : s.io.busy = false) (hn : execClr s = .next t) : Inv t := by
  obtain ⟨-, hports, -⟩ := h
  cases hn
  exact inv_of_fresh rfl rfl (hports hb) (.inl rfl)

/-- Every command keeps the invariant. -/
theorem exec_command_inv (op : Opcode) (w : CmdWord) {s t : State} (h : Inv s) (hb : s.io.busy = false)
    (hn : exec (operands op w) s = .next t) : Inv t := by
  cases op with
  | clr => exact execClr_inv h hb hn
  | rdreg => exact frontEnd_inv (runRdreg_keeps _) (runRdreg_ends _ _) rfl rfl h hb hn
  | qins => exact frontEnd_inv (runQins_keeps _ _ _) (runQins_ends _ _ _ _) rfl rfl h hb hn
  | qrem => exact frontEnd_inv runQrem_keeps (runQrem_ends _) rfl rfl h hb hn
  | qpeek => exact frontEnd_inv runQpeek_keeps (runQpeek_ends _) rfl rfl h hb hn
  | qsize => exact frontEnd_inv runQsize_keeps (runQsize_ends _) rfl rfl h hb hn
  | facc => exact frontEnd_inv runFacc_keeps (runFacc_ends _) rfl rfl h hb hn
  | qload => exact frontEnd_inv runQload_keeps (runQload_ends _) rfl rfl h hb hn
  | fset => exact frontEnd_inv (runFset_keeps _ _) (runFset_ends _ _ _) rfl rfl h hb hn
  | fget => exact frontEnd_inv (runFget_keeps _) (runFget_ends _ _) rfl rfl h hb hn
  | build => exact frontEnd_inv runBuild_keeps (runBuild_ends _) rfl rfl h hb hn
  | nget => exact frontEnd_inv (runNget_keeps _) (runNget_ends _ _) rfl rfl h hb hn
  | pget => exact frontEnd_inv (runPget_keeps _) (runPget_ends _ _) rfl rfl h hb hn
  | wtree => exact frontEnd_inv runWtree_keeps (runWtree_ends _) rfl rfl h hb hn
  | rtree => exact frontEnd_inv runRtree_keeps (runRtree_ends _) rfl rfl h hb hn
  | prep => exact frontEnd_inv (runPrep_keeps _) (runPrep_ends _ _) rfl rfl h hb hn
  | emit => exact frontEnd_inv (runEmit_keeps _) (runEmit_ends _ _) rfl rfl h hb hn
  | decode => exact frontEnd_inv runDecode_keeps (runDecode_ends _) rfl rfl h hb hn

theorem runWord_inv {w : CmdWord} {s t : State} (h : Inv s) (hb : s.io.busy = false) (hn : runWord w s = .next t) :
    Inv t := by
  unfold runWord at hn
  split at hn
  · next i hi =>
    obtain ⟨op, -, -, rfl⟩ := decode_eq_ok.1 hi
    exact exec_command_inv op w h hb hn
  · exact illegalWord_inv h hb hn

/-- The invariant speaks of no stream's contents (20_memory.md R65). -/
theorem Inv.acceptOffer {s : State} (h : Inv s) (o : Offer) (rest : List HostAct) : Inv (acceptOffer o rest s) := h

theorem Inv.idle {s : State} (h : Inv s) : Inv (idle s) := h

/-- Reset from any state (70_reset_and_hazards.md R280). -/
theorem inv_resetNow (rest : List HostAct) (s : State) : Inv (resetNow rest s) :=
  inv_of_fresh rfl rfl ⟨rfl, rfl, rfl, rfl⟩ (.inl rfl)

/-- Settles O59: a step is an idle cycle, a reset or one command, and each of them keeps the invariant. -/
theorem stepKeepsInvariant : Obligations.StepKeepsInvariant := by
  intro s t h hn
  unfold step at hn
  split at hn
  · cases hn
    exact h.idle
  · cases hn
    exact inv_resetNow _ s
  · next o rest _ =>
    split at hn
    · cases hn
      exact h.idle
    · next hb => exact runWord_inv (h.acceptOffer o rest) (Bool.eq_false_iff.2 hb) hn

end Sys2Proof.Machine
end

section
/-! PROOFS. The statements of 20_memory.md: the command port, the fields of a compressed stream on BIN, and what an
instruction does to the four streams. -/

namespace Sys2Proof.Machine

/-! ### The command port -/

/-- A word presented while HTB is not busy is accepted and run (20_memory.md R65). -/
theorem step_of_ready {s : State} {o : Offer} {rest : List HostAct} (hh : s.host = .command o :: rest)
    (hb : s.io.busy = false) : step s = runWord o.word (acceptOffer o rest s) := by
  simp [step, hh, hb]

/-- A word presented while HTB is busy is not sampled (20_memory.md R65, 70_reset_and_hazards.md R286). -/
theorem step_of_busy {s : State} {o : Offer} {rest : List HostAct} (hh : s.host = .command o :: rest)
    (hb : s.io.busy = true) : step s = .next (idle s) := by
  simp [step, hh, hb]

/-- Nothing happens while the host does nothing (20_memory.md R65). -/
theorem step_of_quiet {s : State} (hh : s.host = []) : step s = .next (idle s) := by
  rw [step, hh]

/-- A word that decodes runs its instruction (40_system_commands.md R121). -/
theorem runWord_of_decode {w : CmdWord} {i : Instr} (hd : decode w = .ok i) (s : State) : runWord w s = exec i s := by
  rw [runWord, hd]

/-- Settles O6: the word is accepted, and it decodes. -/
theorem stepRunsDecoded : Obligations.StepRunsDecoded := fun _ _ _ _ hh hb hd =>
  (step_of_ready hh hb).trans (runWord_of_decode hd _)

/-- Settles O7: both steps are idle. -/
theorem busySamplesNothing : Obligations.BusySamplesNothing :=
  ⟨fun _ _ _ => step_of_busy, fun _ => step_of_quiet⟩

/-! ### Fields that are not taken -/

/-- A field stays with the host when BIN is not held, a fault is recorded, or another field is expected (20_memory.md
R62, R64). -/
theorem offeredField_not_taken {expected : Bool} (run : State → Res Unit) {s : State}
    (h : s.io.bin.held = false ∨ s.status.fault ≠ none ∨ expected = false) : offeredField expected run s = .next s := by
  refine if_neg fun ⟨hfault, hheld, hexpected⟩ => ?_
  rcases h with h | h | h
  · exact Bool.false_ne_true (h.symm.trans hheld)
  · exact h hfault
  · exact Bool.false_ne_true (h.symm.trans hexpected)

/-- No node of a tree payload is expected before the payload, in the frequency table or in the walk
(46_stream_decoder.md R230). -/
theorem expectsNode_eq_false {s : State} (h : wrongPlace .wireTreeInternal s.status) : expectsNode s = false := by
  unfold expectsNode
  rcases h with h | h | h | ⟨h, hsel⟩ <;> rw [h]
  exact hsel

/-- Settles O52: where `wrongPlace` holds, the condition under which the field is expected is false. -/
theorem fieldsNotTaken : Obligations.FieldsNotTaken := by
  intro i s hi h
  cases i with
  | wireMagic m => exact offeredField_not_taken _ (h.imp_right (.imp_right beq_false_of_ne))
  | wireSelector v => exact offeredField_not_taken _ (h.imp_right (.imp_right beq_false_of_ne))
  | wireCount sym c =>
    refine offeredField_not_taken _ (h.imp_right (.imp_right ?_))
    rintro (hd | hsel)
    · rw [beq_false_of_ne hd, Bool.false_and]
    · rw [hsel, Bool.not_true, Bool.and_false]
  | wireTreeSize z =>
    refine offeredField_not_taken _ (h.imp_right (.imp_right ?_))
    rintro (hd | hsel)
    · rw [beq_false_of_ne hd, Bool.false_and]
    · rw [hsel, Bool.and_false]
  | wireTreeLeaf v => exact offeredField_not_taken _ (h.imp_right (.imp_right expectsNode_eq_false))
  | wireTreeInternal => exact offeredField_not_taken _ (h.imp_right (.imp_right expectsNode_eq_false))
  | _ => cases hi

/-! ### The streams of an instruction -/

/-- The pieces of state that are streams (20_memory.md R60 to R63). -/
def streamPieces : List Piece := [.sin, .bin, .sout, .bout]

/-- The streams an instruction consumes or writes (20_memory.md R64): those its rule acquires, and for an internal node
of a tree payload BIN, where its subtrees stand. -/
def streamsOf : Instr → List Piece
  | .facc | .prep _ => [.sin]
  | .emit _ => [.sin, .bout]
  | .wtree => [.bout]
  | .rtree | .wireTreeInternal => [.bin]
  | .decode => [.bin, .sout]
  | .clr | .rdreg _ | .qins _ _ _ | .qrem | .qpeek | .qsize | .qload | .fset _ _ | .fget _ | .build | .nget _
  | .pget _ | .wireMagic _ | .wireSelector _ | .wireCount _ _ | .wireTreeSize _ | .wireTreeLeaf _ => []

/-- Neither the contents of a stream, nor the build constants, nor the host's list have changed. -/
def SameOutside (s t : State) : Prop := SameStreams s t ∧ t.build = s.build ∧ t.host = s.host

theorem SameOutside.refl (s : State) : SameOutside s s := ⟨⟨rfl, rfl, rfl, rfl⟩, rfl, rfl⟩

theorem respond_outside (r : Response) (s : State) : SameOutside s (respond r s) := SameOutside.refl s

theorem takeFault_outside (f : FaultKind) (s : State) : SameOutside s (takeFault f s) := SameOutside.refl s

theorem clearFault_outside (s : State) : SameOutside s (clearFault s) := SameOutside.refl s

theorem waitForEver_outside (s : State) : SameOutside s (waitForEver s) := SameOutside.refl s

/-- From `s` to `t` the inputs are consumed from the front and the outputs grow, of the streams only those in `ps`, and
the build constants and the host's list stay. -/
structure StreamsMove (ps : List Piece) (s t : State) : Prop where
  sin : ∃ n, t.io.sin.items = s.io.sin.items.drop n
  bin : ∃ n, t.io.bin.items = s.io.bin.items.drop n
  sout : ∃ ws, t.io.sout.sent = s.io.sout.sent ++ ws
  bout : ∃ bs, t.io.bout.sent = s.io.bout.sent ++ bs
  sinKept : .sin ∉ ps → t.io.sin.items = s.io.sin.items
  binKept : .bin ∉ ps → t.io.bin.items = s.io.bin.items
  soutKept : .sout ∉ ps → t.io.sout.sent = s.io.sout.sent
  boutKept : .bout ∉ ps → t.io.bout.sent = s.io.bout.sent
  build : t.build = s.build
  host : t.host = s.host

/-- A procedure moves the streams it may change, whatever happens before and behind it without a stream. -/
theorem Touches.streamsMove {ps qs : List Piece} {s s' u t : State} (h : Touches ps s' u) (hs : SameOutside s s')
    (ht : SameOutside u t) (hps : ∀ p ∈ streamPieces, p ∈ ps → p ∈ qs) : StreamsMove qs s t := by
  obtain ⟨⟨hsin, hbin, hsout, hbout⟩, hbuild, hhost⟩ := hs
  obtain ⟨⟨tsin, tbin, tsout, tbout⟩, tbuild, thost⟩ := ht
  have hkept : ∀ p ∈ streamPieces, p ∉ qs → Same s' u p := fun p hp hq => h.same p fun hm => hq (hps p hp hm)
  constructor
  case sin => rw [tsin, ← hsin]; exact h.sin
  case bin => rw [tbin, ← hbin]; exact h.bin
  case sout => rw [tsout, ← hsout]; exact h.sout
  case bout => rw [tbout, ← hbout]; exact h.bout
  case sinKept => exact fun hq => by rw [tsin, ← hsin]; exact congrArg InPort.items (hkept .sin (by decide) hq)
  case binKept => exact fun hq => by rw [tbin, ← hbin]; exact congrArg InPort.items (hkept .bin (by decide) hq)
  case soutKept => exact fun hq => by rw [tsout, ← hsout]; exact congrArg OutPort.sent (hkept .sout (by decide) hq)
  case boutKept => exact fun hq => by rw [tbout, ← hbout]; exact congrArg OutPort.sent (hkept .bout (by decide) hq)
  case build => rw [tbuild, h.build, hbuild]
  case host => rw [thost, h.host, hhost]

theorem SameOutside.streamsMove {s t : State} (h : SameOutside s t) (qs : List Piece) : StreamsMove qs s t :=
  (Touches.refl [] s).streamsMove (.refl s) h (by simp)

/-- A command behind the front end, refused or run, with its response, with a fault or waiting. -/
theorem frontEnd_streamsMove {run : State → Res Response} {ps qs : List Piece} {fs : List FaultKind} {s s' t : State}
    (hr : (run (clearResults s)).Ends ps fs s') (hs : SameOutside s s')
    (hps : ∀ p ∈ streamPieces, p ∈ ps → p ∈ qs) (hn : frontEnd run s = .next t) : StreamsMove qs s t := by
  cases hf : s.status.fault with
  | some f =>
    rw [frontEnd_refuse run hf] at hn
    cases hn
    exact (respond_outside _ s).streamsMove qs
  | none =>
    obtain ⟨u, hu, ⟨r, -, rfl⟩ | ⟨f, -, rfl⟩ | rfl⟩ := frontEnd_ends hf hr hn
    · exact hu.streamsMove hs (respond_outside r u) hps
    · exact hu.streamsMove hs (takeFault_outside f u) hps
    · exact hu.streamsMove hs (waitForEver_outside u) hps

/-- A field of the compressed stream, taken or not. -/
theorem offeredField_streamsMove {expected : Bool} {run : State → Res Unit} {ps qs : List Piece} {fs : List FaultKind}
    {s t : State} (hr : (run s).Ends ps fs s) (hps : ∀ p ∈ streamPieces, p ∈ ps → p ∈ qs)
    (hn : offeredField expected run s = .next t) : StreamsMove qs s t := by
  obtain rfl | ⟨-, -, -, u, hu, rfl | ⟨f, -, rfl⟩ | rfl⟩ := offeredField_ends hr hn
  · exact (SameOutside.refl t).streamsMove qs
  · exact hu.streamsMove (.refl s) (.refl t) hps
  · exact hu.streamsMove (.refl s) (takeFault_outside f u) hps
  · exact hu.streamsMove (.refl s) (waitForEver_outside u) hps

/-- A leaf of a tree payload consumes nothing behind itself (44_tree_codec.md R193, log 8). -/
theorem leafField_keeps_bin (v : SymVal) (s : State) : (leafField v s).Ends [.node] [.corruptFormat] s := by
  unfold leafField
  split
  · exact ⟨List.mem_singleton_self _, Touches.refl _ s⟩
  · unfold leafValue
    split
    · exact setNode_touches _ s
    · exact ⟨List.mem_singleton_self _, Touches.refl _ s⟩

/-- Each instruction moves its own streams only, and only forward (20_memory.md R60 to R64). -/
theorem exec_streamsMove {i : Instr} {s t : State} (hn : exec i s = .next t) : StreamsMove (streamsOf i) s t := by
  cases i with
  | clr =>
    cases hn
    exact (Touches.refl [] _).streamsMove (clearFault_outside s) (respond_outside _ _) (by decide)
  | rdreg => exact frontEnd_streamsMove (qs := []) (runRdreg_ends _ _) (.refl s) (by decide) hn
  | qins => exact frontEnd_streamsMove (qs := []) (runQins_ends _ _ _ _) (.refl s) (by decide) hn
  | qrem => exact frontEnd_streamsMove (runQrem_ends _) (.refl s) (by decide) hn
  | qpeek => exact frontEnd_streamsMove (runQpeek_ends _) (.refl s) (by decide) hn
  | qsize => exact frontEnd_streamsMove (runQsize_ends _) (.refl s) (by decide) hn
  | facc => exact frontEnd_streamsMove (runFacc_ends _) (.refl s) (by decide) hn
  | qload => exact frontEnd_streamsMove (runQload_ends _) (.refl s) (by decide) hn
  | fset => exact frontEnd_streamsMove (qs := []) (runFset_ends _ _ _) (.refl s) (by decide) hn
  | fget => exact frontEnd_streamsMove (qs := []) (runFget_ends _ _) (.refl s) (by decide) hn
  | build => exact frontEnd_streamsMove (runBuild_ends _) (.refl s) (by decide) hn
  | nget => exact frontEnd_streamsMove (qs := []) (runNget_ends _ _) (.refl s) (by decide) hn
  | pget => exact frontEnd_streamsMove (qs := []) (runPget_ends _ _) (.refl s) (by decide) hn
  | wtree => exact frontEnd_streamsMove (runWtree_ends _) (.refl s) (by decide) hn
  | rtree => exact frontEnd_streamsMove (runRtree_ends _) (.refl s) (by decide) hn
  | prep => exact frontEnd_streamsMove (qs := [.sin]) (runPrep_ends _ _) (.refl s) (by decide) hn
  | emit => exact frontEnd_streamsMove (qs := [.sin, .bout]) (runEmit_ends _ _) (.refl s) (by decide) hn
  | decode => exact frontEnd_streamsMove (runDecode_ends _) (.refl s) (by decide) hn
  | wireMagic => exact offeredField_streamsMove (qs := []) (fieldMagic_ends _ s) (by decide) hn
  | wireSelector => exact offeredField_streamsMove (qs := []) (fieldSelector_ends _ s) (by decide) hn
  | wireCount => exact offeredField_streamsMove (qs := []) (fieldCount_ends _ _ s) (by decide) hn
  | wireTreeSize => exact offeredField_streamsMove (qs := []) (fieldTreeSize_ends _ s) (by decide) hn
  | wireTreeLeaf => exact offeredField_streamsMove (qs := []) (leafField_keeps_bin _ s) (by decide) hn
  | wireTreeInternal => exact offeredField_streamsMove (internalField_ends s) (by decide) hn

/-- The instructions that consume SIN (20_memory.md R60, R64). -/
theorem sin_mem_streamsOf {i : Instr} :
    .sin ∈ streamsOf i ↔ i = .facc ∨ (∃ hdr, i = .prep hdr) ∨ ∃ force, i = .emit force := by
  cases i <;> simp [streamsOf]

/-- The instructions that consume BIN (20_memory.md R62, R64). -/
theorem bin_mem_streamsOf {i : Instr} :
    .bin ∈ streamsOf i ↔ i = .rtree ∨ i = .decode ∨ i = .wireTreeInternal := by
  cases i <;> simp [streamsOf]

/-- The instruction that writes SOUT (20_memory.md R61, R64). -/
theorem sout_mem_streamsOf {i : Instr} : .sout ∈ streamsOf i ↔ i = .decode := by
  cases i <;> simp [streamsOf]

/-- The instructions that write BOUT (20_memory.md R63, R64). -/
theorem bout_mem_streamsOf {i : Instr} : .bout ∈ streamsOf i ↔ i = .wtree ∨ ∃ force, i = .emit force := by
  cases i <;> simp [streamsOf]

/-- Settles O56: each instruction moves its own streams only, and those are the ones the statement names. -/
theorem streamsPerCommand : Obligations.StreamsPerCommand := by
  intro i s t hn
  have h := exec_streamsMove hn
  refine ⟨h.sin, h.bin, h.sout, h.bout, ?_, ?_, ?_, ?_, h.build, h.host⟩
  · intro hfacc hprep hemit
    refine h.sinKept fun hm => ?_
    rcases sin_mem_streamsOf.1 hm with rfl | ⟨hdr, rfl⟩ | ⟨force, rfl⟩
    · exact hfacc rfl
    · exact hprep hdr rfl
    · exact hemit force rfl
  · intro hrtree hdecode hinternal
    refine h.binKept fun hm => ?_
    rcases bin_mem_streamsOf.1 hm with rfl | rfl | rfl
    · exact hrtree rfl
    · exact hdecode rfl
    · exact hinternal rfl
  · intro hdecode
    exact h.soutKept fun hm => hdecode (sout_mem_streamsOf.1 hm)
  · intro hwtree hemit
    refine h.boutKept fun hm => ?_
    rcases bout_mem_streamsOf.1 hm with rfl | ⟨force, rfl⟩
    · exact hwtree rfl
    · exact hemit force rfl

end Sys2Proof.Machine
end

section
/-! PROOFS. The statements of 30_encoding.md: the encoder and the decoder of command words undo each other, the decoder
accepts the rows of the opcode table, the fields of the compressed stream, and the node image. -/

namespace Sys2Proof.Machine

/-! ### Fields of a 64-bit word as numbers -/

theorem field_eq_of_toNat {w : CmdWord} {lo len : Nat} {v : BitVec len}
    (h : w.toNat / 2 ^ lo % 2 ^ len = v.toNat) : field w lo len = v :=
  BitVec.eq_of_toNat_eq ((field_toNat w lo len).trans h)

theorem flagField_toNat (w : CmdWord) (bit : Nat) : (flagField w bit).toNat = w.toNat / 2 ^ bit % 2 :=
  Nat.toNat_testBit w.toNat bit

theorem flagField_eq_of_toNat {w : CmdWord} {bit : Nat} {b : Bool} (h : w.toNat / 2 ^ bit % 2 = b.toNat) :
    flagField w bit = b := by
  rw [flagField_eq, h]
  cases b <;> rfl

/-! ### Every command is encoded in one word that decodes to it -/

/-- `i` is the command of `op` whose operand fields make the number `low` (30_encoding.md R90, R91). -/
structure CommandOf (i : Instr) (op : Opcode) (low : Nat) : Prop where
  word : encodeWord i = some (commandWord op low)
  low_lt : low < 2 ^ 56
  reserved : low / 2 ^ op.format.reserved.1 % 2 ^ op.format.reserved.2 = 0
  fields : operands op (commandWord op low) = i

theorem CommandOf.roundTrip {i : Instr} {op : Opcode} {low : Nat} (h : CommandOf i op low) :
    ∃ w, encodeWord i = some w ∧ encode i = bitsOf w ∧ decode w = .ok i := by
  refine ⟨commandWord op low, h.word, ?_, ?_⟩
  · rw [encode, h.word]
  · rw [decode_commandWord op low h.low_lt h.reserved, h.fields]

/-- A command without operands (30_encoding.md R91, format N). -/
theorem CommandOf.plain {i : Instr} {op : Opcode} (hw : encodeWord i = some (commandWord op 0))
    (ho : ∀ w, operands op w = i) : CommandOf i op 0 :=
  ⟨hw, by decide, by rw [Nat.zero_div, Nat.zero_mod], ho _⟩

/-- A command whose one operand is a number in the lowest bits, below the reserved ones (R91, formats R and S). -/
theorem CommandOf.number {len : Nat} {f : BitVec len → Instr} {op : Opcode} {v : BitVec len}
    (hw : encodeWord (f v) = some (commandWord op v.toNat)) (ho : ∀ w, operands op w = f (field w 0 len))
    (hr : op.format.reserved.1 = len) (hlen : len ≤ 56) : CommandOf (f v) op v.toNat := by
  have hv : v.toNat < 2 ^ 56 := v.isLt.trans_le (Nat.pow_le_pow_right (by decide) hlen)
  refine ⟨hw, hv, ?_, ?_⟩
  · rw [hr, Nat.div_eq_of_lt v.isLt, Nat.zero_mod]
  · rw [ho]
    congr 1
    apply BitVec.eq_of_toNat_eq
    rw [field_commandWord _ _ _ _ hv (by omega), Nat.pow_zero, Nat.div_one, Nat.mod_eq_of_lt v.isLt]

/-- A command whose one operand is a flag in bit 0 (R91, format F). -/
theorem CommandOf.flag {f : Bool → Instr} {op : Opcode} {b : Bool}
    (hw : encodeWord (f b) = some (commandWord op b.toNat)) (ho : ∀ w, operands op w = f (flagField w 0))
    (hr : op.format.reserved.1 = 1) : CommandOf (f b) op b.toNat := by
  have hb := b.toNat_lt
  have hlow : b.toNat < 2 ^ 56 := by omega
  refine ⟨hw, hlow, ?_, ?_⟩
  · rw [hr, Nat.pow_one, Nat.div_eq_of_lt hb, Nat.zero_mod]
  · rw [ho, flagField_commandWord _ _ _ hlow (by decide)]
    cases b <;> rfl

theorem commandOf_qins (v : Bool) (sym : SymVal) (weight : Weight) :
    CommandOf (.qins v sym weight) .qins (v.toNat * 2 ^ 55 + sym.toNat * 2 ^ 41 + weight.toNat) := by
  have hv := v.toNat_lt
  have hs := sym.isLt
  have hw := weight.isLt
  have hlow : v.toNat * 2 ^ 55 + sym.toNat * 2 ^ 41 + weight.toNat < 2 ^ 56 := by omega
  have hn := commandWord_toNat .qins _ hlow
  refine ⟨rfl, hlow, ?_, ?_⟩
  · simp only [Opcode.format, Format.reserved]
    omega
  · rw [operands, flagField_eq_of_toNat (b := v) (by omega), field_eq_of_toNat (v := sym) (by omega),
      field_eq_of_toNat (v := weight) (by omega)]

theorem commandOf_fset (sym : SymVal) (count : Count) :
    CommandOf (.fset sym count) .fset (sym.toNat * 2 ^ 32 + count.toNat) := by
  have hs := sym.isLt
  have hc := count.isLt
  have hlow : sym.toNat * 2 ^ 32 + count.toNat < 2 ^ 56 := by omega
  have hn := commandWord_toNat .fset _ hlow
  refine ⟨rfl, hlow, ?_, ?_⟩
  · simp only [Opcode.format, Format.reserved]
    omega
  · rw [operands, field_eq_of_toNat (v := sym) (by omega), field_eq_of_toNat (v := count) (by omega)]

/-- Every command has its opcode and its number of operand fields (30_encoding.md R92). -/
theorem exists_commandOf {i : Instr} (h : i.isCommand = true) : ∃ op low, CommandOf i op low := by
  cases i with
  | clr => exact ⟨.clr, _, .plain rfl fun _ => rfl⟩
  | rdreg num => exact ⟨.rdreg, _, .number (f := .rdreg) rfl (fun _ => rfl) rfl (by decide)⟩
  | qins v sym weight => exact ⟨.qins, _, commandOf_qins v sym weight⟩
  | qrem => exact ⟨.qrem, _, .plain rfl fun _ => rfl⟩
  | qpeek => exact ⟨.qpeek, _, .plain rfl fun _ => rfl⟩
  | qsize => exact ⟨.qsize, _, .plain rfl fun _ => rfl⟩
  | facc => exact ⟨.facc, _, .plain rfl fun _ => rfl⟩
  | qload => exact ⟨.qload, _, .plain rfl fun _ => rfl⟩
  | fset sym count => exact ⟨.fset, _, commandOf_fset sym count⟩
  | fget sym => exact ⟨.fget, _, .number (f := .fget) rfl (fun _ => rfl) rfl (by decide)⟩
  | build => exact ⟨.build, _, .plain rfl fun _ => rfl⟩
  | nget num => exact ⟨.nget, _, .number (f := .nget) rfl (fun _ => rfl) rfl (by decide)⟩
  | pget sym => exact ⟨.pget, _, .number (f := .pget) rfl (fun _ => rfl) rfl (by decide)⟩
  | wtree => exact ⟨.wtree, _, .plain rfl fun _ => rfl⟩
  | rtree => exact ⟨.rtree, _, .plain rfl fun _ => rfl⟩
  | prep hdr => exact ⟨.prep, _, .flag (f := .prep) rfl (fun _ => rfl) rfl⟩
  | emit force => exact ⟨.emit, _, .flag (f := .emit) rfl (fun _ => rfl) rfl⟩
  | decode => exact ⟨.decode, _, .plain rfl fun _ => rfl⟩
  | wireMagic | wireSelector | wireCount | wireTreeSize | wireTreeLeaf | wireTreeInternal => exact nomatch h

/-- Settles O13: a command is that of an opcode and a number, whose word is decoded field by field. -/
theorem commandRoundTrip : Obligations.CommandRoundTrip := fun _ h =>
  let ⟨_, _, hc⟩ := exists_commandOf h
  hc.roundTrip

/-! ### A word that decodes is the word of its command -/

/-- A word is its opcode and the number of the bits below it (30_encoding.md R90). -/
theorem commandWord_eq {w : CmdWord} {op : Opcode} {low : Nat} (hop : w.toNat / 2 ^ 56 = op.code)
    (hlow : w.toNat % 2 ^ 56 = low) : commandWord op low = w := by
  rw [commandWord, ← hop, ← hlow, Nat.div_add_mod']
  exact BitVec.ofNat_toNat 64 w

/-- The operand fields of a word whose reserved bits are 0 hold every bit below the opcode (R91). -/
theorem encodeWord_operands {w : CmdWord} {op : Opcode} (hop : w.toNat / 2 ^ 56 = op.code)
    (hr : w.toNat / 2 ^ op.format.reserved.1 % 2 ^ op.format.reserved.2 = 0) :
    encodeWord (operands op w) = some w := by
  have key {low : Nat} (h : w.toNat % 2 ^ 56 = low) : some (commandWord op low) = some w :=
    congrArg some (commandWord_eq hop h)
  cases op with
  | clr | qrem | qpeek | qsize | facc | qload | build | wtree | rtree | decode =>
    exact key (by simpa only [Opcode.format, Format.reserved, Nat.pow_zero, Nat.div_one] using hr)
  | rdreg | nget | fget | pget =>
    simp only [Opcode.format, Format.reserved] at hr
    exact key (by rw [field_toNat]; omega)
  | prep | emit =>
    simp only [Opcode.format, Format.reserved] at hr
    exact key (by rw [flagField_toNat]; omega)
  | qins =>
    simp only [Opcode.format, Format.reserved] at hr
    exact key (by rw [flagField_toNat, field_toNat, field_toNat]; omega)
  | fset =>
    simp only [Opcode.format, Format.reserved] at hr
    exact key (by rw [field_toNat, field_toNat]; omega)

/-- Settles O14: what the decoder accepts has an opcode and reserved bits 0, so its fields are the whole word. -/
theorem decodedWordIsEncoded : Obligations.DecodedWordIsEncoded := by
  intro w i h
  obtain ⟨op, hop, hr, rfl⟩ := decode_eq_ok.1 h
  exact encodeWord_operands hop hr

/-! ### The opcode table as masks and values -/

/-- The 64-bit word with `v` in the bits `lo + len - 1` down to `lo` and 0 elsewhere. -/
def placed {len : Nat} (v : BitVec len) (lo : Nat) : CmdWord := v.setWidth 64 <<< lo

/-- The bits the table fixes in the row of `op`: the opcode and the reserved bits (30_encoding.md R91, R92). -/
def rowMask (op : Opcode) : CmdWord :=
  placed (BitVec.allOnes 8) 56 ||| placed (BitVec.allOnes op.format.reserved.2) op.format.reserved.1

/-- What those bits are: the opcode, and reserved bits 0. -/
def rowValue (op : Opcode) : CmdWord := placed (BitVec.ofNat 8 op.code) 56

theorem getLsbD_placed {len : Nat} (v : BitVec len) (lo k : Nat) :
    (placed v lo).getLsbD k = (decide (k < 64) && !decide (k < lo) && v.getLsbD (k - lo)) := by
  rw [placed, BitVec.getLsbD_shiftLeft, BitVec.getLsbD_setWidth]
  by_cases hk : k < 64
  · simp [hk, Nat.sub_lt_of_lt hk]
  · simp [hk]

theorem getLsbD_field (w : CmdWord) (lo len k : Nat) :
    (field w lo len).getLsbD k = (decide (k < len) && w.getLsbD (lo + k)) :=
  BitVec.getLsbD_extractLsb' lo len w k

/-- Masking a word with ones leaves a field in its place. -/
theorem and_placed_allOnes (w : CmdWord) (lo len : Nat) :
    w &&& placed (BitVec.allOnes len) lo = placed (field w lo len) lo := by
  apply BitVec.eq_of_getLsbD_eq
  intro k hk
  rw [BitVec.getLsbD_and, getLsbD_placed, getLsbD_placed, getLsbD_field, BitVec.getLsbD_allOnes]
  by_cases hlo : k < lo
  · simp [hlo]
  · rw [Nat.add_sub_cancel' (Nat.le_of_not_lt hlo), Bool.and_comm, Bool.and_assoc]

/-- A placed value is read back from its place. -/
theorem field_placed {len : Nat} (v : BitVec len) {lo : Nat} (h : lo + len ≤ 64) : field (placed v lo) lo len = v := by
  apply BitVec.eq_of_getLsbD_eq
  intro k hk
  rw [getLsbD_field, getLsbD_placed]
  simp [hk, show lo + k < 64 by omega]

/-- A field that ends below another's place does not see it, nor one that begins above it. -/
theorem field_placed_apart {len n : Nat} (v : BitVec n) {place lo : Nat} (h : lo + len ≤ place ∨ place + n ≤ lo) :
    field (placed v place) lo len = 0#len := by
  apply BitVec.eq_of_getLsbD_eq
  intro k hk
  rw [getLsbD_field, getLsbD_placed, BitVec.getLsbD_zero]
  rcases h with h | h
  · simp [show ¬ place ≤ lo + k by omega]
  · simp [BitVec.getLsbD_of_ge v (lo + k - place) (by omega)]

theorem field_or (v w : CmdWord) (lo len : Nat) : field (v ||| w) lo len = field v lo len ||| field w lo len :=
  BitVec.extractLsb'_or

theorem reserved_below_opcode (op : Opcode) : op.format.reserved.1 + op.format.reserved.2 ≤ 56 := by
  cases op <;> decide

/-- A word matches the row of `op` exactly when it has its opcode and the reserved bits of its format are 0. -/
theorem matches_row_iff (w : CmdWord) (op : Opcode) : w &&& rowMask op = rowValue op ↔
    field w 56 8 = BitVec.ofNat 8 op.code ∧ field w op.format.reserved.1 op.format.reserved.2 = 0 := by
  have hb := reserved_below_opcode op
  rw [rowMask, rowValue, BitVec.and_or_distrib_left, and_placed_allOnes, and_placed_allOnes]
  constructor
  · intro h
    have hop := congrArg (field · 56 8) h
    have hr := congrArg (field · op.format.reserved.1 op.format.reserved.2) h
    simp only [field_or] at hop hr
    rw [field_placed _ (by decide), field_placed _ (by decide), field_placed_apart _ (.inr hb), BitVec.or_zero] at hop
    rw [field_placed _ (by omega), field_placed_apart _ (.inl hb), field_placed_apart _ (.inl hb), BitVec.zero_or] at hr
    exact ⟨hop, hr⟩
  · rintro ⟨hop, hr⟩
    rw [hop, hr]
    simp [placed]

/-- The decoder accepts a word exactly when it matches the row of an opcode (30_encoding.md R90, R92). -/
theorem decode_accepts_iff (w : CmdWord) :
    (∃ i, decode w = .ok i) ↔ ∃ op : Opcode, w &&& rowMask op = rowValue op := by
  have hrow (op : Opcode) : w &&& rowMask op = rowValue op ↔
      w.toNat / 2 ^ 56 = op.code ∧ w.toNat / 2 ^ op.format.reserved.1 % 2 ^ op.format.reserved.2 = 0 := by
    have hc := op.code_lt
    have hw := w.isLt
    rw [matches_row_iff, ← BitVec.toNat_inj, ← BitVec.toNat_inj, field_toNat, field_toNat]
    simp only [BitVec.toNat_ofNat, BitVec.ofNat_eq_ofNat, Nat.zero_mod]
    rw [Nat.mod_eq_of_lt (show op.code < 2 ^ 8 from hc), Nat.mod_eq_of_lt (by omega)]
  constructor
  · rintro ⟨i, h⟩
    obtain ⟨op, hop, hr, -⟩ := decode_eq_ok.1 h
    exact ⟨op, (hrow op).2 ⟨hop, hr⟩⟩
  · rintro ⟨op, h⟩
    obtain ⟨hop, hr⟩ := (hrow op).1 h
    exact ⟨_, decode_eq_ok.2 ⟨op, hop, hr, rfl⟩⟩

/-- The opcodes in the order of the opcode table (R92). -/
def allOpcodes : List Opcode :=
  [.clr, .rdreg, .qins, .qrem, .qpeek, .qsize, .facc, .qload, .fset, .fget, .build, .nget, .pget, .wtree, .rtree,
    .prep, .emit, .decode]

theorem mem_allOpcodes (op : Opcode) : op ∈ allOpcodes := by cases op <;> decide

/-- Settles O12: the masks and values written out are those of the opcodes, row by row. -/
theorem decoderMatchesTable : Obligations.DecoderMatchesTable := by
  intro w
  have hrows : (∃ op : Opcode, w &&& rowMask op = rowValue op) ↔
      ∃ row ∈ allOpcodes.map fun op => (rowMask op, rowValue op), w &&& row.1 = row.2 := by
    simp [mem_allOpcodes]
  exact (decode_accepts_iff w).trans hrows

/-! ### The fields of the compressed stream -/

/-- What is made of a field that is read back (20_memory.md R67). -/
theorem map_takeField_bitsOf {n : Nat} (f : BitVec n → Instr) (v : BitVec n) (rest : Bits) :
    (takeField n (bitsOf v ++ rest)).map (fun x => (f x.1, x.2)) = some (f v, rest) := by
  rw [takeField_bitsOf, Option.map_some]

/-- Settles O15: the bits of a field are taken from the head of the stream; a node's tag tells its two forms apart. -/
theorem fieldRoundTrip : Obligations.FieldRoundTrip := by
  intro i slot rest h
  cases i with
  | wireMagic m => cases h; exact map_takeField_bitsOf .wireMagic m rest
  | wireSelector m => cases h; exact map_takeField_bitsOf .wireSelector m rest
  | wireCount sym c => cases h; exact map_takeField_bitsOf (.wireCount sym) c rest
  | wireTreeSize t => cases h; exact map_takeField_bitsOf .wireTreeSize t rest
  | wireTreeLeaf v => cases h; exact map_takeField_bitsOf .wireTreeLeaf v rest
  | wireTreeInternal => cases h; rfl
  | _ => cases h

/-! ### The node image -/

/-- RES0 of a leaf as a number: nothing is cut off at 64 bits (30_encoding.md R97). -/
theorem nodeRes0_leaf_toNat (sym : SymVal) (w : Weight) :
    (nodeRes0 (.leaf sym w)).toNat = w.toNat + sym.toNat * 2 ^ 41 + 2 ^ 50 + 2 ^ 51 := by
  have hs := sym.isLt
  have hw := w.isLt
  rw [nodeRes0, BitVec.toNat_ofNat, Nat.mod_eq_of_lt (by omega)]

/-- RES0 of an internal node as a number (R97). -/
theorem nodeRes0_internal_toNat (w : Weight) (l r : Idx) :
    (nodeRes0 (.internal w l r)).toNat = w.toNat + 2 ^ 51 := by
  have hw := w.isLt
  rw [nodeRes0, BitVec.toNat_ofNat, Nat.mod_eq_of_lt (by omega)]

/-- The children a node image shows: NIL twice for a leaf (10_state.md R41). -/
def shownChildren : Node → Idx × Idx
  | .leaf _ _ => (NIL, NIL)
  | .internal _ l r => (l, r)

/-- RES1 of a node as a number (R97). -/
theorem nodeRes1_toNat (i : Idx) (n : Node) : (nodeRes1 i n).toNat =
    (shownChildren n).1.toNat + (shownChildren n).2.toNat * 2 ^ 10 + i.toNat * 2 ^ 20 := by
  have hi := i.isLt
  have hl := (shownChildren n).1.isLt
  have hr := (shownChildren n).2.isLt
  have hn : nodeRes1 i n = BitVec.ofNat 64
      ((shownChildren n).1.toNat + (shownChildren n).2.toNat * 2 ^ 10 + i.toNat * 2 ^ 20) := by cases n <;> rfl
  rw [hn, BitVec.toNat_ofNat, Nat.mod_eq_of_lt (by omega)]

/-- The fields of RES1 (R97). -/
theorem nodeRes1_fields (i : Idx) (n : Node) :
    field (nodeRes1 i n) 0 10 = (shownChildren n).1 ∧ field (nodeRes1 i n) 10 10 = (shownChildren n).2 ∧
    field (nodeRes1 i n) 20 10 = i ∧ field (nodeRes1 i n) 30 34 = 0#34 := by
  have hn := nodeRes1_toNat i n
  have hi := i.isLt
  have hl := (shownChildren n).1.isLt
  have hr := (shownChildren n).2.isLt
  refine ⟨field_eq_of_toNat (by omega), field_eq_of_toNat (by omega), field_eq_of_toNat (by omega),
    field_eq_of_toNat ?_⟩
  rw [BitVec.toNat_zero]
  omega

/-- The fields of RES0 of a leaf (R97). -/
theorem nodeRes0_leaf_fields (sym : SymVal) (w : Weight) :
    let r0 := nodeRes0 (.leaf sym w)
    field r0 0 41 = w ∧ field r0 41 9 = sym ∧ flagField r0 50 = true ∧ flagField r0 51 = true ∧
      field r0 52 12 = 0#12 := by
  have hn := nodeRes0_leaf_toNat sym w
  have hs := sym.isLt
  have hw := w.isLt
  refine ⟨field_eq_of_toNat (by omega), field_eq_of_toNat (by omega), flagField_eq_of_toNat ?_,
    flagField_eq_of_toNat ?_, field_eq_of_toNat ?_⟩
  · rw [Bool.toNat_true]; omega
  · rw [Bool.toNat_true]; omega
  · rw [BitVec.toNat_zero]; omega

/-- The fields of RES0 of an internal node: it has no symbol (R97, 10_state.md R41). -/
theorem nodeRes0_internal_fields (w : Weight) (l r : Idx) :
    let r0 := nodeRes0 (.internal w l r)
    field r0 0 41 = w ∧ field r0 41 9 = 0#9 ∧ flagField r0 50 = false ∧ flagField r0 51 = true ∧
      field r0 52 12 = 0#12 := by
  have hn := nodeRes0_internal_toNat w l r
  have hw := w.isLt
  refine ⟨field_eq_of_toNat (by omega), field_eq_of_toNat ?_, flagField_eq_of_toNat ?_,
    flagField_eq_of_toNat ?_, field_eq_of_toNat ?_⟩
  · rw [BitVec.toNat_zero]; omega
  · rw [Bool.toNat_false]; omega
  · rw [Bool.toNat_true]; omega
  · rw [BitVec.toNat_zero]; omega

/-- Settles O18: the two result registers of a node, field by field. -/
theorem nodeImageLayout : Obligations.NodeImageLayout := by
  refine ⟨fun rc i n => ⟨nodeRes0 n, nodeRes1 i n, rfl, ?_⟩, fun _ _ => rfl⟩
  obtain ⟨hl, hr, hi, hhigh⟩ := nodeRes1_fields i n
  cases n with
  | leaf sym w =>
    obtain ⟨hw, hs, hleaf, hpresent, htop⟩ := nodeRes0_leaf_fields sym w
    exact ⟨htop, hpresent, hi, hhigh, hw, hs, hleaf, hl, hr⟩
  | internal w l r =>
    obtain ⟨hw, hs, hleaf, hpresent, htop⟩ := nodeRes0_internal_fields w l r
    exact ⟨htop, hpresent, hi, hhigh, hw, hs, hleaf, hl, hr⟩

/-! ### Words outside the opcode table, and words the spec writes out -/

/-- An accepted word that does not decode is illegal (40_system_commands.md R121). -/
theorem runWord_of_reject {w : CmdWord} {r : Reject} (hd : decode w = .error r) (s : State) :
    runWord w s = illegalWord s := by
  rw [runWord, hd]

/-- An illegal word without a fault before it is IllegalCommand (30_encoding.md R94). -/
theorem illegalWord_raises {s : State} (hf : s.status.fault = none) :
    illegalWord s = .next (takeFault .illegalCommand s) :=
  frontEnd_ok _ hf

/-- Settles O8: the accepted word goes through the front end of a session without a fault, which raises (log 11). -/
theorem illegalWordTraps : Obligations.IllegalWordTraps := fun _ _ _ _ hh hb hf hd =>
  (step_of_ready hh hb).trans ((runWord_of_reject hd _).trans (illegalWord_raises hf))

/-- Settles O16: the decoder runs on each of the eight words. -/
theorem writtenWordsDecode : Obligations.WrittenWordsDecode :=
  ⟨rfl, rfl, rfl, rfl, rfl, rfl, rfl, rfl⟩

end Sys2Proof.Machine
end

section
/-! PROOFS. The statements of 40_system_commands.md: CLR and the word that is decoded to it. -/

namespace Sys2Proof.Machine

/-- A command is decoded from its own word and from no other (30_encoding.md R90, R92). -/
theorem decode_eq_ok_iff_encodeWord {i : Instr} (h : i.isCommand = true) (w : CmdWord) :
    decode w = .ok i ↔ encodeWord i = some w := by
  refine ⟨decodedWordIsEncoded w i, fun hw => ?_⟩
  obtain ⟨v, hv, -, hd⟩ := commandRoundTrip i h
  obtain rfl : v = w := Option.some.inj (hv.symm.trans hw)
  exact hd

/-- The word of CLR is its opcode with 0 below it (R91, R92). -/
theorem encodeWord_clr : encodeWord .clr = some 0x0100000000000000#64 := rfl

/-- Leaving the faulted condition writes the session and STATUS of reset, FAULT with them, and nothing else
(60_exceptions.md R258, 40_system_commands.md R120). -/
theorem clearFault_eq (s : State) :
    clearFault s = { s with ses := State.reset.ses, status := State.reset.status } := rfl

/-- CLR leaves the faulted condition and answers OK, past the front end that refuses a faulted session (R121, R122). -/
theorem exec_clr_eq (s : State) : exec .clr s = .next (respond (okReply 0 0) (clearFault s)) := rfl

/-- Settles O4: CLR is `clearFault`, which writes what reset does; its word is the one word of a command. -/
theorem clrMakesFreshSession : Obligations.ClrMakesFreshSession := by
  refine ⟨fun s => ?_, fun w => ?_⟩
  · rw [exec_clr_eq, clearFault_eq]
    rfl
  · rw [decode_eq_ok_iff_encodeWord rfl, encodeWord_clr, Option.some_inj, eq_comm]

end Sys2Proof.Machine
end

section
/-! PROOFS. The statements of 41_ranked_queue.md: what QINS, QREM, QPEEK and QSIZE do. -/

namespace Sys2Proof.Machine

/-! ### QINS -/

/-- QueueInsert of an allocated node into a queue with room, when its position is known (41_ranked_queue.md R130). -/
theorem queueInsert_of_queuePos {s : State} {i : Idx} {n : Node} {pos : Nat} (hn : s.nodeAt i = some n)
    (hpos : queuePos s.ses.node n.weight s.ses.q = some pos) (hl : s.ses.q.length < Config.QCAP) :
    queueInsert i s = .ok pos (s.setQ (s.ses.q.take pos ++ i :: s.ses.q.drop pos)) := by
  simp only [queueInsert, if_neg (Nat.not_le.2 hl), hn, hpos]

/-- The node that has just been allocated (10_state.md R42). -/
theorem nodeAt_nextIdx {s : State} (n : Node) (h : s.ses.node.length < Config.NODE_CAP) :
    (s.setNode (s.ses.node ++ [n])).nodeAt s.nextIdx = some n := by
  rw [State.nodeAt, nextIdx_toNat (Nat.le_of_lt h)]
  exact List.getElem?_concat_length

theorem isSymbol_eq_true {sym : SymVal} (h : sym.toNat ≤ 256) : isSymbol sym = true := decide_eq_true h

theorem isSymbol_eq_false {sym : SymVal} (h : 256 < sym.toNat) : isSymbol sym = false :=
  decide_eq_false (Nat.not_le.2 h)

/-- The null node (41_ranked_queue.md R132). -/
theorem runQins_null (sym : SymVal) (w : Weight) (s : State) :
    runQins false sym w s = .raise .invalidArgument (s.setPrepped false) := rfl

/-- A value that is no symbol (30_encoding.md R93). -/
theorem runQins_noSymbol {sym : SymVal} (w : Weight) (s : State) (h : 256 < sym.toNat) :
    runQins true sym w s = .raise .invalidArgument (s.setPrepped false) := by
  simp [runQins, isSymbol_eq_false h]

/-- A full queue (41_ranked_queue.md R132). -/
theorem runQins_queueFull {sym : SymVal} (w : Weight) {s : State} (hsym : sym.toNat ≤ 256)
    (hq : Config.QCAP ≤ s.ses.q.length) : runQins true sym w s = .raise .capacityFault (s.setPrepped false) := by
  simp [runQins, isSymbol_eq_true hsym, hq]

/-- With a symbol and room in the queue, QINS allocates its leaf and inserts it (41_ranked_queue.md R132). -/
theorem runQins_room {sym : SymVal} (w : Weight) {s : State} (hsym : sym.toNat ≤ 256)
    (hq : s.ses.q.length < Config.QCAP) :
    runQins true sym w s = (alloc (.leaf sym w) (s.setPrepped false)).andThen fun i s =>
      (queueInsert i s).andThen fun pos s => .ok (okReply (i.setWidth 64) (BitVec.ofNat 64 pos)) s := by
  simp [runQins, isSymbol_eq_true hsym, Nat.not_le.2 hq]

/-- A full arena (10_state.md R42). -/
theorem runQins_arenaFull {sym : SymVal} (w : Weight) {s : State} (hsym : sym.toNat ≤ 256)
    (hq : s.ses.q.length < Config.QCAP) (hn : Config.NODE_CAP ≤ s.ses.node.length) :
    runQins true sym w s = .raise .capacityFault (s.setPrepped false) := by
  rw [runQins_room w hsym hq, alloc_full (s := s.setPrepped false) _ hn, Res.andThen_raise]

/-- QINS in an ordered queue with room in queue and arena: the position is the number of entries of at most the weight
(41_ranked_queue.md R132, R137 (e)). -/
theorem runQins_ok {sym : SymVal} {w : Weight} {s : State} (hok : QueueOk s.ses) (hsym : sym.toNat ≤ 256)
    (hq : s.ses.q.length < Config.QCAP) (hn : s.ses.node.length < Config.NODE_CAP) {pos : Nat}
    (hpos : pos = (s.ses.q.filter fun j => decide (entryWeight s.ses.node j ≤ w)).length) :
    runQins true sym w s = .ok (okReply (s.nextIdx.setWidth 64) (BitVec.ofNat 64 pos))
      (((s.setPrepped false).setNode (s.ses.node ++ [.leaf sym w])).setQ
        (s.ses.q.take pos ++ s.nextIdx :: s.ses.q.drop pos)) := by
  obtain ⟨-, -, -, horder⟩ := id hok
  have hrank : queuePos (s.ses.node ++ [.leaf sym w]) w s.ses.q = some pos := by
    rw [queuePos_append hok.readable, queuePos_count horder hok.readable, hpos]
  have hins : queueInsert s.nextIdx ((s.setPrepped false).setNode (s.ses.node ++ [.leaf sym w])) = .ok pos _ :=
    queueInsert_of_queuePos (nodeAt_nextIdx (s := s.setPrepped false) _ hn) hrank hq
  rw [runQins_room w hsym hq, alloc_ok (s := s.setPrepped false) _ hn, Res.andThen_ok]
  exact congrArg (Res.andThen · _) hins

/-- The index of the next entry as a result (10_state.md R42). -/
theorem nextIdx_setWidth {s : State} (h : s.ses.node.length ≤ Config.NODE_CAP) :
    s.nextIdx.setWidth 64 = BitVec.ofNat 64 s.ses.node.length := by
  rw [← BitVec.ofNat_toNat, nextIdx_toNat h]

/-- Settles O23: the leaf is allocated at NALLOC, and its rank in an ordered queue is a count. -/
theorem qinsInserts : Obligations.QinsInserts := by
  intro s sym w hf hok hq hn hsym
  refine ⟨_, rfl, ?_⟩
  rw [← nextIdx_setWidth (Nat.le_of_lt hn)]
  exact (frontEnd_ok _ hf).trans (congrArg finish (runQins_ok (s := clearResults s) hok hsym hq hn rfl))

/-- A command whose rule raises a fault when it has only cleared PREPPED (60_exceptions.md R255). -/
theorem frontEnd_raise_cleared {run : State → Res Response} {f : FaultKind} {s : State} (hf : s.status.fault = none)
    (h : run (clearResults s) = .raise f ((clearResults s).setPrepped false)) :
    frontEnd run s = .next (takeFault f s) :=
  (frontEnd_ok run hf).trans (congrArg finish h)

/-- Settles O24: each check stands behind those that have passed. -/
theorem qinsRejects : Obligations.QinsRejects := by
  intro s sym w hf
  refine ⟨?_, fun hsym => ?_, fun hsym hfull => ?_⟩
  · exact frontEnd_raise_cleared hf (runQins_null sym w _)
  · exact frontEnd_raise_cleared hf (runQins_noSymbol w _ hsym)
  · rcases Nat.lt_or_ge s.ses.q.length 257 with hq | hq
    · exact frontEnd_raise_cleared hf (runQins_arenaFull w hsym hq (hfull.resolve_left (Nat.not_le.2 hq)))
    · exact frontEnd_raise_cleared hf (runQins_queueFull w hsym hq)

/-! ### QREM, QPEEK and QSIZE -/

/-- The image of an allocated node (30_encoding.md R97). -/
theorem imageReply_of_nodeAt {i : Idx} {s : State} {n : Node} (h : s.nodeAt i = some n) :
    imageReply i s = .ok (nodeReply RC_OK i (some n)) s := by
  simp only [imageReply, h]

/-- QREM of an empty queue (41_ranked_queue.md R134). -/
theorem runQrem_nil {s : State} (hq : s.ses.q = []) :
    runQrem s = .ok (nodeReply RC_EMPTY NIL none) ((s.setPrepped false).setEmpty true) := by
  simp only [runQrem, queueRemove, State.setPrepped_ses, hq]

/-- QREM of a queue whose front entry names a node (41_ranked_queue.md R131, R134). -/
theorem runQrem_cons {s : State} {i : Idx} {rest : List Idx} {n : Node} (hq : s.ses.q = i :: rest)
    (hn : s.ses.node[i.toNat]? = some n) :
    runQrem s = .ok (nodeReply RC_OK i (some n)) (((s.setPrepped false).setQ rest).setEmpty false) := by
  simp only [runQrem, queueRemove, State.setPrepped_ses, hq]
  exact imageReply_of_nodeAt hn

/-- QPEEK of an empty queue (41_ranked_queue.md R135). -/
theorem runQpeek_nil {s : State} (hq : s.ses.q = []) :
    runQpeek s = .ok (nodeReply RC_EMPTY NIL none) (s.setEmpty true) := by
  simp only [runQpeek, hq]

/-- QPEEK of a queue whose front entry names a node (41_ranked_queue.md R135). -/
theorem runQpeek_cons {s : State} {i : Idx} {rest : List Idx} {n : Node} (hq : s.ses.q = i :: rest)
    (hn : s.ses.node[i.toNat]? = some n) :
    runQpeek s = .ok (nodeReply RC_OK i (some n)) (s.setEmpty false) := by
  simp only [runQpeek, hq]
  exact imageReply_of_nodeAt hn

/-- Settles O25: one case per shape of the queue. -/
theorem qremRemoves : Obligations.QremRemoves := fun s hf =>
  ⟨fun _ _ _ hq hn => (frontEnd_ok _ hf).trans (congrArg finish (runQrem_cons (s := clearResults s) hq hn)),
    fun hq => (frontEnd_ok _ hf).trans (congrArg finish (runQrem_nil (s := clearResults s) hq))⟩

/-- Settles O26: one case per shape of the queue. -/
theorem qpeekLooks : Obligations.QpeekLooks := fun s hf =>
  ⟨fun _ _ _ hq hn => (frontEnd_ok _ hf).trans (congrArg finish (runQpeek_cons (s := clearResults s) hq hn)),
    fun hq => (frontEnd_ok _ hf).trans (congrArg finish (runQpeek_nil (s := clearResults s) hq))⟩

/-- Settles O27: the rule of QSIZE answers QLEN in the state it finds. -/
theorem qsizeCounts : Obligations.QsizeCounts := fun _ hf => frontEnd_ok _ hf

/-- What the order of the queue says of the weights of two entries, the first of which is known (10_state.md R44). -/
theorem Before.entryWeight {node : List Node} {i j : Idx} {n : Node} (h : Before node i j)
    (hn : node[i.toNat]? = some n) :
    n.weight < entryWeight node j ∨ (n.weight = entryWeight node j ∧ i.toNat < j.toNat) := by
  obtain ⟨a, b, ha, hb, hab⟩ := h
  obtain rfl : a = n := Option.some.inj (ha.symm.trans hn)
  rw [entryWeight_of hb]
  exact hab

/-- Settles O28: QREM answers the front entry, and the order puts it before every other. -/
theorem qremReturnsLightest : Obligations.QremReturnsLightest := by
  intro s hf hok hne
  obtain ⟨i, rest, hq⟩ := List.exists_cons_of_ne_nil hne
  obtain ⟨n, hn⟩ := hok.readable i (hq ▸ List.mem_cons_self)
  obtain ⟨-, -, -, horder⟩ := hok
  rw [hq] at horder
  exact ⟨i, n, _, (qremRemoves s hf).1 i rest n hq hn, rfl, hq, hn,
    fun j hj => (List.rel_of_pairwise_cons horder hj).entryWeight hn⟩

end Sys2Proof.Machine
end

section
/-! PROOFS. What the commands that read the session, and those that build a tree, leave unchanged (41_ranked_queue.md
R132 to R136, 42_frequency_accumulator.md R153 to R155, 43_tree_builder.md R172, R176, R177). -/

namespace Sys2Proof.Machine

/-! ### Frames -/

/-- From `s` to `t` no piece of state but `ps` has changed, nor FAULT, nor what no command touches. The response and the
handshake, which every command writes, are left out. -/
structure Frame (ps : List Piece) (s t : State) : Prop where
  same : ∀ p, p ∉ ps → Same s t p
  fault : t.status.fault = s.status.fault
  rest : SameRest s t

theorem Frame.trans {ps : List Piece} {s t u : State} (h : Frame ps s t) (k : Frame ps t u) : Frame ps s u := by
  obtain ⟨hbuild, hhost, hctr⟩ := h.rest
  obtain ⟨kbuild, khost, kctr⟩ := k.rest
  exact ⟨fun p hp => (h.same p hp).trans (k.same p hp), k.fault.trans h.fault,
    kbuild.trans hbuild, khost.trans hhost, kctr.trans hctr⟩

theorem Frame.mono {ps qs : List Piece} {s t : State} (h : Frame ps s t) (hs : ps ⊆ qs) : Frame qs s t :=
  { h with same := fun p hp => h.same p fun hm => hp (hs hm) }

theorem Touches.frame {ps : List Piece} {s t : State} (h : Touches ps s t) : Frame ps s t :=
  ⟨h.same, h.fault, h.build, h.host, h.freeCtr⟩

theorem clearResults_frame (ps : List Piece) (s : State) : Frame ps s (clearResults s) :=
  ⟨fun p _ => by cases p <;> rfl, rfl, rfl, rfl, rfl⟩

theorem respond_frame (ps : List Piece) (r : Response) (s : State) : Frame ps s (respond r s) :=
  ⟨fun p _ => by cases p <;> rfl, rfl, rfl, rfl, rfl⟩

theorem waitForEver_frame (ps : List Piece) (s : State) : Frame ps s (waitForEver s) :=
  ⟨fun p _ => by cases p <;> rfl, rfl, rfl, rfl, rfl⟩

/-- A command that ends without a fault changes what its rule may change, counted from the state `s'` in which the rule
has begun (40_system_commands.md R121). -/
theorem frontEnd_frame {run : State → Res Response} {ps : List Piece} {fs : List FaultKind} {s s' t : State}
    (hf : s.status.fault = none) (hr : (run (clearResults s)).Ends ps fs (clearResults s'))
    (hn : frontEnd run s = .next t) (ht : t.status.fault = none) : Frame ps s' t := by
  obtain ⟨u, hu, hend⟩ := frontEnd_ends hf hr hn
  have hu' : Frame ps s' u := (clearResults_frame ps s').trans hu.frame
  rcases hend with ⟨r, -, rfl⟩ | ⟨f, -, rfl⟩ | rfl
  · exact hu'.trans (respond_frame ps r u)
  · cases ht
  · exact hu'.trans (waitForEver_frame ps u)

/-- The session that is `c` but for the pieces `ps`, which it has from `d`. -/
def Session.mix (ps : List Piece) (c d : Session) : Session where
  cur := if .cur ∈ ps then d.cur else c.cur
  root := if .root ∈ ps then d.root else c.root
  size := if .size ∈ ps then d.size else c.size
  numleaf := if .numleaf ∈ ps then d.numleaf else c.numleaf
  treeBits := if .treeBits ∈ ps then d.treeBits else c.treeBits
  hdrTreeBits := if .hdrTreeBits ∈ ps then d.hdrTreeBits else c.hdrTreeBits
  origBits := if .origBits ∈ ps then d.origBits else c.origBits
  projBits := if .projBits ∈ ps then d.projBits else c.projBits
  outBits := if .outBits ∈ ps then d.outBits else c.outBits
  savings := if .savings ∈ ps then d.savings else c.savings
  freq := if .freq ∈ ps then d.freq else c.freq
  node := if .node ∈ ps then d.node else c.node
  q := if .q ∈ ps then d.q else c.q
  path := if .path ∈ ps then d.path else c.path

/-- The STATUS that is `a` but for the pieces `ps`, which it has from `b`. -/
def Status.mix (ps : List Piece) (a b : Status) : Status where
  fault := a.fault
  prepped := if .prepped ∈ ps then b.prepped else a.prepped
  declined := if .declined ∈ ps then b.declined else a.declined
  empty := if .empty ∈ ps then b.empty else a.empty
  treeValid := if .treeValid ∈ ps then b.treeValid else a.treeValid
  hdrsel := if .hdrsel ∈ ps then b.hdrsel else a.hdrsel
  dstate := if .dstate ∈ ps then b.dstate else a.dstate

/-- A value that may only change where a condition holds is the new one there and the old one elsewhere. -/
theorem eq_ite_of_eq {α : Type} {P : Prop} [Decidable P] {x y : α} (h : ¬P → y = x) : y = if P then y else x := by
  split
  · rfl
  · next hP => exact h hP

/-- The session behind a frame, written out. -/
theorem Frame.ses {ps : List Piece} {s t : State} (h : Frame ps s t) : t.ses = s.ses.mix ps t.ses := by
  have hs := h.same
  rw [Session.mix, ← eq_ite_of_eq (hs .cur), ← eq_ite_of_eq (hs .root), ← eq_ite_of_eq (hs .size),
    ← eq_ite_of_eq (hs .numleaf), ← eq_ite_of_eq (hs .treeBits), ← eq_ite_of_eq (hs .hdrTreeBits),
    ← eq_ite_of_eq (hs .origBits), ← eq_ite_of_eq (hs .projBits), ← eq_ite_of_eq (hs .outBits),
    ← eq_ite_of_eq (hs .savings), ← eq_ite_of_eq (hs .freq), ← eq_ite_of_eq (hs .node), ← eq_ite_of_eq (hs .q),
    ← eq_ite_of_eq (hs .path)]

/-- STATUS behind a frame, written out. -/
theorem Frame.status {ps : List Piece} {s t : State} (h : Frame ps s t) : t.status = s.status.mix ps t.status := by
  have hs := h.same
  rw [Status.mix, ← h.fault, ← eq_ite_of_eq (hs .prepped), ← eq_ite_of_eq (hs .declined), ← eq_ite_of_eq (hs .empty),
    ← eq_ite_of_eq (hs .treeValid), ← eq_ite_of_eq (hs .hdrsel), ← eq_ite_of_eq (hs .dstate)]

/-- What a frame without a stream leaves outside the session and STATUS. -/
theorem Frame.outside {ps : List Piece} {s t : State} (h : Frame ps s t) (hd : ∀ p ∈ streamPieces, p ∉ ps) :
    t.io.sin = s.io.sin ∧ t.io.sout = s.io.sout ∧ t.io.bin = s.io.bin ∧ t.io.bout = s.io.bout ∧ SameRest s t :=
  ⟨h.same .sin (hd _ (by decide)), h.same .sout (hd _ (by decide)), h.same .bin (hd _ (by decide)),
    h.same .bout (hd _ (by decide)), h.rest⟩

/-! ### The reading commands -/

/-- What a reading command that ends without a fault may change: EMPTY, and only QPEEK that. -/
theorem exec_reading_frame {i : Instr} {s t : State}
    (hi : (∃ num, i = .rdreg num) ∨ i = .qpeek ∨ i = .qsize ∨ (∃ sym, i = .fget sym) ∨ (∃ num, i = .nget num) ∨
      (∃ sym, i = .pget sym))
    (hf : s.status.fault = none) (hn : exec i s = .next t) (ht : t.status.fault = none) :
    Frame (if i = .qpeek then [.empty] else []) s t := by
  rcases hi with ⟨num, rfl⟩ | rfl | rfl | ⟨sym, rfl⟩ | ⟨num, rfl⟩ | ⟨sym, rfl⟩
  · exact frontEnd_frame hf (runRdreg_ends num _) hn ht
  · exact frontEnd_frame hf (runQpeek_ends _) hn ht
  · exact frontEnd_frame hf (runQsize_ends _) hn ht
  · exact frontEnd_frame hf (runFget_ends sym _) hn ht
  · exact frontEnd_frame hf (runNget_ends num _) hn ht
  · exact frontEnd_frame hf (runPget_ends sym _) hn ht

/-- Settles O53: the frame of a reading command holds at most EMPTY. -/
theorem readingFrame : Obligations.ReadingFrame := by
  intro i s t hi hf hn ht
  have h := exec_reading_frame hi hf hn ht
  have hempty : Frame [.empty] s t := h.mono (by split <;> simp)
  refine ⟨hempty.ses, hempty.status, fun hne => ?_, hempty.outside (by decide)⟩
  rw [if_neg hne] at h
  exact h.same .empty (by decide)

/-! ### The commands that build a tree -/

theorem exec_qins_frame {v : Bool} {sym : SymVal} {w : Weight} {s t : State} (hf : s.status.fault = none)
    (hn : exec (.qins v sym w) s = .next t) (ht : t.status.fault = none) :
    Frame [.node, .q] (s.setPrepped false) t :=
  frontEnd_frame hf (runQins_ends v sym w (clearResults s)) hn ht

theorem exec_qrem_frame {s t : State} (hf : s.status.fault = none) (hn : exec .qrem s = .next t)
    (ht : t.status.fault = none) : Frame [.q, .empty] (s.setPrepped false) t :=
  frontEnd_frame hf (runQrem_ends (clearResults s)) hn ht

theorem exec_fset_frame {sym : SymVal} {c : Count} {s t : State} (hf : s.status.fault = none)
    (hn : exec (.fset sym c) s = .next t) (ht : t.status.fault = none) : Frame [.freq] (s.setPrepped false) t :=
  frontEnd_frame hf (runFset_ends sym c (clearResults s)) hn ht

theorem exec_qload_frame {s t : State} (hf : s.status.fault = none) (hn : exec .qload s = .next t)
    (ht : t.status.fault = none) : Frame (.cur :: treePieces) (s.setPrepped false) t :=
  frontEnd_frame hf (runQload_ends (clearResults s)) hn ht

theorem exec_build_frame {s t : State} (hf : s.status.fault = none) (hn : exec .build s = .next t)
    (ht : t.status.fault = none) : Frame treePieces (s.setPrepped false) t :=
  frontEnd_frame hf (runBuild_ends (clearResults s)) hn ht

/-- QLOAD settles the CUR it finds (10_state.md R22, log 15). -/
theorem exec_qload_cur {s t : State} (hf : s.status.fault = none) (hn : exec .qload s = .next t) :
    t.ses.cur = s.ses.cur ∨ t.ses.cur = NIL := by
  obtain ⟨q, hload, -⟩ := loadQueue_ok ((clearResults s).setPrepped false)
  have hrun : frontEnd runQload s = .next t := hn
  rw [frontEnd_ok _ hf, runQload, hload] at hrun
  cases hrun
  exact (keptCur_cases _ _).imp And.left id

/-- Settles O54: the frame of each command, counted from the state with PREPPED cleared. -/
theorem treeBuildingFrame : Obligations.TreeBuildingFrame := by
  intro i s t hf hn ht
  refine ⟨?_, ?_, ?_, ?_, ?_, ?_, ?_⟩
  · rintro ⟨v, sym, w, rfl⟩
    have h := exec_qins_frame hf hn ht
    exact ⟨h.ses, h.status⟩
  · rintro rfl
    have h := exec_qrem_frame hf hn ht
    exact ⟨h.ses, h.status⟩
  · rintro ⟨sym, c, rfl⟩
    have h := exec_fset_frame hf hn ht
    exact ⟨h.ses, h.status⟩
  · intro hi
    have h : Frame (.cur :: treePieces) (s.setPrepped false) t := by
      rcases hi with rfl | rfl
      · exact exec_qload_frame hf hn ht
      · exact (exec_build_frame hf hn ht).mono (List.subset_cons_self _ _)
    exact ⟨h.ses, h.status⟩
  · rintro rfl
    exact (exec_build_frame hf hn ht).same .cur (by decide)
  · rintro rfl
    exact exec_qload_cur hf hn
  · rintro (⟨v, sym, w, rfl⟩ | rfl | ⟨sym, c, rfl⟩ | rfl | rfl)
    · exact (exec_qins_frame hf hn ht).outside (by decide)
    · exact (exec_qrem_frame hf hn ht).outside (by decide)
    · exact (exec_fset_frame hf hn ht).outside (by decide)
    · exact (exec_qload_frame hf hn ht).outside (by decide)
    · exact (exec_build_frame hf hn ht).outside (by decide)

end Sys2Proof.Machine
end

section
/-! PROOFS. The statements of 42_frequency_accumulator.md: what FSET, FGET, FACC and QLOAD do, what a counting pass
rejects, and what the commands that hold a stream leave unchanged. -/

namespace Sys2Proof.Machine

open List (Forall₂)

/-! ### FSET and FGET -/

theorem isDataSymbol_eq_true {sym : SymVal} (h : sym.toNat ≤ 255) : isDataSymbol sym = true := decide_eq_true h

theorem isDataSymbol_eq_false {sym : SymVal} (h : 255 < sym.toNat) : isDataSymbol sym = false :=
  decide_eq_false (Nat.not_le.2 h)

/-- FSET of a symbol that has a count (42_frequency_accumulator.md R154). -/
theorem runFset_word {sym : SymVal} (count : Count) (s : State) (h : sym.toNat ≤ 255) :
    runFset sym count s = .ok (okReply 0 0) ((s.setPrepped false).setFreq sym.toNat count) := by
  simp [runFset, isDataSymbol_eq_true h]

/-- FSET of a symbol that has none (R154). -/
theorem runFset_noWord {sym : SymVal} (count : Count) (s : State) (h : 255 < sym.toNat) :
    runFset sym count s = .raise .invalidArgument (s.setPrepped false) := by
  simp [runFset, isDataSymbol_eq_false h]

/-- FGET of a symbol that has a count (R155). -/
theorem runFget_word {sym : SymVal} (s : State) (h : sym.toNat ≤ 255) :
    runFget sym s = .ok (okReply ((s.freqAt sym.toNat).setWidth 64) 0) s := by
  simp [runFget, isDataSymbol_eq_true h]

/-- FGET of a symbol that has none (R155). -/
theorem runFget_noWord {sym : SymVal} (s : State) (h : 255 < sym.toNat) :
    runFget sym s = .raise .invalidArgument s := by
  simp [runFget, isDataSymbol_eq_false h]

/-- Settles O21: one case per range of the symbol; the counts are read back entry by entry. -/
theorem fsetWrites : Obligations.FsetWrites := by
  intro s sym count hf
  refine ⟨fun hsym => ⟨(s.setPrepped false).setFreq sym.toNat count, ?_, rfl, ?_, fun k hk => ?_⟩, fun hsym => ?_⟩
  · exact (frontEnd_ok _ hf).trans (congrArg finish (runFset_word count (clearResults s) hsym))
  · exact State.freqAt_setFreq_same _ _ _ (Nat.lt_succ_of_le hsym)
  · exact State.freqAt_setFreq_other _ _ _ _ hk.symm
  · exact frontEnd_raise_cleared hf (runFset_noWord count _ hsym)

/-- Settles O22: one case per range of the symbol. -/
theorem fgetReads : Obligations.FgetReads := fun s _ hf =>
  ⟨fun hsym => (frontEnd_ok _ hf).trans (congrArg finish (runFget_word (clearResults s) hsym)),
    fun hsym => (frontEnd_ok _ hf).trans (congrArg finish (runFget_noWord (clearResults s) hsym))⟩

/-! ### The counting pass of FACC and PREP -/

/-- FACC over words that count normally, up to END or the marker (R150, R151). -/
theorem runFacc_ok {s : State} {xs tail : List SymVal} (hi : s.io.sin.items = xs ++ tail) (hx : AllWords xs)
    (he : PassEnds s.io.sin.ends tail) (hc : ∀ k < 256, (s.freqAt k).toNat + occurrences k xs < 2 ^ 32) :
    runFacc s = .ok (okReply (BitVec.ofNat 64 xs.length) (if tail = [] then 0 else 1)) { s with
      status := { s.status with prepped := false }
      ses := { s.ses with freq := countInto s.ses.freq xs }
      io := { s.io with sin := { s.io.sin with items := tail.tail, held := false } } } := by
  have hmarker : BitVec.ofNat 64 (decide (tail ≠ [])).toNat = if tail = [] then 0 else 1 := by
    cases tail <;> rfl
  rw [runFacc, countPass_ok (s := s.setPrepped false) hi hx he hc, Res.andThen_ok, hmarker]
  rfl

/-- Settles O29: the counts are those of the words counted on top of FREQ. -/
theorem faccCounts : Obligations.FaccCounts := by
  intro s xs tail hf hi hx he hc
  exact ⟨countInto s.ses.freq xs,
    (frontEnd_ok _ hf).trans (congrArg finish (runFacc_ok (s := clearResults s) hi hx he hc)),
    fun k hk => countInto_get s.ses.freq xs k hk hx (hc k hk)⟩

/-- FACC and PREP begin with a counting pass over the streams they find, FACC on top of FREQ and PREP from 0 (R151,
45_stream_compress.md R211). -/
theorem exec_counting {i : Instr} {s : State} {f : Vector Count 256} (hf : s.status.fault = none)
    (hi : (i = .facc ∧ f = s.ses.freq) ∨ (∃ hdr, i = .prep hdr) ∧ f = Vector.replicate 256 0) :
    ∃ (u : State) (k : Word64 × Bool → State → Res Response),
      u.io = s.io ∧ u.ses.freq = f ∧ exec i s = finish ((countPass u).andThen k) := by
  rcases hi with ⟨rfl, rfl⟩ | ⟨⟨hdr, rfl⟩, rfl⟩
  · exact ⟨(clearResults s).setPrepped false, _, rfl, rfl, frontEnd_ok runFacc hf⟩
  · exact ⟨(sessionInit (clearResults s)).setHdrsel hdr, _, rfl, rfl, frontEnd_ok (runPrep hdr) hf⟩

/-- Settles O30: the pass stops at the item before the rest of the rule runs. -/
theorem countingRejects : Obligations.CountingRejects := by
  intro s xs more y f i hf hitems hx hi hc
  obtain ⟨u, k, hio, rfl, hexec⟩ := exec_counting hf hi
  obtain ⟨hitem, hfull⟩ := countPass_bad (s := u) (hio ▸ hitems) hx hc
  rw [hexec, ← hio]
  refine ⟨fun hy => ?_, fun hy hcount => ?_⟩
  · rw [hitem hy]
    exact ⟨_, rfl, rfl, rfl, rfl, rfl⟩
  · rw [hfull hy hcount]
    exact ⟨_, rfl, rfl, rfl, rfl, rfl⟩

/-! ### QLOAD -/

/-- The queue entry of a leaf names that leaf (10_state.md R44). -/
theorem leafAt_of_isTree {node : List Node} {i : Idx} {sym : SymVal} {w : Weight}
    (h : IsTree node i (.leaf sym w)) : leafAt node i = some (.leaf sym w) := by
  have hn : node[i.toNat]? = some (.leaf sym w) := h
  rw [leafAt, hn]

/-- The entries of a queue of leaves name them in the order of the queue (R44). -/
theorem map_leafAt_of_trees {node : List Node} {q : List Idx} {ts : List CodeTree} (h : Forall₂ (IsTree node) q ts)
    (hts : ∀ t ∈ ts, ∃ sym w, t = .leaf sym w) : q.map (leafAt node) = ts.map some := by
  induction h with
  | nil => rfl
  | cons hi _ ih =>
    obtain ⟨sym, w, rfl⟩ := hts _ List.mem_cons_self
    rw [List.map_cons, List.map_cons, leafAt_of_isTree hi, ih fun t ht => hts t (List.mem_cons_of_mem _ ht)]

/-- After LoadQueue() the queue names exactly the leaves of the table (R152, R156 (c)). -/
theorem Loaded.leaves_perm {f : Vector Count 256} {node : List Node} {q : List Idx}
    (h : Loaded node q (rankedLeaves f)) : (q.map (leafAt node)).Perm ((tableLeaves f).map some) := by
  have hperm := rankedLeaves_perm f
  rw [map_leafAt_of_trees h.trees fun t ht => mem_tableLeaves (hperm.mem_iff.1 ht)]
  exact hperm.map some

/-- QLEN as a result, in a queue that is not overfull (10_state.md R33, R44). -/
theorem qlen_setWidth {c : Session} (h : c.q.length ≤ Config.QCAP) :
    c.qlen.setWidth 64 = BitVec.ofNat 64 c.q.length :=
  BitVec.setWidth_ofNat_of_le_of_lt (by decide) (Nat.lt_of_le_of_lt h (by decide))

/-- The state QLOAD leaves with the queue `q` (R153): the leaves of the table in NODE, nothing of an earlier tree, and
CUR settled in the new arena (log 15). -/
def qloaded (q : List Idx) (s : State) : State :=
  (((resetTree (s.setPrepped false)).setNode ((tableLeaves s.ses.freq).map leafNode)).setQ q).setCur
    (keptCur s.ses.cur (tableLeaves s.ses.freq).length)

theorem settleCur_loaded (q : List Idx) (s : State) :
    settleCur (((resetTree (s.setPrepped false)).setNode ((tableLeaves s.ses.freq).map leafNode)).setQ q) =
      qloaded q s := by
  rw [qloaded, ← List.length_map (as := tableLeaves s.ses.freq) leafNode]
  rfl

/-- QLOAD never fails, ranks the leaves of the table and answers their number (R152, R153). -/
theorem runQload_ok (s : State) : ∃ q, Loaded ((tableLeaves s.ses.freq).map leafNode) q (rankedLeaves s.ses.freq) ∧
    runQload s = .ok (okReply (BitVec.ofNat 64 (tableLeaves s.ses.freq).length) 0) (qloaded q s) := by
  obtain ⟨q, hload, hq⟩ := loadQueue_ok (s.setPrepped false)
  have hlen : q.length = (tableLeaves s.ses.freq).length :=
    hq.trees.length_eq.trans (rankedLeaves_perm s.ses.freq).length_eq
  have hqlen : (qloaded q s).ses.qlen.setWidth 64 = BitVec.ofNat 64 q.length :=
    qlen_setWidth (c := (qloaded q s).ses) (hlen.trans_le (tableLeaves_length s.ses.freq))
  refine ⟨q, hq, ?_⟩
  rw [runQload, hload, Res.andThen_ok, State.setPrepped_ses, settleCur_loaded, ← hlen, ← hqlen]
  rfl

/-- Settles O31: the queue LoadQueue() leaves is ordered and a permutation of the leaves. -/
theorem qloadLoads : Obligations.QloadLoads := by
  intro s hf
  obtain ⟨q, hq, hrun⟩ := runQload_ok (clearResults s)
  exact ⟨q, (frontEnd_ok _ hf).trans (congrArg finish hrun), hq.order, hq.leaves_perm⟩

/-! ### The frame of the commands that hold a stream -/

theorem exec_facc_frame {s t : State} (hf : s.status.fault = none) (hn : exec .facc s = .next t)
    (ht : t.status.fault = none) : Frame [.freq, .sin] (s.setPrepped false) t :=
  frontEnd_frame hf (runFacc_ends (clearResults s)) hn ht

theorem exec_wtree_frame {s t : State} (hf : s.status.fault = none) (hn : exec .wtree s = .next t)
    (ht : t.status.fault = none) : Frame [.bout, .outBits] s t :=
  frontEnd_frame hf (runWtree_ends (clearResults s)) hn ht

theorem exec_rtree_frame {s t : State} (hf : s.status.fault = none) (hn : exec .rtree s = .next t)
    (ht : t.status.fault = none) :
    Frame [.cur, .bin, .node, .root, .size, .numleaf, .treeBits, .path, .treeValid]
      (acquireBin (resetTree (s.setPrepped false))) t :=
  frontEnd_frame hf (runRtree_ends (clearResults s)) hn ht

theorem exec_emit_frame {force : Bool} {s t : State} (hf : s.status.fault = none)
    (hn : exec (.emit force) s = .next t) (ht : t.status.fault = none) :
    Frame [.declined, .sin, .bout, .outBits] s t :=
  frontEnd_frame hf (runEmit_ends force (clearResults s)) hn ht

theorem exec_prep_frame {hdr : Bool} {s t : State} (hf : s.status.fault = none)
    (hn : exec (.prep hdr) s = .next t) (ht : t.status.fault = none) :
    Frame (treePieces ++ [.freq, .sin, .origBits, .projBits, .savings, .prepped]) ((sessionInit s).setHdrsel hdr) t :=
  frontEnd_frame hf (runPrep_ends hdr (clearResults s)) hn ht

theorem exec_decode_frame {s t : State} (hf : s.status.fault = none) (hn : exec .decode s = .next t)
    (ht : t.status.fault = none) :
    Frame (treePieces ++ [.cur, .bin, .sout, .freq, .hdrTreeBits, .outBits, .hdrsel, .dstate]) (openDecoder s) t :=
  frontEnd_frame hf (runDecode_ends (clearResults s)) hn ht

/-- A command that settles CUR at its end, behind a procedure that does not write it, leaves it as it was or makes it
NIL, also when the procedure waits (10_state.md R22, log 15). -/
theorem finish_settleCur_cur {α : Type} {ps : List Piece} {fs : List FaultKind} {s t : State} {r : Res α}
    {reply : State → Response} (hr : r.Ends ps fs s) (hp : Piece.cur ∉ ps)
    (hn : finish (r.andThen fun _ u => .ok (reply u) (settleCur u)) = .next t) (ht : t.status.fault = none) :
    t.ses.cur = s.ses.cur ∨ t.ses.cur = NIL := by
  cases r with
  | ok a u =>
    have hcur : u.ses.cur = s.ses.cur := hr.same .cur hp
    cases hn
    exact (keptCur_cases u.ses.cur u.ses.node.length).imp (fun h => h.1.trans hcur) id
  | raise f u => cases hn; cases ht
  | hang u => cases hn; exact .inl (hr.same .cur hp)
  | stuck f => cases hn

/-- Reading a tree from BIN and deriving what belongs to it, the part of RTREE that may wait (44_tree_codec.md R194). -/
def readAndDerive (s : State) : Res Unit :=
  (readTree s).andThen fun r s => deriveTree ((releaseBin s).setRoot r)

theorem runRtree_eq (s : State) : runRtree s = (readAndDerive (acquireBin (resetTree (s.setPrepped false)))).andThen
    fun _ s => .ok (okReply (s.ses.size.setWidth 64) (s.ses.numleaf.setWidth 64)) (settleCur s) :=
  (Res.andThen_assoc _ _ _).symm

theorem readAndDerive_ends (s : State) : (readAndDerive s).Ends
    [.bin, .node, .root, .size, .numleaf, .treeBits, .path, .treeValid] [.corruptFormat] s :=
  ((readTree_ends s).mono (by simp) (by simp)).andThen fun r t =>
    Res.Ends.after (((releaseBin_touches t).mono (by simp)).trans ((setRoot_touches r _).mono (by simp)))
      ((deriveTree_ends _).mono (by simp) (by simp))

/-- RTREE settles the CUR it finds (10_state.md R22, log 15). -/
theorem exec_rtree_cur {s t : State} (hf : s.status.fault = none) (hn : exec .rtree s = .next t)
    (ht : t.status.fault = none) : t.ses.cur = s.ses.cur ∨ t.ses.cur = NIL := by
  have hrun : frontEnd runRtree s = .next t := hn
  rw [frontEnd_ok _ hf, runRtree_eq] at hrun
  have hcur := finish_settleCur_cur (readAndDerive_ends _) (by decide) hrun ht
  exact hcur

/-- Settles O55: the frame of each command, counted from the state in which its procedures begin. -/
theorem streamingFrame : Obligations.StreamingFrame := by
  intro i s t hf hn ht
  refine ⟨?_, ?_, ?_, ?_, ?_, ?_, ?_⟩
  · rintro rfl
    have h := exec_facc_frame hf hn ht
    exact ⟨h.ses, h.status, h.same .sout (by decide), h.same .bin (by decide), h.same .bout (by decide)⟩
  · rintro rfl
    have h := exec_wtree_frame hf hn ht
    exact ⟨h.ses, h.status, h.same .sin (by decide), h.same .sout (by decide), h.same .bin (by decide)⟩
  · rintro rfl
    have h := exec_rtree_frame hf hn ht
    exact ⟨exec_rtree_cur hf hn ht, h.ses, h.status, h.same .sin (by decide), h.same .sout (by decide),
      h.same .bout (by decide)⟩
  · rintro ⟨force, rfl⟩
    have h := exec_emit_frame hf hn ht
    exact ⟨h.ses, h.status, h.same .sout (by decide), h.same .bin (by decide)⟩
  · rintro ⟨hdr, rfl⟩
    have h := exec_prep_frame hf hn ht
    exact ⟨h.same .cur (by decide), h.same .hdrTreeBits (by decide), h.same .outBits (by decide),
      h.same .declined (by decide), h.same .empty (by decide), h.same .dstate (by decide), h.same .sout (by decide),
      h.same .bin (by decide), h.same .bout (by decide)⟩
  · rintro rfl
    have h := exec_decode_frame hf hn ht
    exact ⟨h.same .origBits (by decide), h.same .projBits (by decide), h.same .savings (by decide),
      h.same .prepped (by decide), h.same .declined (by decide), h.same .empty (by decide), h.same .sin (by decide),
      h.same .bout (by decide)⟩
  · rintro (rfl | rfl | rfl | ⟨force, rfl⟩ | ⟨hdr, rfl⟩ | rfl)
    · exact (exec_facc_frame hf hn ht).rest
    · exact (exec_wtree_frame hf hn ht).rest
    · exact (exec_rtree_frame hf hn ht).rest
    · exact (exec_emit_frame hf hn ht).rest
    · exact (exec_prep_frame hf hn ht).rest
    · exact (exec_decode_frame hf hn ht).rest

end Sys2Proof.Machine
end

section
/-! PROOFS. The statements of 43_tree_builder.md: what BUILD, NGET and PGET do, the trees of no symbol and of one, and
the path table, in which no path begins with another. -/

namespace Sys2Proof.Machine

/-! ### NGET and PGET -/

/-- NGET never fails and changes nothing (43_tree_builder.md R176). -/
theorem exec_nget {s : State} (num : Idx) (hf : s.status.fault = none) :
    exec (.nget num) s = .next (respond (nodeReply RC_OK num (s.nodeAt num)) s) :=
  frontEnd_ok _ hf

/-- Settles O19: an index below NALLOC has a node and one at or above it has none. -/
theorem ngetReads : Obligations.NgetReads := by
  intro s num hf
  rw [exec_nget num hf]
  refine ⟨fun n hn => ?_, fun hlen => ?_⟩
  · rw [State.nodeAt, hn]
    rfl
  · rw [State.nodeAt, List.getElem?_eq_none hlen]
    rfl

/-- The image of a path is 0 past its end (10_state.md R45). -/
theorem pathImage_pastEnd (p : Bits) {j : Nat} (hj : j < 256 - p.length) : (pathImage p).getLsbD j = false := by
  rw [pathImage, BitVec.getLsbD_ofNat, Nat.testBit_mul_two_pow]
  simp [Nat.not_le.2 hj]

/-- What PGET reads: the entry of the symbol in a valid tree, and no entry without one (R177). -/
def readablePath (s : State) (sym : SymVal) : PathEntry :=
  if s.status.treeValid then s.pathAt sym.toNat else none

/-- PGET of a symbol (R177). -/
theorem runPget_symbol {sym : SymVal} (s : State) (h : sym.toNat ≤ 256) :
    runPget sym s = .ok (pathReply (readablePath s sym)) s := by
  rw [runPget, isSymbol_eq_true h, readablePath]
  cases s.status.treeValid <;> rfl

/-- PGET of a value that is no symbol (30_encoding.md R93). -/
theorem runPget_noSymbol {sym : SymVal} (s : State) (h : 256 < sym.toNat) :
    runPget sym s = .raise .invalidArgument s := by
  rw [runPget, isSymbol_eq_false h]
  rfl

/-- PGET of a symbol behind the front end (R177). -/
theorem exec_pget_symbol {s : State} {sym : SymVal} (hf : s.status.fault = none) (h : sym.toNat ≤ 256) :
    exec (.pget sym) s = .next (respond (pathReply (readablePath s sym)) s) :=
  (frontEnd_ok _ hf).trans (congrArg finish (runPget_symbol (clearResults s) h))

/-- Settles O20: the answer shows the entry PGET reads, and the image of a path holds its bits from bit 255 down. -/
theorem pgetReads : Obligations.PgetReads := by
  intro s sym hf
  refine ⟨fun p hsym hvalid hp hlen => ⟨pathImage p, ?_, pathImage_bit p hlen, fun j => pathImage_pastEnd p⟩,
    fun hsym hnone => ?_, fun hsym => ?_⟩
  · have hread : readablePath s sym = some p := by rw [readablePath, hvalid, if_pos rfl, hp]
    rw [exec_pget_symbol hf hsym, hread]
    rfl
  · have hread : readablePath s sym = none := by
      rcases hnone with h | h
      · rw [readablePath, h]; rfl
      · rw [readablePath, h, ite_self]
    rw [exec_pget_symbol hf hsym, hread]
    rfl
  · exact (frontEnd_ok _ hf).trans (congrArg finish (runPget_noSymbol (clearResults s) hsym))

/-! ### The path table -/

/-- Following a path and then another is following both (R175 (d)). -/
theorem CodeTree.follow_append (t : CodeTree) (p q : Bits) :
    t.follow (p ++ q) = (t.follow p).bind fun u => u.follow q := by
  induction p generalizing t with
  | nil => cases t <;> rfl
  | cons b p ih =>
    cases t with
    | leaf => rfl
    | internal w l r =>
      cases b
      · exact ih l
      · exact ih r

/-- A leaf ends every path (R175 (d)). -/
theorem CodeTree.follow_leaf_eq_some {s : SymVal} {w : Weight} {p : Bits} {u : CodeTree}
    (h : (CodeTree.leaf s w).follow p = some u) : u = .leaf s w := by
  cases p with
  | nil => exact (Option.some.inj h).symm
  | cons => cases h

/-- The path of one symbol is not the beginning of another's: both would end at one leaf (R175 (c)). -/
theorem CodeTree.eq_of_pathTable_append {t : CodeTree} {k l : Nat} {p r : Bits}
    (hp : (t.pathTable[k]?).getD none = some p) (hq : (t.pathTable[l]?).getD none = some (p ++ r)) : k = l := by
  obtain ⟨x, v, rfl, hx⟩ := CodeTree.pathTable_follow hp
  obtain ⟨y, w, rfl, hy⟩ := CodeTree.pathTable_follow hq
  rw [CodeTree.follow_append, hx] at hy
  have hleaf : CodeTree.leaf y w = .leaf x v := CodeTree.follow_leaf_eq_some hy
  cases hleaf
  rfl

/-- Settles O35: PATH is the path table of the tree at ROOT. -/
theorem pathTableIsPrefixFree : Obligations.PathTableIsPrefixFree := by
  rintro s ⟨-, -, htree, -⟩ hvalid
  rw [if_pos hvalid] at htree
  obtain ⟨t, ht, -, -, -, -, hpath⟩ := htree
  simp only [State.pathAt, HasPath, hpath]
  refine ⟨t, ht, fun k hk => CodeTree.pathTable_isSome hk, fun k p hp => ?_, fun k l p q r hne hp hq hpre => ?_⟩
  · obtain ⟨x, w, hx, hfollow⟩ := CodeTree.pathTable_follow hp
    exact ⟨x, w, hfollow, hx⟩
  · exact hne (CodeTree.eq_of_pathTable_append hp (hpre ▸ hq))

/-! ### BUILD -/

/-- A legal queue has as many leaves as entries (10_state.md R44). -/
theorem QueueOk.queueLeaves_length {c : Session} (h : QueueOk c) : (queueLeaves c).length = c.q.length :=
  h.loaded.trees.length_eq.symm

theorem QueueOk.queueLeaves_ne {c : Session} (h : QueueOk c) (hne : c.q ≠ []) : queueLeaves c ≠ [] :=
  List.ne_nil_of_length_pos (h.queueLeaves_length ▸ List.length_pos_iff.2 hne)

theorem QueueOk.length_le {c : Session} (h : QueueOk c) : c.q.length ≤ Config.QCAP := h.1

/-- The leaves of a legal queue fit one tree (10_state.md R44, 00_scope.md R8). -/
theorem QueueOk.totalLeaves_le {c : Session} (h : QueueOk c) : totalLeaves (queueLeaves c) ≤ 257 := by
  rw [queueLeaves_total, h.queueLeaves_length]
  exact h.length_le

/-- Every entry of a legal queue has an index below NALLOC (10_state.md R32, R44). -/
theorem QueueOk.entries_below {c : Session} (h : QueueOk c) :
    ∀ e ∈ queueEntries c.node c.q, e.1.toNat < c.node.length := by
  intro e he
  obtain ⟨i, hi, rfl⟩ := List.mem_map.1 he
  exact h.lt i hi

/-- BUILD answers SIZE and NUMLEAF when BuildTree() goes through (R172). -/
theorem runBuild_ok {s u : State} (h : buildTree (s.setPrepped false) = .ok () u) :
    runBuild s = .ok (okReply (u.ses.size.setWidth 64) (u.ses.numleaf.setWidth 64)) u := by
  rw [runBuild, h, Res.andThen_ok]

/-- BUILD raises what BuildTree() raises (R172). -/
theorem runBuild_raise {s u : State} {f : FaultKind} (h : buildTree (s.setPrepped false) = .raise f u) :
    runBuild s = .raise f u := by
  rw [runBuild, h, Res.andThen_raise]

/-- BUILD of an empty queue (R170). -/
theorem buildTree_empty {s : State} (h : s.ses.q = []) :
    buildTree s = .raise .preconditionViolation ((s.setRoot NIL).setTreeValid false) :=
  if_pos h

/-- Settles O33: the two faults of BuildTree(), which writes nothing before them that the fault does not overwrite. -/
theorem buildRejects : Obligations.BuildRejects := by
  intro s hf
  refine ⟨fun hq => ?_, fun hok hn hne hfull => ?_⟩
  · exact (frontEnd_ok _ hf).trans (congrArg finish (runBuild_raise (s := clearResults s) (buildTree_empty hq)))
  · obtain ⟨c, hc⟩ := buildTree_capacity (s := (clearResults s).setPrepped false) hok.loaded.trees
      (hok.queueLeaves_ne hne) hok.length_le hn hok.totalLeaves_le (hok.queueLeaves_length ▸ hfull)
    exact (frontEnd_ok _ hf).trans (congrArg finish (runBuild_raise hc))

/-- Settles O32: BuildTree() on the leaves of the queue, whose merge the capacities allow; the metrics are those of a
tree of `n` leaves. -/
theorem buildMerges : Obligations.BuildMerges := by
  intro s n hf hok hlen hpos hw hroom
  have hts : (queueLeaves s.ses).length = n := hok.queueLeaves_length.trans hlen
  have hne : queueLeaves s.ses ≠ [] := List.ne_nil_of_length_pos (hts ▸ hpos)
  have hcap : n ≤ 257 := hlen ▸ hok.length_le
  rcases buildTree_of_trees (s := (clearResults s).setPrepped false) hok.loaded.trees hne
    hok.length_le (show s.ses.node.length ≤ 513 by omega) hok.totalLeaves_le with
    ⟨_, -, hwhy⟩ | ⟨more, r, hbuild, -, htree, hmore, hweight, hnodes, hone, hroot⟩
  · have hwhy : 2 ^ 41 ≤ totalWeight (queueLeaves s.ses) ∨ 513 + 1 < s.ses.node.length + n := hts ▸ hwhy
    omega
  · rw [hts] at hmore hnodes hone hroot
    have hleaves : (rootTree (queueLeaves s.ses)).leaves = n := by
      rw [rootTree_leaves hne, queueLeaves_total, hts]
    have hsize : (rootTree (queueLeaves s.ses)).size = 2 * n - 1 := by
      have := (rootTree (queueLeaves s.ses)).size_eq
      omega
    refine ⟨_, r, more, hts ▸ mergeTrees_eq_root hne, hleaves, hweight, htree, hmore, hnodes,
      hnodes ▸ mergeNodes_childrenFirst _ _ _ hok.entries_below, hone, hroot, ?_⟩
    refine (frontEnd_ok _ hf).trans ((congrArg finish (runBuild_ok hbuild)).trans ?_)
    rw [← BitVec.setWidth_ofNat_of_le_of_lt (show 10 ≤ 64 by decide) (show 2 * n - 1 < 2 ^ 10 by omega),
      ← BitVec.setWidth_ofNat_of_le_of_lt (show 9 ≤ 64 by decide) (show n < 2 ^ 9 by omega)]
    simp only [Session.derived, hsize, hleaves]
    rfl

/-! ### QLOAD, then BUILD -/

/-- A loaded queue names its leaves (42_frequency_accumulator.md R152). -/
theorem Loaded.queueLeaves {f : Vector Count 256} {c : Session} (h : Loaded c.node c.q (rankedLeaves f)) :
    queueLeaves c = rankedLeaves f := by
  have hmap := map_leafAt_of_trees h.trees fun t ht => mem_tableLeaves ((rankedLeaves_perm f).mem_iff.1 ht)
  calc c.q.filterMap (leafAt c.node) = (c.q.map (leafAt c.node)).filterMap id := by rw [List.filterMap_map]; rfl
    _ = ((rankedLeaves f).map some).filterMap id := by rw [hmap]
    _ = rankedLeaves f := by rw [List.filterMap_map]; exact List.filterMap_some

/-- A loaded queue holds the place of each of its leaves among the leaves of the table (R152, 10_state.md R42). -/
theorem Loaded.q_eq {f : Vector Count 256} {q : List Idx}
    (h : Loaded ((tableLeaves f).map leafNode) q (rankedLeaves f)) :
    q = (rankedLeaves f).map fun t => BitVec.ofNat 10 ((tableLeaves f).idxOf t) := by
  have hfst := congrArg (List.map Prod.fst) (loaded_entries h.trees)
  rw [queueEntries, rankedEntries, List.map_map, List.map_map] at hfst
  exact (List.map_id q).symm.trans hfst

/-- QLOAD, then BUILD: the leaves of the table are ranked, and the tree is that of the table (R152, R170, R173). -/
theorem exec_qload_build {s : State} {n : Nat} (hf : s.status.fault = none) (hn : (tableLeaves s.ses.freq).length = n) :
    ∃ t u, exec .qload s = .next t ∧ exec .build t = .next u ∧
      t.ses.node = (tableLeaves s.ses.freq).map leafNode ∧
      t.ses.q = (rankedLeaves s.ses.freq).map (fun t => BitVec.ofNat 10 ((tableLeaves s.ses.freq).idxOf t)) ∧
      u.ses.size = BitVec.ofNat 10 (2 * n - 1) ∧ u.ses.numleaf = BitVec.ofNat 9 n ∧
      u.ses.treeBits = BitVec.ofNat 32 (2 * n - 1 + 9 * n) ∧ u.ses.path = (tableTree s.ses.freq).pathTable ∧
      (n = 1 → t.ses.q = [u.ses.root]) := by
  obtain ⟨q, hq, hrun⟩ := runQload_ok (clearResults s)
  obtain ⟨r, hload⟩ : ∃ r, exec .qload s = .next (respond r (qloaded q (clearResults s))) :=
    ⟨_, (frontEnd_ok _ hf).trans (congrArg finish hrun)⟩
  have hleaves : queueLeaves (qloaded q (clearResults s)).ses = rankedLeaves s.ses.freq :=
    Loaded.queueLeaves (c := (qloaded q (clearResults s)).ses) hq
  have hqlen : q.length = n := (hq.trees.length_eq.trans (rankedLeaves_perm s.ses.freq).length_eq).trans hn
  have hnlen : (qloaded q (clearResults s)).ses.node.length = n := (List.length_map _).trans hn
  have hle : n ≤ 257 := hn ▸ tableLeaves_length s.ses.freq
  have hpos : 0 < n := hn ▸ List.length_pos_iff.2 (tableLeaves_ne s.ses.freq)
  obtain ⟨t, _, _, hmerge, -, -, -, -, -, -, hone, -, hbuild⟩ :=
    buildMerges (respond r (qloaded q (clearResults s))) n hf (loaded_queueOk hq rfl rfl) hqlen hpos
      (hleaves ▸ rankedLeaves_weight _) (by rw [respond_ses, hnlen]; omega)
  rw [respond_ses, hleaves, ← hn, tableTree_merge] at hmerge
  obtain ⟨rfl, -⟩ := List.cons.inj hmerge
  exact ⟨_, _, hload, hbuild, rfl, hq.q_eq, rfl, rfl, rfl, rfl, hone⟩

/-- Without a count there is the PSEUDO_EOF leaf only (R152). -/
theorem tableLeaves_zero : tableLeaves (Vector.replicate 256 0) = [.leaf pseudoEof 1] := by
  have hnone : (List.range 256).filter
      (fun k => decide (((Vector.replicate 256 (0 : Count))[k]?).getD 0 ≠ 0)) = [] := by
    refine List.filter_eq_nil_iff.2 fun k hk => ?_
    simp [List.mem_range.1 hk]
  rw [tableLeaves, hnone]
  rfl

/-- With one count there is the leaf of its symbol and that of PSEUDO_EOF (R152). -/
theorem tableLeaves_single {k : Nat} {c : Count} (hk : k < 256) (hc : c ≠ 0) :
    tableLeaves ((Vector.replicate 256 0).setIfInBounds k c) =
      [.leaf (BitVec.ofNat 9 k) (c.setWidth 41), .leaf pseudoEof 1] := by
  have hget : ((((Vector.replicate 256 0).setIfInBounds k c)[k]?).getD 0 : Count) = c := by simp [hk]
  have hone : (List.range 256).filter
      (fun j => decide ((((Vector.replicate 256 0).setIfInBounds k c)[j]?).getD 0 ≠ (0 : Count))) = [k] := by
    rw [List.filter_congr (q := (· == k)), List.filter_beq,
      List.count_eq_one_of_mem List.nodup_range (List.mem_range.2 hk), List.replicate_one]
    intro j hj
    rw [Vector.getElem?_setIfInBounds]
    by_cases hkj : k = j
    · simpa [← hkj, hk] using hc
    · simp [hkj, Ne.symm hkj, List.mem_range.1 hj]
  rw [tableLeaves, hone, List.map_singleton, hget]
  rfl

/-- The path of a tree that is a leaf is empty (R173). -/
theorem pathTable_leaf {a : SymVal} (w : Weight) (ha : a.toNat < 257) :
    ((CodeTree.leaf a w).pathTable[a.toNat]?).getD none = some [] := by
  simp [CodeTree.pathTable, CodeTree.paths, enterPath, ha]

/-- The tree of a table of two leaves has them as the children of its root, the front one left (R170). -/
theorem tableTree_twoLeaves {f : Vector Count 256} {t u : CodeTree} (h : rankedLeaves f = [t, u]) :
    tableTree f = .internal (t.weight + u.weight) t u := by
  rw [tableTree, h]
  rfl

/-- The paths in the tree of a table of two leaves, in the order of the queue (R170, R173). -/
theorem tableTree_twoLeaves_paths {f : Vector Count 256} {a b : SymVal} {v w : Weight}
    (h : rankedLeaves f = [.leaf a v, .leaf b w]) (ha : a.toNat < 257) (hb : b.toNat < 257) (hab : a ≠ b) :
    ((tableTree f).pathTable[a.toNat]?).getD none = some [false] ∧
    ((tableTree f).pathTable[b.toNat]?).getD none = some [true] := by
  have hne : b.toNat ≠ a.toNat := fun h => hab (BitVec.eq_of_toNat_eq h.symm)
  rw [tableTree_twoLeaves h]
  simp [CodeTree.pathTable, CodeTree.paths, enterPath, ha, hb, hne]

/-- Of the counts that are not 0 only 1 is no heavier than PSEUDO_EOF (R178). -/
theorem weight_le_one_iff {c : Count} (hc : c ≠ 0) : (c.setWidth 41 : Weight) ≤ 1 ↔ c = 1 := by
  have hlt := c.isLt
  have h0 : c.toNat ≠ 0 := fun h => hc (BitVec.eq_of_toNat_eq h)
  rw [BitVec.le_def, BitVec.toNat_setWidth, Nat.mod_eq_of_lt (by omega), ← BitVec.toNat_inj]
  show c.toNat ≤ 1 ↔ c.toNat = 1
  omega

/-- The queue of a table with one count: PSEUDO_EOF has weight 1 and was inserted last (R152, R178 (b)). -/
theorem rankedLeaves_single {k : Nat} {c : Count} (hk : k < 256) (hc : c ≠ 0) :
    rankedLeaves ((Vector.replicate 256 0).setIfInBounds k c) =
      if c = 1 then [.leaf (BitVec.ofNat 9 k) (c.setWidth 41), .leaf pseudoEof 1]
      else [.leaf pseudoEof 1, .leaf (BitVec.ofNat 9 k) (c.setWidth 41)] := by
  rw [rankedLeaves, tableLeaves_single hk hc]
  exact if_congr (weight_le_one_iff hc) rfl rfl

/-- The indices of two leaves are 0 and 1 in the order in which they were allocated (R152). -/
theorem idxOf_twoLeaves {t u : CodeTree} (h : t ≠ u) : [t, u].idxOf t = 0 ∧ [t, u].idxOf u = 1 := by
  simp [List.idxOf_cons_ne, h]

/-- Settles O34: the leaves of the table are ranked by the comparison of one count with the weight 1 of PSEUDO_EOF. -/
theorem degenerateTrees : Obligations.DegenerateTrees := by
  intro s hf
  refine ⟨fun hz => ?_, fun k c hk hc hone => ?_⟩
  · have hleaves : tableLeaves s.ses.freq = [.leaf pseudoEof 1] := hz ▸ tableLeaves_zero
    have hranked : rankedLeaves s.ses.freq = [.leaf pseudoEof 1] := by rw [rankedLeaves, hleaves]; rfl
    have htree : tableTree s.ses.freq = .leaf pseudoEof 1 := by rw [tableTree, hranked]; rfl
    obtain ⟨t, u, hload, hbuild, hnode, hq, hsize, hnumleaf, hbits, hpath, hroot⟩ :=
      exec_qload_build (n := 1) hf (by rw [hleaves]; rfl)
    have hq0 : t.ses.q = [0] := by rw [hq, hranked, hleaves]; rfl
    have hroot0 : u.ses.root = 0 := (List.cons.inj ((hroot rfl).symm.trans hq0)).1
    refine ⟨t, u, hload, hbuild, hq0, by rw [hnode, hleaves]; rfl, hroot0, hsize, hnumleaf, hbits, ?_⟩
    rw [State.pathAt, hpath, htree]
    exact pathTable_leaf 1 (by decide)
  · have hleaves := tableLeaves_single hk hc
    have hranked := rankedLeaves_single hk hc
    rw [← hone] at hleaves hranked
    obtain ⟨t, u, hload, hbuild, hnode, hq, hsize, hnumleaf, hbits, hpath, -⟩ :=
      exec_qload_build (n := 2) hf (by rw [hleaves]; rfl)
    have hk9 : (BitVec.ofNat 9 k).toNat = k := by rw [BitVec.toNat_ofNat]; omega
    have hne : BitVec.ofNat 9 k ≠ pseudoEof := fun h => Nat.ne_of_lt hk (hk9.symm.trans (congrArg BitVec.toNat h))
    have hlt : (BitVec.ofNat 9 k).toNat < 257 := by omega
    obtain ⟨hidx0, hidx1⟩ := idxOf_twoLeaves (t := .leaf (BitVec.ofNat 9 k) (c.setWidth 41))
      (u := .leaf pseudoEof 1) fun h => hne (CodeTree.leaf.inj h).1
    rw [hleaves] at hq
    refine ⟨t, u, hload, hbuild, by rw [hnode, hleaves]; rfl, hsize, hnumleaf, hbits, fun h1 => ?_, fun h1 => ?_⟩
    · rw [if_pos h1] at hranked
      obtain ⟨hpk, hpe⟩ := tableTree_twoLeaves_paths hranked hlt (by decide) hne
      rw [hk9, ← hpath] at hpk
      rw [← hpath] at hpe
      refine ⟨?_, hpk, hpe⟩
      rw [hq, hranked, List.map_cons, List.map_singleton, hidx0, hidx1]
      rfl
    · rw [if_neg h1] at hranked
      obtain ⟨hpe, hpk⟩ := tableTree_twoLeaves_paths hranked (by decide) hlt hne.symm
      rw [hk9, ← hpath] at hpk
      rw [← hpath] at hpe
      refine ⟨?_, hpk, hpe⟩
      rw [hq, hranked, List.map_cons, List.map_singleton, hidx0, hidx1]
      rfl

end Sys2Proof.Machine
end

section
/-! PROOFS. The statements of 44_tree_codec.md: what WTREE writes, what RTREE reads and rejects, that the two undo each
other, and what the node fields of a tree payload do. -/

namespace Sys2Proof.Machine

/-! ### WTREE -/

/-- The serialized form of a legal tree is short (44_tree_codec.md R190, 00_scope.md R8): every register holds its
length. -/
theorem CodeTree.Legal.bits_lt {t : CodeTree} (h : t.Legal) : t.bits.length < 2 ^ 32 := by
  have hbits := t.bits_length
  have hsize := h.size_le
  obtain ⟨hleaves, -⟩ := h
  omega

/-- The tree a session holds at ROOT is legal, and TREE_BITS is the length of its serialized form (10_state.md R30,
R36). -/
theorem TreeOk.treeBits {c : Session} {t : CodeTree} (h : TreeOk c) (ht : IsTree c.node c.root t) :
    t.Legal ∧ c.treeBits.toNat = t.bits.length := by
  obtain ⟨u, hu, hl, -, -, hbits, -⟩ := h
  obtain rfl := hu.unique ht
  rw [hbits, ← u.bits_length, BitVec.toNat_ofNat, Nat.mod_eq_of_lt hl.bits_lt]
  exact ⟨hl, rfl⟩

/-- The state WTREE leaves behind the tree `t` (44_tree_codec.md R192). -/
def wroteTree (t : CodeTree) (s : State) : State :=
  { s with
    ses := { s.ses with outBits := BitVec.ofNat 64 t.bits.length }
    io := { s.io with bout := ⟨s.io.bout.sent ++ t.bits, roomLeft s.io.bout.room t.bits.length, false⟩ } }

/-- The rule of WTREE with a valid tree and a host that takes it (R191, R192). -/
theorem runWtree_ok {s : State} {t : CodeTree} (hv : s.status.treeValid = true)
    (ht : IsTree s.ses.node s.ses.root t) (hl : t.Legal) (hroom : Takes s.io.bout.room t.bits.length) :
    runWtree s = .ok (okReply (BitVec.ofNat 64 t.bits.length) 0) (wroteTree t s) := by
  have hcount : outBitsPlus 0 t.bits.length = BitVec.ofNat 64 t.bits.length :=
    outBitsPlus_zero_left _ (Nat.lt_trans hl.bits_lt (by decide))
  have hwrite : writeTree ((acquireBout s).setOutBits 0) = .ok () (wroteBits t.bits ((acquireBout s).setOutBits 0)) :=
    (writeTree_of_isTree (s := (acquireBout s).setOutBits 0) ht hl.depth_lt_fuel).trans (putBits_ok hroom)
  rw [runWtree, if_neg (by rw [hv]; decide), hwrite, Res.andThen_ok, wroteTree, ← hcount]
  rfl

/-- WTREE in a session without a fault (R192). -/
theorem exec_wtree_ok {s : State} {t : CodeTree} (hf : s.status.fault = none) (hv : s.status.treeValid = true)
    (ht : IsTree s.ses.node s.ses.root t) (hl : t.Legal) (hroom : Takes s.io.bout.room t.bits.length) :
    exec .wtree s = .next (respond (okReply (BitVec.ofNat 64 t.bits.length) 0) (wroteTree t s)) :=
  (frontEnd_ok _ hf).trans (congrArg finish (runWtree_ok (s := clearResults s) hv ht hl hroom))

/-- The rule of WTREE without a valid tree (R192). -/
theorem runWtree_noTree {s : State} (hv : s.status.treeValid = false) :
    runWtree s = .raise .preconditionViolation s :=
  if_pos hv

/-- Settles O36: SerializeTree() writes the bits of the tree at ROOT, whose length is TREE_BITS. -/
theorem wtreeWrites : Obligations.WtreeWrites := by
  refine fun s hf => ⟨fun t hv hok ht hroom => ?_, fun hv => ?_⟩
  · obtain ⟨hl, hbits⟩ := hok.treeBits ht
    exact ⟨hbits, exec_wtree_ok hf hv ht hl hroom⟩
  · exact (frontEnd_ok _ hf).trans (congrArg finish (runWtree_noTree (s := clearResults s) hv))

/-! ### RTREE -/

/-- The arena of a tree ReadTree() has read into an empty one (44_tree_codec.md R193, R196). -/
theorem isTree_readNodes {t : CodeTree} (h : t.Legal) : IsTree (t.unweighted.preOrder 0) 0 t.unweighted := by
  have hsize := h.size_le
  exact t.unweighted.isTree_preOrder [] (by rw [CodeTree.unweighted_size, List.length_nil]; omega)

/-- The state in which DeriveTree() ends when RTREE has read the tree `t` and left `rest` on BIN (R194): an arena with
the nodes of the tree only, with weight 1. -/
def loadedTree (t : CodeTree) (rest : Bits) (s : State) : State :=
  { s with
    status := { s.status with prepped := false, treeValid := true }
    ses := { s.ses with node := t.unweighted.preOrder 0, q := [], root := 0 : Session }.derived t.unweighted
    io := { s.io with bin := { s.io.bin with items := rest, held := false } } }

/-- ReadTree() then DeriveTree() on the serialized form of a legal tree, as RTREE runs them (R193, R194). -/
theorem readAndDerive_bits {s : State} {t : CodeTree} {rest : Bits} (hl : t.Legal)
    (hb : s.io.bin.items = t.bits ++ rest) :
    readAndDerive (acquireBin (resetTree (s.setPrepped false))) = .ok () (loadedTree t rest s) := by
  obtain ⟨hread, -⟩ := readTree_bits (s := acquireBin (resetTree (s.setPrepped false))) hl.2 hl.depth_lt_fuel
    ((Nat.zero_add t.size).trans_le hl.size_le) hb
  rw [readAndDerive, hread, Res.andThen_ok]
  exact deriveTree_of_isTree (t := t.unweighted) (isTree_readNodes hl) (CodeTree.unweighted_legal.2 hl).depth_lt_fuel

/-- SIZE of a tree that has been read, as a result (10_state.md R35). -/
theorem loadedTree_size {t : CodeTree} (hl : t.Legal) (rest : Bits) (s : State) :
    (loadedTree t rest s).ses.size.setWidth 64 = BitVec.ofNat 64 t.size := by
  show (BitVec.ofNat 10 t.unweighted.size).setWidth 64 = _
  rw [CodeTree.unweighted_size]
  exact BitVec.setWidth_ofNat_of_le_of_lt (by decide) (Nat.lt_of_le_of_lt hl.size_le (by decide))

/-- NUMLEAF of a tree that has been read, as a result (R35). -/
theorem loadedTree_numleaf {t : CodeTree} (hl : t.Legal) (rest : Bits) (s : State) :
    (loadedTree t rest s).ses.numleaf.setWidth 64 = BitVec.ofNat 64 t.leaves := by
  show (BitVec.ofNat 9 t.unweighted.leaves).setWidth 64 = _
  rw [CodeTree.unweighted_leaves]
  exact BitVec.setWidth_ofNat_of_le_of_lt (by decide) (Nat.lt_of_le_of_lt hl.1 (by decide))

/-- RTREE in a session without a fault (R194). -/
theorem exec_rtree_ok {s : State} {t : CodeTree} {rest : Bits} (hf : s.status.fault = none) (hl : t.Legal)
    (hb : s.io.bin.items = t.bits ++ rest) : exec .rtree s = .next
      (respond (okReply (BitVec.ofNat 64 t.size) (BitVec.ofNat 64 t.leaves)) (settleCur (loadedTree t rest s))) := by
  refine (frontEnd_ok runRtree hf).trans ?_
  rw [runRtree_eq, readAndDerive_bits (s := clearResults s) hl hb, Res.andThen_ok, loadedTree_size hl,
    loadedTree_numleaf hl]
  rfl

/-- The state RTREE leaves, written out: the metrics and paths are those of the tree, whatever its weights were (R194,
R195), and CUR is settled in the new arena (log 15). -/
theorem settleCur_loadedTree (t : CodeTree) (rest : Bits) (s : State) : settleCur (loadedTree t rest s) = { s with
    status := { s.status with prepped := false, treeValid := true }
    ses := { s.ses with
      cur := keptCur s.ses.cur t.size
      node := t.unweighted.preOrder 0, q := [], root := 0, size := BitVec.ofNat 10 t.size,
      numleaf := BitVec.ofNat 9 t.leaves, treeBits := BitVec.ofNat 32 t.bits.length, path := t.pathTable }
    io := { s.io with bin := { s.io.bin with items := rest, held := false } } } := by
  simp [settleCur, State.setCur, loadedTree, Session.derived, t.bits_length]

/-- Settles O37: ReadTree() on the bits of a tree is the tree in pre-order, from which the metrics and paths are
derived. -/
theorem rtreeReads : Obligations.RtreeReads := by
  intro s t rest hf hl hb
  refine ⟨isTree_readNodes hl, by rw [CodeTree.preOrder_length, CodeTree.unweighted_size], ?_⟩
  rw [exec_rtree_ok hf hl hb, settleCur_loadedTree]
  rfl

/-- Settles O38: ReadTree() rejects the payload, and the fault takes the session away. -/
theorem rtreeRejects : Obligations.RtreeRejects := by
  intro s left hf hbroken
  refine (frontEnd_ok runRtree hf).trans ?_
  rw [runRtree, readTree_broken (s := acquireBin (resetTree ((clearResults s).setPrepped false))) hbroken,
    Res.andThen_raise]
  rfl

/-! ### WTREE, then RTREE, then WTREE -/

/-- Settles O39: WTREE writes the bits of the tree at ROOT; RTREE makes of them the same tree without its weights, which
has the same bits. -/
theorem serializedTreeRoundTrip : Obligations.SerializedTreeRoundTrip := by
  rintro s rest hf ⟨-, -, htree, -⟩ hv hroom
  rw [if_pos hv] at htree
  obtain ⟨t, ht, hl, hsize, hnumleaf, hbits, hpath⟩ := id htree
  obtain ⟨-, hlen⟩ := htree.treeBits ht
  rw [← t.bits_length] at hbits
  rw [hlen, Nat.two_mul] at hroom
  refine ⟨t.bits, _, _, _, exec_wtree_ok hf hv ht hl hroom.left, rfl, exec_rtree_ok hf hl rfl, rfl, rfl,
    exec_wtree_ok (t := t.unweighted) hf rfl (isTree_readNodes hl) (CodeTree.unweighted_legal.2 hl) ?_, ?_, rfl, ?_⟩
  · rw [CodeTree.unweighted_bits]
    exact hroom.right
  · rw [← t.unweighted_bits]
    rfl
  · rw [hsize, hnumleaf, hbits, hpath, settleCur_loadedTree]
    exact ⟨rfl, rfl, rfl, rfl, hbits ▸ hlen.symm⟩

/-! ### The node fields of a tree payload -/

/-- A field that is expected, with BIN held and no fault recorded, is taken (20_memory.md R62, R64). -/
theorem offeredField_taken {expected : Bool} (run : State → Res Unit) {s : State} (hf : s.status.fault = none)
    (hheld : s.io.bin.held = true) (he : expected = true) : offeredField expected run s = fieldDone (run s) :=
  if_pos ⟨hf, hheld, he⟩

/-- Where a node of a tree payload is expected (46_stream_decoder.md R234, 44_tree_codec.md R194). -/
theorem expectsNode_eq_true {s : State} (h : s.status.dstate = .idle ∨ s.status.dstate = .done ∨
    s.status.dstate = .expectHeaderPayload ∧ s.status.hdrsel = true) : expectsNode s = true := by
  unfold expectsNode
  rcases h with h | h | ⟨h, hsel⟩ <;> rw [h]
  exact hsel

/-- A leaf field of a symbol, with room in the arena (R193, R196). -/
theorem leafField_ok {v : SymVal} {s : State} (hv : v.toNat ≤ 256) (hn : s.ses.node.length < Config.NODE_CAP) :
    leafField v s = .ok () (s.setNode (s.ses.node ++ [.leaf v 1])) := by
  rw [leafField, if_neg (Nat.not_le.2 hn), leafValue, if_pos (isSymbol_eq_true hv), applyParse, Res.andThen_ok,
    State.setBin_self rfl]

/-- A leaf field of a value that is no symbol, or without a free index (R193, 30_encoding.md R108). -/
theorem leafField_corrupt {v : SymVal} {s : State} (h : 256 < v.toNat ∨ Config.NODE_CAP ≤ s.ses.node.length) :
    leafField v s = .raise .corruptFormat s := by
  by_cases hn : Config.NODE_CAP ≤ s.ses.node.length
  · exact if_pos hn
  · have hv : isSymbol v = false := isSymbol_eq_false (h.resolve_right hn)
    rw [leafField, if_neg hn, leafValue, if_neg (by rw [hv]; decide), applyParse, Res.andThen_raise,
      State.setBin_self rfl]

/-- An internal node's field is ReadTree() on its tag and the bits behind it (R193, log 8). -/
theorem internalField_eq (s : State) : internalField s =
    (applyParse s (parseTree s.io.bin.ends (walkFuel + 1) s.ses.node.length (false :: s.io.bin.items))).andThen
      fun _ s => .ok () s := by
  rw [internalField, parseTree]
  split
  · rw [applyParse, Res.andThen_raise, State.setBin_self rfl]
  · rfl

theorem node_cap_lt_succ_walkFuel : Config.NODE_CAP < walkFuel + 1 := Nat.lt_succ_of_lt node_cap_lt_walkFuel

/-- An internal node's field before two subtrees of legal symbols that fit the arena (R193, R196). -/
theorem internalField_ok {s : State} {l r : CodeTree} {rest : Bits} (hs : ∀ y ∈ l.syms ++ r.syms, y.toNat ≤ 256)
    (hcap : s.ses.node.length + (CodeTree.internal 1 l r).size ≤ Config.NODE_CAP)
    (hb : s.io.bin.items = l.bits ++ r.bits ++ rest) :
    internalField s = .ok () ((s.setBin rest).setNode
      (s.ses.node ++ (CodeTree.internal 1 l r).unweighted.preOrder s.ses.node.length)) := by
  have hdepth : (CodeTree.internal 1 l r).depth < walkFuel + 1 :=
    Nat.lt_trans (CodeTree.depth_lt_size _) (Nat.lt_of_le_of_lt (Nat.le_of_add_left_le hcap) node_cap_lt_succ_walkFuel)
  have hparse := parseTree_bits (.internal 1 l r) hs s.io.bin.ends (walkFuel + 1) s.ses.node.length rest hdepth hcap
  rw [internalField_eq, hb]
  exact congrArg (fun p => (applyParse s p).andThen fun _ s => .ok () s) hparse

/-- An internal node's field without a free index (R193). -/
theorem internalField_full {s : State} (h : Config.NODE_CAP ≤ s.ses.node.length) :
    internalField s = .raise .corruptFormat s :=
  if_pos h

/-- An internal node's field whose subtrees are cut or broken (R193, 30_encoding.md R108, 60_exceptions.md R261). -/
theorem internalField_broken {s : State} {left : Bits}
    (h : BrokenPayload s.io.bin.ends s.ses.node.length (false :: s.io.bin.items) left) :
    internalField s = .raise .corruptFormat (s.setBin left) := by
  rw [internalField_eq, parseTree_broken h node_cap_lt_succ_walkFuel]
  rfl

/-- An internal node's field whose subtrees just stop (70_reset_and_hazards.md R286, log 6). -/
theorem internalField_stopped {s : State} (h : CutPayload s.ses.node.length (false :: s.io.bin.items))
    (he : s.io.bin.ends = false) : internalField s = .hang (s.setBin []) := by
  rw [internalField_eq, parseTree_cut _ h node_cap_lt_succ_walkFuel, he]
  rfl

/-- Settles O51: the fields are taken; a leaf is checked by itself, and an internal node is ReadTree() on its own tag and
its subtrees. -/
theorem treeFieldsTaken : Obligations.TreeFieldsTaken := by
  intro s hf hheld hplace
  have hexpected := expectsNode_eq_true hplace
  have hleaf : ∀ v, exec (.wireTreeLeaf v) s = fieldDone (leafField v s) := fun v =>
    offeredField_taken _ hf hheld hexpected
  have hinternal : exec .wireTreeInternal s = fieldDone (internalField s) := offeredField_taken _ hf hheld hexpected
  refine ⟨fun v hv hn => ?_, fun v h => ?_, fun l r rest hs hcap hb => ⟨_, rfl, ?_, ?_⟩, fun h => ?_, fun left h => ?_,
    fun h he => ?_⟩
  · exact (hleaf v).trans (congrArg fieldDone (leafField_ok hv hn))
  · exact (hleaf v).trans (congrArg fieldDone (leafField_corrupt h))
  · exact CodeTree.isTree_preOrder _ s.ses.node (by
      simp only [CodeTree.size, CodeTree.unweighted_size]
      omega)
  · exact hinternal.trans (congrArg fieldDone (internalField_ok hs (by
      simp only [CodeTree.size, Config.NODE_CAP]
      omega) hb))
  · exact hinternal.trans (congrArg fieldDone (internalField_full h))
  · exact hinternal.trans (congrArg fieldDone (internalField_broken h))
  · exact ⟨_, hinternal.trans (congrArg fieldDone (internalField_stopped h he)), ⟨rfl, rfl, hf⟩, hheld, rfl, rfl⟩

end Sys2Proof.Machine
end

section
/-! PROOFS. The statements of 45_stream_compress.md: what PREP prepares, what EMIT writes, declines and rejects, and
that the stream has the projected size. -/

namespace Sys2Proof.Machine

/-! ### PREP -/

/-- The frequency table of the words `xs` counted in a fresh session (42_frequency_accumulator.md R150). -/
def wordCounts (xs : List SymVal) : Vector Count 256 := countInto Session.fresh.freq xs

/-- The count of a symbol in a fresh session is 0 (40_system_commands.md R120). -/
theorem fresh_freq_get (k : Nat) : (Session.fresh.freq[k]?).getD 0 = 0 := by
  by_cases h : k < 256 <;> simp [Session.fresh, h]

/-- A fresh table holds the occurrences of the words counted in it (R156 (a)). -/
theorem wordCounts_get {xs : List SymVal} {k : Nat} (hk : k < 256) (hx : AllWords xs)
    (hc : occurrences k xs < 2 ^ 32) : (((wordCounts xs)[k]?).getD 0).toNat = occurrences k xs := by
  have hfresh : ((Session.fresh.freq[k]?).getD 0).toNat = 0 := congrArg BitVec.toNat (fresh_freq_get k)
  have hcount := countInto_get Session.fresh.freq xs k hk hx (by omega)
  rwa [hfresh, Nat.zero_add] at hcount

/-- Projected() when FREQ holds the counts of the words `xs` (45_stream_compress.md R213). -/
theorem projected_of_counts {s : State} {xs : List SymVal} (h : ∀ k < 256, (s.freqAt k).toNat = occurrences k xs) :
    projected s = BitVec.ofNat 64 (64 + (if s.status.hdrsel then 32 + s.ses.treeBits.toNat else 8192) +
      ((List.range 256).map fun k => occurrences k xs * (pathBits s.ses.path k).length).sum +
      (pathBits s.ses.path 256).length) := by
  have hdata : ((List.range 256).map fun k => (s.freqAt k).toNat * s.pathLen k) =
      (List.range 256).map fun k => occurrences k xs * (pathBits s.ses.path k).length :=
    List.map_congr_left fun k hk => congrArg (· * s.pathLen k) (h k (List.mem_range.1 hk))
  have hheader : headerBits s = if s.status.hdrsel then 32 + s.ses.treeBits.toNat else 8192 := by
    rw [headerBits]
    cases s.status.hdrsel <;> rfl
  rw [projected, dataBits, hdata, hheader, ← Nat.add_assoc]
  rfl

/-- The state in which BuildTree() ends when PREP has counted the words `xs` and left `rest` on SIN (R211). -/
def countedTree (hdr : Bool) (xs rest : List SymVal) (s : State) : State :=
  { s with
    status := { State.reset.status with treeValid := true, hdrsel := hdr }
    ses := { Session.fresh with
        freq := wordCounts xs, root := tableRoot (wordCounts xs), node := tableNodes (wordCounts xs) : Session }.derived
      (tableTree (wordCounts xs))
    io := { s.io with sin := { s.io.sin with items := rest, held := false } } }

/-- The state PREP leaves (R211): the sizes are recorded and PREPPED is 1. -/
def preppedState (hdr : Bool) (xs rest : List SymVal) (s : State) : State :=
  (recordSizes (BitVec.ofNat 64 xs.length) (countedTree hdr xs rest s)).setPrepped true

/-- The rule of PREP over words that count normally, up to END or the marker (R211). -/
theorem runPrep_ok {s : State} {xs tail : List SymVal} (hdr : Bool) (hf : s.status.fault = none)
    (hi : s.io.sin.items = xs ++ tail) (hx : AllWords xs) (he : PassEnds s.io.sin.ends tail)
    (hc : ∀ k < 256, occurrences k xs < 2 ^ 32) :
    runPrep hdr s = .ok
      (okReply (preppedState hdr xs tail.tail s).ses.savings (preppedState hdr xs tail.tail s).ses.projBits)
      (preppedState hdr xs tail.tail s) := by
  have hcount := countPass_ok (s := (sessionInit s).setHdrsel hdr) hi hx he fun k hk => by
    have hfresh : (((sessionInit s).setHdrsel hdr).freqAt k).toNat = 0 := congrArg BitVec.toNat (fresh_freq_get k)
    have hk := hc k hk
    omega
  rw [runPrep, hcount, Res.andThen_ok]
  refine (load_build _ _).trans ?_
  simp only [preppedState, countedTree, State.setHdrsel, sessionInit, hf]
  rfl

/-- PREP in a session without a fault (R211). -/
theorem exec_prep_ok {s : State} {xs tail : List SymVal} (hdr : Bool) (hf : s.status.fault = none)
    (hi : s.io.sin.items = xs ++ tail) (hx : AllWords xs) (he : PassEnds s.io.sin.ends tail)
    (hc : ∀ k < 256, occurrences k xs < 2 ^ 32) :
    exec (.prep hdr) s = .next (respond
      (okReply (preppedState hdr xs tail.tail s).ses.savings (preppedState hdr xs tail.tail s).ses.projBits)
      (preppedState hdr xs tail.tail s)) :=
  (frontEnd_ok _ hf).trans (congrArg finish (runPrep_ok (s := clearResults s) hdr hf hi hx he hc))

/-- ROOT of the tree of a table is the last entry of its arena (43_tree_builder.md R170). -/
theorem tableRoot_eq (f : Vector Count 256) : tableRoot f = BitVec.ofNat 10 ((tableNodes f).length - 1) := by
  rw [tableRoot, tableNodes_length]

/-- Settles O40: a fresh session, the counting pass, the tree of the table, and the sizes. -/
theorem prepPrepares : Obligations.PrepPrepares := by
  intro s hdr xs tail hf hi hx he hc
  have hcounts : ∀ k < 256, (((wordCounts xs)[k]?).getD 0).toNat = occurrences k xs := fun k hk =>
    wordCounts_get hk hx (hc k hk)
  refine ⟨(preppedState hdr xs tail.tail s).ses, exec_prep_ok hdr hf hi hx he hc, hcounts, rfl,
    tableNodes_childrenFirst _, tableRoot_eq _, ⟨tableTree (wordCounts xs), tableTree_merge _, tableNodes_isTree _,
      tableTree_leaves _, rfl, rfl, ?_, rfl⟩, ?_, ?_, rfl, rfl, rfl, rfl, rfl⟩
  · rw [CodeTree.bits_length]
    rfl
  · exact (BitVec.ofNat_mul 8 xs.length).symm
  · exact projected_of_counts (s := countedTree hdr xs tail.tail s) hcounts

/-! ### EMIT -/

/-- The rule of EMIT without a pre-pass (45_stream_compress.md R215). -/
theorem runEmit_unprepared {s : State} (force : Bool) (hp : s.status.prepped = false) :
    runEmit force s = .raise .preconditionViolation s :=
  if_pos hp

/-- The rule of EMIT when it declines (R216). -/
theorem runEmit_declined {s : State} {force : Bool} (hp : s.status.prepped = true) (hd : declines force s = true) :
    runEmit force s = .ok ⟨RC_DECLINED, 0, s.ses.projBits, 0⟩ (s.setDeclined true) := by
  rw [runEmit, if_neg (by rw [hp]; decide), if_pos hd]

/-- EMIT declines without the override when nothing is saved, and only then (R216). -/
theorem declines_eq_true_iff {force : Bool} {s : State} :
    declines force s = true ↔ force = false ∧ s.ses.origBits.toNat ≤ s.ses.projBits.toNat := by
  simp [declines]

/-- Settles O41: both checks of EMIT come before it acquires a port. -/
theorem emitDeclines : Obligations.EmitDeclines := fun s hf =>
  ⟨fun force hp => (frontEnd_ok _ hf).trans (congrArg finish (runEmit_unprepared (s := clearResults s) force hp)),
    fun hp hle => (frontEnd_ok _ hf).trans
      (congrArg finish (runEmit_declined (s := clearResults s) hp (declines_eq_true_iff.2 ⟨rfl, hle⟩)))⟩

/-- The state in which EmitStream() starts (R215). -/
def openEmit (s : State) : State := (acquireBout (acquireSin (s.setDeclined false))).setOutBits 0

/-- EMIT goes on to EmitStream(): a prepared session that it does not decline, with a readable tree `t` at ROOT and a
PSEUDO_EOF path (R215, R216, 10_state.md R30). -/
structure Emits (force : Bool) (s : State) (t : CodeTree) : Prop where
  fault : s.status.fault = none
  prepped : s.status.prepped = true
  saves : force = true ∨ s.ses.projBits.toNat < s.ses.origBits.toNat
  isTree : IsTree s.ses.node s.ses.root t
  legal : t.Legal
  treeBits : s.ses.treeBits = BitVec.ofNat 32 t.bits.length
  path256 : HasPath s.ses.path 256

/-- A legal session that is prepared has all that EMIT needs. -/
theorem Emits.of_sessionOk {force : Bool} {s : State} {t : CodeTree} (hf : s.status.fault = none)
    (hok : SessionOk s.status s.ses) (hp : s.status.prepped = true)
    (hsaves : force = true ∨ s.ses.projBits.toNat < s.ses.origBits.toNat) (ht : IsTree s.ses.node s.ses.root t) :
    Emits force s t := by
  obtain ⟨-, -, htree, hprep, -⟩ := hok
  obtain ⟨hvalid, hpath⟩ := hprep hp
  rw [if_pos hvalid] at htree
  obtain ⟨hl, hbits⟩ := htree.treeBits ht
  exact ⟨hf, hp, hsaves, ht, hl, by rw [← hbits, BitVec.ofNat_toNat, BitVec.setWidth_eq],
    Option.isSome_iff_ne_none.2 hpath⟩

/-- EMIT is EmitStream() between the acquiring and the releasing of its ports (R215). -/
theorem Emits.exec_eq {force : Bool} {s : State} {t : CodeTree} (h : Emits force s t) :
    exec (.emit force) s = finish ((emitStream (openEmit (clearResults s))).andThen fun _ s =>
      .ok (okReply s.ses.outBits s.ses.projBits) (releaseBout (releaseSin s))) := by
  have hgo : ¬ declines force (clearResults s) = true := by
    rw [declines_eq_true_iff]
    rintro ⟨hforce, hle⟩
    rcases h.saves with hforce' | hlt
    · exact Bool.false_ne_true (hforce.symm.trans hforce')
    · exact Nat.not_le.2 hlt hle
  have hprepped : ¬ (clearResults s).status.prepped = false := by
    rw [clearResults_status, h.prepped]
    decide
  refine (frontEnd_ok (runEmit force) h.fault).trans ?_
  rw [runEmit, if_neg hprepped, if_neg hgo]
  rfl

/-- The state EMIT leaves when it has written `B` and left `rest` on SIN (R215, R217). -/
def wroteStream (B : Bits) (rest : List SymVal) (s : State) : State :=
  { s with
    status := { s.status with declined := false }
    ses := { s.ses with outBits := BitVec.ofNat 64 B.length }
    io := { s.io with
      sin := { s.io.sin with items := rest, held := false }
      bout := ⟨s.io.bout.sent ++ B, roomLeft s.io.bout.room B.length, false⟩ } }

/-- The compressed stream that EMIT makes of the words `xs` (30_encoding.md R98, R104). -/
def streamOf (s : State) (t : CodeTree) (xs : List SymVal) : Bits :=
  headerField s.build s.status.hdrsel s.ses.freq t ++ dataField s.ses.path xs

/-- EMIT of words that all have a path, up to END or the marker, to a host that takes the stream (R215, R217). -/
theorem Emits.exec_ok {force : Bool} {s : State} {t : CodeTree} {xs tail : List SymVal} (h : Emits force s t)
    (hi : s.io.sin.items = xs ++ tail) (hx : AllWords xs) (hpath : ∀ x ∈ xs, HasPath s.ses.path x.toNat)
    (he : PassEnds s.io.sin.ends tail) (hroom : Takes s.io.bout.room (streamOf s t xs).length)
    (hlt : (streamOf s t xs).length < 2 ^ 64) :
    exec (.emit force) s = .next (respond (okReply (BitVec.ofNat 64 (streamOf s t xs).length) s.ses.projBits)
      (wroteStream (streamOf s t xs) tail.tail s)) := by
  have hstream := emitStream_ok (s := openEmit (clearResults s)) h.isTree h.legal h.treeBits hi hx hpath h.path256 he
    rfl hroom rfl hlt
  rw [h.exec_eq, hstream]
  rfl

/-- Settles O42: EMIT is EmitStream() between the acquiring and the releasing of its ports. -/
theorem emitWrites : Obligations.EmitWrites := by
  rintro s force t xs tail _ hf hok hp hsaves ht hi hx hpath he rfl hroom hlt
  exact (Emits.of_sessionOk hf hok hp hsaves ht).exec_ok hi hx hpath he hroom hlt

/-- EMIT with a fault behind words that are written normally (R217): the header and the words' paths stay written, and
the fault is the one that the loop of EmitStream() raises on the items behind them. -/
theorem Emits.exec_raise {force : Bool} {s : State} {t : CodeTree} {xs tail more : List SymVal} {B : Bits}
    {f : FaultKind} (h : Emits force s t) (hi : s.io.sin.items = xs ++ tail) (hx : AllWords xs)
    (hpath : ∀ x ∈ xs, HasPath s.ses.path x.toNat)
    (hB : B = headerField s.build s.status.hdrsel s.ses.freq t ++ wordBits s.ses.path xs)
    (hroom : Takes s.io.bout.room B.length)
    (hraise : ∀ u : State, u.ses.path = s.ses.path → emitWords tail u = .raise f (u.setSin more)) :
    ∃ u, exec (.emit force) s = .next (takeFault f u) ∧ u.io.sin.items = more ∧
      u.io.bout.sent = s.io.bout.sent ++ B := by
  subst hB
  obtain ⟨u, -, hupath, -, hbout, hstream⟩ :=
    emitStream_words (s := openEmit (clearResults s)) h.isTree h.legal h.treeBits hi hx hpath hroom
  refine ⟨u.setSin more, ?_, rfl, congrArg OutPort.sent hbout⟩
  rw [h.exec_eq, hstream, hraise u hupath]
  rfl

/-- Settles O43: the loop of EmitStream() stops at the item, behind the header and the words' paths. -/
theorem emitRejects : Obligations.EmitRejects := by
  intro s force t xs more y B hf hok hp hsaves ht hi hx hpath hB hroom
  have h := Emits.of_sessionOk hf hok hp hsaves ht
  refine ⟨fun hy => ?_, fun hy hnone => ?_⟩
  · exact h.exec_raise hi hx hpath hB hroom fun u _ => emitWords_bad y more u hy
  · exact h.exec_raise hi hx hpath hB hroom fun u hu => emitWords_unknown y more u hy (by rwa [hu])

/-! ### PREP, then EMIT -/

/-- The counts of a frequency table have 32 bits each (R213, 30_encoding.md R98 row 3a). -/
theorem countFields_length (f : Vector Count 256) : (f.toList.flatMap bitsOf).length = 8192 := by
  have hwidth : f.toList.map (fun c => (bitsOf c).length) = f.toList.map fun _ => 32 :=
    List.map_congr_left fun c _ => bitsOf_length c
  rw [List.length_flatMap, hwidth, List.map_const', List.sum_replicate, Vector.length_toList]
  rfl

/-- The header has the bits that Projected() counts (R213, 30_encoding.md R98). -/
theorem headerField_length (b : BuildConsts) (hdr : Bool) (f : Vector Count 256) (t : CodeTree) :
    (headerField b hdr f t).length = 64 + if hdr then 32 + t.bits.length else 8192 := by
  cases hdr
  · simp only [headerField, Bool.false_eq_true, if_false, List.length_append, bitsOf_length, countFields_length]
  · simp only [headerField, if_true, List.length_append, bitsOf_length]
    omega

/-- A word that was counted has a path in the tree of the table (43_tree_builder.md R175 (a)). -/
theorem tableTree_hasPath {f : Vector Count 256} {xs : List SymVal} {x : SymVal} (hx : AllWords xs) (hmem : x ∈ xs)
    (hf : ∀ k < 256, ((f[k]?).getD 0).toNat = occurrences k xs) : HasPath (tableTree f).pathTable x.toNat := by
  have hword : x.toNat ≤ 255 := hx x hmem
  have hoccurs : 0 < occurrences x.toNat xs := List.count_pos_iff.2 (List.mem_map_of_mem hmem)
  have hcount : (f[x.toNat]?).getD 0 ≠ 0 := by
    intro hzero
    rw [← hf x.toNat (by omega), hzero] at hoccurs
    exact Nat.lt_irrefl 0 hoccurs
  have hsym : x = BitVec.ofNat 9 x.toNat := by rw [BitVec.ofNat_toNat, BitVec.setWidth_eq]
  exact (CodeTree.pathTable_isSome (by omega)).2
    ⟨x, (tableTree_syms f x).2 (.inr ⟨x.toNat, by omega, hcount, hsym⟩), rfl⟩

/-- The stream of the words `xs` under a legal tree has the bits that Projected() adds up (R213, R218). -/
theorem streamOf_length {s : State} {t : CodeTree} {xs : List SymVal} (hx : AllWords xs) :
    (streamOf s t xs).length = 64 + (if s.status.hdrsel then 32 + t.bits.length else 8192) +
      ((List.range 256).map fun k => occurrences k xs * (pathBits s.ses.path k).length).sum +
      (pathBits s.ses.path 256).length := by
  rw [streamOf, dataField, List.length_append, List.length_append, headerField_length, wordBits_length _ _ hx]
  exact (Nat.add_assoc _ _ _).symm

/-- The stream of words that PREP can count is far below `2^64` bits (00_scope.md R8). -/
theorem streamOf_lt {s : State} {t : CodeTree} {xs : List SymVal} (hl : t.Legal) (hpath : s.ses.path = t.pathTable)
    (hx : AllWords xs) (hc : ∀ k < 256, occurrences k xs < 2 ^ 32) : (streamOf s t xs).length < 2 ^ 64 := by
  have hheader := headerField_length s.build s.status.hdrsel s.ses.freq t
  have htree := treeBits_lt hl
  have hwords := wordBits_length_le hl xs
  have hcount := length_lt xs hx hc
  have hend := pathBits_length hl 256
  rw [streamOf, dataField, hpath, List.length_append, List.length_append]
  split at hheader <;> omega

/-- EMIT of words whose stream has the projected length writes and answers exactly that many bits (R217, R218). -/
theorem Emits.exec_projected {force : Bool} {s : State} {t : CodeTree} {xs tail : List SymVal} (h : Emits force s t)
    (hi : s.io.sin.items = xs ++ tail) (hx : AllWords xs) (hpath : ∀ x ∈ xs, HasPath s.ses.path x.toNat)
    (he : PassEnds s.io.sin.ends tail) (hroom : Takes s.io.bout.room s.ses.projBits.toNat)
    (hlen : (streamOf s t xs).length = s.ses.projBits.toNat) :
    ∃ u B, exec (.emit force) s = .next u ∧ u.rsp.rc = 0 ∧ u.io.bout.sent = s.io.bout.sent ++ B ∧
      B.length = s.ses.projBits.toNat ∧ u.rsp.res0 = s.ses.projBits ∧ u.rsp.res1 = s.ses.projBits ∧
      u.ses.outBits = s.ses.projBits := by
  have hbits : BitVec.ofNat 64 (streamOf s t xs).length = s.ses.projBits := by
    rw [hlen, BitVec.ofNat_toNat, BitVec.setWidth_eq]
  have hexec := h.exec_ok hi hx hpath he (hlen ▸ hroom) (hlen ▸ s.ses.projBits.isLt)
  exact ⟨_, streamOf s t xs, hexec, rfl, rfl, hlen, hbits, rfl, hbits⟩

/-- Settles O44: the stream has the length that PREP projects. -/
theorem sizeAccounting : Obligations.SizeAccounting := by
  intro s hdr xs tail hf hi hx he hc
  obtain ⟨c, hprep, hfreq, -, -, -, ⟨t, hmerge, ht, -, -, -, hbits, hpath⟩, -, hproj, -⟩ :=
    prepPrepares s hdr xs tail hf hi hx he hc
  rw [tableTree_merge] at hmerge
  obtain ⟨rfl, -⟩ := List.cons.inj hmerge
  obtain ⟨w, hw, rfl, hfault, hprepped, hsel, hends⟩ : ∃ w, exec (.prep hdr) s = .next w ∧ w.ses = c ∧
      w.status.fault = none ∧ w.status.prepped = true ∧ w.status.hdrsel = hdr ∧ w.io.sin.ends = s.io.sin.ends :=
    ⟨_, hprep, rfl, rfl, rfl, rfl, rfl⟩
  have hl := tableTree_legal w.ses.freq
  have hpath256 : HasPath w.ses.path 256 := hpath ▸ Option.isSome_iff_ne_none.2 (tableTree_path256 w.ses.freq)
  have hlen : (streamOf w (tableTree w.ses.freq) xs).length = w.ses.projBits.toNat := by
    have htreeBits : w.ses.treeBits.toNat = (tableTree w.ses.freq).bits.length := by
      rw [hbits, BitVec.toNat_ofNat, Nat.mod_eq_of_lt hl.bits_lt]
    have hlt := streamOf_lt hl hpath hx hc
    rw [hproj, htreeBits, ← hsel, ← streamOf_length hx, BitVec.toNat_ofNat, Nat.mod_eq_of_lt hlt]
  refine ⟨w, hw, fun hroom => ?_⟩
  exact Emits.exec_projected (s := w.setSin (xs ++ tail)) ⟨hfault, hprepped, .inl rfl, ht, hl, hbits, hpath256⟩ rfl hx
    (fun x hmem => hpath ▸ tableTree_hasPath hx hmem hfreq) (hends ▸ he) hroom hlen

end Sys2Proof.Machine
end

section
/-! PROOFS. The statements of 46_stream_decoder.md: what DECODE reads and rejects, what the header fields do, and that
DECODE undoes PREP and EMIT. -/

namespace Sys2Proof.Machine

/-! ### The header fields as instructions -/

/-- The magic field (46_stream_decoder.md R231). -/
theorem fieldMagic_ok (s : State) : fieldMagic s.build.magic s = .ok () (s.setDstate .expectHeaderSelector) :=
  if_pos rfl

theorem fieldMagic_wrong {m : Word32} {s : State} (hm : m ≠ s.build.magic) :
    fieldMagic m s = .raise .notAHuffmanFile s :=
  if_neg hm

/-- The selectors (R232). -/
theorem fieldSelector_counts (s : State) :
    fieldSelector s.build.selCounts s = .ok () ((s.setHdrsel false).setDstate .expectHeaderPayload) :=
  if_pos rfl

theorem fieldSelector_tree {s : State} (hb : Config.legalBuild s.build = true) :
    fieldSelector s.build.selTree s = .ok () ((s.setHdrsel true).setDstate .expectHeaderPayload) := by
  have hne : s.build.selTree ≠ s.build.selCounts := fun h => by simp [Config.legalBuild, h] at hb
  rw [fieldSelector, if_neg hne, if_pos rfl]

theorem fieldSelector_unknown {h : Word32} {s : State} (hcounts : h ≠ s.build.selCounts)
    (htree : h ≠ s.build.selTree) : fieldSelector h s = .raise .corruptFormat s := by
  rw [fieldSelector, if_neg hcounts, if_neg htree]

/-- Settles O50: the field is expected, so it is taken, with the effect of its step of the decoder. -/
theorem headerFieldsTaken : Obligations.HeaderFieldsTaken := by
  intro s hf hheld
  refine ⟨fun hd => ?_, fun hd => ?_, fun hd hsel sym c => ?_, fun hd hsel z => ?_⟩
  · have htaken (m) : exec (.wireMagic m) s = fieldDone (fieldMagic m s) :=
      offeredField_taken _ hf hheld (by rw [hd]; rfl)
    exact ⟨(htaken _).trans (congrArg fieldDone (fieldMagic_ok s)),
      fun m hm => (htaken m).trans (congrArg fieldDone (fieldMagic_wrong hm))⟩
  · have htaken (h) : exec (.wireSelector h) s = fieldDone (fieldSelector h s) :=
      offeredField_taken _ hf hheld (by rw [hd]; rfl)
    exact ⟨(htaken _).trans (congrArg fieldDone (fieldSelector_counts s)),
      fun hb => (htaken _).trans (congrArg fieldDone (fieldSelector_tree hb)),
      fun h hcounts htree => (htaken h).trans (congrArg fieldDone (fieldSelector_unknown hcounts htree))⟩
  · exact ⟨s.setFreq sym.toNat c, offeredField_taken (fieldCount sym.toNat c) hf hheld (by rw [hd, hsel]; rfl), rfl,
      s.freqAt_setFreq_same _ c sym.isLt, fun k hk => s.freqAt_setFreq_other _ k c (Ne.symm hk)⟩
  · exact offeredField_taken (fieldTreeSize z) hf hheld (by rw [hd, hsel]; rfl)

/-! ### The steps of DECODE before its walk -/

/-- A running DECODE before it has stored anything: the results cleared, a fresh session, the decoder at `d`, and `X`
left on BIN (46_stream_decoder.md R230). -/
def decoding (d : DState) (hdr : Bool) (X : Bits) (s : State) : State :=
  { s with
    status := { State.reset.status with dstate := d, hdrsel := hdr }
    rsp := ⟨s.rsp.rc, 0, 0, 0⟩
    ses := Session.fresh
    io := { s.io with
      bin := { s.io.bin with items := X, held := true }
      sout := { s.io.sout with held := true } } }

/-- DECODE starts in a fresh session at EXPECT_MAGIC (R230). -/
theorem openDecoder_eq {s : State} (hf : s.status.fault = none) :
    openDecoder (clearResults s) = decoding .expectMagic false s.io.bin.items s := by
  simp only [openDecoder, sessionInit, clearResults, hf]
  rfl

/-- DECODE behind its header: the walk, then the answer (R230, R236). -/
def decodeData (s : State) : Res Response :=
  (walk (s.setDstate .walking)).andThen fun _ s => .ok (okReply s.ses.outBits 0) (closeDecoder s)

/-- DECODE from its selector on (R230). -/
def decodeSelector (s : State) : Res Response :=
  (stepSelector s).andThen fun _ s => (stepPayload s).andThen fun _ s => decodeData s

/-- DECODE is StepMagic(), then the rest (R230). -/
theorem exec_decode_eq {s : State} (hf : s.status.fault = none) :
    exec .decode s = finish
      ((stepMagic (decoding .expectMagic false s.io.bin.items s)).andThen fun _ s => decodeSelector s) := by
  rw [← openDecoder_eq hf]
  exact frontEnd_ok _ hf

/-- DECODE behind the magic field (R231). -/
theorem exec_decode_magic {s : State} {X : Bits} (hf : s.status.fault = none)
    (hi : s.io.bin.items = bitsOf s.build.magic ++ X) :
    exec .decode s = finish (decodeSelector (decoding .expectHeaderSelector false X s)) := by
  rw [exec_decode_eq hf, stepMagic_ok (S := decoding .expectMagic false s.io.bin.items s) hi]
  rfl

/-- DECODE behind the counts selector (R232, R233). -/
theorem exec_decode_selCounts {s : State} {X : Bits} (hf : s.status.fault = none)
    (hi : s.io.bin.items = bitsOf s.build.magic ++ bitsOf s.build.selCounts ++ X) :
    exec .decode s = finish
      ((payloadCounts (decoding .expectHeaderPayload false X s)).andThen fun _ s => decodeData s) := by
  rw [exec_decode_magic hf (hi.trans (List.append_assoc ..)), decodeSelector,
    stepSelector_counts (S := decoding .expectHeaderSelector false (bitsOf s.build.selCounts ++ X) s) rfl]
  rfl

/-- DECODE behind the tree selector (R232, R234). -/
theorem exec_decode_selTree {s : State} {X : Bits} (hf : s.status.fault = none) (hb : Config.legalBuild s.build = true)
    (hi : s.io.bin.items = bitsOf s.build.magic ++ bitsOf s.build.selTree ++ X) :
    exec .decode s = finish
      ((payloadTree (decoding .expectHeaderPayload true X s)).andThen fun _ s => decodeData s) := by
  rw [exec_decode_magic hf (hi.trans (List.append_assoc ..)), decodeSelector,
    stepSelector_tree (S := decoding .expectHeaderSelector false (bitsOf s.build.selTree ++ X) s) hb rfl]
  rfl

/-! ### Streams that DECODE rejects -/

/-- StepMagic() on a stream that is too short or starts with another value (R231, 60_exceptions.md R261). -/
theorem stepMagic_short {s : State} (h : s.io.bin.items.length < 32) (he : s.io.bin.ends = true) :
    stepMagic s = .raise .notAHuffmanFile (s.setBin []) := by
  rw [stepMagic, readBits_short _ h he, Res.andThen_raise]

theorem stepMagic_wrong {s : State} {m : Word32} {rest : Bits} (hm : m ≠ s.build.magic)
    (hi : s.io.bin.items = bitsOf m ++ rest) : stepMagic s = .raise .notAHuffmanFile (s.setBin rest) := by
  rw [stepMagic, readBits_got m _ rest hi, Res.andThen_ok, fieldMagic_wrong (s := s.setBin rest) hm]

/-- StepSelector() on a stream that is too short or starts with another value (R232, 60_exceptions.md R261). -/
theorem stepSelector_short {s : State} (h : s.io.bin.items.length < 32) (he : s.io.bin.ends = true) :
    stepSelector s = .raise .truncatedStream (s.setBin []) := by
  rw [stepSelector, readBits_short _ h he, Res.andThen_raise]

theorem stepSelector_unknown {s : State} {h : Word32} {rest : Bits} (hcounts : h ≠ s.build.selCounts)
    (htree : h ≠ s.build.selTree) (hi : s.io.bin.items = bitsOf h ++ rest) :
    stepSelector s = .raise .corruptFormat (s.setBin rest) := by
  rw [stepSelector, readBits_got h _ rest hi, Res.andThen_ok, fieldSelector_unknown (s := s.setBin rest) hcounts htree]

/-- Settles O47: the field is short or is none of the constants, so its step raises and DECODE ends there. -/
theorem decodeRejectsHeader : Obligations.DecodeRejectsHeader := by
  refine fun s hf => ⟨fun hlen he => ?_, fun m rest hm hi => ?_, fun short hlen hi he => ?_,
    fun h rest hcounts htree hi => ?_⟩
  · refine ⟨decoding .expectMagic false [] s, ?_, rfl, rfl, rfl⟩
    rw [exec_decode_eq hf, stepMagic_short (s := decoding .expectMagic false s.io.bin.items s) hlen he]
    rfl
  · refine ⟨decoding .expectMagic false rest s, ?_, rfl, rfl, rfl⟩
    rw [exec_decode_eq hf, stepMagic_wrong (s := decoding .expectMagic false s.io.bin.items s) hm hi]
    rfl
  · refine ⟨decoding .expectHeaderSelector false [] s, ?_, rfl, rfl, rfl⟩
    rw [exec_decode_magic hf hi, decodeSelector,
      stepSelector_short (s := decoding .expectHeaderSelector false short s) hlen he]
    rfl
  · refine ⟨decoding .expectHeaderSelector false rest s, ?_, rfl, rfl, rfl⟩
    rw [exec_decode_magic hf (hi.trans (List.append_assoc ..)), decodeSelector,
      stepSelector_unknown (s := decoding .expectHeaderSelector false (bitsOf h ++ rest) s) hcounts htree rfl]
    rfl

/-- StepPayload() on a frequency table that is cut short (R233, 60_exceptions.md R261). -/
theorem payloadCounts_short {s : State} (h : s.io.bin.items.length < 8192) (he : s.io.bin.ends = true) :
    ∃ f, payloadCounts s = .raise .truncatedStream ((s.setFreqs f).setBin []) := by
  obtain ⟨f, hcounts⟩ := readCounts_short (List.range 256) s (by rw [List.length_range]; exact h) he
  exact ⟨f, by rw [payloadCounts, hcounts, Res.andThen_raise]; rfl⟩

/-- StepPayload() on a tree-size field that is cut short (R234, 60_exceptions.md R261). -/
theorem payloadTree_short {s : State} (h : s.io.bin.items.length < 32) (he : s.io.bin.ends = true) :
    payloadTree s = .raise .truncatedStream (s.setBin []) := by
  rw [payloadTree, readBits_short _ h he, Res.andThen_raise, Res.andThen_raise]

/-- StepPayload() on a tree payload that ReadTree() rejects (R234, 44_tree_codec.md R193). -/
theorem payloadTree_broken {s : State} {z : Word32} {p left : Bits}
    (h : BrokenPayload s.io.bin.ends s.ses.node.length p left) (hi : s.io.bin.items = bitsOf z ++ p) :
    payloadTree s = .raise .corruptFormat ((s.setHdrTreeBits z).setBin left) := by
  rw [payloadTree, readBits_got z _ p hi, Res.andThen_ok, fieldTreeSize, Res.andThen_ok,
    readTree_broken (s := (s.setBin p).setHdrTreeBits z) h]
  rfl

/-- A tree of one data leaf is legal, but CheckRoot() does not take it (R237). -/
theorem payloadTree_dataLeaf {s : State} {z : Word32} {v : SymVal} {rest : Bits} (hn : s.ses.node = [])
    (hv : v.toNat ≤ 255) (hi : s.io.bin.items = bitsOf z ++ (true :: bitsOf v) ++ rest) :
    ∃ u, payloadTree s = .raise .corruptFormat u ∧ u.io = (s.setBin rest).io ∧
      u.status = (s.setTreeValid true).status := by
  have hl : (CodeTree.leaf v 1).Legal := by
    refine ⟨Nat.le_add_left 1 256, fun y hy => ?_⟩
    rw [List.mem_singleton.1 hy]
    omega
  have hdata : v ≠ pseudoEof := by
    rintro rfl
    exact absurd hv (by decide)
  obtain ⟨u, hu, htree, hrun⟩ := payloadTree_run (t := .leaf v 1) hn hl hi
  exact ⟨u, by rw [hrun, checkRoot_dataLeaf htree hdata], by rw [hu]; rfl, by rw [hu]; rfl⟩

/-- Settles O48: a field of the payload is short, or ReadTree() or CheckRoot() rejects the tree. -/
theorem decodeRejectsPayload : Obligations.DecodeRejectsPayload := by
  refine fun s hf hb => ⟨fun p hlen hi he => ?_, fun p hlen hi he => ?_, fun z p left hbroken hi => ?_,
    fun z v rest hv hi => ?_⟩
  · obtain ⟨f, hpayload⟩ := payloadCounts_short (s := decoding .expectHeaderPayload false p s) hlen he
    exact ⟨_, by rw [exec_decode_selCounts hf hi, hpayload]; rfl, rfl, rfl⟩
  · refine ⟨decoding .expectHeaderPayload true [] s, ?_, rfl, rfl⟩
    rw [exec_decode_selTree hf hb hi, payloadTree_short (s := decoding .expectHeaderPayload true p s) hlen he]
    rfl
  · have hpayload := payloadTree_broken (s := decoding .expectHeaderPayload true (bitsOf z ++ p) s) hbroken rfl
    exact ⟨_, by rw [exec_decode_selTree hf hb (hi.trans (List.append_assoc ..)), hpayload]; rfl, rfl, rfl⟩
  · obtain ⟨u, hpayload, hio, hstatus⟩ := payloadTree_dataLeaf (z := z) (v := v) (rest := rest)
      (s := decoding .expectHeaderPayload true (bitsOf z ++ (true :: bitsOf v) ++ rest) s) rfl hv rfl
    refine ⟨u, ?_, by rw [hio]; rfl, hstatus⟩
    rw [exec_decode_selTree (X := bitsOf z ++ (true :: bitsOf v) ++ rest) hf hb
      (by simpa only [List.append_assoc] using hi), hpayload]
    rfl

/-- A subtree has no more leaves than the tree (10_state.md R35). -/
theorem CodeTree.follow_leaves_le {t sub : CodeTree} {p : Bits} (h : t.follow p = some sub) :
    sub.leaves ≤ t.leaves := by
  induction p generalizing t with
  | nil =>
    simp only [CodeTree.follow, Option.some.injEq] at h
    rw [h]
  | cons b p ih =>
    cases t with
    | leaf => cases h
    | internal w l r =>
      rw [CodeTree.leaves]
      cases b
      · exact Nat.le_add_right_of_le (ih (t := l) h)
      · exact Nat.le_add_left_of_le (ih (t := r) h)

/-- Settles O49: the header gives a tree of the same shape, and the walk of it ends on an internal node. -/
theorem decodeTruncatedData : Obligations.DecodeTruncatedData := by
  intro s hdr H t sub xs p hf hb hH hx hpath hfollow hsub hroom hi he
  have hleaves : 1 < t.leaves := Nat.lt_of_lt_of_le hsub (CodeTree.follow_leaves_le hfollow)
  obtain ⟨S, u, hshape, htree, hstatus, hio, hrun⟩ :=
    runDecode_header (s := clearResults s) hf hb hH (.inl hleaves) (hi.trans (List.append_assoc ..))
  obtain ⟨sub', hfollow', hsub'⟩ := hshape.follow hfollow
  obtain ⟨v, hvstatus, hvio, hwalk⟩ := walk_cut u sub' xs p S htree hx (by rwa [hshape.pathTable]) hfollow'
    (hsub' ▸ hsub) (by rw [hio]; exact hroom) (by rw [hio, hshape.pathTable])
  have hends : S.io.bin.ends = true := by rw [hio]; exact he
  refine ⟨v, (frontEnd_ok _ hf).trans ?_, by rw [hvio], by rw [hvio, hio]; rfl, hvstatus.trans hstatus⟩
  rw [hrun, hwalk, if_pos hends]
  rfl

/-! ### Streams that DECODE reads -/

/-- DECODE behind a header from which it has read the session `c`, with `X` left on BIN (R233, R234). -/
def headed (hdr : Bool) (c : Session) (X : Bits) (s : State) : State :=
  { decoding .expectHeaderPayload hdr X s with
    status := { State.reset.status with dstate := .expectHeaderPayload, hdrsel := hdr, treeValid := true }
    ses := c }

/-- The session DECODE reads from a tree header (R234, 44_tree_codec.md R196). -/
def treeSession (z : Word32) (t : CodeTree) : Session :=
  { Session.fresh with hdrTreeBits := z, root := 0, node := t.unweighted.preOrder 0 : Session }.derived t

/-- The session DECODE makes of a counts header (R233, 43_tree_builder.md R170). -/
def countsSession (f : Vector Count 256) : Session :=
  { Session.fresh with freq := f, root := tableRoot f, node := tableNodes f : Session }.derived (tableTree f)

/-- DECODE behind a tree header whose tree CheckRoot() takes (R234, R237). -/
theorem exec_decode_treeHeader {s : State} {z : Word32} {t : CodeTree} {X : Bits} (hf : s.status.fault = none)
    (hb : Config.legalBuild s.build = true) (hl : t.Legal) (heof : pseudoEof ∈ t.syms)
    (hi : s.io.bin.items = bitsOf s.build.magic ++ bitsOf s.build.selTree ++ bitsOf z ++ t.bits ++ X) :
    exec .decode s = finish (decodeData (headed true (treeSession z t) X s)) := by
  obtain ⟨-, hpayload⟩ := payloadTree_ok (z := z) (t := t) (X := X)
    (S := decoding .expectHeaderPayload true (bitsOf z ++ t.bits ++ X) s) rfl hl (.inr heof) rfl
  rw [exec_decode_selTree (X := bitsOf z ++ t.bits ++ X) hf hb (by simpa only [List.append_assoc] using hi), hpayload]
  rfl

/-- DECODE behind a counts header (R233). -/
theorem exec_decode_countsHeader {s : State} {f : Vector Count 256} {X : Bits} (hf : s.status.fault = none)
    (hi : s.io.bin.items = bitsOf s.build.magic ++ bitsOf s.build.selCounts ++ f.toList.flatMap bitsOf ++ X) :
    exec .decode s = finish (decodeData (headed false (countsSession f) X s)) := by
  have hpayload := payloadCounts_ok (f := f) (X := X)
    (S := decoding .expectHeaderPayload false (f.toList.flatMap bitsOf ++ X) s) rfl
  rw [exec_decode_selCounts hf (hi.trans (List.append_assoc ..)), hpayload]
  rfl

/-- The words `xs` can be coded with the path table `v`, and the host takes them, in fewer than `2^64` bits
(30_encoding.md R104, 10_state.md R48, 70_reset_and_hazards.md R286). -/
structure Codable (v : Vector PathEntry 257) (room : Option Nat) (xs : List SymVal) : Prop where
  words : AllWords xs
  paths : ∀ x ∈ xs, HasPath v x.toNat
  eof : HasPath v 256
  fits : 8 * xs.length < 2 ^ 64
  room : Takes room xs.length

/-- The session of DECODE behind its walk: CUR is on the leaf that ended it (R235, R236). -/
def walkedSession (c : Session) (i : Idx) (xs : List SymVal) : Session :=
  { c with cur := i, outBits := BitVec.ofNat 64 (8 * xs.length) }

/-- The state DECODE leaves with the words `xs` written, the session `c` and `rest` on BIN (R230, R236). -/
def decoded (hdr : Bool) (c : Session) (xs : List SymVal) (rest : Bits) (s : State) : State :=
  { s with
    status := { State.reset.status with treeValid := true, hdrsel := hdr, dstate := .done }
    ses := c
    io := { s.io with
      bin := { s.io.bin with items := rest, held := false }
      sout := ⟨s.io.sout.sent ++ outWords xs, roomLeft s.io.sout.room xs.length, false⟩ } }

/-- DECODE behind its header, with the tree `t` at ROOT up to its weights (R235, R236). -/
theorem finish_decodeData {hdr : Bool} {c : Session} {s : State} {u t : CodeTree} {xs : List SymVal} {rest : Bits}
    (hu : IsTree c.node c.root u) (hshape : SameShape u t) (hout : c.outBits = 0)
    (h : Codable t.pathTable s.io.sout.room xs) :
    ∃ i w, c.node[i.toNat]? = some (.leaf 256 w) ∧
      finish (decodeData (headed hdr c (dataField t.pathTable xs ++ rest) s)) =
        .next (respond (okReply (BitVec.ofNat 64 (8 * xs.length)) 0)
          (decoded hdr (walkedSession c i xs) xs rest s)) := by
  rw [← hshape.pathTable] at h ⊢
  obtain ⟨n, i, w, hwalk, hcur, hn⟩ := walk_data u xs rest
    ((headed hdr c (dataField u.pathTable xs ++ rest) s).setDstate .walking) hu h.words h.paths h.eof h.room rfl
  have hzero : ((headed hdr c (dataField u.pathTable xs ++ rest) s).setDstate .walking).ses.outBits = 0 := hout
  have hbits : n = BitVec.ofNat 64 (8 * xs.length) := by
    have hfits := h.fits
    rw [hzero] at hn
    rw [hn (by simpa using hfits), outBitsPlus_zero_left _ hfits]
  subst hbits
  refine ⟨i, w, hcur, ?_⟩
  rw [decodeData, hwalk]
  rfl

/-- DECODE of a stream with a tree header (R234, R235). -/
theorem exec_decode_tree {s : State} {z : Word32} {t : CodeTree} {xs : List SymVal} {rest : Bits}
    (hf : s.status.fault = none) (hb : Config.legalBuild s.build = true) (hl : t.Legal)
    (h : Codable t.pathTable s.io.sout.room xs)
    (hi : s.io.bin.items = bitsOf s.build.magic ++ bitsOf s.build.selTree ++ bitsOf z ++ t.bits ++
      dataField t.pathTable xs ++ rest) :
    ∃ i w, (treeSession z t).node[i.toNat]? = some (.leaf 256 w) ∧
      exec .decode s = .next (respond (okReply (BitVec.ofNat 64 (8 * xs.length)) 0)
        (decoded true (walkedSession (treeSession z t) i xs) xs rest s)) := by
  have heof : pseudoEof ∈ t.syms := by
    obtain ⟨y, hy, hval⟩ := (CodeTree.pathTable_isSome (by decide)).1 h.eof
    obtain rfl : y = pseudoEof := BitVec.eq_of_toNat_eq hval
    exact hy
  rw [exec_decode_treeHeader hf hb hl heof (hi.trans (List.append_assoc ..))]
  exact finish_decodeData (isTree_readNodes hl) (.inr rfl) rfl h

/-- DECODE of a stream with a counts header (R233, R235). -/
theorem exec_decode_counts {s : State} {f : Vector Count 256} {xs : List SymVal} {rest : Bits}
    (hf : s.status.fault = none) (h : Codable (tableTree f).pathTable s.io.sout.room xs)
    (hi : s.io.bin.items = bitsOf s.build.magic ++ bitsOf s.build.selCounts ++ f.toList.flatMap bitsOf ++
      dataField (tableTree f).pathTable xs ++ rest) :
    ∃ i w, (countsSession f).node[i.toNat]? = some (.leaf 256 w) ∧
      exec .decode s = .next (respond (okReply (BitVec.ofNat 64 (8 * xs.length)) 0)
        (decoded false (walkedSession (countsSession f) i xs) xs rest s)) := by
  rw [exec_decode_countsHeader hf (hi.trans (List.append_assoc ..))]
  exact finish_decodeData (tableNodes_isTree f) (.inl rfl) rfl h

/-- The path table of a frequency table's tree has PSEUDO_EOF (43_tree_builder.md R175 (b)). -/
theorem tableTree_hasPath256 (f : Vector Count 256) : HasPath (tableTree f).pathTable 256 :=
  Option.isSome_iff_ne_none.2 (tableTree_path256 f)

/-- Settles O45: the header puts its tree at ROOT, and the walk of it writes the words and stops behind PSEUDO_EOF. -/
theorem decodeReadsTreeStream : Obligations.DecodeReadsTreeStream := by
  refine ⟨fun s z t xs rest hf hb hl hx hpath heof hfits hroom hi => ?_,
    fun s f t xs rest hf hmerge hx hpath hfits hroom hi => ?_⟩
  · obtain ⟨i, w, hcur, hexec⟩ := exec_decode_tree hf hb hl ⟨hx, hpath, heof, hfits, hroom⟩ hi
    exact ⟨_, hexec, rfl, isTree_readNodes hl, rfl, rfl, rfl, congrArg (BitVec.ofNat 32) t.bits_length.symm, rfl, rfl,
      rfl, rfl, ⟨w, hcur⟩, rfl⟩
  · rw [tableTree_merge] at hmerge
    obtain ⟨rfl, -⟩ := List.cons.inj hmerge
    obtain ⟨i, w, hcur, hexec⟩ := exec_decode_counts hf ⟨hx, hpath, tableTree_hasPath256 f, hfits, hroom⟩ hi
    exact ⟨_, hexec, tableNodes_isTree f, tableNodes_length f, rfl, tableNodes_childrenFirst f, tableRoot_eq f, rfl,
      rfl, congrArg (BitVec.ofNat 32) (tableTree f).bits_length.symm, rfl, rfl, rfl, rfl, ⟨w, hcur⟩, rfl⟩

/-! ### PREP, then EMIT, then DECODE -/

/-- DECODE of the stream that EMIT writes, with either header (R238). -/
theorem exec_decode_headerField {s : State} (hdr : Bool) {f : Vector Count 256} {xs : List SymVal} {rest : Bits}
    (hf : s.status.fault = none) (hb : Config.legalBuild s.build = true)
    (h : Codable (tableTree f).pathTable s.io.sout.room xs)
    (hi : s.io.bin.items = headerField s.build hdr f (tableTree f) ++ dataField (tableTree f).pathTable xs ++ rest) :
    ∃ c, exec .decode s = .next (respond (okReply (BitVec.ofNat 64 (8 * xs.length)) 0) (decoded hdr c xs rest s)) := by
  cases hdr
  · obtain ⟨i, w, -, hexec⟩ := exec_decode_counts hf h hi
    exact ⟨_, hexec⟩
  · obtain ⟨i, w, -, hexec⟩ := exec_decode_tree hf hb (tableTree_legal f) h hi
    exact ⟨_, hexec⟩

/-- DECODE of what EMIT has just written from a session with the tree of its table, and of anything behind it (R238). -/
theorem exec_decode_wroteStream {s : State} {xs : List SymVal} {rest : Bits} {B : Bits} (q : Response)
    (hf : s.status.fault = none) (hb : Config.legalBuild s.build = true)
    (hpath : s.ses.path = (tableTree s.ses.freq).pathTable) (h : Codable s.ses.path s.io.sout.room xs)
    (hB : B = streamOf s (tableTree s.ses.freq) xs) :
    ∃ v, exec .decode ((respond q (wroteStream B [] s)).setBin (B ++ rest)) = .next v ∧
      v.rsp = ⟨0, BitVec.ofNat 64 (8 * xs.length), 0, 0⟩ ∧ v.io.sout.sent = s.io.sout.sent ++ outWords xs ∧
      v.io.bin.items = rest ∧ v.status.dstate = .done := by
  rw [streamOf, hpath] at hB
  rw [hpath] at h
  obtain ⟨c, hexec⟩ := exec_decode_headerField (s := (respond q (wroteStream B [] s)).setBin (B ++ rest))
    s.status.hdrsel hf hb h (congrArg (· ++ rest) hB)
  exact ⟨_, hexec, rfl, rfl, rfl, rfl⟩

/-- A session that PREP has prepared is ready for EMIT FORCE (45_stream_compress.md R211, R215). -/
theorem preppedState_emits (hdr : Bool) (xs rest ys : List SymVal) (r : Response) (s : State) :
    Emits true ((respond r (preppedState hdr xs rest s)).setSin ys) (tableTree (wordCounts xs)) where
  fault := rfl
  prepped := rfl
  saves := .inl rfl
  isTree := tableNodes_isTree _
  legal := tableTree_legal _
  treeBits := congrArg (BitVec.ofNat 32) (CodeTree.bits_length _).symm
  path256 := tableTree_hasPath256 _

/-- PROJ_BITS behind PREP is the length of the stream of its words (45_stream_compress.md R213, R218). -/
theorem preppedState_projBits {hdr : Bool} {xs rest : List SymVal} {s : State} (hx : AllWords xs)
    (hc : ∀ k < 256, occurrences k xs < 2 ^ 32) :
    (streamOf (preppedState hdr xs rest s) (tableTree (wordCounts xs)) xs).length =
      (preppedState hdr xs rest s).ses.projBits.toNat := by
  have hlt := streamOf_lt (s := preppedState hdr xs rest s) (tableTree_legal (wordCounts xs)) rfl hx hc
  have htreeBits : (countedTree hdr xs rest s).ses.treeBits.toNat = (tableTree (wordCounts xs)).bits.length := by
    show (BitVec.ofNat 32 _).toNat = _
    rw [← CodeTree.bits_length, BitVec.toNat_ofNat, Nat.mod_eq_of_lt (tableTree_legal _).bits_lt]
  have hproj : (preppedState hdr xs rest s).ses.projBits =
      BitVec.ofNat 64 (streamOf (preppedState hdr xs rest s) (tableTree (wordCounts xs)) xs).length := by
    refine (projected_of_counts (s := countedTree hdr xs rest s) fun k hk => wordCounts_get hk hx (hc k hk)).trans ?_
    rw [htreeBits, streamOf_length hx]
    rfl
  rw [hproj, BitVec.toNat_ofNat, Nat.mod_eq_of_lt hlt]

/-- Settles O46: EMIT writes the header and the codewords of the tree that PREP has built, and those are what DECODE
reads. -/
theorem compressedStreamRoundTrip : Obligations.CompressedStreamRoundTrip := by
  intro s hdr xs rest hf hb hi hends hx hc
  obtain ⟨r, hrc, hprep⟩ : ∃ r : Response, r.rc = 0 ∧
      exec (.prep hdr) s = .next (respond r (preppedState hdr xs [] s)) :=
    ⟨_, rfl, exec_prep_ok hdr hf (hi.trans (List.append_nil xs).symm) hx (.inl ⟨rfl, hends⟩) hc⟩
  refine ⟨_, hprep, hrc, fun hbout hsout => ?_⟩
  have hpath : ∀ x ∈ xs, HasPath (tableTree (wordCounts xs)).pathTable x.toNat := fun x hmem =>
    tableTree_hasPath hx hmem fun k hk => wordCounts_get hk hx (hc k hk)
  have hlen := preppedState_projBits (hdr := hdr) (rest := []) (s := s) hx hc
  have hcount := length_lt xs hx hc
  have hemit := (preppedState_emits hdr xs [] xs r s).exec_ok (List.append_nil xs).symm hx hpath (.inl ⟨rfl, hends⟩)
    (hlen ▸ hbout) (hlen ▸ BitVec.isLt _)
  have hcodable : Codable (tableTree (wordCounts xs)).pathTable s.io.sout.room xs :=
    ⟨hx, hpath, tableTree_hasPath256 _, by omega, hsout⟩
  exact ⟨_, _, (exec_decode_wroteStream (s := (respond r (preppedState hdr xs [] s)).setSin xs) _ rfl hb rfl hcodable
    rfl).imp fun v hdecode => ⟨hemit, rfl, rfl, hdecode⟩⟩

end Sys2Proof.Machine
end

section
/-! PROOFS. The statements of 60_exceptions.md: what taking a fault does, which faults an instruction raises, and what a
faulted session refuses. -/

namespace Sys2Proof.Machine

/-! ### Taking a fault -/

/-- Taking a fault releases the four ports (60_exceptions.md R255). -/
theorem takeFault_portsClosed (f : FaultKind) (s : State) : PortsClosed (takeFault f s).io := ⟨rfl, rfl, rfl, rfl⟩

/-- Settles O10: the laws of `takeFault`, with 8 + code worked out for each fault. -/
theorem faultEntry : Obligations.FaultEntry := by
  intro f s
  refine ⟨takeFault_portsClosed f s, (takeFault_outside f s).1, ?_, rfl, takeFault_status f s, takeFault_ses f s, rfl⟩
  rw [takeFault_rsp]
  cases f <;> rfl

/-! ### The faults of each instruction -/

/-- Of the ends of a rule only one records a fault: the one that takes it. -/
theorem taken_of_fault {fs : List FaultKind} {u t : State} {f : FaultKind} (hu : u.status.fault = none)
    (hend : t.status = u.status ∨ ∃ g ∈ fs, t = takeFault g u) (ht : t.status.fault = some f) :
    f ∈ fs ∧ ∃ u, t = takeFault f u := by
  rcases hend with hst | ⟨g, hg, rfl⟩
  · rw [hst, hu] at ht
    cases ht
  · cases ht
    exact ⟨hg, u, rfl⟩

/-- A command that ends with a fault recorded has taken it, and its rule may raise it (60_exceptions.md R255). -/
theorem frontEnd_fault {run : State → Res Response} {ps : List Piece} {fs : List FaultKind} {s s' t : State}
    {f : FaultKind} (hf : s.status.fault = none) (hr : (run (clearResults s)).Ends ps fs s')
    (hs' : s'.status.fault = s.status.fault) (hn : frontEnd run s = .next t) (ht : t.status.fault = some f) :
    f ∈ fs ∧ ∃ u, t = takeFault f u := by
  obtain ⟨u, hu, hend⟩ := frontEnd_ends hf hr hn
  refine taken_of_fault (hu.fault.trans (hs'.trans hf)) ?_ ht
  rcases hend with ⟨r, -, rfl⟩ | htaken | rfl
  · exact .inl rfl
  · exact .inr htaken
  · exact .inl rfl

/-- A field of the compressed stream that ends with a fault recorded has been taken, and the fault with it (log 8). -/
theorem offeredField_fault {expected : Bool} {run : State → Res Unit} {ps : List Piece} {fs : List FaultKind}
    {s t : State} {f : FaultKind} (hf : s.status.fault = none) (hr : (run s).Ends ps fs s)
    (hn : offeredField expected run s = .next t) (ht : t.status.fault = some f) : f ∈ fs ∧ ∃ u, t = takeFault f u := by
  rcases offeredField_ends hr hn with rfl | ⟨-, -, -, u, hu, hend⟩
  · exact taken_of_fault hf (.inl rfl) ht
  refine taken_of_fault (hu.fault.trans hf) ?_ ht
  rcases hend with rfl | htaken | rfl
  · exact .inl rfl
  · exact .inr htaken
  · exact .inl rfl

/-- An instruction that ends with a fault recorded has taken one of those R250 names for it. -/
theorem exec_fault {i : Instr} {s t : State} {f : FaultKind} (hf : s.status.fault = none) (hn : exec i s = .next t)
    (ht : t.status.fault = some f) : f ∈ mayRaise i ∧ ∃ u, t = takeFault f u := by
  cases i with
  | clr => cases hn; cases ht
  | rdreg => exact frontEnd_fault hf (runRdreg_ends _ _) rfl hn ht
  | qins => exact frontEnd_fault hf (runQins_ends _ _ _ _) rfl hn ht
  | qrem => exact frontEnd_fault hf (runQrem_ends _) rfl hn ht
  | qpeek => exact frontEnd_fault hf (runQpeek_ends _) rfl hn ht
  | qsize => exact frontEnd_fault hf (runQsize_ends _) rfl hn ht
  | facc => exact frontEnd_fault hf (runFacc_ends _) rfl hn ht
  | qload => exact frontEnd_fault hf (runQload_ends _) rfl hn ht
  | fset => exact frontEnd_fault hf (runFset_ends _ _ _) rfl hn ht
  | fget => exact frontEnd_fault hf (runFget_ends _ _) rfl hn ht
  | build => exact frontEnd_fault hf (runBuild_ends _) rfl hn ht
  | nget => exact frontEnd_fault hf (runNget_ends _ _) rfl hn ht
  | pget => exact frontEnd_fault hf (runPget_ends _ _) rfl hn ht
  | wtree => exact frontEnd_fault hf (runWtree_ends _) rfl hn ht
  | rtree => exact frontEnd_fault hf (runRtree_ends _) rfl hn ht
  | prep => exact frontEnd_fault hf (runPrep_ends _ _) rfl hn ht
  | emit =>
    exact frontEnd_fault hf ((runEmit_ends _ _).mono (List.Subset.refl _) (by simp [mayRaise])) rfl hn ht
  | decode =>
    exact frontEnd_fault hf ((runDecode_ends _).mono (List.Subset.refl _) (by simp [mayRaise])) rfl hn ht
  | wireMagic => exact offeredField_fault hf (fieldMagic_ends _ s) hn ht
  | wireSelector => exact offeredField_fault hf (fieldSelector_ends _ s) hn ht
  | wireCount => exact offeredField_fault hf (fieldCount_ends _ _ s) hn ht
  | wireTreeSize => exact offeredField_fault hf (fieldTreeSize_ends _ s) hn ht
  | wireTreeLeaf => exact offeredField_fault hf (leafField_ends _ s) hn ht
  | wireTreeInternal => exact offeredField_fault hf (internalField_ends s) hn ht

/-- Settles O11: a recorded fault is one of the instruction's own and has been taken, and taking it does the rest. -/
theorem faultsPerCommand : Obligations.FaultsPerCommand := by
  intro i s t f hf hn ht
  obtain ⟨hmem, u, rfl⟩ := exec_fault hf hn ht
  exact ⟨hmem, takeFault_rsp f u, rfl, rfl, rfl, takeFault_portsClosed f u⟩

/-! ### A faulted session -/

/-- Every command but CLR is refused in a faulted session (60_exceptions.md R256). -/
theorem exec_command_refuse {op : Opcode} (w : CmdWord) {s : State} {f : FaultKind} (hop : op ≠ .clr)
    (hf : s.status.fault = some f) : exec (operands op w) s = .next (refuse s) := by
  cases op with
  | clr => exact absurd rfl hop
  | _ => exact frontEnd_refuse _ hf

/-- Every word but that of CLR, legal or not, is refused in a faulted session (60_exceptions.md R256). -/
theorem runWord_refuse {w : CmdWord} {s : State} {f : FaultKind} (hw : w ≠ 0x0100000000000000#64)
    (hf : s.status.fault = some f) : runWord w s = .next (refuse s) := by
  cases hd : decode w with
  | error r => exact (runWord_of_reject hd s).trans (frontEnd_refuse _ hf)
  | ok i =>
    have hclr : i ≠ .clr := fun h => hw ((clrMakesFreshSession.2 w).1 (h ▸ hd))
    obtain ⟨op, -, -, rfl⟩ := decode_eq_ok.1 hd
    exact (runWord_of_decode hd s).trans (exec_command_refuse w (fun h => hclr (by rw [h]; rfl)) hf)

/-- Settles O9: the offer is accepted, its word is not that of CLR, and the accepted state is still faulted. -/
theorem faultedSessionRefuses : Obligations.FaultedSessionRefuses := fun _ _ _ _ hh hb hf hw =>
  (step_of_ready hh hb).trans (runWord_refuse hw hf)

end Sys2Proof.Machine
end

section
/-! PROOFS. The statements of 70_reset_and_hazards.md on reset and on the end of every step: reset makes the state of
R49, and in a state that meets the invariant no command stops the machine (R280, R290). -/

namespace Sys2Proof.Machine

/-! ### Reset -/

/-- A reset at the head of the host's list is taken in any state, busy or not (70_reset_and_hazards.md R280). -/
theorem step_of_reset {s : State} {rest : List HostAct} (hh : s.host = .reset :: rest) :
    step s = .next (resetNow rest s) := by
  rw [step, hh]

/-- Settles O3: `resetNow` writes the state of reset and keeps what has been written on the outputs. -/
theorem resetAbandonsCommand : Obligations.ResetAbandonsCommand := fun s rest hh =>
  ⟨resetNow rest s, step_of_reset hh, rfl, rfl, rfl, ⟨rfl, rfl, rfl, rfl⟩, rfl, rfl, rfl, rfl, rfl, rfl⟩

/-! ### Rules that do not stop the machine -/

/-- A command's rule does not stop the machine in a ready state (log 9, log 10). -/
def NeverStops (run : State → Res Response) : Prop := ∀ s, Ready s → (run s).Live

theorem Res.live_of_eq_ok {α : Type} {r : Res α} {a : α} {s : State} (h : r = .ok a s) : r.Live := h ▸ trivial

theorem Res.live_of_eq_raise {α : Type} {r : Res α} {f : FaultKind} {s : State} (h : r = .raise f s) : r.Live :=
  h ▸ trivial

/-- What a procedure does not touch is as before where it goes on. -/
theorem Res.Ends.same_of_eq_ok {α : Type} {ps : List Piece} {fs : List FaultKind} {s t : State} {r : Res α} {a : α}
    (h : r.Ends ps fs s) (hr : r = .ok a t) (p : Piece) (hp : p ∉ ps) : Same s t p := by
  rw [hr] at h
  exact h.same p hp

/-- A command whose rule does not stop the machine ends in a next state (00_scope.md R12). -/
theorem Res.Live.finish_next {r : Res Response} (h : r.Live) : ∃ t, finish r = .next t := by
  cases r with
  | ok a s => exact ⟨_, rfl⟩
  | raise f s => exact ⟨_, rfl⟩
  | hang s => exact ⟨_, rfl⟩
  | stuck f => exact h.elim

/-- Behind the front end a faulted session refuses, and a ready one runs the rule (40_system_commands.md R121). -/
theorem frontEnd_next {run : State → Res Response} (hk : NeverStops run) {s : State} (h : Inv s)
    (hb : s.io.busy = false) : ∃ t, frontEnd run s = .next t := by
  cases hf : s.status.fault with
  | some f => exact ⟨_, frontEnd_refuse run hf⟩
  | none =>
    have hs := h.ready hf hb
    rw [frontEnd_ok run hf]
    exact (hk (clearResults s) ⟨hs.fault, hs.ports, hs.session, hs.cur⟩).finish_next

/-! ### Registers, queue and counts -/

theorem runRdreg_neverStops (num : BitVec 10) : NeverStops (runRdreg num) := by
  intro s _
  unfold runRdreg
  split <;> trivial

theorem runFset_neverStops (sym : SymVal) (c : Count) : NeverStops (runFset sym c) := by
  intro s _
  rcases Nat.lt_or_ge 255 sym.toNat with h | h
  · exact Res.live_of_eq_raise (runFset_noWord c s h)
  · exact Res.live_of_eq_ok (runFset_word c s h)

theorem runFget_neverStops (sym : SymVal) : NeverStops (runFget sym) := by
  intro s _
  rcases Nat.lt_or_ge 255 sym.toNat with h | h
  · exact Res.live_of_eq_raise (runFget_noWord s h)
  · exact Res.live_of_eq_ok (runFget_word s h)

theorem runPget_neverStops (sym : SymVal) : NeverStops (runPget sym) := by
  intro s _
  rcases Nat.lt_or_ge 256 sym.toNat with h | h
  · exact Res.live_of_eq_raise (runPget_noSymbol s h)
  · exact Res.live_of_eq_ok (runPget_symbol s h)

/-- The position of a new leaf is found because every queued entry names a node (41_ranked_queue.md R130, R132). -/
theorem runQins_neverStops (v : Bool) (sym : SymVal) (w : Weight) : NeverStops (runQins v sym w) := by
  intro s hs
  obtain ⟨-, hqueue, -⟩ := hs.session
  cases v with
  | false => exact Res.live_of_eq_raise (runQins_null sym w s)
  | true =>
    rcases Nat.lt_or_ge 256 sym.toNat with hsym | hsym
    · exact Res.live_of_eq_raise (runQins_noSymbol w s hsym)
    rcases Nat.lt_or_ge s.ses.q.length Config.QCAP with hq | hq
    · rcases Nat.lt_or_ge s.ses.node.length Config.NODE_CAP with hn | hn
      · exact Res.live_of_eq_ok (runQins_ok hqueue hsym hq hn rfl)
      · exact Res.live_of_eq_raise (runQins_arenaFull w hsym hq hn)
    · exact Res.live_of_eq_raise (runQins_queueFull w hsym hq)

theorem runQrem_neverStops : NeverStops runQrem := by
  intro s hs
  obtain ⟨-, hqueue, -⟩ := hs.session
  cases hq : s.ses.q with
  | nil => exact Res.live_of_eq_ok (runQrem_nil hq)
  | cons i rest =>
    obtain ⟨n, hn⟩ := hqueue.readable i (hq ▸ List.mem_cons_self)
    exact Res.live_of_eq_ok (runQrem_cons hq hn)

theorem runQpeek_neverStops : NeverStops runQpeek := by
  intro s hs
  obtain ⟨-, hqueue, -⟩ := hs.session
  cases hq : s.ses.q with
  | nil => exact Res.live_of_eq_ok (runQpeek_nil hq)
  | cons i rest =>
    obtain ⟨n, hn⟩ := hqueue.readable i (hq ▸ List.mem_cons_self)
    exact Res.live_of_eq_ok (runQpeek_cons hq hn)

theorem runFacc_neverStops : NeverStops runFacc := fun _ _ => (countPass_live _).andThen fun _ _ _ => trivial

theorem runQload_neverStops : NeverStops runQload := by
  intro s _
  obtain ⟨q, -, hok⟩ := runQload_ok s
  exact Res.live_of_eq_ok hok

/-! ### Trees -/

/-- BuildTree() on a legal arena and queue merges the leaves of the queue, or raises (43_tree_builder.md R170). -/
theorem buildTree_live {s : State} (ha : ArenaOk s.ses.node) (hq : QueueOk s.ses) : (buildTree s).Live := by
  by_cases hnil : s.ses.q = []
  · exact Res.live_of_eq_raise (buildTree_empty hnil)
  · rcases buildTree_of_trees hq.loaded.trees (hq.queueLeaves_ne hnil) hq.length_le ha.1 hq.totalLeaves_le with
      ⟨c, hfull, -⟩ | ⟨more, i, hok, -⟩
    · exact Res.live_of_eq_raise hfull
    · exact Res.live_of_eq_ok hok

theorem runBuild_neverStops : NeverStops runBuild := by
  intro s hs
  obtain ⟨harena, hqueue, -⟩ := hs.session
  exact (buildTree_live (s := s.setPrepped false) harena hqueue).andThen fun _ _ _ => trivial

/-- PREP builds the tree of the frequency table it has counted, and such a tree can always be built
(45_stream_compress.md R211). -/
theorem runPrep_neverStops (hdr : Bool) : NeverStops (runPrep hdr) := fun _ _ =>
  (countPass_live _).andThen fun _ _ _ => Res.live_of_eq_ok (load_build _ _)

/-- WTREE reads the tree that TREE_VALID vouches for (44_tree_codec.md R192, 10_state.md R30). -/
theorem runWtree_neverStops : NeverStops runWtree := by
  intro s hs
  cases hv : s.status.treeValid with
  | false => exact Res.live_of_eq_raise (runWtree_noTree hv)
  | true =>
    obtain ⟨-, -, htree, -⟩ := hs.session
    rw [if_pos hv] at htree
    obtain ⟨t, ht, hl, -⟩ := htree
    rw [runWtree, if_neg (by rw [hv]; decide),
      writeTree_of_isTree (s := (acquireBout s).setOutBits 0) ht hl.depth_lt_fuel]
    exact (putBits_live _ _).andThen fun _ _ _ => trivial

/-- DeriveTree() finds the tree that ReadTree() has read, with its root at ROOT (44_tree_codec.md R193, R194). -/
theorem deriveTree_of_readTree {s v x : State} {i : Idx} (hr : readTree s = .ok i v)
    (hx : x.ses = { v.ses with root := i }) : ∃ t, IsTree x.ses.node x.ses.root t ∧ deriveTree x =
      .ok () { x with ses := x.ses.derived t, status := { x.status with treeValid := true } } := by
  rcases readTree_cases s with ⟨t, rest, -, hsyms, -, hcap, ht, hok⟩ | ⟨rest, hbad⟩ | hhang
  · rw [hok] at hr
    cases hr
    have hlegal : t.Legal := CodeTree.legal_of_size hsyms (Nat.le_of_add_left_le hcap)
    have htree : IsTree x.ses.node x.ses.root t.unweighted := by rw [hx]; exact ht
    exact ⟨_, htree, deriveTree_of_isTree htree (CodeTree.unweighted_legal.2 hlegal).depth_lt_fuel⟩
  · rw [hbad] at hr
    cases hr
  · rw [hhang] at hr
    cases hr

theorem runRtree_neverStops : NeverStops runRtree := by
  intro s _
  refine (readTree_live _).andThen fun i v hr => ?_
  obtain ⟨t, -, hderive⟩ := deriveTree_of_readTree (x := (releaseBin v).setRoot i) hr rfl
  exact (Res.live_of_eq_ok hderive).andThen fun _ _ _ => trivial

/-! ### EMIT -/

/-- EmitStream() in a session that EMIT has found prepared reads the tree for its header, and the PSEUDO_EOF path, which
the words' paths leave in place (45_stream_compress.md R217). -/
theorem Emits.emitStream_live {force : Bool} {s : State} {t : CodeTree} (h : Emits force s t) :
    (emitStream (openEmit s)).Live := by
  rw [emitStream, headerStream_of_isTree (s := openEmit s) h.isTree h.legal.depth_lt_fuel h.treeBits]
  refine (putBits_live _ _).andThen fun _ u hu => (emitWords_live _ _).andThen fun _ v hv => ?_
  have hpath : v.ses.path = s.ses.path :=
    Eq.trans ((emitWords_ends _ u ⟨0, rfl⟩).same_of_eq_ok hv .path (by decide))
      ((putBits_ends _ _).same_of_eq_ok hu .path (by decide))
  have hend : v.pathAt 256 = some (pathBits s.ses.path 256) := by
    rw [State.pathAt, hpath]
    exact pathBits_of_hasPath h.path256
  rw [hend]
  exact putBits_live _ _

theorem runEmit_neverStops (force : Bool) : NeverStops (runEmit force) := by
  intro s hs
  cases hp : s.status.prepped with
  | false => exact Res.live_of_eq_raise (runEmit_unprepared force hp)
  | true =>
    by_cases hd : declines force s = true
    · exact Res.live_of_eq_ok (runEmit_declined hp hd)
    · obtain ⟨-, -, htree, hprep, -⟩ := hs.session
      rw [if_pos (hprep hp).1] at htree
      obtain ⟨t, ht, -⟩ := htree
      have hsaves : force = true ∨ s.ses.projBits.toNat < s.ses.origBits.toNat := by
        rw [declines_eq_true_iff, not_and_or, Bool.not_eq_false, Nat.not_le] at hd
        exact hd
      rw [runEmit, if_neg (by rw [hp]; decide), if_neg hd]
      exact (Emits.of_sessionOk hs.fault hs.session hp hsaves ht).emitStream_live.andThen fun _ _ _ => trivial

/-! ### DECODE -/

theorem stepMagic_live (s : State) : (stepMagic s).Live :=
  (readBits_live _ _ _).andThen fun _ _ _ => fieldMagic_live _ _

theorem stepSelector_live (s : State) : (stepSelector s).Live :=
  (readBits_live _ _ _).andThen fun _ _ _ => fieldSelector_live _ _

/-- CheckRoot() on a tree takes it or rejects a data leaf (46_stream_decoder.md R237). -/
theorem checkRoot_live {s : State} {t : CodeTree} (ht : IsTree s.ses.node s.ses.root t) : (checkRoot s).Live := by
  by_cases hr : 1 < t.leaves ∨ pseudoEof ∈ t.syms
  · exact Res.live_of_eq_ok (checkRoot_of_isTree ht hr)
  · cases t with
    | leaf y w => exact Res.live_of_eq_raise (checkRoot_dataLeaf ht fun hy => hr (.inr (by simp [CodeTree.syms, hy])))
    | internal w l r => exact absurd (.inl (CodeTree.one_lt_leaves w l r)) hr

/-- What CheckRoot() lets through can be walked (R235, R237). -/
theorem root_of_checkRoot {s u : State} {t : CodeTree} (ht : IsTree s.ses.node s.ses.root t)
    (h : checkRoot s = .ok () u) : 1 < t.leaves ∨ pseudoEof ∈ t.syms := by
  cases t with
  | internal w l r => exact .inl (CodeTree.one_lt_leaves w l r)
  | leaf y w =>
    by_cases hy : y = pseudoEof
    · exact .inr (by simp [CodeTree.syms, hy])
    · rw [checkRoot_dataLeaf ht hy] at h
      cases h

theorem payloadCounts_live (s : State) : (payloadCounts s).Live :=
  (readCounts_live _ _).andThen fun _ u _ => by
    rw [load_build u checkRoot]
    exact checkRoot_live (tableNodes_isTree u.ses.freq)

theorem payloadTree_live (s : State) : (payloadTree s).Live := by
  refine Res.Live.andThen ((readBits_live _ _ _).andThen fun _ _ _ => trivial) fun _ u _ => ?_
  refine (readTree_live u).andThen fun i v hr => ?_
  obtain ⟨t, ht, hderive⟩ := deriveTree_of_readTree (x := v.setRoot i) hr rfl
  rw [hderive]
  exact checkRoot_live ht

theorem stepPayload_live (s : State) : (stepPayload s).Live := by
  unfold stepPayload
  split
  · exact payloadTree_live s
  · exact payloadCounts_live s

/-- StepPayload() ends with CheckRoot() (R233, R234). -/
theorem stepPayload_checked {s u : State} (h : stepPayload s = .ok () u) : checkRoot u = .ok () u := by
  have hlast : ∃ v, checkRoot v = .ok () u := by
    unfold stepPayload at h
    split at h
    · obtain ⟨_, _, -, h⟩ := Res.andThen_eq_ok.1 h
      obtain ⟨_, _, -, h⟩ := Res.andThen_eq_ok.1 h
      obtain ⟨_, v, -, h⟩ := Res.andThen_eq_ok.1 h
      exact ⟨v, h⟩
    · obtain ⟨_, _, -, h⟩ := Res.andThen_eq_ok.1 h
      obtain ⟨_, _, -, h⟩ := Res.andThen_eq_ok.1 h
      obtain ⟨_, v, -, h⟩ := Res.andThen_eq_ok.1 h
      exact ⟨v, h⟩
  obtain ⟨v, hv⟩ := hlast
  obtain rfl := checkRoot_eq_ok hv
  exact hv

/-- DECODE reads its payload into an empty arena and queue, so ROOT holds a tree, which CheckRoot() has seen before the
walk (46_stream_decoder.md R230, R237). -/
theorem runDecode_neverStops : NeverStops runDecode := by
  intro s _
  refine (stepMagic_live _).andThen fun _ a ha => (stepSelector_live a).andThen fun _ b hb =>
    (stepPayload_live b).andThen fun _ c hc => ?_
  have hnode : b.ses.node = [] := Eq.trans ((stepSelector_ends a).same_of_eq_ok hb .node (by decide))
    ((stepMagic_ends _).same_of_eq_ok ha .node (by decide))
  have hq : b.ses.q = [] := Eq.trans ((stepSelector_ends a).same_of_eq_ok hb .q (by decide))
    ((stepMagic_ends _).same_of_eq_ok ha .q (by decide))
  obtain ⟨t, ht, -⟩ := (stepPayload_holdsTree hnode hq hc).tree
  exact (walk_live (s := c.setDstate .walking) ht (root_of_checkRoot ht (stepPayload_checked hc))).andThen
    fun _ _ _ => trivial

/-! ### The step -/

/-- Every command of a state that meets the invariant ends in a next state. -/
theorem exec_command_next (op : Opcode) (w : CmdWord) {s : State} (h : Inv s) (hb : s.io.busy = false) :
    ∃ t, exec (operands op w) s = .next t := by
  cases op with
  | clr => exact ⟨_, rfl⟩
  | rdreg => exact frontEnd_next (runRdreg_neverStops _) h hb
  | qins => exact frontEnd_next (runQins_neverStops _ _ _) h hb
  | qrem => exact frontEnd_next runQrem_neverStops h hb
  | qpeek => exact frontEnd_next runQpeek_neverStops h hb
  | qsize => exact frontEnd_next (run := runQsize) (fun _ _ => trivial) h hb
  | facc => exact frontEnd_next runFacc_neverStops h hb
  | qload => exact frontEnd_next runQload_neverStops h hb
  | fset => exact frontEnd_next (runFset_neverStops _ _) h hb
  | fget => exact frontEnd_next (runFget_neverStops _) h hb
  | build => exact frontEnd_next runBuild_neverStops h hb
  | nget => exact frontEnd_next (run := runNget _) (fun _ _ => trivial) h hb
  | pget => exact frontEnd_next (runPget_neverStops _) h hb
  | wtree => exact frontEnd_next runWtree_neverStops h hb
  | rtree => exact frontEnd_next runRtree_neverStops h hb
  | prep => exact frontEnd_next (runPrep_neverStops _) h hb
  | emit => exact frontEnd_next (runEmit_neverStops _) h hb
  | decode => exact frontEnd_next runDecode_neverStops h hb

/-- A command word that decodes runs its command; any other is a fault or a refusal (30_encoding.md R94). -/
theorem runWord_next (w : CmdWord) {s : State} (h : Inv s) (hb : s.io.busy = false) : ∃ t, runWord w s = .next t := by
  unfold runWord
  split
  · next i hi =>
    obtain ⟨op, -, -, rfl⟩ := decode_eq_ok.1 hi
    exact exec_command_next op w h hb
  · exact frontEnd_next (run := fun s => .raise .illegalCommand s) (fun _ _ => trivial) h hb

/-- Settles O60: a step is an idle cycle, a reset or one command, and no command's rule stops the machine. -/
theorem stepNeverStops : Obligations.StepNeverStops := by
  intro s h
  unfold step
  split
  · exact ⟨_, rfl⟩
  · exact ⟨_, rfl⟩
  · next o rest _ =>
    split
    · exact ⟨_, rfl⟩
    · next hb => exact runWord_next o.word (h.acceptOffer o rest) (Bool.eq_false_iff.2 hb)

end Sys2Proof.Machine
end

section
/-! PROOFS. The statement of 70_reset_and_hazards.md R286: a command whose stream just stops waits for ever, with the
port held and what could be moved moved. -/

namespace Sys2Proof.Machine

/-- An instruction that is left waiting has recorded no fault, for taking one answers (60_exceptions.md R255,
70_reset_and_hazards.md R286). -/
theorem exec_waits {i : Instr} {s u : State} (hf : s.status.fault = none) (hn : exec i s = .next (waitForEver u)) :
    Waits (waitForEver u) := by
  refine ⟨rfl, rfl, ?_⟩
  cases hu : (waitForEver u).status.fault with
  | none => rfl
  | some f =>
    obtain ⟨-, v, hv⟩ := exec_fault hf hn hu
    exact absurd (congrArg (fun t : State => t.io.rspValid) hv) Bool.false_ne_true

/-- A command waits where its rule does (40_system_commands.md R121). -/
theorem frontEnd_hang {run : State → Res Response} {s u : State} (hf : s.status.fault = none)
    (h : run (clearResults s) = .hang u) : frontEnd run s = .next (waitForEver u) :=
  (frontEnd_ok run hf).trans (congrArg finish h)

/-! ### FACC and PREP -/

/-- A counting pass whose words stop without an end (42_frequency_accumulator.md R150). -/
theorem countPass_stopped {s : State} (hx : AllWords s.io.sin.items) (he : s.io.sin.ends = false)
    (hc : ∀ k < 256, (s.freqAt k).toNat + occurrences k s.io.sin.items < 2 ^ 32) :
    ∃ u, countPass s = .hang u ∧ u.io.sin = { s.io.sin with items := [], held := true } := by
  have hwords := (accumulate_words s.io.sin.items [] 0 (acquireSin s) (List.append_nil _).symm hx hc).trans
    (accumulate_starved _ _ he)
  rw [List.append_nil] at hwords
  exact ⟨_, by rw [countPass, hwords, Res.andThen_hang], rfl⟩

theorem exec_counting_stopped {i : Instr} {s : State} {f : Vector Count 256} (hf : s.status.fault = none)
    (hi : (i = .facc ∧ f = s.ses.freq) ∨ (∃ hdr, i = .prep hdr) ∧ f = Vector.replicate 256 0)
    (hx : AllWords s.io.sin.items) (he : s.io.sin.ends = false)
    (hc : ∀ k < 256, ((f[k]?).getD 0).toNat + occurrences k s.io.sin.items < 2 ^ 32) :
    ∃ t, exec i s = .next t ∧ Waits t ∧ t.io.sin.held = true ∧ t.io.sin.items = [] := by
  obtain ⟨u, k, hio, rfl, hexec⟩ := exec_counting hf hi
  rw [← hio] at hx he hc
  obtain ⟨v, hstop, hsin⟩ := countPass_stopped hx he hc
  rw [hstop, Res.andThen_hang, finish_hang] at hexec
  exact ⟨_, hexec, exec_waits hf hexec, congrArg InPort.held hsin, congrArg InPort.items hsin⟩

/-! ### EMIT -/

/-- EMIT waits where EmitStream() does (45_stream_compress.md R215, R217). -/
theorem Emits.exec_hang {force : Bool} {s u : State} {t : CodeTree} (h : Emits force s t)
    (hu : emitStream (openEmit (clearResults s)) = .hang u) : exec (.emit force) s = .next (waitForEver u) := by
  rw [h.exec_eq, hu, Res.andThen_hang, finish_hang]

/-- EMIT of words that stop without an end: their paths are written behind the header (R217). -/
theorem Emits.exec_stopped {force : Bool} {s : State} {t : CodeTree} {B : Bits} (h : Emits force s t)
    (hx : AllWords s.io.sin.items) (hpath : ∀ x ∈ s.io.sin.items, HasPath s.ses.path x.toNat)
    (he : s.io.sin.ends = false)
    (hB : B = headerField s.build s.status.hdrsel s.ses.freq t ++ wordBits s.ses.path s.io.sin.items)
    (hroom : Takes s.io.bout.room B.length) :
    ∃ u, exec (.emit force) s = .next u ∧ Waits u ∧ u.io.sin.held = true ∧ u.io.sin.items = [] ∧
      u.io.bout.sent = s.io.bout.sent ++ B := by
  subst hB
  obtain ⟨u, -, -, hsin, hbout, hstream⟩ := emitStream_words (s := openEmit (clearResults s)) h.isTree h.legal
    h.treeBits (List.append_nil s.io.sin.items).symm hx hpath hroom
  rw [emitWords_starved (by rw [hsin]; exact he), Res.andThen_hang] at hstream
  have hexec := h.exec_hang hstream
  exact ⟨_, hexec, exec_waits h.fault hexec, congrArg InPort.held hsin, congrArg InPort.items hsin,
    congrArg OutPort.sent hbout⟩

/-- EMIT to a host that takes only a beginning of what it writes: the header and the words' paths, or, behind the end of
the words, the whole stream (R217). -/
theorem Emits.exec_full {force : Bool} {s : State} {t : CodeTree} {xs tail : List SymVal} {r : Nat} {W : Bits}
    (h : Emits force s t) (hi : s.io.sin.items = xs ++ tail) (hx : AllWords xs)
    (hpath : ∀ x ∈ xs, HasPath s.ses.path x.toNat)
    (hW : W = headerField s.build s.status.hdrsel s.ses.freq t ++ wordBits s.ses.path xs ∨
      PassEnds s.io.sin.ends tail ∧ W = streamOf s t xs)
    (hroom : s.io.bout.room = some r) (hlt : r < W.length) :
    ∃ u, exec (.emit force) s = .next u ∧ Waits u ∧ u.io.bout.held = true ∧
      u.io.bout.sent = s.io.bout.sent ++ W.take r := by
  obtain ⟨u, hstream, -, hbout⟩ := emitStream_full (s := openEmit (clearResults s)) h.isTree h.legal h.treeBits hi hx
    hpath (hW.imp_right fun hend => ⟨hend.1, h.path256, hend.2⟩) hroom hlt
  have hexec := h.exec_hang hstream
  exact ⟨_, hexec, exec_waits h.fault hexec, congrArg OutPort.held hbout, congrArg OutPort.sent hbout⟩

/-! ### WTREE and RTREE -/

/-- The rule of WTREE with a host that takes fewer bits than the tree has (44_tree_codec.md R192). -/
theorem runWtree_full {s : State} {t : CodeTree} {r : Nat} (hv : s.status.treeValid = true)
    (ht : IsTree s.ses.node s.ses.root t) (hl : t.Legal) (hroom : s.io.bout.room = some r) (hlt : r < t.bits.length) :
    ∃ u, runWtree s = .hang u ∧ u.io.bout = ⟨s.io.bout.sent ++ t.bits.take r, some 0, true⟩ := by
  have hwrite := (writeTree_of_isTree (s := (acquireBout s).setOutBits 0) ht hl.depth_lt_fuel).trans
    (putBits_full hroom hlt)
  exact ⟨_, by rw [runWtree, if_neg (by rw [hv]; decide), hwrite, Res.andThen_hang], rfl⟩

theorem exec_wtree_full {s : State} {t : CodeTree} {r : Nat} (hf : s.status.fault = none)
    (hv : s.status.treeValid = true) (ht : IsTree s.ses.node s.ses.root t) (hl : t.Legal)
    (hroom : s.io.bout.room = some r) (hlt : r < t.bits.length) :
    ∃ u, exec .wtree s = .next u ∧ Waits u ∧ u.io.bout.held = true ∧
      u.io.bout.sent = s.io.bout.sent ++ t.bits.take r := by
  obtain ⟨u, hrun, hbout⟩ := runWtree_full (s := clearResults s) hv ht hl hroom hlt
  have hexec : exec .wtree s = _ := frontEnd_hang hf hrun
  exact ⟨_, hexec, exec_waits hf hexec, congrArg OutPort.held hbout, congrArg OutPort.sent hbout⟩

/-- The rule of RTREE on a payload that stops inside the tree (44_tree_codec.md R193, R194). -/
theorem runRtree_stopped {s : State} (hcut : CutPayload 0 s.io.bin.items) (he : s.io.bin.ends = false) :
    runRtree s = .hang ((acquireBin (resetTree (s.setPrepped false))).setBin []) := by
  rw [runRtree, readTree_stopped (s := acquireBin (resetTree (s.setPrepped false))) hcut he, Res.andThen_hang]

theorem exec_rtree_stopped {s : State} (hf : s.status.fault = none) (hcut : CutPayload 0 s.io.bin.items)
    (he : s.io.bin.ends = false) :
    ∃ t, exec .rtree s = .next t ∧ Waits t ∧ t.io.bin.held = true ∧ t.io.bin.items = [] := by
  have hexec : exec .rtree s = _ := frontEnd_hang hf (runRtree_stopped (s := clearResults s) hcut he)
  exact ⟨_, hexec, exec_waits hf hexec, rfl, rfl⟩

/-! ### DECODE in its header -/

theorem stepMagic_stopped {s : State} (h : s.io.bin.items.length < 32) (he : s.io.bin.ends = false) :
    stepMagic s = .hang (s.setBin []) := by
  rw [stepMagic, readBits_starved _ h he, Res.andThen_hang]

theorem stepSelector_stopped {s : State} (h : s.io.bin.items.length < 32) (he : s.io.bin.ends = false) :
    stepSelector s = .hang (s.setBin []) := by
  rw [stepSelector, readBits_starved _ h he, Res.andThen_hang]

/-- StepPayload() on a frequency table that stops (46_stream_decoder.md R233). -/
theorem payloadCounts_stopped {s : State} (h : s.io.bin.items.length < 8192) (he : s.io.bin.ends = false) :
    ∃ f, payloadCounts s = .hang ((s.setFreqs f).setBin []) := by
  obtain ⟨f, hcounts⟩ := readCounts_starved (List.range 256) s (by rw [List.length_range]; exact h) he
  exact ⟨f, by rw [payloadCounts, hcounts, Res.andThen_hang]⟩

/-- StepPayload() on a tree-size field that stops (R234). -/
theorem payloadTree_sizeStopped {s : State} (h : s.io.bin.items.length < 32) (he : s.io.bin.ends = false) :
    payloadTree s = .hang (s.setBin []) := by
  rw [payloadTree, readBits_starved _ h he, Res.andThen_hang, Res.andThen_hang]

/-- StepPayload() on a tree payload that stops inside the tree (R234, 44_tree_codec.md R193). -/
theorem payloadTree_treeStopped {s : State} {z : Word32} {p : Bits} (h : CutPayload s.ses.node.length p)
    (he : s.io.bin.ends = false) (hi : s.io.bin.items = bitsOf z ++ p) :
    payloadTree s = .hang ((s.setHdrTreeBits z).setBin []) := by
  rw [payloadTree, readBits_got z _ p hi, Res.andThen_ok, fieldTreeSize, Res.andThen_ok,
    readTree_stopped (s := (s.setBin p).setHdrTreeBits z) h he]
  rfl

/-- DECODE of a stream that stops inside a field of its header: nothing is left on BIN and nothing has been written
(46_stream_decoder.md R231 to R234). -/
theorem exec_decode_headerStopped {s : State} {X : Bits} (hf : s.status.fault = none)
    (hb : Config.legalBuild s.build = true) (hcut : CutHeader s.build X) (hi : s.io.bin.items = X)
    (he : s.io.bin.ends = false) :
    ∃ u : State, exec .decode s = .next (waitForEver u) ∧ u.io.bin = { s.io.bin with items := [], held := true } ∧
      u.io.sout.sent = s.io.sout.sent := by
  cases hcut with
  | magic p hlen =>
    rw [exec_decode_eq hf,
      stepMagic_stopped (s := decoding .expectMagic false s.io.bin.items s) (by rw [hi]; exact hlen) he]
    exact ⟨_, rfl, rfl, rfl⟩
  | selector p hlen =>
    rw [exec_decode_magic hf hi, decodeSelector,
      stepSelector_stopped (s := decoding .expectHeaderSelector false p s) hlen he]
    exact ⟨_, rfl, rfl, rfl⟩
  | counts p hlen =>
    obtain ⟨f, hpayload⟩ := payloadCounts_stopped (s := decoding .expectHeaderPayload false p s) hlen he
    rw [exec_decode_selCounts hf hi, hpayload]
    exact ⟨_, rfl, rfl, rfl⟩
  | treeSize p hlen =>
    rw [exec_decode_selTree hf hb hi,
      payloadTree_sizeStopped (s := decoding .expectHeaderPayload true p s) hlen he]
    exact ⟨_, rfl, rfl, rfl⟩
  | payload z p hpayload =>
    rw [exec_decode_selTree hf hb (hi.trans (List.append_assoc ..)),
      payloadTree_treeStopped (s := decoding .expectHeaderPayload true (bitsOf z ++ p) s) hpayload he rfl]
    exact ⟨_, rfl, rfl, rfl⟩

/-! ### DECODE in its data -/

/-- DECODE waits where its walk does, behind a header whose tree has more than one leaf (R230, R235). -/
theorem exec_decode_walkHang {s : State} {hdr : Bool} {H X : Bits} {t : CodeTree} (hf : s.status.fault = none)
    (hb : Config.legalBuild s.build = true) (hH : StreamHeader s.build hdr H t) (hl : 1 < t.leaves)
    (hi : s.io.bin.items = H ++ X) :
    ∃ (S : State) (u : CodeTree), SameShape u t ∧ IsTree S.ses.node S.ses.root u ∧
      S.io = (decoding .walking hdr X s).io ∧
      ∀ v, walk S = .hang v → exec .decode s = .next (waitForEver v) := by
  obtain ⟨S, u, hshape, htree, -, hio, hrun⟩ := runDecode_header (s := clearResults s) hf hb hH (.inl hl) hi
  refine ⟨S, u, hshape, htree, hio, fun v hwalk => frontEnd_hang (run := runDecode) hf ?_⟩
  rw [hrun, hwalk, Res.andThen_hang]

/-- DECODE of data that stops on an internal node, behind words that have been written (R235). -/
theorem exec_decode_dataStopped {s : State} {hdr : Bool} {H p : Bits} {t sub : CodeTree} {xs : List SymVal}
    (hf : s.status.fault = none) (hb : Config.legalBuild s.build = true) (hH : StreamHeader s.build hdr H t)
    (hx : AllWords xs) (hpath : ∀ x ∈ xs, HasPath t.pathTable x.toNat) (hfollow : t.follow p = some sub)
    (hsub : 1 < sub.leaves) (hroom : Takes s.io.sout.room xs.length)
    (hi : s.io.bin.items = H ++ wordBits t.pathTable xs ++ p) (he : s.io.bin.ends = false) :
    ∃ u, exec .decode s = .next u ∧ Waits u ∧ u.io.bin.held = true ∧ u.io.bin.items = [] ∧
      u.io.sout.sent = s.io.sout.sent ++ outWords xs := by
  have hleaves : 1 < t.leaves := Nat.lt_of_lt_of_le hsub (CodeTree.follow_leaves_le hfollow)
  obtain ⟨S, u, hshape, htree, hio, hhang⟩ := exec_decode_walkHang hf hb hH hleaves (hi.trans (List.append_assoc ..))
  obtain ⟨sub', hfollow', hsub'⟩ := hshape.follow hfollow
  obtain ⟨v, -, hvio, hwalk⟩ := walk_cut u sub' xs p S htree hx (by rwa [hshape.pathTable]) hfollow' (hsub' ▸ hsub)
    (by rw [hio]; exact hroom) (by rw [hio, hshape.pathTable]; rfl)
  have hends : ¬ S.io.bin.ends = true := by
    rw [hio]
    exact Bool.eq_false_iff.1 he
  have hexec := hhang v (hwalk.trans (if_neg hends))
  rw [hio] at hvio
  exact ⟨_, hexec, exec_waits hf hexec, congrArg (fun io : Ports => io.bin.held) hvio,
    congrArg (fun io : Ports => io.bin.items) hvio, congrArg (fun io : Ports => io.sout.sent) hvio⟩

/-- DECODE to a host that takes fewer words than the data has (R235). -/
theorem exec_decode_soutFull {s : State} {hdr : Bool} {H rest : Bits} {t : CodeTree} {xs : List SymVal} {r : Nat}
    (hf : s.status.fault = none) (hb : Config.legalBuild s.build = true) (hH : StreamHeader s.build hdr H t)
    (hx : AllWords xs) (hpath : ∀ x ∈ xs, HasPath t.pathTable x.toNat) (hl : 1 < t.leaves)
    (hroom : s.io.sout.room = some r) (hlt : r < xs.length)
    (hi : s.io.bin.items = H ++ wordBits t.pathTable xs ++ rest) :
    ∃ u, exec .decode s = .next u ∧ Waits u ∧ u.io.sout.held = true ∧
      u.io.sout.sent = s.io.sout.sent ++ outWords (xs.take r) := by
  obtain ⟨S, u, hshape, htree, hio, hhang⟩ := exec_decode_walkHang hf hb hH hl (hi.trans (List.append_assoc ..))
  obtain ⟨v, hwalk, -, hsout⟩ := walk_full u xs rest S htree (hshape.leaves ▸ hl) hx (by rwa [hshape.pathTable])
    (by rw [hio]; exact hroom) hlt (by rw [hio, hshape.pathTable]; rfl)
  rw [hio] at hsout
  have hexec := hhang v hwalk
  exact ⟨_, hexec, exec_waits hf hexec, congrArg OutPort.held hsout, congrArg OutPort.sent hsout⟩

/-! ### The statement -/

/-- Settles O58: one lemma for each command and each stream that stops. -/
theorem stoppedInputHangs : Obligations.StoppedInputHangs := by
  refine fun s hf => ⟨?_, ?_, ?_, exec_rtree_stopped hf, ?_, ?_⟩
  · rintro i xs f hi rfl he hx hc
    exact exec_counting_stopped hf hi hx he hc
  · rintro force t xs tail _ hok hp hsaves ht hi hx hpath rfl
    have h := Emits.of_sessionOk hf hok hp hsaves ht
    refine ⟨?_, fun r W hW => h.exec_full hi hx hpath (hW.imp_right (And.imp_right fun hend => ?_))⟩
    · rintro rfl he
      rw [List.append_nil] at hi
      subst hi
      exact h.exec_stopped hx hpath he rfl
    · rw [hend, List.append_assoc]
      rfl
  · intro t r hv hok ht
    exact exec_wtree_full hf hv ht (hok.treeBits ht).1
  · intro hb hcut he
    obtain ⟨u, hexec, hbin, hsout⟩ := exec_decode_headerStopped hf hb hcut rfl he
    exact ⟨_, hexec, exec_waits hf hexec, congrArg InPort.held hbin, congrArg InPort.items hbin, hsout⟩
  · intro hdr H t xs hb hH hx hpath
    exact ⟨fun _ _ => exec_decode_dataStopped hf hb hH hx hpath, fun _ _ => exec_decode_soutFull hf hb hH hx hpath⟩

end Sys2Proof.Machine
end
